-- ==== Sys2Proof/Word.lean ====
section
/-! DEFINITION. The word types of the CompressionLab CORE (00_scope.md R8 to R10; 10_state.md R27, R34, R35). -/

namespace Sys2Proof

/-- A byte, or one symbol of the 256-symbol alphabet (00_scope.md R8). -/
abbrev Byte := BitVec 8

/-- One command word `W` (30_encoding.md R80). -/
abbrev CmdWord := BitVec 64

/-- The operand field `arg = W[55:0]` (30_encoding.md R80). -/
abbrev Arg := BitVec 56

/-- A 32-bit pattern: an integer of the stream (40_bitstream.md R102). -/
abbrev Word32 := BitVec 32

/-- A frequency-table count, CNT_W = 32 bits (00_scope.md R9). -/
abbrev Count := BitVec 32

/-- A node frequency or queue key, KEY_W = 40 bits (00_scope.md R9). -/
abbrev Key := BitVec 40

/-- A node index, IDX_W = 9 bits (00_scope.md R9). -/
abbrev Idx := BitVec 9

/-- A queue element, 49 bits (41_pqueue.md R121). -/
abbrev Elem := BitVec 49

/-- A 64-bit register value (10_state.md R25). -/
abbrev Word := BitVec 64

/-- A bit sequence in stream order, first bit first (00_scope.md R10). -/
abbrev Bits := List Bool

/-- `NIL`, "no node": the node index 0x1FF (00_scope.md R9, glossary). -/
def NIL : Idx := 0x1FF#9

end Sys2Proof
end

