-- ==== Sys2Proof/Syntax.lean ====
section
/-! DEFINITION. The 33 commands, one constructor per row of spec/opcode_table.json (30_encoding.md R86). -/

namespace Sys2Proof

/-- A command with the operand fields of its format (30_encoding.md R81, R82). -/
inductive Instr where
  /-- `BS.RBIT` (40_bitstream.md R107) -/
  | bsRbit
  /-- `BS.RBYTE` (R108) -/
  | bsRbyte
  /-- `BS.RINT` (R109) -/
  | bsRint
  /-- `BS.RLEN` (R110) -/
  | bsRlen
  /-- `BS.RRST` (R111) -/
  | bsRrst
  /-- `BS.WBIT b` (R112) -/
  | bsWbit (b : Bool)
  /-- `BS.WBYTE v` (R113) -/
  | bsWbyte (v : Byte)
  /-- `BS.WINT v` (R114) -/
  | bsWint (v : Word32)
  /-- `BS.WLEN` (R115) -/
  | bsWlen
  /-- `BS.WRST` (R116) -/
  | bsWrst
  /-- `BS.FLUSH` (R117) -/
  | bsFlush
  /-- `PQ.INIT [cap] [cmp]` (41_pqueue.md R129): fields `CE`, `cap`, `cmp` of format Q -/
  | pqInit (ce : Bool) (cap : Word32) (cmp : Byte)
  /-- `PQ.OFFER key, payload` (R130) -/
  | pqOffer (key : Key) (payload : Idx)
  /-- `PQ.POLL` (R131) -/
  | pqPoll
  /-- `PQ.PEEK` (R132) -/
  | pqPeek
  /-- `PQ.SIZE` (R133) -/
  | pqSize
  /-- `PQ.CMP` (R134) -/
  | pqCmp
  /-- `MTF.FWD` (42_mtf.md R145) -/
  | mtfFwd
  /-- `MTF.INV` (R146) -/
  | mtfInv
  /-- `BWT.FWD` (43_bwt.md R157) -/
  | bwtFwd
  /-- `BWT.INV` (R158) -/
  | bwtInv
  /-- `HUF.FCLR` (44_huffman.md R166) -/
  | hufFclr
  /-- `HUF.FSET sym, count` (R167) -/
  | hufFset (sym : Byte) (count : Count)
  /-- `HUF.FCNT` (R168) -/
  | hufFcnt
  /-- `HUF.BUILD` (R173) -/
  | hufBuild
  /-- `HUF.WHDR` (R177) -/
  | hufWhdr
  /-- `HUF.RHDR` (R179) -/
  | hufRhdr
  /-- `HUF.ENC sym` (R180) -/
  | hufEnc (sym : Byte)
  /-- `HUF.DEC` (R181) -/
  | hufDec
  /-- `HC.COMPRESS` (45_compressors.md R197) -/
  | hcCompress
  /-- `HC.EXPAND` (R199) -/
  | hcExpand
  /-- `BW.COMPRESS` (R201) -/
  | bwCompress
  /-- `BW.EXPAND` (R202) -/
  | bwExpand
  deriving DecidableEq, Repr, Inhabited

end Sys2Proof
end

