-- ==== Sys2Proof/WellFormed.lean ====
section
/-! DEFINITION. The one check of 30_encoding.md R84 on a command's fields that the field types do not make. -/

namespace Sys2Proof

/-- A command that some word encodes. The widths of all fields are in their types; what is left is format Q's
"if `CE` = 0 then `cap` is reserved and must be 0" (30_encoding.md R82, R84). -/
def Instr.wf : Instr → Bool
  | .pqInit ce cap _ => ce || cap == 0
  | .bsRbit | .bsRbyte | .bsRint | .bsRlen | .bsRrst => true
  | .bsWbit _ | .bsWbyte _ | .bsWint _ | .bsWlen | .bsWrst | .bsFlush => true
  | .pqOffer _ _ | .pqPoll | .pqPeek | .pqSize | .pqCmp => true
  | .mtfFwd | .mtfInv | .bwtFwd | .bwtInv => true
  | .hufFclr | .hufFset _ _ | .hufFcnt | .hufBuild | .hufWhdr | .hufRhdr | .hufEnc _ | .hufDec => true
  | .hcCompress | .hcExpand | .bwCompress | .bwExpand => true

end Sys2Proof
end

