-- ==== Sys2Proof/Decode.lean ====
section
/-! DEFINITION. Decoding of command words (30_encoding.md R80 to R89) and, after it, their encoder. -/

namespace Sys2Proof

/-- Why a word is reserved (30_encoding.md R84, R87). -/
inductive Reserved where
  /-- `op` is not in the table of R86 -/
  | opcode
  /-- a reserved bit of the format is 1 -/
  | reservedBit
  /-- format Q with `CE` = 0 and `cap` ≠ 0 -/
  | capWithoutCE
  deriving DecidableEq, Repr

/-- `op = W[63:56]` (R80). -/
def opOf (w : CmdWord) : BitVec 8 := w.extractLsb' 56 8

/-- `arg = W[55:0]` (R80). -/
def argOf (w : CmdWord) : Arg := w.extractLsb' 0 56

/-- Format N: no field, `arg[55:0]` reserved (R81). -/
def fmtN (arg : Arg) (i : Instr) : Except Reserved Instr :=
  if arg = 0 then .ok i else .error .reservedBit

/-- Format B: `b = arg[0]`, `arg[55:1]` reserved (R81). -/
def fmtB (arg : Arg) (f : Bool → Instr) : Except Reserved Instr :=
  if arg.extractLsb' 1 55 = 0 then .ok (f (arg.getLsbD 0)) else .error .reservedBit

/-- Format Y: `v = arg[7:0]`, `arg[55:8]` reserved (R81). -/
def fmtY (arg : Arg) (f : Byte → Instr) : Except Reserved Instr :=
  if arg.extractLsb' 8 48 = 0 then .ok (f (arg.extractLsb' 0 8)) else .error .reservedBit

/-- Format I: `v = arg[31:0]`, `arg[55:32]` reserved (R81). -/
def fmtI (arg : Arg) (f : Word32 → Instr) : Except Reserved Instr :=
  if arg.extractLsb' 32 24 = 0 then .ok (f (arg.extractLsb' 0 32)) else .error .reservedBit

/-- Format F: `sym = arg[7:0]`, `count = arg[39:8]`, `arg[55:40]` reserved (R81). -/
def fmtF (arg : Arg) (f : Byte → Count → Instr) : Except Reserved Instr :=
  if arg.extractLsb' 40 16 = 0 then .ok (f (arg.extractLsb' 0 8) (arg.extractLsb' 8 32))
  else .error .reservedBit

/-- Format E: `payload = arg[8:0]`, `key = arg[48:9]`, `arg[55:49]` reserved (R81). -/
def fmtE (arg : Arg) (f : Key → Idx → Instr) : Except Reserved Instr :=
  if arg.extractLsb' 49 7 = 0 then .ok (f (arg.extractLsb' 9 40) (arg.extractLsb' 0 9))
  else .error .reservedBit

/-- Format Q: `cap = arg[31:0]`, `CE = arg[32]`, `cmp = arg[47:40]`; `arg[39:33]`, `arg[55:48]` reserved, and
`cap` = 0 when `CE` = 0 (R81, R82, R84). -/
def fmtQ (arg : Arg) (f : Bool → Word32 → Byte → Instr) : Except Reserved Instr :=
  if arg.extractLsb' 33 7 = 0 ∧ arg.extractLsb' 48 8 = 0 then
    if arg.getLsbD 32 = false ∧ arg.extractLsb' 0 32 ≠ 0 then .error .capWithoutCE
    else .ok (f (arg.getLsbD 32) (arg.extractLsb' 0 32) (arg.extractLsb' 40 8))
  else .error .reservedBit

/-- Decoding (R84): total; every word is one command or reserved, by name. The rows are those of R86. -/
def decode (w : CmdWord) : Except Reserved Instr :=
  match opOf w with
  | 0x10#8 => fmtN (argOf w) .bsRbit
  | 0x11#8 => fmtN (argOf w) .bsRbyte
  | 0x12#8 => fmtN (argOf w) .bsRint
  | 0x13#8 => fmtN (argOf w) .bsRlen
  | 0x14#8 => fmtN (argOf w) .bsRrst
  | 0x20#8 => fmtB (argOf w) .bsWbit
  | 0x21#8 => fmtY (argOf w) .bsWbyte
  | 0x22#8 => fmtI (argOf w) .bsWint
  | 0x23#8 => fmtN (argOf w) .bsWlen
  | 0x24#8 => fmtN (argOf w) .bsWrst
  | 0x25#8 => fmtN (argOf w) .bsFlush
  | 0x30#8 => fmtQ (argOf w) .pqInit
  | 0x31#8 => fmtE (argOf w) .pqOffer
  | 0x32#8 => fmtN (argOf w) .pqPoll
  | 0x33#8 => fmtN (argOf w) .pqPeek
  | 0x34#8 => fmtN (argOf w) .pqSize
  | 0x35#8 => fmtN (argOf w) .pqCmp
  | 0x40#8 => fmtN (argOf w) .mtfFwd
  | 0x41#8 => fmtN (argOf w) .mtfInv
  | 0x50#8 => fmtN (argOf w) .bwtFwd
  | 0x51#8 => fmtN (argOf w) .bwtInv
  | 0x60#8 => fmtN (argOf w) .hufFclr
  | 0x61#8 => fmtF (argOf w) .hufFset
  | 0x62#8 => fmtN (argOf w) .hufFcnt
  | 0x63#8 => fmtN (argOf w) .hufBuild
  | 0x64#8 => fmtN (argOf w) .hufWhdr
  | 0x65#8 => fmtN (argOf w) .hufRhdr
  | 0x66#8 => fmtY (argOf w) .hufEnc
  | 0x67#8 => fmtN (argOf w) .hufDec
  | 0x70#8 => fmtN (argOf w) .hcCompress
  | 0x71#8 => fmtN (argOf w) .hcExpand
  | 0x72#8 => fmtN (argOf w) .bwCompress
  | 0x73#8 => fmtN (argOf w) .bwExpand
  | _ => .error .opcode

/-- The host's question: the command this decoder reads from a table row's bits. A command is one 64-bit word that
the host hands over whole (R80), so there is no byte order to lay out; the bits above `nbits` are 0. -/
def decodeTableWord (nbits w : Nat) : Option Instr :=
  if w % 2 ^ nbits < 2 ^ 64 then (decode (BitVec.ofNat 64 (w % 2 ^ nbits))).toOption else none

/-- The opcode of each command (R86). -/
def Instr.opcode : Instr → BitVec 8
  | .bsRbit => 0x10
  | .bsRbyte => 0x11
  | .bsRint => 0x12
  | .bsRlen => 0x13
  | .bsRrst => 0x14
  | .bsWbit _ => 0x20
  | .bsWbyte _ => 0x21
  | .bsWint _ => 0x22
  | .bsWlen => 0x23
  | .bsWrst => 0x24
  | .bsFlush => 0x25
  | .pqInit _ _ _ => 0x30
  | .pqOffer _ _ => 0x31
  | .pqPoll => 0x32
  | .pqPeek => 0x33
  | .pqSize => 0x34
  | .pqCmp => 0x35
  | .mtfFwd => 0x40
  | .mtfInv => 0x41
  | .bwtFwd => 0x50
  | .bwtInv => 0x51
  | .hufFclr => 0x60
  | .hufFset _ _ => 0x61
  | .hufFcnt => 0x62
  | .hufBuild => 0x63
  | .hufWhdr => 0x64
  | .hufRhdr => 0x65
  | .hufEnc _ => 0x66
  | .hufDec => 0x67
  | .hcCompress => 0x70
  | .hcExpand => 0x71
  | .bwCompress => 0x72
  | .bwExpand => 0x73

/-- A field `v` of `arg` with its lowest bit at bit `lo` (R81). -/
def field {n : Nat} (lo : Nat) (v : BitVec n) : Arg := v.setWidth 56 <<< lo

/-- The operand field of each command, every reserved bit 0 (R81, R82). -/
def Instr.arg : Instr → Arg
  | .bsWbit b => field 0 (BitVec.ofBool b)
  | .bsWbyte v => field 0 v
  | .bsWint v => field 0 v
  | .pqInit ce cap cmp => field 40 cmp ||| field 32 (BitVec.ofBool ce) ||| field 0 cap
  | .pqOffer key payload => field 9 key ||| field 0 payload
  | .hufFset sym count => field 8 count ||| field 0 sym
  | .hufEnc sym => field 0 sym
  | .bsRbit | .bsRbyte | .bsRint | .bsRlen | .bsRrst | .bsWlen | .bsWrst | .bsFlush => 0
  | .pqPoll | .pqPeek | .pqSize | .pqCmp | .mtfFwd | .mtfInv | .bwtFwd | .bwtInv => 0
  | .hufFclr | .hufFcnt | .hufBuild | .hufWhdr | .hufRhdr | .hufDec => 0
  | .hcCompress | .hcExpand | .bwCompress | .bwExpand => 0

/-- The word of a well-formed command, `{op, arg}` (R80). -/
def encode (i : Instr) : CmdWord := i.opcode.setWidth 64 <<< 56 ||| i.arg.setWidth 64

end Sys2Proof
end

