-- ==== Sys2Proof/Config.lean ====
section
/-! DEFINITION. What one implementation fixes: the open parameters of 00_scope.md R9, and a free value. -/

namespace Sys2Proof

/-- The four open parameters of 00_scope.md R9 ("each is a named parameter the model takes as an argument").
`outCap = none` is OUT_CAP = ∞. -/
structure Params where
  nmax         : Nat
  outCap       : Option Nat
  pqMax        : Nat
  pqDefaultCap : Nat
  deriving DecidableEq, Repr, Inhabited

/-- `n` is a power of two. -/
def isPow2 (n : Nat) : Bool := 2 ^ n.log2 == n

/-- The constraints that 00_scope.md R9 puts on the parameters. -/
def Params.legal (p : Params) : Bool :=
  decide (1 ≤ p.nmax) && decide (p.nmax ≤ 2 ^ 31 - 1)
    && p.outCap.all (fun c => decide (1 ≤ c))
    && isPow2 p.pqMax && decide (256 ≤ p.pqMax)
    && isPow2 p.pqDefaultCap && decide (p.pqDefaultCap ≤ p.pqMax)

/-- The parameters that `State.reset` carries. DESIGN CHOICE, unsafe (log 1): R9 leaves all four open; these are the
values of the conventions of 95_test_vectors.md, with NMAX at its largest legal value. No statement rests on them:
a state carries its parameters, and a statement holds for every state. -/
def Config.params : Params := { nmax := 2 ^ 31 - 1, outCap := none, pqMax := 256, pqDefaultCap := 16 }

/-- FREE VALUE (log 7): what a 32-bit length register reads as when the length does not fit 32 bits.
Only OUT_LEN with OUT_CAP above 2^32 - 1 can come to it (00_scope.md R9 against 10_state.md R27). -/
opaque Config.wide32 : Nat → BitVec 32

end Sys2Proof
end

