-- ==== Sys2Proof/Machine/State.lean ====
section
/-! DEFINITION. The state of the machine (10_state.md R20), unit by unit, with its reset value (R43), the outcomes
of the host interface, and the free values that are states or read from states. -/

namespace Sys2Proof.Machine

/-- The fault kinds of 60_exceptions.md R210. `incomparable` keeps its code and is never raised (R213). -/
inductive FaultKind where
  | invalidArgument
  | nullElement
  | incomparable
  | unexpectedEof
  | corruptHeader
  | overflow
  deriving DecidableEq, Repr, Inhabited

/-- The orderings of 41_pqueue.md R122: id 0 is natural, id 1 is `KEY`. -/
inductive PqOrd where
  | natural
  | key
  deriving DecidableEq, Repr, Inhabited

/-- The `kind` field of a node: 0 = leaf, 1 = internal (10_state.md R35). -/
inductive NodeKind where
  | leaf
  | internal
  deriving DecidableEq, Repr, Inhabited

/-- One entry of the node table (10_state.md R35). -/
structure Node where
  kind   : NodeKind
  sym    : Byte
  freq   : Key
  left   : Idx
  right  : Idx
  parent : Idx
  deriving DecidableEq, Repr, Inhabited

/-- A table with one entry per symbol (10_state.md R33, R34, R36). -/
abbrev Table (α : Type) := Vector α 256

/-- Reader: `IN` (`IN_LEN` is its length) and `RPOS`, in bits (10_state.md R21, R22). -/
structure Bsr where
  inp  : List Byte
  rpos : Nat
  deriving DecidableEq, Repr, Inhabited

/-- Writer: `OUT` (`OUT_LEN` is its length), `WACC`, `WCNT` (10_state.md R23, R24). -/
structure Bsw where
  out  : List Byte
  wacc : BitVec 8
  wcnt : BitVec 3
  deriving DecidableEq, Repr, Inhabited

/-- Control: `RES` (10_state.md R25) and the fields FAULT, ERR, NONE of `STATUS` (R26). TREE is in `Huf`. -/
structure Ctl where
  res   : Word
  fault : Bool
  err   : BitVec 3
  none  : Bool
  deriving DecidableEq, Repr, Inhabited

/-- Priority queue (10_state.md R30): `heap` lists `HEAP[1]`, …, `HEAP[PQ_SIZE]` in order (so `PQ_SIZE` is its
length; entries above hold no value, log 17), `PQ_CAP`, `PQ_ORD`. -/
structure Pq where
  heap : List Elem
  cap  : Nat
  ord  : PqOrd
  deriving DecidableEq, Repr, Inhabited

/-- Move-to-Front: the list `MTFL`, scratch (10_state.md R33). -/
structure Mtf where
  mtfl : Table Byte
  deriving DecidableEq, Repr, Inhabited

/-- Burrows-Wheeler: the index tables `ROT` and `NEXT`, scratch (10_state.md R32). -/
structure Bwt where
  rot  : List Nat
  next : List Nat
  deriving DecidableEq, Repr, Inhabited

/-- Huffman (10_state.md R34 to R37): `FREQ`; `node` lists `NODE[0]`, …, `NODE[HUF_NODES-1]` (so `HUF_NODES` is its
length, log 17); `SYMIDX`; `HUF_ROOT`; `STATUS.TREE`. -/
structure Huf where
  freq   : Table Count
  node   : List Node
  symidx : Table Idx
  root   : Idx
  tree   : Bool
  deriving DecidableEq, Repr, Inhabited

/-- Sequencers: the scratch buffers `SCR0`, `SCR1` (10_state.md R39). -/
structure Seq where
  scr0 : List Byte
  scr1 : List Byte
  deriving DecidableEq, Repr, Inhabited

/-- The five host operations (70_reset_and_hazards.md R240). -/
inductive HostOp where
  /-- `HostReset` (R235) -/
  | reset
  /-- `HostLoadIn(x)` (R241) -/
  | loadIn (x : List Byte)
  /-- `HostIssue(W)` (R242; 30_encoding.md R85) -/
  | issue (w : CmdWord)
  /-- `HostReadOut()` (R243) -/
  | readOut
  /-- `HostReadReg(r)` (R244) -/
  | readReg (r : BitVec 8)
  deriving DecidableEq, Repr, Inhabited

/-- What a host operation returns (70_reset_and_hazards.md R240). -/
inductive Reply where
  /-- nothing returned: after reset, `HostReset`, `HostLoadIn` -/
  | nothing
  /-- `HostIssue` returns `(STATUS, RES)` -/
  | issued (status res : Word)
  /-- `HostReadOut` returns bytes -/
  | bytes (bs : List Byte)
  /-- `HostReadReg` returns a 64-bit value -/
  | value (v : Word)
  deriving DecidableEq, Repr, Inhabited

/-- The whole state. `bsr` to `seq` are the units of 10_state.md R20. The last four fields are the model's own: the
parameters (log 1), the host operations still to be served (log 2), the last return to the host (log 15), and the
counter that free values read and advance (log 3). -/
structure State where
  bsr    : Bsr
  bsw    : Bsw
  ctl    : Ctl
  pq     : Pq
  mtf    : Mtf
  bwt    : Bwt
  huf    : Huf
  seq    : Seq
  params : Params
  port   : List HostOp
  reply  : Reply
  stamp  : Nat
  deriving DecidableEq, Repr, Inhabited

/-- Why the model itself stops. These are not the fault kinds of the spec, which are taken as next states. -/
inductive Fault where
  /-- Raised by `HUF.WHDR`, `HUF.ENC`, `HUF.DEC` and the compressor commands when a walk of `NODE` leaves the table or
  does not end within HUF_NODES nodes. No state that keeps 10_state.md R38 does so (log 8). Safe. -/
  | brokenTree
  deriving DecidableEq, Repr, Inhabited

/-- What the model refuses. -/
inductive Refusal where
  /-- Raised by `exec` for a command that has no meaning yet. No arm uses it. Safe. -/
  | notModelled (mnemonic : String)
  /-- Raised by the host port for a `HostLoadIn` of more than NMAX bytes, a move the host does not have
  (70_reset_and_hazards.md R241; log 9). Safe. -/
  | inputTooLong
  deriving DecidableEq, Repr, Inhabited

/-- How the pseudocode of a command ends early: `raise Fault(kind)` (00_scope.md R12), or stuck outside the spec. -/
inductive Stop where
  | raise (k : FaultKind)
  | stuck (f : Fault)
  deriving DecidableEq, Repr, Inhabited

/-- The state after reset with parameters `p` (10_state.md R43). The scratch tables and `SYMIDX`, which R43 leaves
unspecified, hold the values that log 5 names (DESIGN CHOICE, unsafe); `HEAP` and `NODE` hold no entry. `HUF_NODES` = 0 and `HUF_ROOT` = NIL are the values of R37 and R43;
93_implementation_defined.md U16 calls both "any value" while TREE = 0, and the model follows the rules (DEDUCED, log 21). -/
def State.resetWith (p : Params) : State where
  bsr := { inp := [], rpos := 0 }
  bsw := { out := [], wacc := 0, wcnt := 0 }
  ctl := { res := 0, fault := false, err := 0, none := false }
  pq := { heap := [], cap := p.pqDefaultCap, ord := .natural }
  mtf := { mtfl := Vector.replicate 256 0 }
  bwt := { rot := [], next := [] }
  huf := { freq := Vector.replicate 256 0, node := [], symidx := Vector.replicate 256 NIL, root := NIL, tree := false }
  seq := { scr0 := [], scr1 := [] }
  params := p
  port := []
  reply := .nothing
  stamp := 0

/-- The machine right after reset (10_state.md R43; 70_reset_and_hazards.md R235), with the parameters of log 1 and no
host operation pending (log 2). -/
def State.reset : State := State.resetWith Config.params

end Sys2Proof.Machine

namespace Sys2Proof

/-- FREE VALUE (log 3, 4, 6): the unspecified leftover of a state (10_state.md R44, R43; U10, U14). It is applied to the
state it is left over from, whose `stamp` advances at every use. Only the pieces the rule calls unspecified are taken
from it. -/
opaque Config.unspecified : Machine.State → Machine.State

/-- FREE VALUE (log 14): what `HostReadReg(r)` returns in the fault state (60_exceptions.md R222; U12). -/
opaque Config.faultRead : Machine.State → BitVec 8 → Word

/-- FREE VALUE (log 14): what `HostReadOut()` returns in the fault state (60_exceptions.md R222; U12). -/
opaque Config.faultOut : Machine.State → List Byte

end Sys2Proof
end

