-- ==== Sys2Proof/Machine/Ops.lean ====
section
/-! DEFINITION. The named operations over state: bit and byte order, the stream primitives, table access, ending a
command, fault entry and the return from it. -/

namespace Sys2Proof.Machine

/-! ## Bits and bytes -/

/-- The bits of `v`, most significant first: `bits8`, `bits32` (00_scope.md R11). -/
def bitsMsb {n : Nat} (v : BitVec n) : Bits := (List.range n).map (fun i => v.getLsbD (n - 1 - i))

/-- `be32(v)`: the four bytes of `v`, most significant first (00_scope.md R11; 20_memory.md R61). -/
def be32 (v : Word32) : List Byte :=
  [v.extractLsb' 24 8, v.extractLsb' 16 8, v.extractLsb' 8 8, v.extractLsb' 0 8]

/-- The 32-bit number whose big-endian bytes are `a b c d` (20_memory.md R61). -/
def ofBe32 (a b c d : Byte) : Word32 :=
  a.setWidth 32 <<< 24 ||| b.setWidth 32 <<< 16 ||| c.setWidth 32 <<< 8 ||| d.setWidth 32

/-- `v` with bit `i` set to `b`. -/
def putBit (v : BitVec 8) (i : Nat) (b : Bool) : BitVec 8 :=
  (v &&& ~~~(1#8 <<< i)) ||| ((BitVec.ofBool b).setWidth 8 <<< i)

/-- The value of a 32-bit length register that holds the count `n` (10_state.md R27). Free above 2^32 - 1 (log 7). -/
def len32 (n : Nat) : BitVec 32 := if n < 2 ^ 32 then BitVec.ofNat 32 n else Config.wide32 n

/-! ## Tables with one entry per symbol -/

/-- `T[s]`. -/
def tabGet {α : Type} (t : Table α) (s : Byte) : α := t[s.toNat]'(by have := s.isLt; omega)

/-- `T[s] <- x`. -/
def tabSet {α : Type} (t : Table α) (s : Byte) (x : α) : Table α :=
  t.set s.toNat x (by have := s.isLt; omega)

/-- `for s in 0..255: T[s] <- x`. -/
def tabFill {α : Type} (x : α) : Table α := Vector.replicate 256 x

/-- The symbols 0, 1, …, 255 in ascending order. -/
def allSyms : List Byte := (List.range 256).map (BitVec.ofNat 8)

/-! ## Reader primitives (40_bitstream.md R100 to R102) -/

/-- `8 * IN_LEN`, the number of bits of `IN`. -/
def Bsr.bitLen (r : Bsr) : Nat := 8 * r.inp.length

/-- Bit `p` of the stream: bit `7 - (p mod 8)` of byte `IN[p div 8]` (20_memory.md R62). -/
def Bsr.bitAt (r : Bsr) (p : Nat) : Bool := (r.inp.getD (p / 8) 0).getLsbD (7 - p % 8)

/-- `RdBit()` (R100). -/
def rdBit (r : Bsr) : Except Stop (Bool × Bsr) :=
  if r.rpos ≥ r.bitLen then .error (.raise .unexpectedEof)
  else .ok (r.bitAt r.rpos, { r with rpos := r.rpos + 1 })

/-- `repeat n times: v <- (v << 1) | RdBit()`. -/
def rdBitsInto {w : Nat} : Nat → BitVec w → Bsr → Except Stop (BitVec w × Bsr)
  | 0, v, r => .ok (v, r)
  | n + 1, v, r => do
    let (b, r) ← rdBit r
    rdBitsInto n (v <<< 1 ||| (BitVec.ofBool b).setWidth w) r

/-- `RdByte()` (R101). -/
def rdByte (r : Bsr) : Except Stop (Byte × Bsr) :=
  if r.rpos + 8 > r.bitLen then .error (.raise .unexpectedEof) else rdBitsInto 8 0 r

/-- `repeat n times: v <- (v << 8) | RdByte()`. -/
def rdBytesInto : Nat → Word32 → Bsr → Except Stop (Word32 × Bsr)
  | 0, v, r => .ok (v, r)
  | n + 1, v, r => do
    let (b, r) ← rdByte r
    rdBytesInto n (v <<< 8 ||| b.setWidth 32) r

/-- `RdInt()` (R102): the 32-bit pattern; `RdIntS` and `RdIntU` are its signed and unsigned readings. -/
def rdInt (r : Bsr) : Except Stop (Word32 × Bsr) :=
  if r.rpos + 32 > r.bitLen then .error (.raise .unexpectedEof) else rdBytesInto 4 0 r

/-- `n` calls of `RdByte()`. -/
def rdBytes : Nat → Bsr → Except Stop (List Byte × Bsr)
  | 0, r => .ok ([], r)
  | n + 1, r => do
    let (b, r) ← rdByte r
    let (bs, r) ← rdBytes n r
    .ok (b :: bs, r)

/-- `RPOS <- 0`. -/
def Bsr.rewind (r : Bsr) : Bsr := { r with rpos := 0 }

/-- The cursor after all of `IN` is read from position 0 (42_mtf.md R145, 43_bwt.md R157, 44_huffman.md R168). The block
commands take `IN` whole; that this is what `IN_LEN` calls of `RdByte()` give is a statement (log 12). -/
def Bsr.atEnd (r : Bsr) : Bsr := { r with rpos := r.bitLen }

/-! ## Writer primitives (40_bitstream.md R103 to R106) -/

/-- `OUT_LEN = OUT_CAP`; never with OUT_CAP = ∞. -/
def Bsw.full (cap : Option Nat) (w : Bsw) : Bool := cap == some w.out.length

/-- `OUT ++= [WACC]; OUT_LEN <- OUT_LEN + 1; WACC <- 0; WCNT <- 0`, with `acc` the accumulator's value. -/
def Bsw.push (w : Bsw) (acc : BitVec 8) : Bsw := { out := w.out ++ [acc], wacc := 0, wcnt := 0 }

/-- `WrBit(b)` (R103). -/
def wrBit (cap : Option Nat) (w : Bsw) (b : Bool) : Except Stop Bsw :=
  if w.wcnt = 7 ∧ w.full cap then .error (.raise .overflow)
  else
    let acc := putBit w.wacc (7 - w.wcnt.toNat) b
    if w.wcnt = 7 then .ok (w.push acc) else .ok { w with wacc := acc, wcnt := w.wcnt + 1 }

/-- `WrBit` for each bit of a sequence, in order. -/
def wrBits (cap : Option Nat) : Bsw → Bits → Except Stop Bsw
  | w, [] => .ok w
  | w, b :: bs => do
    let w ← wrBit cap w b
    wrBits cap w bs

/-- `WrByte(v)` (R104): `for i from 7 down to 0: WrBit(v[i])`. -/
def wrByte (cap : Option Nat) (w : Bsw) (v : Byte) : Except Stop Bsw := wrBits cap w (bitsMsb v)

/-- `WrByte` for each byte of a sequence, in order. -/
def wrBytes (cap : Option Nat) : Bsw → List Byte → Except Stop Bsw
  | w, [] => .ok w
  | w, v :: vs => do
    let w ← wrByte cap w v
    wrBytes cap w vs

/-- `WrInt(v)` (R105): its four bytes, most significant first. -/
def wrInt (cap : Option Nat) (w : Bsw) (v : Word32) : Except Stop Bsw := wrBytes cap w (be32 v)

/-- `Flush()` (R106). -/
def flush (cap : Option Nat) (w : Bsw) : Except Stop Bsw :=
  if w.wcnt = 0 then .ok w
  else if w.full cap then .error (.raise .overflow)
  else .ok (w.push w.wacc)

/-- The empty writer: `OUT <- []; OUT_LEN <- 0; WACC <- 0; WCNT <- 0` (R116; 10_state.md R43). -/
def Bsw.empty : Bsw := { out := [], wacc := 0, wcnt := 0 }

/-- The pending bits `[WACC[7], …, WACC[8-WCNT]]` (10_state.md R24). -/
def Bsw.pending (w : Bsw) : Bits := (bitsMsb w.wacc).take w.wcnt.toNat

/-- The bit sequence the writer has accepted so far (10_state.md R24). -/
def Bsw.bits (w : Bsw) : Bits := w.out.flatMap bitsMsb ++ w.pending

/-! ## The two byte memories -/

/-- The form of the byte memories: `IN` holds at most NMAX bytes and `OUT` at most OUT_CAP (10_state.md R21, R23). As
sequences with no gap they have no second form (log 17). -/
def Memory.wf (s : State) : Bool :=
  decide (s.bsr.inp.length ≤ s.params.nmax) && s.params.outCap.all (fun c => decide (s.bsw.out.length ≤ c))

/-! ## Ending a command -/

/-- The value of `STATUS.ERR` for each kind (60_exceptions.md R210). -/
def FaultKind.code : FaultKind → BitVec 3
  | .invalidArgument => 1
  | .nullElement => 2
  | .incomparable => 3
  | .unexpectedEof => 4
  | .corruptHeader => 5
  | .overflow => 6

/-- Fault entry (60_exceptions.md R216, R218): FAULT is set, ERR is the kind's code, every other piece of the block's
state is unspecified (10_state.md R44), so it is taken from the free value. Nothing is saved. The parameters and the
host's side of the interface are no state of the block; the counter of the free values advances (log 3). -/
def enterFault (k : FaultKind) (s : State) : State :=
  let u := Config.unspecified s
  { u with
    ctl := { u.ctl with fault := true, err := k.code }
    params := s.params, port := s.port, reply := s.reply, stamp := s.stamp + 1 }

/-- `HostReset` (70_reset_and_hazards.md R235), the only way out of a fault (60_exceptions.md R223): every piece of state
takes the value of 10_state.md R43; what R43 leaves unspecified is free (log 6). -/
def hostReset (s : State) : State :=
  let u := Config.unspecified s
  let r := State.resetWith s.params
  { r with
    mtf := u.mtf, bwt := u.bwt, seq := u.seq, huf := { r.huf with symidx := u.huf.symidx }
    port := s.port, reply := s.reply, stamp := s.stamp + 1 }

/-- What a command that runs to its end leaves: the state its pseudocode leaves, a result, a NONE flag
(30_encoding.md R85, steps 3 and 4). -/
structure Done where
  st   : State
  res  : Word := 0
  none : Bool := false

/-- Step 4 of 30_encoding.md R85: `RES <- the result`, `STATUS.NONE <- the flag`. -/
def complete (d : Done) : State :=
  { d.st with ctl := { d.st.ctl with res := d.res, none := d.none } }

/-- How a command issued in state `s` ends: completion, fault entry, or stuck outside the spec. -/
def conclude (s : State) : Except Stop Done → Host.Outcome State Fault Refusal
  | .ok d => .next (complete d)
  | .error (.raise k) => .next (enterFault k s)
  | .error (.stuck f) => .fault f

/-- `raise Fault(kind)` (00_scope.md R12). -/
def raise {α : Type} (k : FaultKind) : Except Stop α := .error (.raise k)

/-! ## Scratch (10_state.md R32, R33, R39: unspecified after the command that used it; log 4) -/

/-- `MTFL` becomes unspecified (R33). -/
def dropMtfl (s : State) : State :=
  { s with mtf := (Config.unspecified s).mtf, stamp := s.stamp + 1 }

/-- `ROT` becomes unspecified (R32). -/
def dropRot (s : State) : State :=
  { s with bwt := { s.bwt with rot := (Config.unspecified s).bwt.rot }, stamp := s.stamp + 1 }

/-- `NEXT` becomes unspecified (R32). -/
def dropNext (s : State) : State :=
  { s with bwt := { s.bwt with next := (Config.unspecified s).bwt.next }, stamp := s.stamp + 1 }

/-- `SCR0` and `SCR1` become unspecified (R39). -/
def dropScr (s : State) : State :=
  { s with seq := (Config.unspecified s).seq, stamp := s.stamp + 1 }

end Sys2Proof.Machine
end

