-- ==== Sys2Proof/Machine/Operands.lean ====
section
/-! DEFINITION. Operand assembly (30_encoding.md R82) and the 64-bit results of commands. -/

namespace Sys2Proof.Machine

/-- Format E: the element `{key, payload}` (30_encoding.md R82; 41_pqueue.md R121). -/
def elemOf (key : Key) (payload : Idx) : Elem := key.setWidth 49 <<< 9 ||| payload.setWidth 49

/-- `key = el[48:9]` (41_pqueue.md R121). -/
def elemKey (el : Elem) : Key := el.extractLsb' 9 40

/-- `payload = el[8:0]` (41_pqueue.md R121). -/
def elemPayload (el : Elem) : Idx := el.extractLsb' 0 9

/-- Format Q: the explicit capacity, read as a signed 32-bit number, if `CE` = 1 (30_encoding.md R82). -/
def capOperand (ce : Bool) (cap : Word32) : Option Int := if ce then some cap.toInt else none

/-- Format Q: the ordering that the id `cmp` names, if it is defined (41_pqueue.md R122). -/
def ordOperand (cmp : Byte) : Option PqOrd :=
  if cmp = 0 then some .natural else if cmp = 1 then some .key else none

/-- `zext_64` of a bit. -/
def resBit (b : Bool) : Word := (BitVec.ofBool b).setWidth 64

/-- `zext_64` of a register or field. -/
def resZext {n : Nat} (v : BitVec n) : Word := v.setWidth 64

/-- `sext_64` of a 32-bit pattern (40_bitstream.md R109). -/
def resSext (v : Word32) : Word := v.signExtend 64

/-- `zext_64` of a 32-bit length register holding the count `n`. -/
def resLen (n : Nat) : Word := resZext (len32 n)

end Sys2Proof.Machine
end

