-- ==== Sys2Proof/Machine/Flags.lean ====
section
/-! DEFINITION. The flags and the words of the host-readable registers (10_state.md R26, R27, R41). -/

namespace Sys2Proof.Machine

/-- `STATUS` as one word (10_state.md R26): FAULT bit 0, ERR bits 3:1, NONE bit 4, TREE bit 5, bits 63:6 read as 0. -/
def statusWord (s : State) : Word :=
  resBit s.ctl.fault ||| resZext s.ctl.err <<< 1 ||| resBit s.ctl.none <<< 4 ||| resBit s.huf.tree <<< 5

/-- `WSTATE = {WCNT[2:0], WACC[7:0]}` (10_state.md R27). -/
def wstateWord (w : Bsw) : Word := resZext w.wcnt <<< 8 ||| resZext w.wacc

/-- The id of an ordering, the contents of `PQ_ORD` (41_pqueue.md R122). -/
def PqOrd.id : PqOrd → BitVec 8
  | .natural => 0
  | .key => 1

/-- The strict order `less(a, b)` that `PQ_ORD` selects (41_pqueue.md R122). -/
def less (o : PqOrd) (a b : Elem) : Bool :=
  match o with
  | .natural => decide (a < b)
  | .key => decide (elemKey a < elemKey b)

/-- The host-readable registers by number (10_state.md R27); reserved numbers read as 0. -/
def regWord (s : State) (r : BitVec 8) : Word :=
  match r.toNat with
  | 0 => statusWord s
  | 1 => s.ctl.res
  | 2 => resLen s.bsr.inp.length
  | 3 => resZext (BitVec.ofNat 35 s.bsr.rpos)
  | 4 => resLen s.bsw.out.length
  | 5 => wstateWord s.bsw
  | 6 => resLen s.pq.heap.length
  | 7 => resLen s.pq.cap
  | 8 => resZext s.pq.ord.id
  | 9 => resZext (BitVec.ofNat 10 s.huf.node.length)
  | 10 => resZext s.huf.root
  | _ => 0

end Sys2Proof.Machine
end

