-- ==== Sys2Proof/Machine/BitStream.lean ====
section
/-! DEFINITION. The eleven bit-stream commands (40_bitstream.md R107 to R117). -/

namespace Sys2Proof.Machine

/-- `BS.RBIT` (R107). -/
def execBsRbit (s : State) : Host.Outcome State Fault Refusal :=
  conclude s do
    let (b, r) ← rdBit s.bsr
    .ok { st := { s with bsr := r }, res := resBit b }

/-- `BS.RBYTE` (R108). -/
def execBsRbyte (s : State) : Host.Outcome State Fault Refusal :=
  conclude s do
    let (v, r) ← rdByte s.bsr
    .ok { st := { s with bsr := r }, res := resZext v }

/-- `BS.RINT` (R109). -/
def execBsRint (s : State) : Host.Outcome State Fault Refusal :=
  conclude s do
    let (v, r) ← rdInt s.bsr
    .ok { st := { s with bsr := r }, res := resSext v }

/-- `BS.RLEN` (R110): the total length of `IN`. -/
def execBsRlen (s : State) : Host.Outcome State Fault Refusal :=
  conclude s (.ok { st := s, res := resLen s.bsr.inp.length })

/-- `BS.RRST` (R111). -/
def execBsRrst (s : State) : Host.Outcome State Fault Refusal :=
  conclude s (.ok { st := { s with bsr := s.bsr.rewind } })

/-- `BS.WBIT b` (R112). -/
def execBsWbit (b : Bool) (s : State) : Host.Outcome State Fault Refusal :=
  conclude s do
    let w ← wrBit s.params.outCap s.bsw b
    .ok { st := { s with bsw := w } }

/-- `BS.WBYTE v` (R113). -/
def execBsWbyte (v : Byte) (s : State) : Host.Outcome State Fault Refusal :=
  conclude s do
    let w ← wrByte s.params.outCap s.bsw v
    .ok { st := { s with bsw := w } }

/-- `BS.WINT v` (R114). -/
def execBsWint (v : Word32) (s : State) : Host.Outcome State Fault Refusal :=
  conclude s do
    let w ← wrInt s.params.outCap s.bsw v
    .ok { st := { s with bsw := w } }

/-- `BS.WLEN` (R115): the complete bytes of `OUT`. -/
def execBsWlen (s : State) : Host.Outcome State Fault Refusal :=
  conclude s (.ok { st := s, res := resLen s.bsw.out.length })

/-- `BS.WRST` (R116). -/
def execBsWrst (s : State) : Host.Outcome State Fault Refusal :=
  conclude s (.ok { st := { s with bsw := Bsw.empty } })

/-- `BS.FLUSH` (R117). -/
def execBsFlush (s : State) : Host.Outcome State Fault Refusal :=
  conclude s do
    let w ← flush s.params.outCap s.bsw
    .ok { st := { s with bsw := w } }

end Sys2Proof.Machine
end

