-- ==== Sys2Proof/Machine/BurrowsWheeler.lean ====
section
/-! DEFINITION. The Burrows-Wheeler transform and its two commands (43_bwt.md). -/

namespace Sys2Proof.Machine

/-! ## Forward transform -/

/-- `x[(i + t) mod n]`, byte `t` of rotation `i` (R150). -/
def rotByte (x : List Byte) (i t : Nat) : Byte := x.getD ((i + t) % x.length) 0

/-- The comparison of rotations `i` and `j` from byte `t` on, over `m` byte pairs; equal pairs throughout leave the
smaller index first (R151). -/
def rotLessFrom (x : List Byte) (i j : Nat) : Nat → Nat → Bool
  | _, 0 => decide (i < j)
  | t, m + 1 =>
    let a := rotByte x i t
    let b := rotByte x j t
    if a < b then true else if b < a then false else rotLessFrom x i j (t + 1) m

/-- `rot_less(i, j)` (R151): at most `n` byte pairs (R160); bytes compare unsigned. -/
def rotLess (x : List Byte) (i j : Nat) : Bool := rotLessFrom x i j 0 x.length

/-- `ROT[0..n-1]` (R152): the indices sorted by `rot_less`. `rot_less` is a strict total order, so every sort gives this
permutation; the model inserts. -/
def rotTable (x : List Byte) : List Nat :=
  (List.range x.length).insertionSort (fun i j => rotLess x j i = false)

/-- `c` (R153): the position of rotation 0. -/
def rotIndex (rot : List Nat) : Nat := rot.idxOf 0

/-- The last column (R153): `L[p] = x[(ROT[p] + n - 1) mod n]`. -/
def lastColumn (x : List Byte) (rot : List Nat) : List Byte :=
  rot.map (fun i => x.getD ((i + x.length - 1) % x.length) 0)

/-- `bwt_fwd(x)` (R154). -/
def bwtFwd (x : List Byte) : List Byte :=
  if x.length = 0 then []
  else be32 (BitVec.ofNat 32 (rotIndex (rotTable x))) ++ lastColumn x (rotTable x)

/-! ## Inverse transform -/

/-- Position `i` of the last column sorts no later than position `j`: by byte value, unsigned, ties by position
(R155). -/
def posLe (l : List Byte) (i j : Nat) : Bool :=
  let a := l.getD i 0
  let b := l.getD j 0
  if a < b then true else if b < a then false else decide (i ≤ j)

/-- `NEXT[0..n-1]` (R155): the positions of `L` stably sorted by byte value. -/
def nextTable (l : List Byte) : List Nat :=
  (List.range l.length).insertionSort (fun i j => posLe l i j = true)

/-- `repeat m times: y <- y ++ [L[cur]]; cur <- NEXT[cur]` (R156). -/
def bwtWalk (l : List Byte) (next : List Nat) : Nat → Nat → List Byte
  | 0, _ => []
  | m + 1, cur => l.getD cur 0 :: bwtWalk l next m (next.getD cur 0)

/-- `bwt_inv_core(c, L)` (R156) with the table `NEXT` given: the walk starts at `NEXT[c]`. -/
def bwtWalkFrom (l : List Byte) (next : List Nat) (c : Nat) : List Byte :=
  bwtWalk l next l.length (next.getD c 0)

/-- `bwt_inv_core(c, L)` (R156). -/
def bwtInvCore (c : Nat) (l : List Byte) : List Byte := bwtWalkFrom l (nextTable l) c

/-- `bwt_inv(z)` (R156) on a whole byte sequence, with its two faults. -/
def bwtInv (z : List Byte) : Except FaultKind (List Byte) :=
  match z with
  | [] => .ok []
  | a :: b :: c :: d :: l =>
    let i := (ofBe32 a b c d).toNat
    if l.length = 0 then .ok []
    else if i ≥ l.length then .error .corruptHeader
    else .ok (bwtInvCore i l)
  | _ => .error .unexpectedEof

/-! ## Commands -/

/-- `BWT.FWD` (R157). -/
def execBwtFwd (s : State) : Host.Outcome State Fault Refusal :=
  conclude s <|
    let x := s.bsr.inp
    if x.length = 0 then .ok { st := { s with bsr := s.bsr.rewind } }
    else do
      let s := { s with bsr := s.bsr.atEnd, bwt := { s.bwt with rot := rotTable x } }
      let w ← wrInt s.params.outCap s.bsw (BitVec.ofNat 32 (rotIndex s.bwt.rot))
      let w ← wrBytes s.params.outCap w (lastColumn x s.bwt.rot)
      .ok { st := dropRot { s with bsw := w } }

/-- `BWT.INV` (R158). -/
def execBwtInv (s : State) : Host.Outcome State Fault Refusal :=
  conclude s <|
    let s := { s with bsr := s.bsr.rewind }
    if s.bsr.inp.length = 0 then .ok { st := s }
    else do
      let (c, r) ← rdInt s.bsr
      let (l, r) ← rdBytes (s.bsr.inp.length - 4) r
      let s := { s with bsr := r }
      if l.length = 0 then .ok { st := s }
      else if c.toNat ≥ l.length then raise .corruptHeader
      else do
        let s := { s with bwt := { s.bwt with next := nextTable l } }
        let w ← wrBytes s.params.outCap s.bsw (bwtWalkFrom l s.bwt.next c.toNat)
        .ok { st := dropNext { s with bsw := w } }

end Sys2Proof.Machine
end

