-- ==== Sys2Proof/Machine/PQueue.lean ====
section
/-! DEFINITION. The binary-heap priority queue and its six commands (41_pqueue.md). -/

namespace Sys2Proof.Machine

/-! ## Helper procedures -/

/-- `HEAP[k]`, 1-indexed (10_state.md R30). -/
def heapAt (h : List Elem) (k : Nat) : Elem := h.getD (k - 1) 0

/-- `swap HEAP[i], HEAP[j]`. -/
def heapSwap (h : List Elem) (i j : Nat) : List Elem :=
  (h.set (i - 1) (heapAt h j)).set (j - 1) (heapAt h i)

/-- `PercUp(k)` (R124). The position halves at every turn, so `k` turns are enough: the first argument counts them. -/
def percUpIn (o : PqOrd) : Nat → Nat → List Elem → List Elem
  | 0, _, h => h
  | fuel + 1, k, h =>
    if k > 1 ∧ less o (heapAt h k) (heapAt h (k / 2)) then percUpIn o fuel (k / 2) (heapSwap h k (k / 2)) else h

/-- `PercUp(k)` (R124). -/
def percUp (o : PqOrd) (k : Nat) (h : List Elem) : List Elem := percUpIn o k k h

/-- The child that the descent takes at `k`: the right one only if strictly smaller (R125). -/
def smallerChild (o : PqOrd) (k : Nat) (h : List Elem) : Nat :=
  if 2 * k < h.length ∧ less o (heapAt h (2 * k + 1)) (heapAt h (2 * k)) then 2 * k + 1 else 2 * k

/-- `PercDown(k)` (R125). The position at least doubles at every turn, so `PQ_SIZE` turns are enough: the first
argument counts them. -/
def percDownIn (o : PqOrd) : Nat → Nat → List Elem → List Elem
  | 0, _, h => h
  | fuel + 1, k, h =>
    if 2 * k ≤ h.length then
      let j := smallerChild o k h
      if less o (heapAt h j) (heapAt h k) then percDownIn o fuel j (heapSwap h k j) else h
    else h

/-- `PercDown(k)` (R125). -/
def percDown (o : PqOrd) (k : Nat) (h : List Elem) : List Elem := percDownIn o h.length k h

/-- `Grow()` (R126): the capacity doubles, the entries stay. -/
def pqGrow (pqMax : Nat) (q : Pq) : Except Stop Pq :=
  if 2 * q.cap > pqMax then raise .overflow else .ok { q with cap := 2 * q.cap }

/-- `PqInit(cap, ord)` (R127). -/
def pqInit (cap : Nat) (o : PqOrd) : Pq := { heap := [], cap := cap, ord := o }

/-- `PqOffer(el)` (R127). -/
def pqOffer (pqMax : Nat) (el : Elem) (q : Pq) : Except Stop Pq := do
  let q ← if q.heap.length = q.cap then pqGrow pqMax q else .ok q
  .ok { q with heap := percUp q.ord (q.heap.length + 1) (q.heap ++ [el]) }

/-- `PqPoll()` (R128): the minimum, and the queue without it. Called only when `PQ_SIZE` ≥ 1. -/
def pqPoll (q : Pq) : Elem × Pq :=
  (heapAt q.heap 1, { q with heap := percDown q.ord 1 (q.heap.set 0 (heapAt q.heap q.heap.length)).dropLast })

/-! ## Commands -/

/-- The capacity that `PQ.INIT` sets, its tests in the order of R129 after the one of the ordering id. -/
def initCapacity (p : Params) (cap : Option Int) : Except Stop Nat :=
  match cap with
  | none => .ok p.pqDefaultCap
  | some c =>
    if c < 1 then raise .invalidArgument
    else if c > p.pqMax then raise .overflow
    else .ok c.toNat

/-- `PQ.INIT` (R129). -/
def execPqInit (ce : Bool) (cap : Word32) (cmp : Byte) (s : State) : Host.Outcome State Fault Refusal :=
  conclude s <|
    match ordOperand cmp with
    | none => raise .invalidArgument
    | some o => do
      let c ← initCapacity s.params (capOperand ce cap)
      .ok { st := { s with pq := pqInit c o } }

/-- `PQ.OFFER` (R130): result 1. -/
def execPqOffer (key : Key) (payload : Idx) (s : State) : Host.Outcome State Fault Refusal :=
  conclude s <|
    if elemPayload (elemOf key payload) = NIL then raise .nullElement
    else do
      let q ← pqOffer s.params.pqMax (elemOf key payload) s.pq
      .ok { st := { s with pq := q }, res := 1 }

/-- `PQ.POLL` (R131): the empty queue gives RES = 0, NONE = 1. -/
def execPqPoll (s : State) : Host.Outcome State Fault Refusal :=
  conclude s <|
    if s.pq.heap.length = 0 then .ok { st := s, none := true }
    else .ok { st := { s with pq := (pqPoll s.pq).2 }, res := resZext (pqPoll s.pq).1 }

/-- `PQ.PEEK` (R132). -/
def execPqPeek (s : State) : Host.Outcome State Fault Refusal :=
  conclude s <|
    if s.pq.heap.length = 0 then .ok { st := s, none := true }
    else .ok { st := s, res := resZext (heapAt s.pq.heap 1) }

/-- `PQ.SIZE` (R133). -/
def execPqSize (s : State) : Host.Outcome State Fault Refusal :=
  conclude s (.ok { st := s, res := resLen s.pq.heap.length })

/-- `PQ.CMP` (R134): natural ordering gives RES = 0, NONE = 1. -/
def execPqCmp (s : State) : Host.Outcome State Fault Refusal :=
  conclude s <|
    match s.pq.ord with
    | .natural => .ok { st := s, none := true }
    | .key => .ok { st := s, res := resZext PqOrd.key.id }

end Sys2Proof.Machine
end

