-- ==== Sys2Proof/Machine/Huffman.lean ====
section
/-! DEFINITION. The Huffman coder and its eight commands (44_huffman.md). -/

namespace Sys2Proof.Machine

/-! ## The frequency table -/

/-- `FREQ[b] <- FREQ[b] + 1` for each byte of `x`, from all zero: the counts of the bytes of `x` (R168). -/
def countBytes (x : List Byte) : Table Count :=
  x.foldl (fun f b => tabSet f b (tabGet f b + 1)) (tabFill 0)

/-- The mapping is empty: `FREQ[s] = 0` for every s (10_state.md R34). -/
def freqEmpty (f : Table Count) : Bool := f.toList.all (fun c => c == 0)

/-! ## Construction -/

/-- The leaf record of symbol `s` (R169, R178). -/
def leafNode (s : Byte) (freq : Key) (parent : Idx) : Node :=
  { kind := .leaf, sym := s, freq := freq, left := NIL, right := NIL, parent := parent }

/-- The internal record with the given fields (R170, R178). -/
def internalNode (freq : Key) (left right parent : Idx) : Node :=
  { kind := .internal, sym := 0, freq := freq, left := left, right := right, parent := parent }

/-- The index of the next node: `HUF_NODES` (R169, R170, R178). -/
def nextIdx (nodes : List Node) : Idx := BitVec.ofNat 9 nodes.length

/-- One turn of the loop of R169: symbol `s` gets a leaf if it is in the mapping. -/
def addLeaf (f : Table Count) (acc : List Node × Table Idx) (s : Byte) : List Node × Table Idx :=
  if 0 < tabGet f s then
    (acc.1 ++ [leafNode s ((tabGet f s).setWidth 40) NIL], tabSet acc.2 s (nextIdx acc.1))
  else acc

/-- `BuildLeaves()` (R169): the leaves in ascending symbol order, and `SYMIDX`. -/
def buildLeaves (f : Table Count) : List Node × Table Idx :=
  allSyms.foldl (addLeaf f) ([], tabFill NIL)

/-- `NODE[i].parent <- m`. -/
def setParent (i m : Idx) (nodes : List Node) : List Node :=
  nodes.modify i.toNat (fun n => { n with parent := m })

/-- `NODE[i].left <- c`. -/
def setLeft (i c : Idx) (nodes : List Node) : List Node :=
  nodes.modify i.toNat (fun n => { n with left := c })

/-- `NODE[i].right <- c`. -/
def setRight (i c : Idx) (nodes : List Node) : List Node :=
  nodes.modify i.toNat (fun n => { n with right := c })

/-- `for i from 0 to k-1: PqOffer({NODE[i].freq, i})`, for the nodes from index `i` on (R170). -/
def offerNodes (pqMax : Nat) : Nat → List Node → Pq → Except Stop Pq
  | _, [], q => .ok q
  | i, n :: ns, q => do
    let q ← pqOffer pqMax (elemOf n.freq (BitVec.ofNat 9 i)) q
    offerNodes pqMax (i + 1) ns q

/-- The body of the loop of R170: the two smallest nodes become the children of a new node. -/
def mergeStep (pqMax : Nat) (q : Pq) (nodes : List Node) : Except Stop (Pq × List Node) := do
  let (a, q) := pqPoll q
  let (b, q) := pqPoll q
  let m := nextIdx nodes
  let n := internalNode (elemKey a + elemKey b) (elemPayload a) (elemPayload b) NIL
  let nodes := setParent (elemPayload b) m (setParent (elemPayload a) m (nodes ++ [n]))
  let q ← pqOffer pqMax (elemOf n.freq m) q
  .ok (q, nodes)

/-- `while PQ_SIZE > 1` of R170. Every turn makes the queue shorter by one, so as many turns as there are leaves are
enough: the first argument counts them. -/
def mergeLoop (pqMax : Nat) : Nat → Pq → List Node → Except Stop (Pq × List Node)
  | 0, q, nodes => .ok (q, nodes)
  | fuel + 1, q, nodes =>
    if q.heap.length > 1 then do
      let (q, nodes) ← mergeStep pqMax q nodes
      mergeLoop pqMax fuel q nodes
    else .ok (q, nodes)

/-- `BuildLeaves(); BuildTree()` (R169, R170) from the mapping `f`: the HUF unit with its tree, and the PQ unit as
R173 says. `FREQ` is not changed. -/
def buildTree (p : Params) (f : Table Count) : Except Stop (Huf × Pq) := do
  let (leaves, symidx) := buildLeaves f
  let q ← offerNodes p.pqMax 0 leaves (pqInit p.pqDefaultCap .natural)
  let (q, nodes) ← mergeLoop p.pqMax leaves.length q leaves
  let (r, q) := pqPoll q
  .ok ({ freq := f, node := nodes, symidx := symidx, root := elemPayload r, tree := true }, q)

/-! ## Codewords and the header as functions of a tree -/

/-- `NODE[i]`, if the table has it. -/
def nodeAt (nodes : List Node) (i : Idx) : Option Node := nodes[i.toNat]?

/-- The walk of R175 from node `i` up to the root; `w` is the word collected so far. A walk longer than the table, or
out of it, is outside the spec (log 8). -/
def codeWalk (nodes : List Node) : Nat → Idx → Bits → Except Stop Bits
  | 0, _, _ => .error (.stuck .brokenTree)
  | fuel + 1, i, w =>
    match nodeAt nodes i with
    | none => .error (.stuck .brokenTree)
    | some n =>
      if n.parent = NIL then .ok w
      else
        match nodeAt nodes n.parent with
        | none => .error (.stuck .brokenTree)
        | some p => codeWalk nodes fuel n.parent ((if p.left = i then false else true) :: w)

/-- `codeword(s)` (R175), for `s` with `SYMIDX[s] ≠ NIL`. -/
def codeword (h : Huf) (s : Byte) : Except Stop Bits := codeWalk h.node h.node.length (tabGet h.symidx s) []

/-- `hdr_bits(i)` (R176). A descent deeper than the table, or out of it, is outside the spec (log 8). -/
def hdrBitsIn (nodes : List Node) : Nat → Idx → Except Stop Bits
  | 0, _ => .error (.stuck .brokenTree)
  | fuel + 1, i =>
    match nodeAt nodes i with
    | none => .error (.stuck .brokenTree)
    | some n =>
      match n.kind with
      | .leaf => .ok (false :: bitsMsb n.sym)
      | .internal => do
        let l ← hdrBitsIn nodes fuel n.left
        let r ← hdrBitsIn nodes fuel n.right
        .ok (true :: l ++ r)

/-- `hdr_bits(HUF_ROOT)` (R176). -/
def hdrBits (h : Huf) : Except Stop Bits := hdrBitsIn h.node h.node.length h.root

/-! ## Parsing a header -/

/-- What `ParseNode` reads and writes (R178): the reader, `NODE`, `SYMIDX`, and the local counter `NINT`. -/
structure ParseState where
  bsr    : Bsr
  node   : List Node
  symidx : Table Idx
  nint   : Nat

/-- The leaf branch of `ParseNode` (R178). -/
def parseLeaf (par : Idx) (p : ParseState) : Except Stop (Idx × ParseState) := do
  let (s, r) ← rdByte p.bsr
  if tabGet p.symidx s ≠ NIL then raise .corruptHeader
  else
    let i := nextIdx p.node
    .ok (i, { p with bsr := r, node := p.node ++ [leafNode s 0 par], symidx := tabSet p.symidx s i })

/-- `ParseNode(par)` (R178). A call at depth d has d internal nodes above it, and the 256th internal tag faults, so
depth 256 is never passed: the first argument counts down from there. -/
def parseNode : Nat → Idx → ParseState → Except Stop (Idx × ParseState)
  | 0, _, _ => raise .corruptHeader
  | fuel + 1, par, p => do
    let (t, r) ← rdBit p.bsr
    let p := { p with bsr := r }
    if t = false then parseLeaf par p
    else if p.nint = 255 then raise .corruptHeader
    else
      let i := nextIdx p.node
      let p := { p with nint := p.nint + 1, node := p.node ++ [internalNode 0 NIL NIL par] }
      let (l, p) ← parseNode fuel i p
      let p := { p with node := setLeft i l p.node }
      let (r, p) ← parseNode fuel i p
      .ok (i, { p with node := setRight i r p.node })

/-- `ParseTree()` (R178): the tree read from the stream, and the reader after it. `FREQ` is not changed. -/
def parseTree (r : Bsr) (h : Huf) : Except Stop (Bsr × Huf) := do
  let (root, p) ← parseNode 256 NIL { bsr := r, node := [], symidx := tabFill NIL, nint := 0 }
  .ok (p.bsr, { freq := h.freq, node := p.node, symidx := p.symidx, root := root, tree := true })

/-! ## Symbols -/

/-- `Enc(sym)` (R180): its two tests and the codeword written. -/
def enc (cap : Option Nat) (h : Huf) (w : Bsw) (sym : Byte) : Except Stop Bsw :=
  if h.tree = false then raise .invalidArgument
  else if tabGet h.symidx sym = NIL then raise .invalidArgument
  else do
    let bits ← codeword h sym
    wrBits cap w bits

/-- `Enc` for each byte of a sequence, in order (45_compressors.md R196). -/
def encAll (cap : Option Nat) (h : Huf) : Bsw → List Byte → Except Stop Bsw
  | w, [] => .ok w
  | w, b :: bs => do
    let w ← enc cap h w b
    encAll cap h w bs

/-- The descent of R181 from node `i`. A descent longer than the table, or out of it, is outside the spec (log 8). -/
def decWalk (nodes : List Node) : Nat → Idx → Bsr → Except Stop (Byte × Bsr)
  | 0, _, _ => .error (.stuck .brokenTree)
  | fuel + 1, i, r =>
    match nodeAt nodes i with
    | none => .error (.stuck .brokenTree)
    | some n =>
      match n.kind with
      | .leaf => .ok (n.sym, r)
      | .internal => do
        let (b, r) ← rdBit r
        decWalk nodes fuel (if b = false then n.left else n.right) r

/-- `Dec()` (R181). -/
def dec (h : Huf) (r : Bsr) : Except Stop (Byte × Bsr) :=
  if h.tree = false then raise .invalidArgument else decWalk h.node h.node.length h.root r

/-! ## Commands -/

/-- `HUF.FCLR` (R166). -/
def execHufFclr (s : State) : Host.Outcome State Fault Refusal :=
  conclude s (.ok { st := { s with huf := { s.huf with freq := tabFill 0 } } })

/-- `HUF.FSET sym, count` (R167). -/
def execHufFset (sym : Byte) (count : Count) (s : State) : Host.Outcome State Fault Refusal :=
  conclude s (.ok { st := { s with huf := { s.huf with freq := tabSet s.huf.freq sym count } } })

/-- `HUF.FCNT` (R168). -/
def execHufFcnt (s : State) : Host.Outcome State Fault Refusal :=
  conclude s (.ok { st := { s with bsr := s.bsr.atEnd, huf := { s.huf with freq := countBytes s.bsr.inp } } })

/-- `HUF.BUILD` (R173). -/
def execHufBuild (s : State) : Host.Outcome State Fault Refusal :=
  conclude s <|
    if freqEmpty s.huf.freq then raise .invalidArgument
    else do
      let (h, q) ← buildTree s.params s.huf.freq
      .ok { st := { s with huf := h, pq := q } }

/-- `HUF.WHDR` (R177). -/
def execHufWhdr (s : State) : Host.Outcome State Fault Refusal :=
  conclude s <|
    if s.huf.tree = false then raise .invalidArgument
    else do
      let bits ← hdrBits s.huf
      let w ← wrBits s.params.outCap s.bsw bits
      .ok { st := { s with bsw := w } }

/-- `HUF.RHDR` (R179): from the current `RPOS`. -/
def execHufRhdr (s : State) : Host.Outcome State Fault Refusal :=
  conclude s do
    let (r, h) ← parseTree s.bsr s.huf
    .ok { st := { s with bsr := r, huf := h } }

/-- `HUF.ENC sym` (R180). -/
def execHufEnc (sym : Byte) (s : State) : Host.Outcome State Fault Refusal :=
  conclude s do
    let w ← enc s.params.outCap s.huf s.bsw sym
    .ok { st := { s with bsw := w } }

/-- `HUF.DEC` (R181). -/
def execHufDec (s : State) : Host.Outcome State Fault Refusal :=
  conclude s do
    let (v, r) ← dec s.huf s.bsr
    .ok { st := { s with bsr := r }, res := resZext v }

end Sys2Proof.Machine
end

