-- ==== Sys2Proof/Machine/MoveToFront.lean ====
section
/-! DEFINITION. The Move-to-Front transform and its two commands (42_mtf.md). -/

namespace Sys2Proof.Machine

/-- `MtfInit()` (R140): `MTFL[i] = i`. -/
def mtfInit : Table Byte := ⟨allSyms.toArray, by simp [allSyms]⟩

/-- The index at which `MTFL` holds `b` (R141). `MTFL` is a permutation of 0..255 while in use (10_state.md R33). -/
def mtfFind (l : Table Byte) (b : Byte) : Byte := BitVec.ofNat 8 (l.toList.idxOf b)

/-- `for i from p down to 1: MTFL[i] <- MTFL[i-1]; MTFL[0] <- b` (R141, R142). -/
def mtfMove (l : Table Byte) (p b : Byte) : Table Byte :=
  ⟨((b :: l.toList.take p.toNat) ++ l.toList.drop (p.toNat + 1)).toArray, by
    have := p.isLt
    simp only [List.size_toArray, List.length_append, List.length_cons, List.length_take, List.length_drop,
      Vector.length_toList]
    omega⟩

/-- `MtfEnc(b)` (R141): the rank of `b` and the list with `b` moved to the front. -/
def mtfEnc (l : Table Byte) (b : Byte) : Byte × Table Byte :=
  let p := mtfFind l b
  (p, mtfMove l p b)

/-- `MtfDec(p)` (R142): the symbol at rank `p` and the list with it moved to the front. -/
def mtfDec (l : Table Byte) (p : Byte) : Byte × Table Byte :=
  let b := tabGet l p
  (b, mtfMove l p b)

/-- One step function applied to each byte in order: the outputs and the last list (R143, R144). -/
def mtfRun (f : Table Byte → Byte → Byte × Table Byte) : Table Byte → List Byte → List Byte × Table Byte
  | l, [] => ([], l)
  | l, b :: bs =>
    let (y, l) := f l b
    let (ys, l) := mtfRun f l bs
    (y :: ys, l)

/-- `mtf_fwd(x)` (R143). -/
def mtfFwd (x : List Byte) : List Byte := (mtfRun mtfEnc mtfInit x).1

/-- `mtf_inv(y)` (R144). -/
def mtfInv (y : List Byte) : List Byte := (mtfRun mtfDec mtfInit y).1

/-- `MTF.FWD` (R145): the bytes of `IN` from position 0, each ranked and written; `MTFL` ends as scratch. -/
def execMtfFwd (s : State) : Host.Outcome State Fault Refusal :=
  conclude s do
    let (y, l) := mtfRun mtfEnc mtfInit s.bsr.inp
    let w ← wrBytes s.params.outCap s.bsw y
    .ok { st := dropMtfl { s with bsr := s.bsr.atEnd, bsw := w, mtf := { mtfl := l } } }

/-- `MTF.INV` (R146). -/
def execMtfInv (s : State) : Host.Outcome State Fault Refusal :=
  conclude s do
    let (x, l) := mtfRun mtfDec mtfInit s.bsr.inp
    let w ← wrBytes s.params.outCap s.bsw x
    .ok { st := dropMtfl { s with bsr := s.bsr.atEnd, bsw := w, mtf := { mtfl := l } } }

end Sys2Proof.Machine
end

