-- ==== Sys2Proof/Machine/Compressors.lean ====
section
/-! DEFINITION. The compressor sequencers and their four commands (45_compressors.md). -/

namespace Sys2Proof.Machine

/-- `HcCompressSeq(x)` (R196): counts, tree, header, length, codewords, flush. `RPOS` is the caller's. -/
def hcCompressSeq (x : List Byte) (s : State) : Except Stop State := do
  let cap := s.params.outCap
  let (h, q) ← buildTree s.params (countBytes x)
  let bits ← hdrBits h
  let w ← wrBits cap s.bsw bits
  let w ← wrInt cap w (BitVec.ofNat 32 x.length)
  let w ← encAll cap h w x
  let w ← flush cap w
  .ok { s with huf := h, pq := q, bsw := w }

/-- `repeat n times: store Dec()`: each symbol is decoded and then stored before the next is decoded (R199: `WrByte(Dec())`
inside the loop; R202: collected with its bound; 60_exceptions.md R220; log 10, 11). -/
def decodeLoop {σ : Type} (h : Huf) (store : σ → Byte → Except Stop σ) : Nat → σ → Bsr → Except Stop (σ × Bsr)
  | 0, acc, r => .ok (acc, r)
  | n + 1, acc, r => do
    let (v, r) ← dec h r
    let acc ← store acc v
    decodeLoop h store n acc r

/-- `HcExpandSeq()` (R198) from the current `RPOS`, each decoded byte handed to `store`: what was stored, the reader, and
the HUF unit with the parsed tree (unchanged when no bits are left). -/
def hcExpandSeq {σ : Type} (store : σ → Byte → Except Stop σ) (acc : σ) (r : Bsr) (h : Huf) :
    Except Stop (σ × Bsr × Huf) :=
  if r.rpos = r.bitLen then .ok (acc, r, h)
  else do
    let (r, h) ← parseTree r h
    let (n, r) ← rdInt r
    if n.toInt < 0 then raise .corruptHeader
    else do
      let (acc, r) ← decodeLoop h store n.toInt.toNat acc r
      .ok (acc, r, h)

/-- Collecting a byte in a scratch buffer of NMAX bytes (R202): `Overflow` when byte number NMAX + 1 would be stored. -/
def collect (nmax : Nat) (acc : List Byte) (v : Byte) : Except Stop (List Byte) :=
  if acc.length ≥ nmax then raise .overflow else .ok (acc ++ [v])

/-- `HC.COMPRESS` (R197). -/
def execHcCompress (s : State) : Host.Outcome State Fault Refusal :=
  conclude s <|
    if s.bsr.inp.length = 0 then .ok { st := { s with bsr := s.bsr.rewind } }
    else do
      let t ← hcCompressSeq s.bsr.inp { s with bsr := s.bsr.rewind }
      .ok { st := { t with bsr := t.bsr.atEnd } }

/-- `HC.EXPAND` (R199). -/
def execHcExpand (s : State) : Host.Outcome State Fault Refusal :=
  conclude s do
    let (w, r, h) ← hcExpandSeq (wrByte s.params.outCap) s.bsw s.bsr.rewind s.huf
    .ok { st := { s with bsw := w, bsr := r, huf := h } }

/-- `BW.COMPRESS` (R201): BWT, then MTF through `SCR0` and `SCR1`, then the index and the Huffman-only layout of the rank
stream. -/
def execBwCompress (s : State) : Host.Outcome State Fault Refusal :=
  conclude s <|
    let x := s.bsr.inp
    if x.length = 0 then .ok { st := { s with bsr := s.bsr.rewind } }
    else do
      let s := { s with bsr := s.bsr.atEnd, bwt := { s.bwt with rot := rotTable x } }
      let c := rotIndex s.bwt.rot
      let s := { s with seq := { s.seq with scr0 := lastColumn x s.bwt.rot } }
      let (y, l) := mtfRun mtfEnc mtfInit s.seq.scr0
      let s := { s with mtf := { mtfl := l }, seq := { s.seq with scr1 := y } }
      let w ← wrInt s.params.outCap s.bsw (BitVec.ofNat 32 c)
      let s ← hcCompressSeq s.seq.scr1 { s with bsw := w }
      .ok { st := dropScr (dropMtfl (dropRot s)) }

/-- `BW.EXPAND` (R202): the index, the Huffman-only layout collected in `SCR0`, the inverse MTF into `SCR1`, the inverse
BWT. -/
def execBwExpand (s : State) : Host.Outcome State Fault Refusal :=
  conclude s <|
    let s := { s with bsr := s.bsr.rewind }
    if s.bsr.inp.length = 0 then .ok { st := s }
    else do
      let (c, r) ← rdInt s.bsr
      let (y, r, h) ← hcExpandSeq (collect s.params.nmax) [] r s.huf
      let (x, l) := mtfRun mtfDec mtfInit y
      let s := { s with bsr := r, huf := h, mtf := { mtfl := l }, seq := { scr0 := y, scr1 := x } }
      if y.length = 0 then .ok { st := dropScr (dropMtfl s) }
      else if c.toNat ≥ s.seq.scr1.length then raise .corruptHeader
      else do
        let s := { s with bwt := { s.bwt with next := nextTable s.seq.scr1 } }
        let w ← wrBytes s.params.outCap s.bsw (bwtWalkFrom s.seq.scr1 s.bwt.next c.toNat)
        .ok { st := dropScr (dropMtfl (dropNext { s with bsw := w })) }

end Sys2Proof.Machine
end

