-- ==== Sys2Proof/Machine/Dispatch.lean ====
section
/-! DEFINITION. One arm per command (30_encoding.md R86). -/

namespace Sys2Proof.Machine

def exec (i : Instr) (s : State) : Host.Outcome State Fault Refusal :=
  match i with
  | .bsRbit => Sys2Proof.Machine.execBsRbit s
  | .bsRbyte => Sys2Proof.Machine.execBsRbyte s
  | .bsRint => Sys2Proof.Machine.execBsRint s
  | .bsRlen => Sys2Proof.Machine.execBsRlen s
  | .bsRrst => Sys2Proof.Machine.execBsRrst s
  | .bsWbit b => Sys2Proof.Machine.execBsWbit b s
  | .bsWbyte v => Sys2Proof.Machine.execBsWbyte v s
  | .bsWint v => Sys2Proof.Machine.execBsWint v s
  | .bsWlen => Sys2Proof.Machine.execBsWlen s
  | .bsWrst => Sys2Proof.Machine.execBsWrst s
  | .bsFlush => Sys2Proof.Machine.execBsFlush s
  | .pqInit ce cap cmp => Sys2Proof.Machine.execPqInit ce cap cmp s
  | .pqOffer key payload => Sys2Proof.Machine.execPqOffer key payload s
  | .pqPoll => Sys2Proof.Machine.execPqPoll s
  | .pqPeek => Sys2Proof.Machine.execPqPeek s
  | .pqSize => Sys2Proof.Machine.execPqSize s
  | .pqCmp => Sys2Proof.Machine.execPqCmp s
  | .mtfFwd => Sys2Proof.Machine.execMtfFwd s
  | .mtfInv => Sys2Proof.Machine.execMtfInv s
  | .bwtFwd => Sys2Proof.Machine.execBwtFwd s
  | .bwtInv => Sys2Proof.Machine.execBwtInv s
  | .hufFclr => Sys2Proof.Machine.execHufFclr s
  | .hufFset sym count => Sys2Proof.Machine.execHufFset sym count s
  | .hufFcnt => Sys2Proof.Machine.execHufFcnt s
  | .hufBuild => Sys2Proof.Machine.execHufBuild s
  | .hufWhdr => Sys2Proof.Machine.execHufWhdr s
  | .hufRhdr => Sys2Proof.Machine.execHufRhdr s
  | .hufEnc sym => Sys2Proof.Machine.execHufEnc sym s
  | .hufDec => Sys2Proof.Machine.execHufDec s
  | .hcCompress => Sys2Proof.Machine.execHcCompress s
  | .hcExpand => Sys2Proof.Machine.execHcExpand s
  | .bwCompress => Sys2Proof.Machine.execBwCompress s
  | .bwExpand => Sys2Proof.Machine.execBwExpand s

end Sys2Proof.Machine
end

