-- ==== Sys2Proof/Machine/HostPort.lean ====
section
/-! DEFINITION. The five host operations (70_reset_and_hazards.md R240 to R244) and the service of the host port. -/

namespace Sys2Proof.Machine

/-- `HostLoadIn(x)` (R241): `IN <- x; IN_LEN <- len(x); RPOS <- 0`, nothing else. -/
def hostLoadIn (x : List Byte) (s : State) : State := { s with bsr := { inp := x, rpos := 0 } }

/-- `HostIssue(W)`, steps 1 to 4 of 30_encoding.md R85: refused without any change while FAULT = 1 (60_exceptions.md
R222; log 16); a reserved word raises `InvalidArgument` (30_encoding.md R87); else the command runs. -/
def hostIssue (w : CmdWord) (s : State) : Host.Outcome State Fault Refusal :=
  if s.ctl.fault then .next s
  else
    match decode w with
    | .error _ => .next (enterFault .invalidArgument s)
    | .ok i => exec i s

/-- The outcome with the return `(STATUS, RES)` of `HostIssue` handed to the host (R240). -/
def withIssued : Host.Outcome State Fault Refusal → Host.Outcome State Fault Refusal
  | .next t => .next { t with reply := .issued (statusWord t) t.ctl.res }
  | .fault f => .fault f
  | .refused r => .refused r

/-- `HostReadReg(r)` (R244): the register zero-extended. In the fault state only r = 0 is valid; the others return
unspecified values (60_exceptions.md R222), free ones (log 14). -/
def hostReadReg (r : BitVec 8) (s : State) : Word :=
  if s.ctl.fault ∧ r ≠ 0 then Config.faultRead s r else regWord s r

/-- `HostReadOut()` (R243): the complete bytes; unspecified bytes in the fault state (60_exceptions.md R222; log 14). -/
def hostReadOut (s : State) : List Byte := if s.ctl.fault then Config.faultOut s else s.bsw.out

/-- The counter of the free values advances when a read in the fault state used one (log 14). -/
def afterRead (s : State) : State := if s.ctl.fault then { s with stamp := s.stamp + 1 } else s

/-- One host operation (R240). `HostLoadIn` is refused without change in the fault state; the host cannot load more
than NMAX bytes (R241; log 9). -/
def hostOp (op : HostOp) (s : State) : Host.Outcome State Fault Refusal :=
  match op with
  | .reset => .next { hostReset s with reply := .nothing }
  | .loadIn x =>
    if s.params.nmax < x.length then .refused .inputTooLong
    else if s.ctl.fault then .next { s with reply := .nothing }
    else .next { hostLoadIn x s with reply := .nothing }
  | .issue w => withIssued (hostIssue w s)
  | .readOut => .next { afterRead s with reply := .bytes (hostReadOut s) }
  | .readReg r => .next { afterRead s with reply := .value (hostReadReg r s) }

/-- One step: serve the first pending host operation; with none pending the block idles (70_reset_and_hazards.md R235,
60_exceptions.md R231; log 2). -/
def hostStep (s : State) : Host.Outcome State Fault Refusal :=
  match s.port with
  | [] => .next s
  | op :: rest => hostOp op { s with port := rest }

/-- `s` with the host about to issue the word `w` (70_reset_and_hazards.md R242). -/
def placeWord (s : State) (w : Nat) : State := { s with port := .issue (BitVec.ofNat 64 w) :: s.port }

end Sys2Proof.Machine
end

