-- ==== Sys2Proof/Machine/Step.lean ====
section
/-! DEFINITION. One step of the machine, and the placing of a command word where the next step takes it. -/

namespace Sys2Proof.Machine

/-- One step (00_scope.md R6): the first pending host operation is served. -/
def step (s : State) : Host.Outcome State Fault Refusal := hostStep s

/-- `s` with the command word of `nbits` bits `w` as the first pending host operation (log 2). -/
def State.withFetchWord (s : State) (nbits w : Nat) : State := placeWord s (w % 2 ^ nbits)

end Sys2Proof.Machine
end

