-- ==== Sys2Proof/Machine/Assembler.lean ====
section
/-! DEFINITION. The assembler syntax of 30_encoding.md R90: a line of text to its command, a text to its words. -/

namespace Sys2Proof.Asm

/-- The value of a digit of base 10 or 16. -/
def digit (base : Nat) (c : Char) : Option Nat :=
  let n := c.toNat
  let v := if 48 ≤ n ∧ n ≤ 57 then n - 48 else if 65 ≤ n ∧ n ≤ 70 then n - 55
    else if 97 ≤ n ∧ n ≤ 102 then n - 87 else 16
  if v < base then some v else none

/-- A nonempty run of digits. -/
def digits (base : Nat) : List Char → Option Nat
  | [] => none
  | cs => cs.foldl (fun acc c => do let a ← acc; let d ← digit base c; some (base * a + d)) (some 0)

/-- "numerals decimal or `0x` hexadecimal or a quoted single ASCII character `'a'` for its code" (R90). -/
def numeral : List Char → Option Nat
  | ['\'', c, '\''] => if c.toNat < 128 then some c.toNat else none
  | '0' :: 'x' :: cs => digits 16 cs
  | cs => digits 10 cs

/-- A numeral that may be negative (R90, format I). -/
def signedNumeral : List Char → Option Int
  | '-' :: cs => (numeral cs).map (fun n => -(n : Int))
  | cs => (numeral cs).map (fun n => (n : Int))

/-- A numeral of `w` bits, unsigned. -/
def unsignedField (w : Nat) (cs : List Char) : Option (BitVec w) := do
  let n ← numeral cs
  if n < 2 ^ w then some (BitVec.ofNat w n) else none

/-- "one numeral −2^31..2^32−1, a negative one standing for its two's-complement 32-bit pattern" (R90). The range of `cap`
is not given there; the model takes the same one (log 20). -/
def patternField (cs : List Char) : Option Word32 := do
  let n ← signedNumeral cs
  if -(2 ^ 31) ≤ n ∧ n < 2 ^ 32 then some (BitVec.ofInt 32 n) else none

/-- "`payload` a numeral 0..511 or the word `NIL` (511)" (R90). -/
def payloadField (cs : List Char) : Option Idx := if cs = "NIL".toList then some NIL else unsignedField 9 cs

/-- `cmp=<NAT|KEY>` (R90). -/
def cmpField (cs : List Char) : Option Byte :=
  if cs = "cmp=NAT".toList then some 0 else if cs = "cmp=KEY".toList then some 1 else none

/-- `cap=<numeral>` (R90). -/
def capField (cs : List Char) : Option Word32 :=
  if cs.take 4 = "cap=".toList then patternField (cs.drop 4) else none

/-- The command of a mnemonic without operand (format N, R86). -/
def plain : List (String × Instr) :=
  [("BS.RBIT", .bsRbit), ("BS.RBYTE", .bsRbyte), ("BS.RINT", .bsRint), ("BS.RLEN", .bsRlen), ("BS.RRST", .bsRrst),
   ("BS.WLEN", .bsWlen), ("BS.WRST", .bsWrst), ("BS.FLUSH", .bsFlush), ("PQ.POLL", .pqPoll), ("PQ.PEEK", .pqPeek),
   ("PQ.SIZE", .pqSize), ("PQ.CMP", .pqCmp), ("MTF.FWD", .mtfFwd), ("MTF.INV", .mtfInv), ("BWT.FWD", .bwtFwd)] ++
  [("BWT.INV", .bwtInv), ("HUF.FCLR", .hufFclr), ("HUF.FCNT", .hufFcnt), ("HUF.BUILD", .hufBuild),
   ("HUF.WHDR", .hufWhdr), ("HUF.RHDR", .hufRhdr), ("HUF.DEC", .hufDec), ("HC.COMPRESS", .hcCompress),
   ("HC.EXPAND", .hcExpand), ("BW.COMPRESS", .bwCompress), ("BW.EXPAND", .bwExpand)]

/-- The mnemonics with one operand (formats B, Y, I) and its reading (R90). -/
def withOne (m x : List Char) : Option Instr :=
  if m = "BS.WBIT".toList then (unsignedField 1 x).map (fun b => .bsWbit (b.getLsbD 0))
  else if m = "BS.WBYTE".toList then (unsignedField 8 x).map .bsWbyte
  else if m = "HUF.ENC".toList then (unsignedField 8 x).map .hufEnc
  else if m = "BS.WINT".toList then (patternField x).map .bsWint
  else none

/-- The mnemonics with two operands (formats F, E) and their reading (R90). -/
def withTwo (m x y : List Char) : Option Instr :=
  if m = "HUF.FSET".toList then do
    let s ← unsignedField 8 x
    let c ← unsignedField 32 y
    some (.hufFset s c)
  else if m = "PQ.OFFER".toList then do
    let k ← unsignedField 40 x
    let p ← payloadField y
    some (.pqOffer k p)
  else none

/-- `PQ.INIT` with "zero, one or two of `cap=<numeral>` and `cmp=<NAT|KEY>` in that order" (R90). -/
def initOperands : List (List Char) → Option Instr
  | [] => some (.pqInit false 0 0)
  | [x] =>
    match capField x with
    | some c => some (.pqInit true c 0)
    | none => (cmpField x).map (.pqInit false 0)
  | [x, y] => do
    let c ← capField x
    let o ← cmpField y
    some (.pqInit true c o)
  | _ => none

/-- The command of a mnemonic and its operands (R86, R90). -/
def command (m : List Char) (ops : List (List Char)) : Option Instr :=
  if m = "PQ.INIT".toList then initOperands ops
  else
    match ops with
    | [] => (plain.find? (fun p => decide (p.1.toList = m))).map Prod.snd
    | [x] => withOne m x
    | [x, y] => withTwo m x y
    | _ => none

/-- Blanks around a word dropped. -/
def trim (cs : List Char) : List Char :=
  ((cs.dropWhile (· == ' ')).reverse.dropWhile (· == ' ')).reverse

/-- The pieces of `cs` between separators `sep`. -/
def splitAtSep (sep : Char) : List Char → List (List Char)
  | [] => [[]]
  | c :: cs =>
    match splitAtSep sep cs with
    | [] => [[c]]
    | p :: ps => if c = sep then [] :: p :: ps else (c :: p) :: ps

/-- The operands of a line after its mnemonic. Every comma ends one, also a comma inside a quoted character, of which R90
says nothing (DESIGN CHOICE, log 20): `HUF.ENC ','` is no command, `HUF.ENC 44` is. -/
def operands (cs : List Char) : List (List Char) :=
  if trim cs = [] then [] else (splitAtSep ',' cs).map trim

/-- One line, its comment dropped (`;` to the end of the line; log 20). -/
def line (cs : List Char) : Option Instr :=
  let cs := trim (cs.takeWhile (· != ';'))
  command (cs.takeWhile (· != ' ')) (operands (cs.dropWhile (· != ' ')))

/-- A text, one command a line; lines with nothing but blanks and a comment are passed over. -/
def text (cs : List Char) : Option (List CmdWord) :=
  ((splitAtSep '\n' cs).filter (fun l => trim (l.takeWhile (· != ';')) != [])).mapM (fun l => (line l).map encode)

end Sys2Proof.Asm
end

