-- ==== Sys2Proof/Safety.lean ====
section
/-! DEFINITION. The terms statements use: how a command ends, the invariants of a safe run, and the spec-level objects the
machine's tables stand for (a Huffman tree as a tree, layouts as bit sequences, construction without a heap). -/

namespace Sys2Proof.Machine

/-! ## How a command ends -/

/-- `s` with a command's result and NONE flag written (30_encoding.md R85, step 4). -/
def completed (s : State) (res : Word) (none : Bool) : State :=
  { s with ctl := { s.ctl with res := res, none := none } }

/-- The command ends in the fault `k`: FAULT = 1, ERR the code of `k` (60_exceptions.md R216). -/
def FaultsWith (i : Instr) (s : State) (k : FaultKind) : Prop :=
  ∃ t, exec i s = .next t ∧ t.ctl.fault = true ∧ t.ctl.err = k.code

/-- The fault kinds each command can raise (60_exceptions.md R211 to R215, R217). -/
def causes : Instr → List FaultKind
  | .bsRbit | .bsRbyte | .bsRint => [.unexpectedEof]
  | .bsRlen | .bsRrst | .bsWlen | .bsWrst => []
  | .bsWbit _ | .bsWbyte _ | .bsWint _ | .bsFlush => [.overflow]
  | .pqInit _ _ _ => [.invalidArgument, .overflow]
  | .pqOffer _ _ => [.nullElement, .overflow]
  | .pqPoll | .pqPeek | .pqSize | .pqCmp => []
  | .mtfFwd | .mtfInv | .bwtFwd => [.overflow]
  | .bwtInv => [.unexpectedEof, .corruptHeader, .overflow]
  | .hufFclr | .hufFset _ _ | .hufFcnt => []
  | .hufBuild => [.invalidArgument]
  | .hufWhdr | .hufEnc _ => [.invalidArgument, .overflow]
  | .hufRhdr => [.unexpectedEof, .corruptHeader]
  | .hufDec => [.invalidArgument, .unexpectedEof]
  | .hcCompress | .bwCompress => [.overflow]
  | .hcExpand | .bwExpand => [.unexpectedEof, .corruptHeader, .overflow]

/-- The commands whose rule names a result (30_encoding.md R85, R86). -/
def hasResult : Instr → Bool
  | .bsRbit | .bsRbyte | .bsRint | .bsRlen | .bsWlen | .pqOffer _ _ | .pqPoll | .pqPeek | .pqSize | .pqCmp
  | .hufDec => true
  | .bsRrst | .bsWbit _ | .bsWbyte _ | .bsWint _ | .bsWrst | .bsFlush | .pqInit _ _ _ => false
  | .mtfFwd | .mtfInv | .bwtFwd | .bwtInv => false
  | .hufFclr | .hufFset _ _ | .hufFcnt | .hufBuild | .hufWhdr | .hufRhdr | .hufEnc _ => false
  | .hcCompress | .hcExpand | .bwCompress | .bwExpand => false

/-- `w` is the one word that decodes to the command `i` (30_encoding.md R81, R86). -/
def EncodedAs (i : Instr) (w : CmdWord) : Prop := ∀ w', decode w' = .ok i ↔ w' = w

/-- The opcode table of 30_encoding.md R86 with, for each opcode, the reserved bits of its format's `arg` (R81). -/
def opcodeTable : List (BitVec 8 × Arg) :=
  let n : Arg := 0xFFFFFFFFFFFFFF
  let b : Arg := 0xFFFFFFFFFFFFFE
  let y : Arg := 0xFFFFFFFFFFFF00
  let i : Arg := 0xFFFFFF00000000
  let f : Arg := 0xFFFF0000000000
  let e : Arg := 0xFE000000000000
  let q : Arg := 0xFF00FE00000000
  [(0x10, n), (0x11, n), (0x12, n), (0x13, n), (0x14, n)]
    ++ [(0x20, b), (0x21, y), (0x22, i), (0x23, n), (0x24, n), (0x25, n)]
    ++ [(0x30, q), (0x31, e), (0x32, n), (0x33, n), (0x34, n), (0x35, n)]
    ++ [(0x40, n), (0x41, n), (0x50, n), (0x51, n)]
    ++ [(0x60, n), (0x61, f), (0x62, n), (0x63, n), (0x64, n), (0x65, n), (0x66, y), (0x67, n)]
    ++ [(0x70, n), (0x71, n), (0x72, n), (0x73, n)]

/-! ## What each command may write (10_state.md R20; 70_reset_and_hazards.md R248) -/

/-- The commands that move `RPOS`. -/
def movesRpos : Instr → Bool
  | .bsRbit | .bsRbyte | .bsRint | .bsRrst => true
  | .mtfFwd | .mtfInv | .bwtFwd | .bwtInv => true
  | .hufFcnt | .hufRhdr | .hufDec => true
  | .hcCompress | .hcExpand | .bwCompress | .bwExpand => true
  | .bsRlen | .bsWbit _ | .bsWbyte _ | .bsWint _ | .bsWlen | .bsWrst | .bsFlush => false
  | .pqInit _ _ _ | .pqOffer _ _ | .pqPoll | .pqPeek | .pqSize | .pqCmp => false
  | .hufFclr | .hufFset _ _ | .hufBuild | .hufWhdr | .hufEnc _ => false

/-- The commands that write `OUT`, `WACC`, `WCNT`. -/
def writesOut : Instr → Bool
  | .bsWbit _ | .bsWbyte _ | .bsWint _ | .bsWrst | .bsFlush => true
  | .mtfFwd | .mtfInv | .bwtFwd | .bwtInv => true
  | .hufWhdr | .hufEnc _ => true
  | .hcCompress | .hcExpand | .bwCompress | .bwExpand => true
  | .bsRbit | .bsRbyte | .bsRint | .bsRrst | .bsRlen | .bsWlen => false
  | .pqInit _ _ _ | .pqOffer _ _ | .pqPoll | .pqPeek | .pqSize | .pqCmp => false
  | .hufFclr | .hufFset _ _ | .hufFcnt | .hufBuild | .hufRhdr | .hufDec => false

/-- The commands that write the PQ unit. -/
def writesPq : Instr → Bool
  | .pqInit _ _ _ | .pqOffer _ _ | .pqPoll | .hufBuild | .hcCompress | .bwCompress => true
  | .bsRbit | .bsRbyte | .bsRint | .bsRrst | .bsRlen | .bsWlen => false
  | .bsWbit _ | .bsWbyte _ | .bsWint _ | .bsWrst | .bsFlush | .pqPeek | .pqSize | .pqCmp => false
  | .mtfFwd | .mtfInv | .bwtFwd | .bwtInv | .hcExpand | .bwExpand => false
  | .hufFclr | .hufFset _ _ | .hufFcnt | .hufWhdr | .hufRhdr | .hufEnc _ | .hufDec => false

/-- The commands that write `FREQ` (10_state.md R34). -/
def writesFreq : Instr → Bool
  | .hufFclr | .hufFset _ _ | .hufFcnt | .hcCompress | .bwCompress => true
  | .bsRbit | .bsRbyte | .bsRint | .bsRrst | .bsRlen | .bsWlen => false
  | .bsWbit _ | .bsWbyte _ | .bsWint _ | .bsWrst | .bsFlush => false
  | .pqInit _ _ _ | .pqOffer _ _ | .pqPoll | .pqPeek | .pqSize | .pqCmp => false
  | .mtfFwd | .mtfInv | .bwtFwd | .bwtInv | .hcExpand | .bwExpand => false
  | .hufBuild | .hufWhdr | .hufRhdr | .hufEnc _ | .hufDec => false

/-- The commands that write the tree: `NODE`, `SYMIDX`, `HUF_NODES`, `HUF_ROOT`, `TREE` (10_state.md R26, R37). -/
def writesTree : Instr → Bool
  | .hufBuild | .hufRhdr | .hcCompress | .hcExpand | .bwCompress | .bwExpand => true
  | .bsRbit | .bsRbyte | .bsRint | .bsRrst | .bsRlen | .bsWlen => false
  | .bsWbit _ | .bsWbyte _ | .bsWint _ | .bsWrst | .bsFlush => false
  | .pqInit _ _ _ | .pqOffer _ _ | .pqPoll | .pqPeek | .pqSize | .pqCmp => false
  | .mtfFwd | .mtfInv | .bwtFwd | .bwtInv => false
  | .hufFclr | .hufFset _ _ | .hufFcnt | .hufWhdr | .hufEnc _ | .hufDec => false

/-- The scratch each command may use: `MTFL`, `ROT`, `NEXT`, `SCR0` and `SCR1`, in this order (10_state.md R32, R33,
R39). -/
def scratchOf : Instr → Bool × Bool × Bool × Bool
  | .mtfFwd | .mtfInv => (true, false, false, false)
  | .bwtFwd => (false, true, false, false)
  | .bwtInv => (false, false, true, false)
  | .bwCompress => (true, true, false, true)
  | .bwExpand => (true, false, true, true)
  | .bsRbit | .bsRbyte | .bsRint | .bsRrst | .bsRlen | .bsWlen => (false, false, false, false)
  | .bsWbit _ | .bsWbyte _ | .bsWint _ | .bsWrst | .bsFlush => (false, false, false, false)
  | .pqInit _ _ _ | .pqOffer _ _ | .pqPoll | .pqPeek | .pqSize | .pqCmp => (false, false, false, false)
  | .hufFclr | .hufFset _ _ | .hufFcnt | .hufBuild | .hufWhdr | .hufRhdr | .hufEnc _ | .hufDec =>
    (false, false, false, false)
  | .hcCompress | .hcExpand => (false, false, false, false)

/-! ## Sequences of commands -/

/-- What follows a next state. -/
def andThen (o : Host.Outcome State Fault Refusal) (f : State → Host.Outcome State Fault Refusal) :
    Host.Outcome State Fault Refusal :=
  match o with
  | .next t => f t
  | .fault x => .fault x
  | .refused r => .refused r

/-- Commands run one after the other, each from the state the one before left (20_memory.md R70). -/
def execAll : List Instr → State → Host.Outcome State Fault Refusal
  | [], s => .next s
  | i :: is, s => andThen (exec i s) (execAll is)

/-- The same, with the results that the host reads from `RES` after each command. A command that ends in a fault of the
block, or a stop of the model, ends the run. -/
def runAll : List Instr → State → Option (List Word × State)
  | [], s => some ([], s)
  | i :: is, s =>
    match exec i s with
    | .next t => if t.ctl.fault then none else (runAll is t).map (fun p => (t.ctl.res :: p.1, p.2))
    | .fault _ => none
    | .refused _ => none

/-- `n` times `BS.RBYTE; HUF.ENC <the byte returned>` (45_compressors.md R204). -/
def encodeLoop : Nat → State → Host.Outcome State Fault Refusal
  | 0, s => .next s
  | n + 1, s =>
    andThen (exec .bsRbyte s) fun t => andThen (exec (.hufEnc (t.ctl.res.setWidth 8)) t) (encodeLoop n)

/-- `n` times `HUF.DEC; BS.WBYTE <the symbol returned>` (45_compressors.md R204). -/
def expandLoop : Nat → State → Host.Outcome State Fault Refusal
  | 0, s => .next s
  | n + 1, s =>
    andThen (exec .hufDec s) fun t => andThen (exec (.bsWbyte (t.ctl.res.setWidth 8)) t) (expandLoop n)

/-! ## Streams -/

/-- All bits of `IN` in stream order (20_memory.md R62). -/
def Bsr.bits (r : Bsr) : Bits := r.inp.flatMap bitsMsb

/-- The bits of `IN` from the cursor on. -/
def Bsr.rest (r : Bsr) : Bits := r.bits.drop r.rpos

/-- `n` more bits can be written without an `Overflow` (40_bitstream.md R103). -/
def Room (s : State) (n : Nat) : Prop :=
  ∀ c, s.params.outCap = some c → (s.bsw.bits.length + n) / 8 ≤ c

/-- The bits of `WACC` below the pending ones are 0 (10_state.md R24). -/
def Bsw.aligned (w : Bsw) : Prop := ∀ i, i < 8 - w.wcnt.toNat → w.wacc.getLsbD i = false

/-- `bs` was appended to the writer: the accepted bits grow by `bs`, the bytes already in `OUT` stay, the pending byte
keeps its form (10_state.md R23, R24). -/
def Appends (w w' : Bsw) (bs : Bits) : Prop :=
  w'.bits = w.bits ++ bs ∧ w.out <+: w'.out ∧ (w.aligned → w'.aligned)

/-- `n` zero bits up to the next byte boundary (40_bitstream.md R118 (b)). -/
def padBits (n : Nat) : Bits := List.replicate ((8 - n % 8) % 8) false

/-- A value of one of the three access widths (20_memory.md R65). -/
inductive Field where
  | bit (b : Bool)
  | byte (v : Byte)
  | int (v : Word32)
  deriving DecidableEq, Repr

/-- The bits of a field, most significant first (20_memory.md R63). -/
def Field.bits : Field → Bits
  | .bit b => [b]
  | .byte v => bitsMsb v
  | .int v => bitsMsb v

/-- The command that writes a field. -/
def Field.write : Field → Instr
  | .bit b => .bsWbit b
  | .byte v => .bsWbyte v
  | .int v => .bsWint v

/-- The command that reads a field of the same width. -/
def Field.read : Field → Instr
  | .bit _ => .bsRbit
  | .byte _ => .bsRbyte
  | .int _ => .bsRint

/-- What reading the field returns in `RES` (40_bitstream.md R107 to R109). -/
def Field.value : Field → Word
  | .bit b => (BitVec.ofBool b).setWidth 64
  | .byte v => v.setWidth 64
  | .int v => v.signExtend 64

/-! ## The queue -/

/-- The heap invariant (10_state.md R31). -/
def HeapInv (o : PqOrd) (h : List Elem) : Prop :=
  ∀ k, 2 ≤ k → k ≤ h.length → less o (heapAt h k) (heapAt h (k / 2)) = false

/-- The results of `n` polls in a row (41_pqueue.md R135 (c)). -/
def drain : Nat → Pq → List Elem
  | 0, _ => []
  | n + 1, q => (pqPoll q).1 :: drain n (pqPoll q).2

/-! ## Move-to-Front -/

/-- `MTFL` after one step function ran on each byte of `x` in order, from `MtfInit()` (42_mtf.md R143, R144). -/
def mtfListAfter (f : Table Byte → Byte → Byte × Table Byte) (x : List Byte) : Table Byte :=
  x.foldl (fun l b => (f l b).2) mtfInit

/-! ## Trees -/

/-- A full binary tree with symbols at its leaves (10_state.md R38). -/
inductive HTree where
  | leaf (s : Byte)
  | node (l r : HTree)
  deriving DecidableEq, Repr

/-- The header of a tree (44_huffman.md R176). -/
def HTree.hdr : HTree → Bits
  | .leaf s => false :: bitsMsb s
  | .node l r => true :: (l.hdr ++ r.hdr)

/-- The symbols of the leaves, left to right. -/
def HTree.syms : HTree → List Byte
  | .leaf s => [s]
  | .node l r => l.syms ++ r.syms

/-- The path from the root to the leaf of `s`, left 0 and right 1 (44_huffman.md R175). -/
def HTree.code (s : Byte) : HTree → Option Bits
  | .leaf a => if a = s then some [] else none
  | .node l r =>
    match l.code s with
    | some w => some (false :: w)
    | none => (r.code s).map (fun w => true :: w)

/-! ## A header as it is read (44_huffman.md R178) -/

/-- One turn of `ParseNode`: an internal tag, or a leaf tag with its symbol. -/
inductive HTag where
  | internal
  | leaf (s : Byte)
  deriving DecidableEq, Repr

/-- The bits of one turn. -/
def HTag.bits : HTag → Bits
  | .internal => [true]
  | .leaf s => false :: bitsMsb s

/-- The bits of the turns so far. -/
def tagBits (ts : List HTag) : Bits := ts.flatMap HTag.bits

/-- The symbols of the leaves so far. -/
def leafSyms : List HTag → List Byte
  | [] => []
  | .internal :: ts => leafSyms ts
  | .leaf s :: ts => s :: leafSyms ts

/-- The number of internal tags so far. -/
def internals : List HTag → Nat
  | [] => 0
  | .internal :: ts => internals ts + 1
  | .leaf _ :: ts => internals ts

/-- The turns so far neither end a header nor meet a fault: a tree is complete at the first point with more leaves than
internal nodes, and there is none; no symbol has two leaves; there are at most 255 internal nodes. -/
structure Begun (ts : List HTag) : Prop where
  unfinished : ∀ us, us <+: ts → (leafSyms us).length ≤ internals us
  distinct   : (leafSyms ts).Nodup
  few        : internals ts ≤ 255

/-- The first condition that a header parse of `bits` meets in reading order is the fault `k` (44_huffman.md R178;
60_exceptions.md R214, R215 (a), (b), R220): a leaf whose symbol has a leaf already, a 256th internal tag, the end of the
stream before a tag, or the end of the stream inside a symbol. What stands after the condition is not looked at. -/
inductive HeaderFault (bits : Bits) : FaultKind → Prop where
  | repeatedSymbol (ts : List HTag) (a : Byte) (more : Bits) (begun : Begun ts) (seen : a ∈ leafSyms ts)
      (read : bits = tagBits ts ++ (false :: bitsMsb a ++ more)) : HeaderFault bits .corruptHeader
  | tooManyInternal (ts : List HTag) (more : Bits) (begun : Begun ts) (full : internals ts = 255)
      (read : bits = tagBits ts ++ (true :: more)) : HeaderFault bits .corruptHeader
  | endBeforeTag (ts : List HTag) (begun : Begun ts) (read : bits = tagBits ts) : HeaderFault bits .unexpectedEof
  | endInSymbol (ts : List HTag) (part : Bits) (begun : Begun ts) (short : part.length < 8)
      (read : bits = tagBits ts ++ (false :: part)) : HeaderFault bits .unexpectedEof

/-! ## Layouts, and a tree in the node table -/

/-- The codewords of a byte sequence, one after the other. -/
def HTree.codes (t : HTree) (x : List Byte) : Bits := x.flatMap (fun s => (t.code s).getD [])

/-- The Huffman-only layout of `x` under the tree `t`, before the pad bits (45_compressors.md R195). -/
def HTree.layout (t : HTree) (x : List Byte) : Bits :=
  t.hdr ++ (bitsMsb (BitVec.ofNat 32 x.length) ++ t.codes x)

/-- Node `i` of the table, whose parent is `par`, is the root of a copy of the tree; `is` lists the nodes of the copy
in preorder (10_state.md R35, R38). -/
def RepAt (nodes : List Node) : HTree → Idx → Idx → List Nat → Prop
  | .leaf s, par, i, is =>
    is = [i.toNat] ∧ ∃ n, nodeAt nodes i = some n ∧ n.kind = .leaf ∧ n.sym = s ∧ n.left = NIL ∧ n.right = NIL ∧ n.parent = par
  | .node l r, par, i, is =>
    ∃ n isl isr, nodeAt nodes i = some n ∧ n.kind = .internal ∧ n.sym = 0 ∧ n.parent = par
      ∧ is = i.toNat :: (isl ++ isr) ∧ RepAt nodes l i n.left isl ∧ RepAt nodes r i n.right isr

/-- The HUF unit holds the tree `t` (10_state.md R38 (a) to (d)): its nodes are the nodes of one copy of `t` rooted at
`HUF_ROOT`, each exactly once; leaf symbols are distinct; `SYMIDX` finds exactly the leaves. -/
structure HoldsTree (h : Huf) (t : HTree) : Prop where
  held     : h.tree = true
  nodes    : ∃ is, RepAt h.node t NIL h.root is ∧ is.Perm (List.range h.node.length)
  distinct : t.syms.Nodup
  index    : ∀ (s : Byte) (i : Idx), i ≠ NIL →
    (tabGet h.symidx s = i ↔ ∃ n, nodeAt h.node i = some n ∧ n.kind = .leaf ∧ n.sym = s)

/-- What construction over `k` symbols leaves in the PQ unit (44_huffman.md R173): natural ordering, no element, the
capacity the smallest PQ_DEFAULT_CAP·2^j that is at least k. -/
def QueueAfterBuild (p : Params) (k : Nat) (q : Pq) : Prop :=
  q.heap = [] ∧ q.ord = .natural
    ∧ ∃ j, q.cap = p.pqDefaultCap * 2 ^ j ∧ k ≤ q.cap ∧ (j = 0 ∨ p.pqDefaultCap * 2 ^ (j - 1) < k)

/-! ## Construction without a heap (44_huffman.md R171) -/

/-- A pair (freq, index) comes no later than another: lexicographic order. -/
def pairLe (a b : Nat × Nat) : Bool := decide (a.1 < b.1) || (a.1 == b.1 && decide (a.2 ≤ b.2))

/-- "while |S| > 1 remove the lexicographically smallest pair a, then the smallest remaining pair b, create node m = next
index with freq a.freq + b.freq, left a.index, right b.index, and add (freq_m, m) to S; the last pair's index is the
root" (R171). The first argument bounds the turns by the size of S. -/
def mergePairs : Nat → List (Nat × Nat) → List Node → List Node × Nat
  | 0, s, nodes => (nodes, (s.head?.map Prod.snd).getD 511)
  | fuel + 1, s, nodes =>
    match s.insertionSort (fun a b => pairLe a b = true) with
    | a :: b :: rest =>
      let m := nodes.length
      let n := internalNode (BitVec.ofNat 40 (a.1 + b.1)) (BitVec.ofNat 9 a.2) (BitVec.ofNat 9 b.2) NIL
      mergePairs fuel ((a.1 + b.1, m) :: rest)
        (setParent (BitVec.ofNat 9 b.2) (BitVec.ofNat 9 m) (setParent (BitVec.ofNat 9 a.2) (BitVec.ofNat 9 m) (nodes ++ [n])))
    | [a] => (nodes, a.2)
    | [] => (nodes, 511)

/-- The pairs of the initial leaves: "(freq, index), initially the k leaves" (R171). -/
def leafPairs (leaves : List Node) : List (Nat × Nat) := leaves.zipIdx.map (fun p => (p.1.freq.toNat, p.2))

/-- `huf_build(FREQ)` without the heap (R171): the node table and the root. -/
def hufBuildRef (f : Table Count) : List Node × Nat :=
  mergePairs (buildLeaves f).1.length (leafPairs (buildLeaves f).1) (buildLeaves f).1

/-! ## Invariants of a safe run -/

/-- The parameters keep the constraints of 00_scope.md R9, and the host plans no `HostLoadIn` it cannot make
(70_reset_and_hazards.md R241). -/
def HostInv (s : State) : Prop :=
  s.params.legal = true ∧ ∀ x, HostOp.loadIn x ∈ s.port → x.length ≤ s.params.nmax

/-- The streams of a block without a fault: the bounds of 10_state.md R21 to R23 and the form of the pending bits (R24). -/
def StreamInv (s : State) : Prop :=
  s.ctl.fault = false → Memory.wf s = true ∧ s.bsr.rpos ≤ s.bsr.bitLen ∧ s.bsw.aligned

/-- `STATUS.ERR` is 0 without a fault and the code of a kind that is raised with one (10_state.md R26; 60_exceptions.md
R210, R213). -/
def StatusInv (s : State) : Prop :=
  if s.ctl.fault then s.ctl.err = 1 ∨ s.ctl.err = 2 ∨ s.ctl.err = 4 ∨ s.ctl.err = 5 ∨ s.ctl.err = 6
  else s.ctl.err = 0

/-- The queue of a block without a fault: the bounds of 10_state.md R30, the heap invariant (R31), and no missing
element in the heap (41_pqueue.md R121). -/
def QueueInv (s : State) : Prop :=
  s.ctl.fault = false →
    1 ≤ s.pq.cap ∧ s.pq.cap ≤ s.params.pqMax ∧ s.pq.heap.length ≤ s.pq.cap
      ∧ HeapInv s.pq.ord s.pq.heap ∧ ∀ el ∈ s.pq.heap, elemPayload el ≠ NIL

/-- The tree of a block without a fault (10_state.md R37, R38); without a tree no node and the root NIL, as R37 says and U16
does not (log 21). -/
def TreeInv (s : State) : Prop :=
  s.ctl.fault = false →
    (s.huf.tree = true → ∃ t, HoldsTree s.huf t) ∧ (s.huf.tree = false → s.huf.node = [] ∧ s.huf.root = NIL)

end Sys2Proof.Machine
end

