-- ==== Sys2Proof/Certificates/Slice0/Obligations.lean ====
section
/-! DEFINITION. The statements about the machine, from the numbered rules of the spec. A statement holds for every value
of the free values (log 3, 4, 6, 7, 14) and for every legal value of the parameters it carries (log 1). -/

open Sys2Proof Sys2Proof.Machine

/-! ## Encoding -/

/-- Decoding the word of a well-formed command gives the command back, at every operand value (30_encoding.md R81, R82,
R84, R86). -/
def Obligations.DecodeOfEncode : Prop :=
  ∀ i : Instr, i.wf = true → decode (encode i) = .ok i

/-- A word that decodes is the word of the well-formed command it decodes to (30_encoding.md R84). -/
def Obligations.EncodeOfDecode : Prop :=
  ∀ (w : CmdWord) (i : Instr), decode w = .ok i → i.wf = true ∧ encode i = w

/-- 30_encoding.md R84: a word decodes exactly when its opcode is in the table of R86, every reserved bit of that row's format is 0 and,
in format Q, `cap` = 0 when `CE` = 0; the all-zero and the all-ones word are reserved. -/
def Obligations.WordsOutsideTheTableAreReserved : Prop :=
  (∀ w : CmdWord,
    (∃ i, decode w = .ok i) ↔
      (∃ row ∈ opcodeTable, opOf w = row.1 ∧ argOf w &&& row.2 = 0)
        ∧ (opOf w = 0x30 → w.getLsbD 32 = false → w.extractLsb' 0 32 = 0))
  ∧ (∃ e, decode 0#64 = .error e) ∧ (∃ e, decode (BitVec.allOnes 64) = .error e)

/-- R87: a reserved word raises `InvalidArgument` when issued. Reserved are: the opcodes with unit 0 or 8 to 15, the unused
`fn` values, a nonzero reserved bit of `arg`, format Q with `CE` = 0 and `cap` ≠ 0. A `PQ.INIT` with `cmp` above 1 is not
reserved, decodes, and raises `InvalidArgument` itself. -/
def Obligations.ReservedWordRaisesInvalidArgument : Prop :=
  (∀ (s : State) (w : CmdWord) (e : Reserved), s.ctl.fault = false → decode w = .error e →
    hostIssue w s = .next (enterFault .invalidArgument s))
  ∧ (∀ w : CmdWord,
      let unit := (w.extractLsb' 60 4).toNat
      let fn := (w.extractLsb' 56 4).toNat
      (unit = 0 ∨ 8 ≤ unit ∨ (unit = 1 ∧ 5 ≤ fn) ∨ (unit = 2 ∧ 6 ≤ fn) ∨ (unit = 3 ∧ 6 ≤ fn) ∨ (unit = 4 ∧ 2 ≤ fn)
          ∨ (unit = 5 ∧ 2 ≤ fn) ∨ (unit = 6 ∧ 8 ≤ fn) ∨ (unit = 7 ∧ 4 ≤ fn)
          ∨ (∃ row ∈ opcodeTable, opOf w = row.1 ∧ argOf w &&& row.2 ≠ 0)
          ∨ (opOf w = 0x30 ∧ w.getLsbD 32 = false ∧ w.extractLsb' 0 32 ≠ 0))
        → ∃ e, decode w = .error e)
  ∧ (∀ (w : CmdWord) (s : State), opOf w = 0x30 → argOf w &&& 0xFF00FE00000000 = 0 →
      (w.getLsbD 32 = false → w.extractLsb' 0 32 = 0) → 1 < (w.extractLsb' 40 8).toNat →
      ∃ i, decode w = .ok i ∧ exec i s = .next (enterFault .invalidArgument s))

/-- The example lines of 30_encoding.md R90 assemble to the words given there, and those words decode to the commands
written; one word of each remaining family, `op << 56`, decodes to its command (R86). -/
def Obligations.SampleWordsDecode : Prop :=
  ((Asm.line "BS.WINT -1".toList).map encode = some 0x22000000FFFFFFFF#64
      ∧ decode 0x22000000FFFFFFFF#64 = .ok (.bsWint 0xFFFFFFFF))
  ∧ ((Asm.line "HUF.FSET 'a', 5".toList).map encode = some 0x6100000000000561#64
      ∧ decode 0x6100000000000561#64 = .ok (.hufFset 0x61 5))
  ∧ ((Asm.line "PQ.OFFER 5, NIL".toList).map encode = some 0x3100000000000BFF#64
      ∧ decode 0x3100000000000BFF#64 = .ok (.pqOffer 5 NIL))
  ∧ ((Asm.line "PQ.INIT cap=4, cmp=KEY".toList).map encode = some 0x3000010100000004#64
      ∧ decode 0x3000010100000004#64 = .ok (.pqInit true 4 1))
  ∧ decode 0x1000000000000000#64 = .ok .bsRbit
  ∧ decode 0x4100000000000000#64 = .ok .mtfInv
  ∧ decode 0x5000000000000000#64 = .ok .bwtFwd
  ∧ decode 0x7200000000000000#64 = .ok .bwCompress

/-! ## Steps and host operations -/

/-- A step that finds a command word first in the host's list, on a block without a fault, decodes it and runs the
command, and hands `(STATUS, RES)` back to the host (30_encoding.md R85; 70_reset_and_hazards.md R240, R242). The word
placed by `withFetchWord` is the one the next step runs. With no host operation pending the block idles (60_exceptions.md
R231): that a step then stays where it is, is the model's form of it (log 2). -/
def Obligations.StepRunsDecodedCommand : Prop :=
  (∀ (s : State) (w : CmdWord) (rest : List HostOp) (i : Instr), s.port = .issue w :: rest → s.ctl.fault = false →
    decode w = .ok i →
    (∀ t, exec i { s with port := rest } = .next t →
      step s = .next { t with reply := .issued (statusWord t) t.ctl.res })
    ∧ (∀ f, exec i { s with port := rest } = .fault f → step s = .fault f)
    ∧ (∀ r, exec i { s with port := rest } = .refused r → step s = .refused r))
  ∧ (∀ (s : State) (n : Nat) (i : Instr), s.ctl.fault = false → decodeTableWord 64 n = some i →
    ∀ t, exec i s = .next t → step (s.withFetchWord 64 n) = .next { t with reply := .issued (statusWord t) t.ctl.res })
  ∧ (∀ s : State, s.port = [] → step s = .next s)

/-- 60_exceptions.md R222, 10_state.md R26: while FAULT = 1 every command word issued is refused and changes nothing, nothing
is decoded, ERR keeps its code, `HostLoadIn` is refused likewise; `HostReadReg(0)` returns `STATUS`, whose bits 3:0 are
FAULT = 1 and the code of the first fault; the other reads return values nothing is said of. The model's choice, not the
spec's: that a refused `HostIssue` returns `(STATUS, RES)` and a refused `HostLoadIn` nothing (log 15), and that every read
advances the counter of free values (log 14). -/
def Obligations.FaultedBlockRefusesCommands : Prop :=
  ∀ (s : State) (rest : List HostOp), s.ctl.fault = true →
    (statusWord s).toNat % 16 = 1 + 2 * s.ctl.err.toNat
    ∧ (∀ w, s.port = .issue w :: rest →
      step s = .next { s with port := rest, reply := .issued (statusWord s) s.ctl.res })
    ∧ (∀ x, x.length ≤ s.params.nmax → s.port = .loadIn x :: rest →
      step s = .next { s with port := rest, reply := .nothing })
    ∧ (s.port = .readReg 0 :: rest →
      step s = .next { s with port := rest, reply := .value (statusWord s), stamp := s.stamp + 1 })
    ∧ (∀ r, s.port = .readReg r :: rest →
      ∃ v, step s = .next { s with port := rest, reply := .value v, stamp := s.stamp + 1 })
    ∧ (s.port = .readOut :: rest →
      ∃ bs, step s = .next { s with port := rest, reply := .bytes bs, stamp := s.stamp + 1 })

/-- 60_exceptions.md R223, R222: only `HostReset` leaves the fault state, from which it always does, with FAULT and ERR
cleared; until then ERR keeps the code of the first fault. What `HostReset` makes of the rest of the state is
HostResetGivesResetValues. -/
def Obligations.OnlyHostResetLeavesFault : Prop :=
  ∀ s t : State, s.ctl.fault = true → step s = .next t →
    ((t.ctl.fault = false ↔ ∃ rest, s.port = .reset :: rest)
      ∧ (t.ctl.fault = true → t.ctl.err = s.ctl.err)
      ∧ (t.ctl.fault = false → t.ctl.err = 0))

/-- 10_state.md R43: after `HostReset`, from any state, fault or not, every piece of state that R43 names a value for has that
value; what it leaves unspecified is not constrained. That `HUF_NODES` = 0 and `HUF_ROOT` = NIL hold as R37 and R43 say, and not
"any value" as U16 says, is the model's reading (log 21). -/
def Obligations.HostResetGivesResetValues : Prop :=
  ∀ (s : State) (rest : List HostOp), s.port = .reset :: rest →
    ∃ t, step s = .next t
      ∧ t.bsr.inp = [] ∧ t.bsr.rpos = 0
      ∧ t.bsw.out = [] ∧ t.bsw.wacc = 0 ∧ t.bsw.wcnt = 0
      ∧ t.ctl.res = 0 ∧ t.ctl.fault = false ∧ t.ctl.err = 0 ∧ t.ctl.none = false ∧ t.huf.tree = false
      ∧ t.pq.heap.length = 0 ∧ t.pq.cap = s.params.pqDefaultCap ∧ t.pq.ord = .natural
      ∧ (∀ a, tabGet t.huf.freq a = 0) ∧ t.huf.node.length = 0 ∧ t.huf.root = NIL
      ∧ t.params = s.params ∧ t.port = rest

/-- The state after reset has the values of 10_state.md R43 and keeps every invariant stated below. The parameters it
carries are the model's choice (log 1); so is the reading of `HUF_NODES` and `HUF_ROOT` in `TreeInv` (log 21). -/
def Obligations.ResetStateMeetsInvariants : Prop :=
  HostInv State.reset ∧ StreamInv State.reset ∧ StatusInv State.reset ∧ QueueInv State.reset ∧ TreeInv State.reset
    ∧ State.reset.ctl.fault = false ∧ statusWord State.reset = 0 ∧ State.reset.bsr.inp = []
    ∧ State.reset.bsw = Bsw.empty ∧ State.reset.pq.cap = State.reset.params.pqDefaultCap

/-- R244 with the table of R27 and the fields of R26: `HostReadReg(r)` on a block without a fault returns the value of
register r, zero-extended, 0 for the reserved numbers, and has no side effect. The premises say that each register's
value fits its width. -/
def Obligations.HostReadRegReturnsRegister : Prop :=
  ∀ (s : State) (r : BitVec 8) (rest : List HostOp), s.ctl.fault = false → s.port = .readReg r :: rest →
    s.bsr.inp.length < 2 ^ 32 → s.bsr.rpos < 2 ^ 35 → s.bsw.out.length < 2 ^ 32 → s.pq.heap.length < 2 ^ 32 →
    s.pq.cap < 2 ^ 32 → s.huf.node.length < 2 ^ 10 →
    ∃ v : Word, step s = .next { s with port := rest, reply := .value v }
      ∧ (r = 0 → v.toNat = s.ctl.fault.toNat + 2 * s.ctl.err.toNat + 16 * s.ctl.none.toNat + 32 * s.huf.tree.toNat)
      ∧ (r = 1 → v = s.ctl.res)
      ∧ (r = 2 → v.toNat = s.bsr.inp.length)
      ∧ (r = 3 → v.toNat = s.bsr.rpos)
      ∧ (r = 4 → v.toNat = s.bsw.out.length)
      ∧ (r = 5 → v.toNat = 256 * s.bsw.wcnt.toNat + s.bsw.wacc.toNat)
      ∧ (r = 6 → v.toNat = s.pq.heap.length)
      ∧ (r = 7 → v.toNat = s.pq.cap)
      ∧ (r = 8 → v.toNat = (match s.pq.ord with | .natural => 0 | .key => 1))
      ∧ (r = 9 → v.toNat = s.huf.node.length)
      ∧ (r = 10 → v.toNat = s.huf.root.toNat)
      ∧ (11 ≤ r.toNat → v = 0)

/-- R241 and R243: `HostLoadIn(x)` with at most NMAX bytes replaces `IN`, sets RPOS to 0 and changes nothing else.
`HostReadOut()` returns the complete bytes of `OUT` and nothing of the pending ones, and consumes nothing, so that two reads
in a row return the same bytes. The field that holds what an operation returned is the model's (log 15). -/
def Obligations.HostLoadInAndReadOutMoveBytes : Prop :=
  (∀ (s : State) (x : List Byte) (rest : List HostOp), s.ctl.fault = false → x.length ≤ s.params.nmax →
    s.port = .loadIn x :: rest →
    step s = .next { s with bsr := { inp := x, rpos := 0 }, port := rest, reply := .nothing })
  ∧ (∀ (s : State) (rest : List HostOp), s.ctl.fault = false → s.port = .readOut :: .readOut :: rest →
    ∃ t, step s = .next t ∧ t = { s with port := .readOut :: rest, reply := .bytes s.bsw.out }
      ∧ step t = .next { s with port := rest, reply := .bytes s.bsw.out })

/-- STATUS.FAULT and ERR keep their meaning along every step: ERR is 0 without a fault and one of the codes 1, 2, 4,
5, 6 with one, never 3 and never 7 (10_state.md R26; 60_exceptions.md R210, R213). -/
def Obligations.StepKeepsStatusInv : Prop :=
  ∀ s t : State, StatusInv s → step s = .next t → StatusInv t

/-! ## Fault entry and completion -/

/-- A command that ends in a fault has set FAULT and recorded the code of one of the kinds that 60_exceptions.md R211 to
R215 and R217 list for it; nothing else is said of the block's state (R216, R218). The host's list is not touched. The codes
are the numbers of R210. -/
def Obligations.FaultKindsBySource : Prop :=
  (FaultKind.invalidArgument.code = 1 ∧ FaultKind.nullElement.code = 2 ∧ FaultKind.incomparable.code = 3
    ∧ FaultKind.unexpectedEof.code = 4 ∧ FaultKind.corruptHeader.code = 5 ∧ FaultKind.overflow.code = 6)
  ∧ ∀ (i : Instr) (s t : State), s.params.legal = true → Memory.wf s = true → s.ctl.fault = false →
    exec i s = .next t → t.ctl.fault = true →
    (∃ k ∈ causes i, t.ctl.err = k.code ∧ t = enterFault k s)
      ∧ t.params = s.params ∧ t.port = s.port ∧ t.reply = s.reply

/-- Every command that completes without a fault writes RES, 0 where its rule names no result, and NONE: 1 for `PQ.POLL`
and `PQ.PEEK` on an empty queue and for `PQ.CMP` under natural ordering, else 0; FAULT and ERR keep their values
(10_state.md R25, R26; 30_encoding.md R85). -/
def Obligations.CompletionWritesResAndNone : Prop :=
  ∀ (i : Instr) (s t : State), s.ctl.fault = false → exec i s = .next t → t.ctl.fault = false →
    t.ctl.err = s.ctl.err
      ∧ (hasResult i = false → t.ctl.res = 0)
      ∧ (t.ctl.none = true ↔
          ((i = .pqPoll ∨ i = .pqPeek) ∧ s.pq.heap = []) ∨ (i = .pqCmp ∧ s.pq.ord = .natural))

/-- Each piece of state is written only by the commands of its unit and the block commands that use the unit
(10_state.md R20; 20_memory.md R60; 70_reset_and_hazards.md R248): the frame of all commands at once. No command writes
`IN`; only `BS.WRST` removes a byte from `OUT`. That `MTFL`, `ROT`, `NEXT`, `SCR0` and `SCR1` keep their values over the commands
that do not use them is the model's choice (log 4), not the spec's, which leaves scratch unspecified between commands (U14). -/
def Obligations.CommandsWriteOnlyTheirUnits : Prop :=
  ∀ (i : Instr) (s t : State), s.ctl.fault = false → exec i s = .next t → t.ctl.fault = false →
    t.bsr.inp = s.bsr.inp
      ∧ (movesRpos i = false → t.bsr.rpos = s.bsr.rpos)
      ∧ (writesOut i = false → t.bsw = s.bsw)
      ∧ (i ≠ .bsWrst → s.bsw.out <+: t.bsw.out)
      ∧ (writesPq i = false → t.pq = s.pq)
      ∧ (writesFreq i = false → t.huf.freq = s.huf.freq)
      ∧ (writesTree i = false → t.huf = { s.huf with freq := t.huf.freq })
      ∧ ((scratchOf i).1 = false → t.mtf = s.mtf)
      ∧ ((scratchOf i).2.1 = false → t.bwt.rot = s.bwt.rot)
      ∧ ((scratchOf i).2.2.1 = false → t.bwt.next = s.bwt.next)
      ∧ ((scratchOf i).2.2.2 = false → t.seq = s.seq)
      ∧ t.params = s.params ∧ t.port = s.port ∧ t.reply = s.reply

/-! ## Bit-stream commands -/

/-- R107: `BS.RBIT` (op 0x10, format N) returns the bit at the cursor and moves the cursor by 1; at the end of `IN` it
raises `UnexpectedEof`. Nothing else changes. -/
def Obligations.RbitReturnsNextBit : Prop :=
  EncodedAs .bsRbit 0x1000000000000000
  ∧ ∀ s : State,
    (s.bsr.rpos < s.bsr.bitLen →
      ∃ b, s.bsr.bits[s.bsr.rpos]? = some b
        ∧ exec .bsRbit s =
          .next (completed { s with bsr := { s.bsr with rpos := s.bsr.rpos + 1 } } ((BitVec.ofBool b).setWidth 64) false))
    ∧ (s.bsr.bitLen ≤ s.bsr.rpos → FaultsWith .bsRbit s .unexpectedEof)

/-- R108 and R109: `BS.RBYTE` and `BS.RINT` return the next 8 and 32 bits, most significant first, zero-extended and
sign-extended, at any cursor, and move the cursor by the width; with fewer bits left they raise `UnexpectedEof`. -/
def Obligations.RbyteAndRintReturnNextField : Prop :=
  EncodedAs .bsRbyte 0x1100000000000000 ∧ EncodedAs .bsRint 0x1200000000000000
  ∧ ∀ s : State,
    (s.bsr.rpos + 8 ≤ s.bsr.bitLen →
      ∃ v : Byte, bitsMsb v = s.bsr.rest.take 8
        ∧ exec .bsRbyte s =
          .next (completed { s with bsr := { s.bsr with rpos := s.bsr.rpos + 8 } } (v.setWidth 64) false))
    ∧ (s.bsr.bitLen < s.bsr.rpos + 8 → FaultsWith .bsRbyte s .unexpectedEof)
    ∧ (s.bsr.rpos + 32 ≤ s.bsr.bitLen →
      ∃ v : Word32, bitsMsb v = s.bsr.rest.take 32
        ∧ exec .bsRint s =
          .next (completed { s with bsr := { s.bsr with rpos := s.bsr.rpos + 32 } } (v.signExtend 64) false))
    ∧ (s.bsr.bitLen < s.bsr.rpos + 32 → FaultsWith .bsRint s .unexpectedEof)

/-- R110, R111, R115, R116: `BS.RLEN` and `BS.WLEN` return the byte counts of `IN` and of the complete bytes of `OUT`,
`BS.RRST` rewinds the cursor, `BS.WRST` empties the writer; none of them faults or changes anything else. -/
def Obligations.LengthAndResetCommands : Prop :=
  EncodedAs .bsRlen 0x1300000000000000 ∧ EncodedAs .bsRrst 0x1400000000000000
  ∧ EncodedAs .bsWlen 0x2300000000000000 ∧ EncodedAs .bsWrst 0x2400000000000000
  ∧ ∀ s : State,
    (∃ v, exec .bsRlen s = .next (completed s v false) ∧ (s.bsr.inp.length < 2 ^ 32 → v.toNat = s.bsr.inp.length))
    ∧ exec .bsRrst s = .next (completed { s with bsr := { s.bsr with rpos := 0 } } 0 false)
    ∧ (∃ v, exec .bsWlen s = .next (completed s v false) ∧ (s.bsw.out.length < 2 ^ 32 → v.toNat = s.bsw.out.length))
    ∧ exec .bsWrst s = .next (completed { s with bsw := { out := [], wacc := 0, wcnt := 0 } } 0 false)

/-- R112, R113, R114: `BS.WBIT`, `BS.WBYTE` and `BS.WINT` append 1, 8 and 32 bits, most significant first, at the writer's
current position, and change nothing else; where the bits complete a byte and `OUT` is full they raise `Overflow`. -/
def Obligations.WritersAppendTheirBits : Prop :=
  (∀ b, EncodedAs (.bsWbit b) (0x2000000000000000 ||| (BitVec.ofBool b).setWidth 64))
  ∧ (∀ v, EncodedAs (.bsWbyte v) (0x2100000000000000 ||| v.setWidth 64))
  ∧ (∀ v, EncodedAs (.bsWint v) (0x2200000000000000 ||| v.setWidth 64))
  ∧ ∀ (s : State) (f : Field),
    (Room s f.bits.length →
      ∃ w, exec f.write s = .next (completed { s with bsw := w } 0 false) ∧ Appends s.bsw w f.bits)
    ∧ (Memory.wf s = true → ¬ Room s f.bits.length → FaultsWith f.write s .overflow)

/-- R117 with R118 (b): `BS.FLUSH` appends zero bits up to the next byte boundary, none on a boundary; afterwards `OUT` is all
accepted bits cut into bytes and nothing is pending. It raises `Overflow` when bits are pending and `OUT` is full. -/
def Obligations.FlushPadsToByteBoundary : Prop :=
  EncodedAs .bsFlush 0x2500000000000000
  ∧ ∀ s : State, s.bsw.aligned →
    (Room s (padBits s.bsw.bits.length).length →
      ∃ w, exec .bsFlush s = .next (completed { s with bsw := w } 0 false)
        ∧ Appends s.bsw w (padBits s.bsw.bits.length) ∧ w.wcnt = 0 ∧ w.wacc = 0
        ∧ w.out.flatMap bitsMsb = s.bsw.bits ++ padBits s.bsw.bits.length
        ∧ (s.bsw.wcnt = 0 → w = s.bsw))
    ∧ (s.bsw.wcnt ≠ 0 → s.params.outCap = some s.bsw.out.length → FaultsWith .bsFlush s .overflow)

/-- R118: the stream laws. (a) From an empty writer the accepted bits are the bits passed to the writer commands, and
OUT_LEN and WCNT are their count divided by 8 and the remainder. (b) A flush appends the pad bits. (c) Reading with the
same sequence of widths returns the values written. (d) A sequence of reads ends in a fault exactly when its widths
exceed the bits left. -/
def Obligations.StreamLaws : Prop :=
  (∀ (fs : List Field) (s : State), s.ctl.fault = false → s.bsw = Bsw.empty → Room s (fs.flatMap Field.bits).length →
    ∃ rs t, runAll (fs.map Field.write) s = some (rs, t) ∧ t = { s with bsw := t.bsw, ctl := t.ctl }
      ∧ t.bsw.bits = fs.flatMap Field.bits
      ∧ t.bsw.out.length = (fs.flatMap Field.bits).length / 8
      ∧ t.bsw.wcnt.toNat = (fs.flatMap Field.bits).length % 8
      ∧ (Room t (padBits (fs.flatMap Field.bits).length).length →
          ∃ u, exec .bsFlush t = .next u ∧ u.ctl.fault = false
            ∧ u.bsw.out.flatMap bitsMsb = fs.flatMap Field.bits ++ padBits (fs.flatMap Field.bits).length
            ∧ u.bsw.bits = fs.flatMap Field.bits ++ padBits (fs.flatMap Field.bits).length))
  ∧ (∀ (fs : List Field) (s : State) (more : Bits), s.ctl.fault = false →
    s.bsr.rest = fs.flatMap Field.bits ++ more →
    ∃ t, runAll (fs.map Field.read) s = some (fs.map Field.value, t)
      ∧ t = { s with bsr := { s.bsr with rpos := s.bsr.rpos + (fs.flatMap Field.bits).length }, ctl := t.ctl })
  ∧ (∀ (fs : List Field) (s : State), s.ctl.fault = false → s.bsr.rpos ≤ s.bsr.bitLen →
    (runAll (fs.map Field.read) s = none ↔ s.bsr.bitLen - s.bsr.rpos < (fs.flatMap Field.bits).length))
  ∧ (∀ (f : Field) (s : State), s.bsr.rpos ≤ s.bsr.bitLen → s.bsr.bitLen - s.bsr.rpos < f.bits.length →
    FaultsWith f.read s .unexpectedEof)

/-! ## Priority queue -/

/-- R124 and R125: percolate-up swaps an element with its parent as long as it is strictly less. Percolate-down takes the
left child, or the right one only if strictly smaller, and swaps as long as the child is strictly less than the moving
element. -/
def Obligations.PercolationSwapsWhileStrictlyLess : Prop :=
  (∀ (o : PqOrd) (k : Nat) (h : List Elem),
    percUp o k h =
      if k > 1 ∧ less o (heapAt h k) (heapAt h (k / 2)) = true then percUp o (k / 2) (heapSwap h k (k / 2)) else h)
  ∧ (∀ (o : PqOrd) (k : Nat) (h : List Elem), 1 ≤ k →
    percDown o k h =
      if 2 * k ≤ h.length then
        let j := if 2 * k < h.length ∧ less o (heapAt h (2 * k + 1)) (heapAt h (2 * k)) = true then 2 * k + 1 else 2 * k
        if less o (heapAt h j) (heapAt h k) = true then percDown o j (heapSwap h k j) else h
      else h)

/-- R129: `PQ.INIT` (op 0x30, format Q): an undefined ordering id, then a capacity below 1, raise `InvalidArgument`, then a
capacity above PQ_MAX raises `Overflow`; otherwise the queue is empty with the capacity and ordering given, the defaults
being PQ_DEFAULT_CAP and natural. Nothing else changes. -/
def Obligations.PqInitSetsEmptyQueue : Prop :=
  (∀ ce cap cmp, (ce = true ∨ cap = 0) →
    EncodedAs (.pqInit ce cap cmp)
      (0x3000000000000000 ||| cmp.setWidth 64 <<< 40 ||| (BitVec.ofBool ce).setWidth 64 <<< 32 ||| cap.setWidth 64))
  ∧ ∀ (s : State) (ce : Bool) (cap : Word32) (cmp : Byte),
    (1 < cmp.toNat → FaultsWith (.pqInit ce cap cmp) s .invalidArgument)
    ∧ (cmp.toNat ≤ 1 → ce = true → cap.toInt < 1 → FaultsWith (.pqInit ce cap cmp) s .invalidArgument)
    ∧ (cmp.toNat ≤ 1 → ce = true → 1 ≤ cap.toInt → (s.params.pqMax : Int) < cap.toInt →
        FaultsWith (.pqInit ce cap cmp) s .overflow)
    ∧ (cmp.toNat ≤ 1 → (ce = true → 1 ≤ cap.toInt ∧ cap.toInt ≤ s.params.pqMax) →
        exec (.pqInit ce cap cmp) s =
          .next (completed
            { s with
              pq :=
                { heap := []
                  cap := if ce then cap.toNat else s.params.pqDefaultCap
                  ord := if cmp = 0 then .natural else .key } } 0 false))

/-- R130: `PQ.OFFER` (op 0x31, format E): a payload of NIL raises `NullElement`, before any growth; a full queue that cannot
double raises `Overflow`; otherwise the element is put after the last one and percolates up, the capacity doubles if the
queue was full, and the result is 1. The elements held are the ones before and the new one, and the heap stays a heap. -/
def Obligations.PqOfferInsertsElement : Prop :=
  (∀ (key : Key) (payload : Idx),
    EncodedAs (.pqOffer key payload) (0x3100000000000000 ||| key.setWidth 64 <<< 9 ||| payload.setWidth 64))
  ∧ ∀ (s : State) (key : Key) (payload : Idx),
    (payload = NIL → FaultsWith (.pqOffer key payload) s .nullElement)
    ∧ (payload ≠ NIL → s.pq.heap.length = s.pq.cap → s.params.pqMax < 2 * s.pq.cap →
        FaultsWith (.pqOffer key payload) s .overflow)
    ∧ (payload ≠ NIL → (s.pq.heap.length = s.pq.cap → 2 * s.pq.cap ≤ s.params.pqMax) →
        let el : Elem := key.setWidth 49 <<< 9 ||| payload.setWidth 49
        let heap := percUp s.pq.ord (s.pq.heap.length + 1) (s.pq.heap ++ [el])
        exec (.pqOffer key payload) s =
          .next (completed
            { s with
              pq :=
                { heap := heap
                  cap := if s.pq.heap.length = s.pq.cap then 2 * s.pq.cap else s.pq.cap
                  ord := s.pq.ord } } 1 false)
        ∧ heap.Perm (el :: s.pq.heap)
        ∧ (HeapInv s.pq.ord s.pq.heap → HeapInv s.pq.ord heap))

/-- R131: `PQ.POLL` (op 0x32, format N): an empty queue gives RES = 0 and NONE = 1; otherwise the result is the first element,
which is a minimum of the elements held, and what is left is the others, still a heap: the last element takes the root's
place and percolates down. The capacity does not shrink. -/
def Obligations.PqPollRemovesMinimum : Prop :=
  EncodedAs .pqPoll 0x3200000000000000
  ∧ ∀ s : State,
    (s.pq.heap = [] → exec .pqPoll s = .next (completed s 0 true))
    ∧ (∀ (m : Elem) (tl : List Elem), s.pq.heap = m :: tl →
        let heap := percDown s.pq.ord 1 ((heapAt s.pq.heap s.pq.heap.length :: tl).dropLast)
        exec .pqPoll s = .next (completed { s with pq := { s.pq with heap := heap } } (m.setWidth 64) false)
        ∧ s.pq.heap.Perm (m :: heap)
        ∧ (HeapInv s.pq.ord s.pq.heap →
            HeapInv s.pq.ord heap ∧ ∀ x ∈ s.pq.heap, less s.pq.ord x m = false))

/-- R132, R133, R134: `PQ.PEEK` returns the first element, or RES = 0 and NONE = 1 on an empty queue; `PQ.SIZE` returns the
number of elements; `PQ.CMP` returns 1 under the comparator `KEY` and RES = 0, NONE = 1 under natural ordering. They
change nothing else and never fault. -/
def Obligations.PqQueriesReadTheQueue : Prop :=
  EncodedAs .pqPeek 0x3300000000000000 ∧ EncodedAs .pqSize 0x3400000000000000 ∧ EncodedAs .pqCmp 0x3500000000000000
  ∧ ∀ s : State,
    (s.pq.heap = [] → exec .pqPeek s = .next (completed s 0 true))
    ∧ (∀ m tl, s.pq.heap = m :: tl → exec .pqPeek s = .next (completed s (m.setWidth 64) false))
    ∧ (∃ v, exec .pqSize s = .next (completed s v false) ∧ (s.pq.heap.length < 2 ^ 32 → v.toNat = s.pq.heap.length))
    ∧ (s.pq.ord = .natural → exec .pqCmp s = .next (completed s 0 true))
    ∧ (s.pq.ord = .key → exec .pqCmp s = .next (completed s 1 false))

/-- 41_pqueue.md R135 (c), (d): polling a heap until it is empty gives exactly the elements held, each once, in an order in
which no later one is less than an earlier one. Under natural ordering that is ascending numeric order, the same for every
heap that holds the same elements; under `KEY` the keys, which are the elements divided by 512, are ascending. The two
orderings compare what R121 and R122 say: the 49-bit numbers, and the keys alone. -/
def Obligations.PollsComeOutAscending : Prop :=
  (∀ a b : Elem, (less .natural a b = true ↔ a.toNat < b.toNat) ∧ (less .key a b = true ↔ a.toNat / 512 < b.toNat / 512))
  ∧ (∀ q : Pq, HeapInv q.ord q.heap → q.ord = .key →
      (drain q.heap.length q).Pairwise (fun a b => a.toNat / 512 ≤ b.toNat / 512))
  ∧ (∀ q : Pq, HeapInv q.ord q.heap →
    (drain q.heap.length q).Perm q.heap
      ∧ (drain q.heap.length q).Pairwise (fun a b => less q.ord b a = false))
  ∧ (∀ q r : Pq, HeapInv q.ord q.heap → HeapInv r.ord r.heap → q.ord = .natural → r.ord = .natural →
      q.heap.Perm r.heap →
      drain q.heap.length q = drain r.heap.length r
        ∧ (drain q.heap.length q).Pairwise (fun a b => a.toNat ≤ b.toNat))

/-- The queue of a block without a fault keeps its bounds, the heap invariant and its freedom from missing elements along
every step (10_state.md R30, R31; 41_pqueue.md R121, R135 (a)). -/
def Obligations.StepKeepsQueueInv : Prop :=
  ∀ s t : State, HostInv s → QueueInv s → step s = .next t → QueueInv t

/-! ## Move-to-Front -/

/-- R140, R141, R142: the list starts as 0, 1, …, 255; on a list without repeats the forward step finds the one index p with
`MTFL[p] = b`, the inverse step reads `MTFL[p]`; both then move the entries before p back by one and put the symbol
first. Entries after p stay, and the list stays without repeats. -/
def Obligations.MtfStepsMoveToFront : Prop :=
  (∀ a : Byte, tabGet mtfInit a = a)
  ∧ ∀ l : Table Byte, l.toList.Nodup →
    (∀ b : Byte,
      let (p, l') := mtfEnc l b
      tabGet l p = b ∧ (∀ q, tabGet l q = b → q = p) ∧ l'.toList.Nodup
        ∧ tabGet l' 0 = b
        ∧ (∀ i : Byte, 1 ≤ i.toNat → i.toNat ≤ p.toNat → tabGet l' i = tabGet l (i - 1))
        ∧ (∀ i : Byte, p.toNat < i.toNat → tabGet l' i = tabGet l i))
    ∧ (∀ p : Byte, mtfDec l p = (tabGet l p, (mtfEnc l (tabGet l p)).2))

/-- R145 and R146: `MTF.FWD` (op 0x40) and `MTF.INV` (op 0x41), both format N, write the transform of all of `IN`, whatever the
cursor was, and leave the cursor at the end; `MTFL` is scratch afterwards. Their only fault is `Overflow`. The transforms run
the steps in order on one list that starts as `MtfInit()` (R143, R144): the next byte is ranked, or looked up, in the list that
the steps before it left. So the first output of `MTF.FWD` is the first input byte, and a run of one byte gives its first
position and then zeros. -/
def Obligations.MtfCommandsWriteTransform : Prop :=
  EncodedAs .mtfFwd 0x4000000000000000 ∧ EncodedAs .mtfInv 0x4100000000000000
  ∧ mtfFwd [] = [] ∧ mtfInv [] = []
  ∧ (∀ (x : List Byte) (b : Byte), mtfFwd (x ++ [b]) = mtfFwd x ++ [(mtfEnc (mtfListAfter mtfEnc x) b).1])
  ∧ (∀ (y : List Byte) (p : Byte), mtfInv (y ++ [p]) = mtfInv y ++ [(mtfDec (mtfListAfter mtfDec y) p).1])
  ∧ (∀ (x : List Byte) (b : Byte), (mtfFwd (b :: x)).head? = some b)
  ∧ (∀ (x : List Byte) (b : Byte) (n : Nat),
      mtfFwd (x ++ b :: List.replicate n b) = mtfFwd (x ++ [b]) ++ List.replicate n 0)
  ∧ ∀ s : State,
    (Room s (8 * s.bsr.inp.length) →
      (∃ w m n, exec .mtfFwd s =
          .next (completed
            { s with bsr := { s.bsr with rpos := 8 * s.bsr.inp.length }, bsw := w, mtf := m, stamp := n } 0 false)
        ∧ Appends s.bsw w ((mtfFwd s.bsr.inp).flatMap bitsMsb))
      ∧ (∃ w m n, exec .mtfInv s =
          .next (completed
            { s with bsr := { s.bsr with rpos := 8 * s.bsr.inp.length }, bsw := w, mtf := m, stamp := n } 0 false)
        ∧ Appends s.bsw w ((mtfInv s.bsr.inp).flatMap bitsMsb)))
    ∧ (Memory.wf s = true → ¬ Room s (8 * s.bsr.inp.length) →
      FaultsWith .mtfFwd s .overflow ∧ FaultsWith .mtfInv s .overflow)

/-- 42_mtf.md R147 (a), (b): the two transforms are inverse to each other on all byte sequences, in both orders, and preserve
the length. -/
def Obligations.MtfRoundTrip : Prop :=
  ∀ x : List Byte, mtfInv (mtfFwd x) = x ∧ mtfFwd (mtfInv x) = x
    ∧ (mtfFwd x).length = x.length ∧ (mtfInv x).length = x.length

/-! ## Burrows-Wheeler -/

/-- R151 and R152, on the rotations of 43_bwt.md R150: `rot_less` compares at most n byte pairs, unsigned, and breaks full equality by index; it is a strict total
order on 0..n-1; `ROT` is the one permutation of 0..n-1 that it orders strictly. -/
def Obligations.RotTableIsTheSortedPermutation : Prop :=
  ∀ x : List Byte,
    (∀ i t, x ≠ [] → x[(i + t) % x.length]? = some (rotByte x i t))
    ∧ (∀ i j, i < x.length → j < x.length →
      (rotLess x i j = true ↔
        (∃ t, t < x.length ∧ (∀ u, u < t → rotByte x i u = rotByte x j u) ∧ (rotByte x i t).toNat < (rotByte x j t).toNat)
          ∨ ((∀ u, u < x.length → rotByte x i u = rotByte x j u) ∧ i < j)))
    ∧ (∀ i j, i < x.length → j < x.length → i ≠ j → (rotLess x i j = true ↔ rotLess x j i = false))
    ∧ (∀ i j k, i < x.length → j < x.length → k < x.length →
        rotLess x i j = true → rotLess x j k = true → rotLess x i k = true)
    ∧ (∀ r : List Nat, (r.Perm (List.range x.length) ∧ r.Pairwise (fun i j => rotLess x i j = true)) ↔ r = rotTable x)

/-- 43_bwt.md R153, R154, R159 (b), (c): the index is the position of rotation 0 and below n; the last column is a permutation
of the block; the transform is the index, big-endian, and the last column; that of a
nonempty block has length n + 4, that of the empty block length 0. -/
def Obligations.LastColumnPermutesTheBlock : Prop :=
  ∀ x : List Byte, x ≠ [] →
    rotIndex (rotTable x) < x.length ∧ (rotTable x)[rotIndex (rotTable x)]? = some 0
      ∧ (lastColumn x (rotTable x)).Perm x
      ∧ (∀ p i : Nat, (rotTable x)[p]? = some i →
          (lastColumn x (rotTable x))[p]? = x[(i + x.length - 1) % x.length]?)
      ∧ bwtFwd x = be32 (BitVec.ofNat 32 (rotIndex (rotTable x))) ++ lastColumn x (rotTable x)
      ∧ (bwtFwd x).length = x.length + 4 ∧ bwtFwd [] = []

/-- R155: `NEXT` is the one permutation of 0..n-1 that sorts the positions of the last column by byte value, unsigned, ties by
position. -/
def Obligations.NextTableIsTheStableSort : Prop :=
  ∀ (l : List Byte) (r : List Nat),
    (r.Perm (List.range l.length)
      ∧ r.Pairwise (fun i j => (l.getD i 0).toNat < (l.getD j 0).toNat ∨ (l.getD i 0 = l.getD j 0 ∧ i < j)))
    ↔ r = nextTable l

/-- R157: `BWT.FWD` (op 0x50, format N) writes the 4-byte index and the last column of all of `IN`; on an empty `IN` it only
rewinds the cursor. `ROT` is scratch afterwards. Its only fault is `Overflow`. -/
def Obligations.BwtFwdWritesTransform : Prop :=
  EncodedAs .bwtFwd 0x5000000000000000
  ∧ ∀ s : State,
    (s.bsr.inp = [] → exec .bwtFwd s = .next (completed { s with bsr := { s.bsr with rpos := 0 } } 0 false))
    ∧ (s.bsr.inp ≠ [] → Room s (8 * (s.bsr.inp.length + 4)) →
      ∃ w rot n, exec .bwtFwd s =
          .next (completed
            { s with
              bsr := { s.bsr with rpos := 8 * s.bsr.inp.length }
              bsw := w, bwt := { s.bwt with rot := rot }, stamp := n } 0 false)
        ∧ Appends s.bsw w ((bwtFwd s.bsr.inp).flatMap bitsMsb))
    ∧ (s.bsr.inp ≠ [] → Memory.wf s = true → ¬ Room s (8 * (s.bsr.inp.length + 4)) → FaultsWith .bwtFwd s .overflow)

/-- R158: `BWT.INV` (op 0x51, format N): an empty `IN` and a header alone write nothing; 1 to 3 bytes raise
`UnexpectedEof`; an index c ≥ n raises `CorruptHeader`; otherwise n bytes are written that walk `NEXT` from `NEXT[c]`.
`NEXT` is scratch afterwards; `Overflow` is raised only after both input faults. -/
def Obligations.BwtInvWritesInverse : Prop :=
  EncodedAs .bwtInv 0x5100000000000000
  ∧ ∀ s : State,
    (s.bsr.inp = [] → exec .bwtInv s = .next (completed { s with bsr := { s.bsr with rpos := 0 } } 0 false))
    ∧ (1 ≤ s.bsr.inp.length → s.bsr.inp.length < 4 → FaultsWith .bwtInv s .unexpectedEof)
    ∧ (s.bsr.inp.length = 4 → exec .bwtInv s = .next (completed { s with bsr := { s.bsr with rpos := 32 } } 0 false))
    ∧ (∀ (c : Word32) (l : List Byte), s.bsr.inp = be32 c ++ l → l ≠ [] →
        (l.length ≤ c.toNat → FaultsWith .bwtInv s .corruptHeader)
        ∧ (c.toNat < l.length → Room s (8 * l.length) →
          ∃ y w nx n, exec .bwtInv s =
              .next (completed
                { s with
                  bsr := { s.bsr with rpos := 8 * s.bsr.inp.length }
                  bsw := w, bwt := { s.bwt with next := nx }, stamp := n } 0 false)
            ∧ Appends s.bsw w (y.flatMap bitsMsb)
            ∧ bwtInv s.bsr.inp = .ok y ∧ y.length = l.length
            ∧ (∀ i, i < l.length →
                y[i]? = l[(Nat.iterate (fun p => (nextTable l).getD p 0) (i + 1)) c.toNat]?))
        ∧ (c.toNat < l.length → Memory.wf s = true → ¬ Room s (8 * l.length) → FaultsWith .bwtInv s .overflow))

/-- 43_bwt.md R159 (a), (d): the inverse transform undoes the forward transform on every block, blocks with equal rotations
among them; the length bound is the one of the 4-byte index. -/
def Obligations.BwtRoundTrip : Prop :=
  ∀ x : List Byte, x.length < 2 ^ 32 → bwtInv (bwtFwd x) = .ok x

/-! ## Huffman -/

/-- R166, R167, R168: `HUF.FCLR` empties the mapping, `HUF.FSET` sets one entry and keeps the others, `HUF.FCNT` counts the
bytes of all of `IN` and leaves the cursor at its end. They change nothing else and never fault. -/
def Obligations.FrequencyCommands : Prop :=
  EncodedAs .hufFclr 0x6000000000000000
  ∧ (∀ (sym : Byte) (count : Count),
      EncodedAs (.hufFset sym count) (0x6100000000000000 ||| count.setWidth 64 <<< 8 ||| sym.setWidth 64))
  ∧ EncodedAs .hufFcnt 0x6200000000000000
  ∧ ∀ s : State,
    (∃ f, exec .hufFclr s = .next (completed { s with huf := { s.huf with freq := f } } 0 false)
      ∧ ∀ a, tabGet f a = 0)
    ∧ (∀ sym count, ∃ f, exec (.hufFset sym count) s = .next (completed { s with huf := { s.huf with freq := f } } 0 false)
      ∧ ∀ a, tabGet f a = if a = sym then count else tabGet s.huf.freq a)
    ∧ (∃ f, exec .hufFcnt s =
          .next (completed
            { s with
              bsr := { s.bsr with rpos := 8 * s.bsr.inp.length }
              huf := { s.huf with freq := f } } 0 false)
      ∧ (s.bsr.inp.length < 2 ^ 32 → ∀ a, (tabGet f a).toNat = s.bsr.inp.count a))

/-- R173: `HUF.BUILD` (op 0x63, format N) on an empty mapping raises `InvalidArgument`. Otherwise the unit holds a full binary
tree whose leaves are the k symbols of the mapping, its leaves numbered 0..k-1 in ascending order with their counts, each
internal node's frequency the sum of its children's, 2k-1 nodes with the root last; the queue is empty, natural, its
capacity the least PQ_DEFAULT_CAP·2^j that is at least k; `FREQ` and everything else is unchanged. -/
def Obligations.HufBuildMakesTree : Prop :=
  EncodedAs .hufBuild 0x6300000000000000
  ∧ ∀ s : State,
    ((∀ a, tabGet s.huf.freq a = 0) → FaultsWith .hufBuild s .invalidArgument)
    ∧ (s.params.legal = true → (∃ a, tabGet s.huf.freq a ≠ 0) →
      let syms := allSyms.filter (fun a => tabGet s.huf.freq a ≠ 0)
      ∃ (h : Huf) (q : Pq) (tr : HTree), exec .hufBuild s = .next (completed { s with huf := h, pq := q } 0 false)
        ∧ HoldsTree h tr ∧ tr.syms.Perm syms ∧ h.freq = s.huf.freq
        ∧ h.node.length + 1 = 2 * syms.length ∧ h.root.toNat + 1 = h.node.length
        ∧ (∀ (i : Nat) (a : Byte), syms[i]? = some a →
            ∃ n : Node, h.node[i]? = some n ∧ n.kind = .leaf ∧ n.sym = a ∧ n.freq = (tabGet s.huf.freq a).setWidth 40)
        ∧ (∀ n ∈ h.node, n.kind = .internal →
            ∃ l r, nodeAt h.node n.left = some l ∧ nodeAt h.node n.right = some r
              ∧ n.freq.toNat = l.freq.toNat + r.freq.toNat)
        ∧ QueueAfterBuild s.params syms.length q)

/-- R171 (with R174): the construction equals the one without a heap, which always merges the two smallest pairs
(frequency, index): the same nodes, the same root. -/
def Obligations.BuildEqualsHeapFreeConstruction : Prop :=
  ∀ (p : Params) (f : Table Count), p.legal = true → freqEmpty f = false →
    ∃ h q, buildTree p f = .ok (h, q) ∧ (h.node, h.root.toNat) = hufBuildRef f

/-- R176 and R177: `HUF.WHDR` (op 0x64, format N) without a tree raises `InvalidArgument`; with one it writes the tree's
preorder header, 10k-1 bits for k leaves, and changes nothing else. -/
def Obligations.WhdrWritesHeader : Prop :=
  EncodedAs .hufWhdr 0x6400000000000000
  ∧ ∀ s : State,
    (s.huf.tree = false → FaultsWith .hufWhdr s .invalidArgument)
    ∧ (∀ tr, HoldsTree s.huf tr →
      tr.hdr.length + 1 = 10 * tr.syms.length
      ∧ hdrBits s.huf = .ok tr.hdr
      ∧ (Room s tr.hdr.length →
        ∃ w, exec .hufWhdr s = .next (completed { s with bsw := w } 0 false) ∧ Appends s.bsw w tr.hdr)
      ∧ (Memory.wf s = true → ¬ Room s tr.hdr.length → FaultsWith .hufWhdr s .overflow))

/-- 44_huffman.md R178, R179, R183 (d): `HUF.RHDR` (op 0x65, format N) completes exactly when the bits from the current cursor
begin with the header of a tree with distinct symbols; it then holds that tree, numbered in preorder, frequencies 0, the
cursor just after the header, `FREQ` and everything else unchanged. -/
def Obligations.RhdrParsesExactlyHeaders : Prop :=
  EncodedAs .hufRhdr 0x6500000000000000
  ∧ (∀ (s : State) (tr : HTree) (more : Bits), tr.syms.Nodup → s.bsr.rest = tr.hdr ++ more →
    ∃ h, exec .hufRhdr s =
        .next (completed { s with bsr := { s.bsr with rpos := s.bsr.rpos + tr.hdr.length }, huf := h } 0 false)
      ∧ HoldsTree h tr ∧ RepAt h.node tr NIL h.root (List.range h.node.length) ∧ h.freq = s.huf.freq
      ∧ ∀ n ∈ h.node, n.freq = 0)
  ∧ (∀ s t : State, s.ctl.fault = false → exec .hufRhdr s = .next t → t.ctl.fault = false →
    ∃ (tr : HTree) (more : Bits), tr.syms.Nodup ∧ s.bsr.rest = tr.hdr ++ more)

/-- 44_huffman.md R178, 60_exceptions.md R214, R215 (a), (b), R220: the two faults of a header parse. `HUF.RHDR` ends in the
fault whose condition comes first in reading order, whatever stands after it, and in no other: a symbol that already has a
leaf and a 256th internal tag raise `CorruptHeader`, a stream that ends before a tag or inside a symbol raises
`UnexpectedEof`. So a whole header with a repeated symbol and 256 internal tags in a row raise `CorruptHeader`; a stream that
ends inside the header of a tree with distinct symbols raises `UnexpectedEof`. -/
def Obligations.RhdrFaultsByReadingOrder : Prop :=
  (∀ (s : State) (k : FaultKind), HeaderFault s.bsr.rest k → FaultsWith .hufRhdr s k)
  ∧ (∀ s t : State, s.ctl.fault = false → exec .hufRhdr s = .next t → t.ctl.fault = true →
    ∃ k, HeaderFault s.bsr.rest k ∧ t.ctl.err = k.code)
  ∧ (∀ (s : State) (tr : HTree) (more : Bits), ¬ tr.syms.Nodup → s.bsr.rest = tr.hdr ++ more →
    FaultsWith .hufRhdr s .corruptHeader)
  ∧ (∀ (s : State) (more : Bits), s.bsr.rest = List.replicate 256 true ++ more → FaultsWith .hufRhdr s .corruptHeader)
  ∧ (∀ (s : State) (tr : HTree) (more : Bits), tr.syms.Nodup → tr.hdr = s.bsr.rest ++ more → more ≠ [] →
    FaultsWith .hufRhdr s .unexpectedEof)

/-- R180: `HUF.ENC` (op 0x66, format Y) without a tree, then with a symbol that the tree does not have, raises
`InvalidArgument`; otherwise it writes the path from the root to the symbol's leaf, left 0 and right 1, and changes nothing
else; nothing for a one-leaf tree. -/
def Obligations.EncWritesCodeword : Prop :=
  (∀ a : Byte, EncodedAs (.hufEnc a) (0x6600000000000000 ||| a.setWidth 64))
  ∧ ∀ (s : State) (a : Byte),
    (s.huf.tree = false → FaultsWith (.hufEnc a) s .invalidArgument)
    ∧ (∀ tr, HoldsTree s.huf tr →
      (a ∉ tr.syms → tabGet s.huf.symidx a = NIL ∧ FaultsWith (.hufEnc a) s .invalidArgument)
      ∧ (∀ u, tr.code a = some u →
        codeword s.huf a = .ok u ∧ u.length ≤ 255
        ∧ (Room s u.length →
          ∃ w, exec (.hufEnc a) s = .next (completed { s with bsw := w } 0 false) ∧ Appends s.bsw w u)
        ∧ (Memory.wf s = true → ¬ Room s u.length → FaultsWith (.hufEnc a) s .overflow))
      ∧ (a ∈ tr.syms → ∃ u, tr.code a = some u))

/-- R181: `HUF.DEC` (op 0x67, format N) without a tree raises `InvalidArgument`; if the next bits are a codeword of the tree it
returns the symbol and moves the cursor by exactly those bits, none for a one-leaf tree; if the stream ends before a leaf
is reached it raises `UnexpectedEof`. Nothing else changes. -/
def Obligations.DecReadsCodeword : Prop :=
  EncodedAs .hufDec 0x6700000000000000
  ∧ ∀ s : State,
    (s.huf.tree = false → FaultsWith .hufDec s .invalidArgument)
    ∧ (∀ tr, HoldsTree s.huf tr →
      (∀ (a : Byte) (u more : Bits), tr.code a = some u → s.bsr.rest = u ++ more →
        exec .hufDec s =
          .next (completed { s with bsr := { s.bsr with rpos := s.bsr.rpos + u.length } } (a.setWidth 64) false)
        ∧ u.length ≤ 255)
      ∧ ((∀ a u, tr.code a = some u → ¬ u <+: s.bsr.rest) → FaultsWith .hufDec s .unexpectedEof))

/-- 44_huffman.md R175: no codeword of the tree held is a prefix of the codeword of another symbol. -/
def Obligations.CodewordsArePrefixFree : Prop :=
  ∀ (h : Huf) (tr : HTree) (a b : Byte) (u v : Bits), HoldsTree h tr →
    tabGet h.symidx a ≠ NIL → tabGet h.symidx b ≠ NIL → codeword h a = .ok u → codeword h b = .ok v → u <+: v → a = b

/-- 44_huffman.md R183 (b): the tree parsed from the header of a tree built from a nonempty mapping has the same leaf symbols
and the same codewords. -/
def Obligations.HeaderRoundTripKeepsCodewords : Prop :=
  ∀ (p : Params) (f : Table Count) (h : Huf) (q : Pq) (bits : Bits) (r : Bsr) (g : Huf), p.legal = true →
    freqEmpty f = false → buildTree p f = .ok (h, q) → hdrBits h = .ok bits → bits <+: r.rest →
    ∃ r' h', parseTree r g = .ok (r', h') ∧ r' = { r with rpos := r.rpos + bits.length }
      ∧ ∀ a, (tabGet h'.symidx a = NIL ↔ tabGet h.symidx a = NIL)
          ∧ (tabGet h.symidx a ≠ NIL → codeword h' a = codeword h a)

/-- The tree of a block without a fault keeps its invariants along every step: while TREE = 1 the nodes form one full binary
tree with distinct symbols, parents and SYMIDX in agreement; while TREE = 0 there is no node and the root is NIL
(10_state.md R37, R38; R37 against U16 is the model's reading, log 21). -/
def Obligations.StepKeepsTreeInv : Prop :=
  ∀ s t : State, HostInv s → StreamInv s → TreeInv s → step s = .next t → TreeInv t

/-! ## Compressors -/

/-- R195 and R197: `HC.COMPRESS` (op 0x70, format N) on an empty `IN` only rewinds; otherwise it counts the bytes of `IN`,
builds the tree, and appends header, 4-byte length, codewords and zero bits up to a byte boundary. The cursor is at the
end, `FREQ` holds the counts, the queue is as R173 says, nothing else changes. Its only fault is `Overflow`. -/
def Obligations.HcCompressWritesLayout : Prop :=
  EncodedAs .hcCompress 0x7000000000000000
  ∧ ∀ s : State,
    (s.bsr.inp = [] → exec .hcCompress s = .next (completed { s with bsr := { s.bsr with rpos := 0 } } 0 false))
    ∧ (s.bsr.inp ≠ [] → s.params.legal = true → Memory.wf s = true → s.bsw.aligned →
      ∃ h q tr, buildTree s.params (countBytes s.bsr.inp) = .ok (h, q) ∧ HoldsTree h tr
        ∧ (∀ a, (tabGet h.freq a).toNat = s.bsr.inp.count a) ∧ QueueAfterBuild s.params tr.syms.length q
        ∧ (let body := tr.layout s.bsr.inp
          let bits := body ++ padBits (s.bsw.bits.length + body.length)
          (Room s bits.length →
            ∃ w, exec .hcCompress s =
                .next (completed
                  { s with
                    bsr := { s.bsr with rpos := 8 * s.bsr.inp.length }
                    bsw := w, huf := h, pq := q } 0 false)
              ∧ Appends s.bsw w bits ∧ w.wcnt = 0)
          ∧ (¬ Room s bits.length → FaultsWith .hcCompress s .overflow)))

/-- R198, R199: `HC.EXPAND` (op 0x71, format N), from the start of `IN`: an empty `IN` changes only the cursor; a layout gives the
bytes it was made of, the tree parsed, the cursor just after the last codeword, what follows not read. The faults: those of
the header parse, in reading order; a stream that ends inside the count raises `UnexpectedEof`; a negative count raises
`CorruptHeader`; a stream that ends inside a codeword raises `UnexpectedEof`, where the symbols decoded before fit `OUT`
(60_exceptions.md R220). `FREQ`, the queue and everything else are untouched. -/
def Obligations.HcExpandReadsLayout : Prop :=
  EncodedAs .hcExpand 0x7100000000000000
  ∧ ∀ s : State,
    (s.bsr.inp = [] → exec .hcExpand s = .next (completed { s with bsr := { s.bsr with rpos := 0 } } 0 false))
    ∧ (∀ (tr : HTree) (x : List Byte) (more : Bits), tr.syms.Nodup → (∀ a ∈ x, a ∈ tr.syms) → x.length < 2 ^ 31 →
        s.bsr.bits = tr.layout x ++ more →
        (Room s (8 * x.length) →
          ∃ w h, exec .hcExpand s =
              .next (completed
                { s with bsr := { s.bsr with rpos := (tr.layout x).length }, bsw := w, huf := h } 0 false)
            ∧ Appends s.bsw w (x.flatMap bitsMsb) ∧ HoldsTree h tr ∧ h.freq = s.huf.freq)
        ∧ (Memory.wf s = true → ¬ Room s (8 * x.length) → FaultsWith .hcExpand s .overflow))
    ∧ (∀ (tr : HTree) (v : Word32) (more : Bits), tr.syms.Nodup → v.toInt < 0 →
        s.bsr.bits = tr.hdr ++ (bitsMsb v ++ more) → FaultsWith .hcExpand s .corruptHeader)
    ∧ (∀ (tr : HTree) (x : List Byte) (more : Bits), tr.syms.Nodup → (∀ a ∈ x, a ∈ tr.syms) → x.length < 2 ^ 31 →
        tr.layout x = s.bsr.bits ++ more → more ≠ [] → s.bsr.inp ≠ [] → Room s (8 * x.length) →
        FaultsWith .hcExpand s .unexpectedEof)
    ∧ (∀ k, s.bsr.inp ≠ [] → HeaderFault s.bsr.bits k → FaultsWith .hcExpand s k)
    ∧ (∀ (tr : HTree) (part : Bits), tr.syms.Nodup → part.length < 32 → s.bsr.bits = tr.hdr ++ part →
        FaultsWith .hcExpand s .unexpectedEof)
    ∧ (∀ (tr : HTree) (v : Word32) (x : List Byte) (a : Byte) (u w : Bits), tr.syms.Nodup → (∀ b ∈ x, b ∈ tr.syms) →
        (x.length : Int) < v.toInt → tr.code a = some (u ++ w) → w ≠ [] →
        s.bsr.bits = tr.hdr ++ (bitsMsb v ++ (tr.codes x ++ u)) → Room s (8 * x.length) →
        FaultsWith .hcExpand s .unexpectedEof)

/-- 45_compressors.md R204: on a nonempty `IN`, a compress or expand command that completes has exactly the effect of the sequence of primitive
commands that the rule lists. -/
def Obligations.HcCommandsEqualPrimitiveCommands : Prop :=
  (∀ s t : State, s.params.legal = true → Memory.wf s = true → s.ctl.fault = false → s.bsr.inp ≠ [] →
    exec .hcCompress s = .next t → t.ctl.fault = false →
    andThen (execAll [.hufFcnt, .hufBuild, .hufWhdr, .bsWint (BitVec.ofNat 32 s.bsr.inp.length), .bsRrst] s) (fun u =>
      andThen (encodeLoop s.bsr.inp.length u) (exec .bsFlush)) = .next t)
  ∧ (∀ s t : State, s.ctl.fault = false → s.bsr.inp ≠ [] → exec .hcExpand s = .next t → t.ctl.fault = false →
    andThen (execAll [.bsRrst, .hufRhdr, .bsRint] s) (fun u => expandLoop u.ctl.res.toInt.toNat u) = .next t)

/-- R203, the Huffman-only compressor: from an empty writer and no fault, loading x, compressing, resetting the writer, loading
what was written and expanding gives x back, wherever the compression did not overflow `OUT` and x fits in it. -/
def Obligations.HcRoundTrip : Prop :=
  ∀ (s t : State) (x : List Byte), s.params.legal = true → s.ctl.fault = false → s.bsw = Bsw.empty →
    x.length ≤ s.params.nmax → (∀ c, s.params.outCap = some c → x.length ≤ c) →
    exec .hcCompress (hostLoadIn x s) = .next t → t.ctl.fault = false →
    ∃ u v, exec .bsWrst t = .next u ∧ exec .hcExpand (hostLoadIn t.bsw.out u) = .next v
      ∧ v.ctl.fault = false ∧ v.bsw.out = x ∧ v.bsw.wcnt = 0

/-- R200 and R201: `BW.COMPRESS` (op 0x72, format N) on an empty `IN` only rewinds; otherwise it appends the 4-byte rotation
index verbatim, then the Huffman-only layout of the rank stream, then zero bits up to a byte boundary; `FREQ` holds the
counts of the rank stream. Its only fault is `Overflow`. -/
def Obligations.BwCompressWritesLayout : Prop :=
  EncodedAs .bwCompress 0x7200000000000000
  ∧ ∀ s : State,
    (s.bsr.inp = [] → exec .bwCompress s = .next (completed { s with bsr := { s.bsr with rpos := 0 } } 0 false))
    ∧ (s.bsr.inp ≠ [] → s.params.legal = true → Memory.wf s = true → s.bsw.aligned →
      let rot := rotTable s.bsr.inp
      let ranks := mtfFwd (lastColumn s.bsr.inp rot)
      ∃ h q tr, buildTree s.params (countBytes ranks) = .ok (h, q) ∧ HoldsTree h tr
        ∧ (∀ a, (tabGet h.freq a).toNat = ranks.count a) ∧ QueueAfterBuild s.params tr.syms.length q
        ∧ (let body := bitsMsb (BitVec.ofNat 32 (rotIndex rot)) ++ tr.layout ranks
          let bits := body ++ padBits (s.bsw.bits.length + body.length)
          (Room s bits.length →
            ∃ w m ro sc n, exec .bwCompress s =
                .next (completed
                  { s with
                    bsr := { s.bsr with rpos := 8 * s.bsr.inp.length }
                    bsw := w, huf := h, pq := q, mtf := m, bwt := { s.bwt with rot := ro }, seq := sc
                    stamp := n } 0 false)
              ∧ Appends s.bsw w bits ∧ w.wcnt = 0)
          ∧ (¬ Room s bits.length → FaultsWith .bwCompress s .overflow)))

/-- R202: `BW.EXPAND` (op 0x73, format N): an empty `IN` changes only the cursor; 1 to 3 bytes raise `UnexpectedEof`; the index
alone, or a layout of no symbols, writes nothing; more than NMAX symbols raise `Overflow`; an index c ≥ n raises
`CorruptHeader`; otherwise the inverse transforms of the decoded rank stream are written. The faults of the Huffman part come
before the test c ≥ n, so they are raised whatever c is (60_exceptions.md R220): those of the header parse, in reading order;
an end inside the count or, with at most NMAX symbols decoded before, inside a codeword raises `UnexpectedEof`; a negative
count raises `CorruptHeader`. -/
def Obligations.BwExpandReadsLayout : Prop :=
  EncodedAs .bwExpand 0x7300000000000000
  ∧ ∀ s : State,
    (s.bsr.inp = [] → exec .bwExpand s = .next (completed { s with bsr := { s.bsr with rpos := 0 } } 0 false))
    ∧ (1 ≤ s.bsr.inp.length → s.bsr.inp.length < 4 → FaultsWith .bwExpand s .unexpectedEof)
    ∧ (s.bsr.inp.length = 4 →
      ∃ m sc n, exec .bwExpand s =
        .next (completed { s with bsr := { s.bsr with rpos := 32 }, mtf := m, seq := sc, stamp := n } 0 false))
    ∧ (∀ (c : Word32) (tr : HTree) (r : List Byte) (more : Bits), tr.syms.Nodup → (∀ a ∈ r, a ∈ tr.syms) →
        r.length < 2 ^ 31 → s.bsr.bits = bitsMsb c ++ (tr.layout r ++ more) →
        (s.params.nmax < r.length → FaultsWith .bwExpand s .overflow)
        ∧ (r.length ≤ s.params.nmax → r ≠ [] → r.length ≤ c.toNat → FaultsWith .bwExpand s .corruptHeader)
        ∧ (r.length ≤ s.params.nmax → (r ≠ [] → c.toNat < r.length) → Room s (8 * r.length) →
          ∃ w h m nx sc n, exec .bwExpand s =
              .next (completed
                { s with
                  bsr := { s.bsr with rpos := 32 + (tr.layout r).length }
                  bsw := w, huf := h, mtf := m, bwt := { s.bwt with next := nx }, seq := sc, stamp := n } 0 false)
            ∧ Appends s.bsw w ((bwtInvCore c.toNat (mtfInv r)).flatMap bitsMsb)
            ∧ HoldsTree h tr ∧ h.freq = s.huf.freq)
        ∧ (r.length ≤ s.params.nmax → r ≠ [] → c.toNat < r.length → Memory.wf s = true → ¬ Room s (8 * r.length) →
          FaultsWith .bwExpand s .overflow))
    ∧ (∀ (c : Word32) (rest : Bits) (k : FaultKind), s.bsr.bits = bitsMsb c ++ rest → rest ≠ [] → HeaderFault rest k →
        FaultsWith .bwExpand s k)
    ∧ (∀ (c : Word32) (tr : HTree) (part : Bits), tr.syms.Nodup → part.length < 32 →
        s.bsr.bits = bitsMsb c ++ (tr.hdr ++ part) → FaultsWith .bwExpand s .unexpectedEof)
    ∧ (∀ (c : Word32) (tr : HTree) (v : Word32) (more : Bits), tr.syms.Nodup → v.toInt < 0 →
        s.bsr.bits = bitsMsb c ++ (tr.hdr ++ (bitsMsb v ++ more)) → FaultsWith .bwExpand s .corruptHeader)
    ∧ (∀ (c : Word32) (tr : HTree) (v : Word32) (r : List Byte) (a : Byte) (u w : Bits), tr.syms.Nodup →
        (∀ b ∈ r, b ∈ tr.syms) → (r.length : Int) < v.toInt → tr.code a = some (u ++ w) → w ≠ [] →
        s.bsr.bits = bitsMsb c ++ (tr.hdr ++ (bitsMsb v ++ (tr.codes r ++ u))) → r.length ≤ s.params.nmax →
        FaultsWith .bwExpand s .unexpectedEof)

/-- R203, the Burrows-Wheeler pipeline: from an empty writer and no fault, loading x, compressing, resetting the writer,
loading what was written and expanding gives x back, wherever the compression did not overflow `OUT` and x fits in it. -/
def Obligations.BwRoundTrip : Prop :=
  ∀ (s t : State) (x : List Byte), s.params.legal = true → s.ctl.fault = false → s.bsw = Bsw.empty →
    x.length ≤ s.params.nmax → (∀ c, s.params.outCap = some c → x.length ≤ c) →
    exec .bwCompress (hostLoadIn x s) = .next t → t.ctl.fault = false →
    ∃ u v, exec .bsWrst t = .next u ∧ exec .bwExpand (hostLoadIn t.bsw.out u) = .next v
      ∧ v.ctl.fault = false ∧ v.bsw.out = x ∧ v.bsw.wcnt = 0

/-! ## The whole machine -/

/-- The streams of a block without a fault keep their bounds along every step: `IN` at most NMAX bytes, `OUT` at most OUT_CAP,
RPOS at most 8·IN_LEN, the bits of WACC below the pending ones 0 (10_state.md R21 to R24; 20_memory.md R68). -/
def Obligations.StepKeepsStreamInv : Prop :=
  ∀ s t : State, StreamInv s → step s = .next t → StreamInv t

/-- The parameters never change, and what the host has left to do is the tail of what it had (00_scope.md R9; 10_state.md R45;
log 2). -/
def Obligations.StepKeepsHostInv : Prop :=
  ∀ s t : State, step s = .next t → t.params = s.params ∧ t.port = s.port.tail ∧ (HostInv s → HostInv t)

/-- 70_reset_and_hazards.md R247: a host operation always returns. From every state that keeps the invariants, a step answers
a next state, never a stop of the model (log 8, 9). -/
def Obligations.EveryHostOperationReturns : Prop :=
  ∀ s : State, HostInv s → StreamInv s → TreeInv s → ∃ t, step s = .next t
end

