-- ==== Sys2Proof/Laws/State.lean ====
section
/-! SUPPORT. One lemma per field per update, each by `rfl`, so that no proof unfolds a record update. -/

namespace Sys2Proof.Machine

/-! ## `complete` -/

@[simp] theorem complete_bsr (d : Done) : (complete d).bsr = d.st.bsr := rfl
@[simp] theorem complete_bsw (d : Done) : (complete d).bsw = d.st.bsw := rfl
@[simp] theorem complete_pq (d : Done) : (complete d).pq = d.st.pq := rfl
@[simp] theorem complete_mtf (d : Done) : (complete d).mtf = d.st.mtf := rfl
@[simp] theorem complete_bwt (d : Done) : (complete d).bwt = d.st.bwt := rfl
@[simp] theorem complete_huf (d : Done) : (complete d).huf = d.st.huf := rfl
@[simp] theorem complete_seq (d : Done) : (complete d).seq = d.st.seq := rfl
@[simp] theorem complete_params (d : Done) : (complete d).params = d.st.params := rfl
@[simp] theorem complete_port (d : Done) : (complete d).port = d.st.port := rfl
@[simp] theorem complete_reply (d : Done) : (complete d).reply = d.st.reply := rfl
@[simp] theorem complete_stamp (d : Done) : (complete d).stamp = d.st.stamp := rfl
@[simp] theorem complete_ctl_res (d : Done) : (complete d).ctl.res = d.res := rfl
@[simp] theorem complete_ctl_none (d : Done) : (complete d).ctl.none = d.none := rfl
@[simp] theorem complete_ctl_fault (d : Done) : (complete d).ctl.fault = d.st.ctl.fault := rfl
@[simp] theorem complete_ctl_err (d : Done) : (complete d).ctl.err = d.st.ctl.err := rfl

/-! ## `completed` -/

@[simp] theorem completed_bsr (s : State) (v : Word) (n : Bool) : (completed s v n).bsr = s.bsr := rfl
@[simp] theorem completed_bsw (s : State) (v : Word) (n : Bool) : (completed s v n).bsw = s.bsw := rfl
@[simp] theorem completed_pq (s : State) (v : Word) (n : Bool) : (completed s v n).pq = s.pq := rfl
@[simp] theorem completed_mtf (s : State) (v : Word) (n : Bool) : (completed s v n).mtf = s.mtf := rfl
@[simp] theorem completed_bwt (s : State) (v : Word) (n : Bool) : (completed s v n).bwt = s.bwt := rfl
@[simp] theorem completed_huf (s : State) (v : Word) (n : Bool) : (completed s v n).huf = s.huf := rfl
@[simp] theorem completed_seq (s : State) (v : Word) (n : Bool) : (completed s v n).seq = s.seq := rfl
@[simp] theorem completed_params (s : State) (v : Word) (n : Bool) : (completed s v n).params = s.params := rfl
@[simp] theorem completed_port (s : State) (v : Word) (n : Bool) : (completed s v n).port = s.port := rfl
@[simp] theorem completed_reply (s : State) (v : Word) (n : Bool) : (completed s v n).reply = s.reply := rfl
@[simp] theorem completed_stamp (s : State) (v : Word) (n : Bool) : (completed s v n).stamp = s.stamp := rfl
@[simp] theorem completed_ctl_res (s : State) (v : Word) (n : Bool) : (completed s v n).ctl.res = v := rfl
@[simp] theorem completed_ctl_none (s : State) (v : Word) (n : Bool) : (completed s v n).ctl.none = n := rfl
@[simp] theorem completed_ctl_fault (s : State) (v : Word) (n : Bool) : (completed s v n).ctl.fault = s.ctl.fault := rfl
@[simp] theorem completed_ctl_err (s : State) (v : Word) (n : Bool) : (completed s v n).ctl.err = s.ctl.err := rfl

/-! ## `enterFault`: what a fault fixes -/

@[simp] theorem enterFault_ctl_fault (k : FaultKind) (s : State) : (enterFault k s).ctl.fault = true := rfl
@[simp] theorem enterFault_ctl_err (k : FaultKind) (s : State) : (enterFault k s).ctl.err = k.code := rfl
@[simp] theorem enterFault_params (k : FaultKind) (s : State) : (enterFault k s).params = s.params := rfl
@[simp] theorem enterFault_port (k : FaultKind) (s : State) : (enterFault k s).port = s.port := rfl
@[simp] theorem enterFault_reply (k : FaultKind) (s : State) : (enterFault k s).reply = s.reply := rfl
@[simp] theorem enterFault_stamp (k : FaultKind) (s : State) : (enterFault k s).stamp = s.stamp + 1 := rfl

/-! ## `hostReset`: what 10_state.md R43 fixes -/

@[simp] theorem hostReset_bsr (s : State) : (hostReset s).bsr = { inp := [], rpos := 0 } := rfl
@[simp] theorem hostReset_bsw (s : State) : (hostReset s).bsw = Bsw.empty := rfl
@[simp] theorem hostReset_ctl (s : State) : (hostReset s).ctl = { res := 0, fault := false, err := 0, none := false } := rfl
@[simp] theorem hostReset_pq (s : State) : (hostReset s).pq = { heap := [], cap := s.params.pqDefaultCap, ord := .natural } := rfl
@[simp] theorem hostReset_huf_freq (s : State) : (hostReset s).huf.freq = tabFill 0 := rfl
@[simp] theorem hostReset_huf_node (s : State) : (hostReset s).huf.node = [] := rfl
@[simp] theorem hostReset_huf_root (s : State) : (hostReset s).huf.root = NIL := rfl
@[simp] theorem hostReset_huf_tree (s : State) : (hostReset s).huf.tree = false := rfl
@[simp] theorem hostReset_params (s : State) : (hostReset s).params = s.params := rfl
@[simp] theorem hostReset_port (s : State) : (hostReset s).port = s.port := rfl
@[simp] theorem hostReset_reply (s : State) : (hostReset s).reply = s.reply := rfl
@[simp] theorem hostReset_stamp (s : State) : (hostReset s).stamp = s.stamp + 1 := rfl

/-! ## `dropMtfl` -/

@[simp] theorem dropMtfl_bsr (s : State) : (dropMtfl s).bsr = s.bsr := rfl
@[simp] theorem dropMtfl_bsw (s : State) : (dropMtfl s).bsw = s.bsw := rfl
@[simp] theorem dropMtfl_ctl (s : State) : (dropMtfl s).ctl = s.ctl := rfl
@[simp] theorem dropMtfl_pq (s : State) : (dropMtfl s).pq = s.pq := rfl
@[simp] theorem dropMtfl_bwt (s : State) : (dropMtfl s).bwt = s.bwt := rfl
@[simp] theorem dropMtfl_huf (s : State) : (dropMtfl s).huf = s.huf := rfl
@[simp] theorem dropMtfl_seq (s : State) : (dropMtfl s).seq = s.seq := rfl
@[simp] theorem dropMtfl_params (s : State) : (dropMtfl s).params = s.params := rfl
@[simp] theorem dropMtfl_port (s : State) : (dropMtfl s).port = s.port := rfl
@[simp] theorem dropMtfl_reply (s : State) : (dropMtfl s).reply = s.reply := rfl
@[simp] theorem dropMtfl_stamp (s : State) : (dropMtfl s).stamp = s.stamp + 1 := rfl

/-! ## `dropRot` -/

@[simp] theorem dropRot_bsr (s : State) : (dropRot s).bsr = s.bsr := rfl
@[simp] theorem dropRot_bsw (s : State) : (dropRot s).bsw = s.bsw := rfl
@[simp] theorem dropRot_ctl (s : State) : (dropRot s).ctl = s.ctl := rfl
@[simp] theorem dropRot_pq (s : State) : (dropRot s).pq = s.pq := rfl
@[simp] theorem dropRot_mtf (s : State) : (dropRot s).mtf = s.mtf := rfl
@[simp] theorem dropRot_huf (s : State) : (dropRot s).huf = s.huf := rfl
@[simp] theorem dropRot_seq (s : State) : (dropRot s).seq = s.seq := rfl
@[simp] theorem dropRot_params (s : State) : (dropRot s).params = s.params := rfl
@[simp] theorem dropRot_port (s : State) : (dropRot s).port = s.port := rfl
@[simp] theorem dropRot_reply (s : State) : (dropRot s).reply = s.reply := rfl
@[simp] theorem dropRot_stamp (s : State) : (dropRot s).stamp = s.stamp + 1 := rfl
@[simp] theorem dropRot_bwt_next (s : State) : (dropRot s).bwt.next = s.bwt.next := rfl

/-! ## `dropNext` -/

@[simp] theorem dropNext_bsr (s : State) : (dropNext s).bsr = s.bsr := rfl
@[simp] theorem dropNext_bsw (s : State) : (dropNext s).bsw = s.bsw := rfl
@[simp] theorem dropNext_ctl (s : State) : (dropNext s).ctl = s.ctl := rfl
@[simp] theorem dropNext_pq (s : State) : (dropNext s).pq = s.pq := rfl
@[simp] theorem dropNext_mtf (s : State) : (dropNext s).mtf = s.mtf := rfl
@[simp] theorem dropNext_huf (s : State) : (dropNext s).huf = s.huf := rfl
@[simp] theorem dropNext_seq (s : State) : (dropNext s).seq = s.seq := rfl
@[simp] theorem dropNext_params (s : State) : (dropNext s).params = s.params := rfl
@[simp] theorem dropNext_port (s : State) : (dropNext s).port = s.port := rfl
@[simp] theorem dropNext_reply (s : State) : (dropNext s).reply = s.reply := rfl
@[simp] theorem dropNext_stamp (s : State) : (dropNext s).stamp = s.stamp + 1 := rfl
@[simp] theorem dropNext_bwt_rot (s : State) : (dropNext s).bwt.rot = s.bwt.rot := rfl

/-! ## `dropScr` -/

@[simp] theorem dropScr_bsr (s : State) : (dropScr s).bsr = s.bsr := rfl
@[simp] theorem dropScr_bsw (s : State) : (dropScr s).bsw = s.bsw := rfl
@[simp] theorem dropScr_ctl (s : State) : (dropScr s).ctl = s.ctl := rfl
@[simp] theorem dropScr_pq (s : State) : (dropScr s).pq = s.pq := rfl
@[simp] theorem dropScr_mtf (s : State) : (dropScr s).mtf = s.mtf := rfl
@[simp] theorem dropScr_bwt (s : State) : (dropScr s).bwt = s.bwt := rfl
@[simp] theorem dropScr_huf (s : State) : (dropScr s).huf = s.huf := rfl
@[simp] theorem dropScr_params (s : State) : (dropScr s).params = s.params := rfl
@[simp] theorem dropScr_port (s : State) : (dropScr s).port = s.port := rfl
@[simp] theorem dropScr_reply (s : State) : (dropScr s).reply = s.reply := rfl
@[simp] theorem dropScr_stamp (s : State) : (dropScr s).stamp = s.stamp + 1 := rfl

/-! ## `hostLoadIn` -/

@[simp] theorem hostLoadIn_bsr (x : List Byte) (s : State) : (hostLoadIn x s).bsr = { inp := x, rpos := 0 } := rfl
@[simp] theorem hostLoadIn_bsw (x : List Byte) (s : State) : (hostLoadIn x s).bsw = s.bsw := rfl
@[simp] theorem hostLoadIn_ctl (x : List Byte) (s : State) : (hostLoadIn x s).ctl = s.ctl := rfl
@[simp] theorem hostLoadIn_pq (x : List Byte) (s : State) : (hostLoadIn x s).pq = s.pq := rfl
@[simp] theorem hostLoadIn_mtf (x : List Byte) (s : State) : (hostLoadIn x s).mtf = s.mtf := rfl
@[simp] theorem hostLoadIn_bwt (x : List Byte) (s : State) : (hostLoadIn x s).bwt = s.bwt := rfl
@[simp] theorem hostLoadIn_huf (x : List Byte) (s : State) : (hostLoadIn x s).huf = s.huf := rfl
@[simp] theorem hostLoadIn_seq (x : List Byte) (s : State) : (hostLoadIn x s).seq = s.seq := rfl
@[simp] theorem hostLoadIn_params (x : List Byte) (s : State) : (hostLoadIn x s).params = s.params := rfl
@[simp] theorem hostLoadIn_port (x : List Byte) (s : State) : (hostLoadIn x s).port = s.port := rfl
@[simp] theorem hostLoadIn_reply (x : List Byte) (s : State) : (hostLoadIn x s).reply = s.reply := rfl
@[simp] theorem hostLoadIn_stamp (x : List Byte) (s : State) : (hostLoadIn x s).stamp = s.stamp := rfl

/-! ## `placeWord` -/

@[simp] theorem placeWord_bsr (s : State) (w : Nat) : (placeWord s w).bsr = s.bsr := rfl
@[simp] theorem placeWord_bsw (s : State) (w : Nat) : (placeWord s w).bsw = s.bsw := rfl
@[simp] theorem placeWord_ctl (s : State) (w : Nat) : (placeWord s w).ctl = s.ctl := rfl
@[simp] theorem placeWord_pq (s : State) (w : Nat) : (placeWord s w).pq = s.pq := rfl
@[simp] theorem placeWord_mtf (s : State) (w : Nat) : (placeWord s w).mtf = s.mtf := rfl
@[simp] theorem placeWord_bwt (s : State) (w : Nat) : (placeWord s w).bwt = s.bwt := rfl
@[simp] theorem placeWord_huf (s : State) (w : Nat) : (placeWord s w).huf = s.huf := rfl
@[simp] theorem placeWord_seq (s : State) (w : Nat) : (placeWord s w).seq = s.seq := rfl
@[simp] theorem placeWord_params (s : State) (w : Nat) : (placeWord s w).params = s.params := rfl
@[simp] theorem placeWord_port (s : State) (w : Nat) : (placeWord s w).port = .issue (BitVec.ofNat 64 w) :: s.port := rfl
@[simp] theorem placeWord_reply (s : State) (w : Nat) : (placeWord s w).reply = s.reply := rfl
@[simp] theorem placeWord_stamp (s : State) (w : Nat) : (placeWord s w).stamp = s.stamp := rfl

/-! ## `Bsr.rewind` -/

@[simp] theorem Bsr.rewind_inp (r : Bsr) : (r.rewind).inp = r.inp := rfl
@[simp] theorem Bsr.rewind_rpos (r : Bsr) : (r.rewind).rpos = 0 := rfl
@[simp] theorem Bsr.rewind_bitLen (r : Bsr) : (r.rewind).bitLen = r.bitLen := rfl

/-! ## `Bsr.atEnd` -/

@[simp] theorem Bsr.atEnd_inp (r : Bsr) : (r.atEnd).inp = r.inp := rfl
@[simp] theorem Bsr.atEnd_rpos (r : Bsr) : (r.atEnd).rpos = r.bitLen := rfl
@[simp] theorem Bsr.atEnd_bitLen (r : Bsr) : (r.atEnd).bitLen = r.bitLen := rfl

/-! ## `Bsw.push` -/

@[simp] theorem Bsw.push_out (w : Bsw) (acc : BitVec 8) : (w.push acc).out = w.out ++ [acc] := rfl
@[simp] theorem Bsw.push_wacc (w : Bsw) (acc : BitVec 8) : (w.push acc).wacc = 0 := rfl
@[simp] theorem Bsw.push_wcnt (w : Bsw) (acc : BitVec 8) : (w.push acc).wcnt = 0 := rfl

/-! ## `pqInit` -/

@[simp] theorem pqInit_heap (c : Nat) (o : PqOrd) : (pqInit c o).heap = [] := rfl
@[simp] theorem pqInit_cap (c : Nat) (o : PqOrd) : (pqInit c o).cap = c := rfl
@[simp] theorem pqInit_ord (c : Nat) (o : PqOrd) : (pqInit c o).ord = o := rfl

end Sys2Proof.Machine
end

