-- ==== Sys2Proof/Laws/Streams.lean ====
section
/-! SUPPORT. What each stream primitive can do: one lemma per operation, cited instead of unfolding it. -/

namespace Sys2Proof.Machine

/-! ## Bits -/

@[simp] theorem bitsMsb_length {n : Nat} (v : BitVec n) : (bitsMsb v).length = n := by simp [bitsMsb]

theorem bitsMsb_getElem {n : Nat} (v : BitVec n) (i : Nat) (h : i < (bitsMsb v).length) :
    (bitsMsb v)[i] = v.getLsbD (n - 1 - i) := by simp [bitsMsb]

/-- Equal bit sequences come from equal values. -/
theorem bitsMsb_inj {n : Nat} {u v : BitVec n} (h : bitsMsb u = bitsMsb v) : u = v := by
  apply BitVec.eq_of_getLsbD_eq
  intro i hi
  have hu := bitsMsb_getElem u (n - 1 - i) (by simp; omega)
  have hv := bitsMsb_getElem v (n - 1 - i) (by simp; omega)
  have e : n - 1 - (n - 1 - i) = i := by omega
  rw [e] at hu hv
  rw [← hu, ← hv]
  simp [h]

@[simp] theorem be32_length (v : Word32) : (be32 v).length = 4 := rfl

/-! ## Reader -/

theorem rdBit_ok {r : Bsr} (h : r.rpos < r.bitLen) :
    rdBit r = .ok (r.bitAt r.rpos, { r with rpos := r.rpos + 1 }) := by
  simp [rdBit, Nat.not_le.mpr h]

theorem rdBit_eof {r : Bsr} (h : r.bitLen ≤ r.rpos) : rdBit r = .error (.raise .unexpectedEof) := by
  simp [rdBit, h]

/-- Everything `RdBit()` can do when it answers. -/
theorem rdBit_cases {r r' : Bsr} {b : Bool} (h : rdBit r = .ok (b, r')) :
    r.rpos < r.bitLen ∧ b = r.bitAt r.rpos ∧ r' = { r with rpos := r.rpos + 1 } := by
  by_cases hr : r.bitLen ≤ r.rpos
  · simp [rdBit_eof hr] at h
  · rw [rdBit_ok (by omega)] at h
    simp only [Except.ok.injEq, Prod.mk.injEq] at h
    exact ⟨by omega, h.1.symm, h.2.symm⟩

/-- `RdBit()` only ever raises `UnexpectedEof`, and only at the end (60_exceptions.md R214). -/
theorem rdBit_error {r : Bsr} {e : Stop} (h : rdBit r = .error e) :
    e = .raise .unexpectedEof ∧ r.bitLen ≤ r.rpos := by
  by_cases hr : r.bitLen ≤ r.rpos
  · rw [rdBit_eof hr] at h
    exact ⟨by simpa using h.symm, hr⟩
  · simp [rdBit_ok (r := r) (by omega)] at h

/-- Reading `n` bits leaves `IN` and moves the cursor by `n`, within the stream. -/
theorem rdBitsInto_frame {w : Nat} (n : Nat) (v v' : BitVec w) (r r' : Bsr)
    (h : rdBitsInto n v r = .ok (v', r')) :
    r'.inp = r.inp ∧ r'.rpos = r.rpos + n ∧ (n ≠ 0 → r.rpos + n ≤ r.bitLen) := by
  induction n generalizing v r with
  | zero =>
    simp only [rdBitsInto, Except.ok.injEq, Prod.mk.injEq] at h
    simp [h.2]
  | succ n ih =>
    simp only [rdBitsInto, bind, Except.bind] at h
    cases hb : rdBit r with
    | error e => simp [hb] at h
    | ok p =>
      obtain ⟨b, r1⟩ := p
      obtain ⟨hlt, -, rfl⟩ := rdBit_cases hb
      rw [hb] at h
      obtain ⟨h1, h2, h3⟩ := ih _ _ h
      refine ⟨h1, by rw [h2]; simp; omega, fun _ => ?_⟩
      by_cases hn : n = 0
      · subst hn; omega
      · have := h3 hn
        simp only [Bsr.bitLen] at this hlt ⊢
        omega

theorem rdByte_frame {r r' : Bsr} {v : Byte} (h : rdByte r = .ok (v, r')) :
    r'.inp = r.inp ∧ r'.rpos = r.rpos + 8 ∧ r.rpos + 8 ≤ r.bitLen := by
  unfold rdByte at h
  split at h
  · cases h
  · obtain ⟨h1, h2, h3⟩ := rdBitsInto_frame _ _ _ _ _ h
    exact ⟨h1, h2, h3 (by decide)⟩

theorem rdBytesInto_frame (n : Nat) (v v' : Word32) (r r' : Bsr) (h : rdBytesInto n v r = .ok (v', r')) :
    r'.inp = r.inp ∧ r'.rpos = r.rpos + 8 * n := by
  induction n generalizing v r with
  | zero =>
    simp only [rdBytesInto, Except.ok.injEq, Prod.mk.injEq] at h
    simp [h.2]
  | succ n ih =>
    simp only [rdBytesInto, bind, Except.bind] at h
    cases hb : rdByte r with
    | error e => simp [hb] at h
    | ok p =>
      obtain ⟨b, r1⟩ := p
      obtain ⟨h1, h2, -⟩ := rdByte_frame hb
      rw [hb] at h
      obtain ⟨h3, h4⟩ := ih _ _ h
      exact ⟨h3.trans h1, by rw [h4, h2]; omega⟩

theorem rdInt_frame {r r' : Bsr} {v : Word32} (h : rdInt r = .ok (v, r')) :
    r'.inp = r.inp ∧ r'.rpos = r.rpos + 32 ∧ r.rpos + 32 ≤ r.bitLen := by
  unfold rdInt at h
  split at h
  · cases h
  · obtain ⟨h1, h2⟩ := rdBytesInto_frame _ _ _ _ _ h
    exact ⟨h1, h2, by omega⟩

theorem rdBytes_frame (n : Nat) (r r' : Bsr) (bs : List Byte) (h : rdBytes n r = .ok (bs, r')) :
    r'.inp = r.inp ∧ r'.rpos = r.rpos + 8 * n ∧ bs.length = n := by
  induction n generalizing r bs with
  | zero =>
    simp only [rdBytes, Except.ok.injEq, Prod.mk.injEq] at h
    obtain ⟨rfl, rfl⟩ := h
    simp
  | succ n ih =>
    simp only [rdBytes, bind, Except.bind] at h
    cases hb : rdByte r with
    | error e => simp [hb] at h
    | ok p =>
      obtain ⟨b, r1⟩ := p
      obtain ⟨h1, h2, -⟩ := rdByte_frame hb
      simp only [hb] at h
      cases hs : rdBytes n r1 with
      | error e => simp [hs] at h
      | ok q =>
        obtain ⟨cs, r2⟩ := q
        simp only [hs, Except.ok.injEq, Prod.mk.injEq] at h
        obtain ⟨rfl, rfl⟩ := h
        obtain ⟨h3, h4, h5⟩ := ih _ _ hs
        exact ⟨h3.trans h1, by rw [h4, h2]; omega, by simp [h5]⟩

/-! ## Writer -/

theorem putBit_getLsbD (v : BitVec 8) (i j : Nat) (b : Bool) (hi : i < 8) :
    (putBit v i b).getLsbD j = if j = i then b else v.getLsbD j := by
  by_cases hj : j < 8
  · have : ∀ (v : BitVec 8) (i j : Fin 8) (b : Bool),
        (putBit v i b).getLsbD j = if (j : Nat) = i then b else v.getLsbD j := by
      intro v i j b
      simp only [putBit, BitVec.getLsbD_or, BitVec.getLsbD_and, BitVec.getLsbD_not, BitVec.getLsbD_shiftLeft,
        BitVec.getLsbD_setWidth, BitVec.getLsbD_ofBool, BitVec.getLsbD_one]
      have h1 := i.isLt
      have h2 := j.isLt
      by_cases hij : (j : Nat) = i
      · simp [hij]
      · by_cases hlt : (j : Nat) < i
        · simp [hij, hlt]
        · have h3 : ¬ ((j : Nat) - i = 0) := by omega
          simp [hij, hlt, h3]
    exact this v ⟨i, hi⟩ ⟨j, hj⟩ b
  · have hne : j ≠ i := by omega
    simp [hne, BitVec.getLsbD_of_ge _ _ (Nat.le_of_not_lt hj)]

theorem wrBit_overflow {cap : Option Nat} {w : Bsw} (b : Bool) (h : w.wcnt = 7 ∧ w.full cap = true) :
    wrBit cap w b = .error (.raise .overflow) := by
  simp [wrBit, h]

/-- Everything `WrBit(b)` can do when it answers (40_bitstream.md R103). -/
theorem wrBit_cases {cap : Option Nat} {w w' : Bsw} {b : Bool} (h : wrBit cap w b = .ok w') :
    (w.wcnt = 7 ∧ w.full cap = false ∧ w' = w.push (putBit w.wacc 0 b)) ∨
    (w.wcnt ≠ 7 ∧ w' = { w with wacc := putBit w.wacc (7 - w.wcnt.toNat) b, wcnt := w.wcnt + 1 }) := by
  unfold wrBit at h
  split at h
  · cases h
  · rename_i hn
    by_cases h7 : w.wcnt = 7
    · refine .inl ⟨h7, by simpa [h7] using hn, ?_⟩
      simpa [h7] using h.symm
    · rw [if_neg h7] at h
      exact .inr ⟨h7, (Except.ok.inj h).symm⟩

/-- `WrBit(b)` only ever raises `Overflow` (60_exceptions.md R217 (a)). -/
theorem wrBit_error {cap : Option Nat} {w : Bsw} {b : Bool} {e : Stop} (h : wrBit cap w b = .error e) :
    e = .raise .overflow ∧ w.wcnt = 7 ∧ w.full cap = true := by
  unfold wrBit at h
  split at h
  · rename_i hc
    exact ⟨by simpa using h.symm, hc⟩
  · split at h <;> cases h

theorem wcnt_lt (w : Bsw) : w.wcnt.toNat < 8 := w.wcnt.isLt

theorem wcnt_eq_seven {w : Bsw} : w.wcnt = 7 ↔ w.wcnt.toNat = 7 := by
  constructor
  · intro h; simp [h]
  · intro h; exact BitVec.eq_of_toNat_eq (by simp [h])

theorem wcnt_succ {w : Bsw} (h : w.wcnt ≠ 7) : (w.wcnt + 1).toNat = w.wcnt.toNat + 1 := by
  have h1 := wcnt_lt w
  have h2 : w.wcnt.toNat ≠ 7 := fun e => h (wcnt_eq_seven.mpr e)
  rw [BitVec.toNat_add]
  simp
  omega

theorem pending_length (w : Bsw) : w.pending.length = w.wcnt.toNat := by
  have := wcnt_lt w
  simp [Bsw.pending]
  omega

theorem pending_getElem (w : Bsw) (i : Nat) (h : i < w.pending.length) : w.pending[i] = w.wacc.getLsbD (7 - i) := by
  simp [Bsw.pending, bitsMsb]

theorem flatMap_bits_length (l : List Byte) : (l.flatMap bitsMsb).length = 8 * l.length := by
  induction l with
  | nil => simp
  | cons b l ih => simp [List.flatMap_cons, ih]; omega

/-- The accepted bits number 8 per complete byte and one per pending bit (40_bitstream.md R118 (a)). -/
theorem bits_length (w : Bsw) : w.bits.length = 8 * w.out.length + w.wcnt.toNat := by
  rw [Bsw.bits, List.length_append, pending_length, flatMap_bits_length]

/-- Writing one bit appends it to the accepted bits and keeps the form of the pending byte. -/
theorem wrBit_bits {cap : Option Nat} {w w' : Bsw} {b : Bool} (h : wrBit cap w b = .ok w') :
    w'.bits = w.bits ++ [b] ∧ (w.aligned → w'.aligned) := by
  have hlt := wcnt_lt w
  rcases wrBit_cases h with ⟨h7, -, rfl⟩ | ⟨h7, rfl⟩
  · have h7n := wcnt_eq_seven.mp h7
    constructor
    · have hp : w.pending ++ [b] = bitsMsb (putBit w.wacc 0 b) := by
        apply List.ext_getElem
        · simp [pending_length, h7n]
        · intro i hi hi'
          simp only [bitsMsb_length] at hi'
          rw [bitsMsb_getElem, putBit_getLsbD _ _ _ _ (by omega)]
          by_cases h : i < 7
          · rw [List.getElem_append_left (by rw [pending_length]; omega), pending_getElem]
            have : ¬ (8 - 1 - i = 0) := by omega
            simp [this]
          · have : i = 7 := by omega
            subst this
            rw [List.getElem_append_right (by rw [pending_length]; omega)]
            simp
      simp only [Bsw.bits, Bsw.push, List.flatMap_append, List.append_assoc, hp]
      simp [Bsw.pending]
    · intro _ i _
      simp [Bsw.push]
  · have hn : w.wcnt.toNat ≠ 7 := fun e => h7 (wcnt_eq_seven.mpr e)
    have hs := wcnt_succ h7
    constructor
    · simp only [Bsw.bits, List.append_assoc]
      congr 1
      apply List.ext_getElem
      · simp only [pending_length, hs, List.length_append, List.length_singleton]
      · intro i hi hi'
        rw [pending_getElem]
        simp only [pending_length, hs] at hi
        rw [putBit_getLsbD _ _ _ _ (by omega)]
        by_cases h : i < w.wcnt.toNat
        · rw [List.getElem_append_left (by rw [pending_length]; omega), pending_getElem]
          have : ¬ (7 - i = 7 - w.wcnt.toNat) := by omega
          simp [this]
        · have : i = w.wcnt.toNat := by omega
          subst this
          rw [List.getElem_append_right (by rw [pending_length])]
          simp
    · intro ha i hi
      simp only [hs] at hi
      rw [putBit_getLsbD _ _ _ _ (by omega)]
      have : i ≠ 7 - w.wcnt.toNat := by omega
      simp only [this, if_false]
      exact ha i (by omega)

/-- Writing a bit sequence appends it to the accepted bits. -/
theorem wrBits_bits {cap : Option Nat} (bs : Bits) {w w' : Bsw} (h : wrBits cap w bs = .ok w') :
    w'.bits = w.bits ++ bs ∧ (w.aligned → w'.aligned) := by
  induction bs generalizing w with
  | nil =>
    simp only [wrBits, Except.ok.injEq] at h
    simp [h]
  | cons b bs ih =>
    simp only [wrBits, bind, Except.bind] at h
    cases hb : wrBit cap w b with
    | error e => simp [hb] at h
    | ok w1 =>
      rw [hb] at h
      obtain ⟨h1, h2⟩ := wrBit_bits hb
      obtain ⟨h3, h4⟩ := ih h
      exact ⟨by simp [h3, h1], fun ha => h4 (h2 ha)⟩

theorem wrByte_bits {cap : Option Nat} {w w' : Bsw} {v : Byte} (h : wrByte cap w v = .ok w') :
    w'.bits = w.bits ++ bitsMsb v ∧ (w.aligned → w'.aligned) := wrBits_bits _ h

theorem wrBytes_bits {cap : Option Nat} (vs : List Byte) {w w' : Bsw} (h : wrBytes cap w vs = .ok w') :
    w'.bits = w.bits ++ vs.flatMap bitsMsb ∧ (w.aligned → w'.aligned) := by
  induction vs generalizing w with
  | nil =>
    simp only [wrBytes, Except.ok.injEq] at h
    simp [h]
  | cons v vs ih =>
    simp only [wrBytes, bind, Except.bind] at h
    cases hb : wrByte cap w v with
    | error e => simp [hb] at h
    | ok w1 =>
      rw [hb] at h
      obtain ⟨h1, h2⟩ := wrByte_bits hb
      obtain ⟨h3, h4⟩ := ih h
      exact ⟨by simp [h3, h1, List.flatMap_cons], fun ha => h4 (h2 ha)⟩

/-- The bits of a 32-bit number are those of its four big-endian bytes (00_scope.md R11). -/
theorem be32_bits (v : Word32) : (be32 v).flatMap bitsMsb = bitsMsb v := by
  simp [be32, bitsMsb, List.range, List.range.loop]

theorem wrInt_bits {cap : Option Nat} {w w' : Bsw} {v : Word32} (h : wrInt cap w v = .ok w') :
    w'.bits = w.bits ++ bitsMsb v ∧ (w.aligned → w'.aligned) := by
  have := wrBytes_bits _ h
  rwa [be32_bits] at this

/-- Everything `Flush()` can do when it answers (40_bitstream.md R106). -/
theorem flush_cases {cap : Option Nat} {w w' : Bsw} (h : flush cap w = .ok w') :
    (w.wcnt = 0 ∧ w' = w) ∨ (w.wcnt ≠ 0 ∧ w.full cap = false ∧ w' = w.push w.wacc) := by
  unfold flush at h
  split at h
  · rename_i h0
    exact .inl ⟨h0, by simpa using h.symm⟩
  · rename_i h0
    split at h
    · cases h
    · rename_i hf
      exact .inr ⟨h0, by simpa using hf, by simpa using h.symm⟩

/-! ## The byte memories keep their form -/

/-- `OUT` is within its capacity. -/
def Bsw.within (cap : Option Nat) (w : Bsw) : Prop := ∀ c, cap = some c → w.out.length ≤ c

theorem push_within {cap : Option Nat} {w : Bsw} {acc : BitVec 8} (hw : w.within cap) (hf : w.full cap = false) :
    (w.push acc).within cap := by
  intro c hc
  have h1 := hw c hc
  have h2 : c ≠ w.out.length := by simpa [Bsw.full, hc] using hf
  simp
  omega

theorem wrBit_within {cap : Option Nat} {w w' : Bsw} {b : Bool} (hw : w.within cap) (h : wrBit cap w b = .ok w') :
    w'.within cap := by
  rcases wrBit_cases h with ⟨-, hf, rfl⟩ | ⟨-, rfl⟩
  · exact push_within hw hf
  · exact hw

theorem wrBits_within {cap : Option Nat} (bs : Bits) {w w' : Bsw} (hw : w.within cap)
    (h : wrBits cap w bs = .ok w') : w'.within cap := by
  induction bs generalizing w with
  | nil =>
    simp only [wrBits, Except.ok.injEq] at h
    exact h ▸ hw
  | cons b bs ih =>
    simp only [wrBits, bind, Except.bind] at h
    cases hb : wrBit cap w b with
    | error e => simp [hb] at h
    | ok w1 =>
      rw [hb] at h
      exact ih (wrBit_within hw hb) h

theorem wrBytes_within {cap : Option Nat} (vs : List Byte) {w w' : Bsw} (hw : w.within cap)
    (h : wrBytes cap w vs = .ok w') : w'.within cap := by
  induction vs generalizing w with
  | nil =>
    simp only [wrBytes, Except.ok.injEq] at h
    exact h ▸ hw
  | cons v vs ih =>
    simp only [wrBytes, bind, Except.bind] at h
    cases hb : wrByte cap w v with
    | error e => simp [hb] at h
    | ok w1 =>
      rw [hb] at h
      exact ih (wrBits_within _ hw hb) h

theorem flush_within {cap : Option Nat} {w w' : Bsw} (hw : w.within cap) (h : flush cap w = .ok w') :
    w'.within cap := by
  rcases flush_cases h with ⟨-, rfl⟩ | ⟨-, hf, rfl⟩
  · exact hw
  · exact push_within hw hf

theorem memory_wf_iff {s : State} :
    Memory.wf s = true ↔ s.bsr.inp.length ≤ s.params.nmax ∧ s.bsw.within s.params.outCap := by
  cases h : s.params.outCap <;> simp [Memory.wf, Bsw.within, h]

theorem reset_memory_wf : Memory.wf State.reset = true := by decide

/-- `HostLoadIn` of an input the host can load keeps the form. -/
theorem hostLoadIn_memory_wf {s : State} {x : List Byte} (hs : Memory.wf s = true) (hx : x.length ≤ s.params.nmax) :
    Memory.wf (hostLoadIn x s) = true := by
  rw [memory_wf_iff] at hs ⊢
  exact ⟨hx, hs.2⟩

/-- Writing within the capacity keeps the form. -/
theorem write_memory_wf {s : State} {w : Bsw} (hs : Memory.wf s = true) (hw : w.within s.params.outCap) :
    Memory.wf { s with bsw := w } = true := by
  rw [memory_wf_iff] at hs ⊢
  exact ⟨hs.1, hw⟩

/-- Moving the cursor keeps the form. -/
theorem read_memory_wf {s : State} {r : Bsr} (hs : Memory.wf s = true) (hr : r.inp = s.bsr.inp) :
    Memory.wf { s with bsr := r } = true := by
  rw [memory_wf_iff] at hs ⊢
  exact ⟨by simpa [hr] using hs.1, hs.2⟩

end Sys2Proof.Machine
end

