-- ==== Sys2Proof/Laws/Fields.lean ====
section
/-! SUPPORT. What a read returns and when a write completes: every reader primitive gives the next bits of `Bsr.rest`, every
writer primitive is `wrBits` of its bits, and `wrBits` completes exactly where there is room. -/

namespace Sys2Proof.Machine

/-! ## The bits of `IN` -/

/-- Bit `p` of a byte sequence (20_memory.md R62). -/
theorem flatMap_bits_getElem? (l : List Byte) (p : Nat) (h : p < 8 * l.length) :
    (l.flatMap bitsMsb)[p]? = some ((l.getD (p / 8) 0).getLsbD (7 - p % 8)) := by
  induction l generalizing p with
  | nil => simp at h
  | cons v vs ih =>
    rw [List.flatMap_cons]
    by_cases hp : p < 8
    · rw [List.getElem?_append_left (by simpa using hp), List.getElem?_eq_getElem (by simpa using hp), bitsMsb_getElem]
      simp [Nat.div_eq_of_lt hp, Nat.mod_eq_of_lt hp]
    · rw [List.getElem?_append_right (by simp; omega), bitsMsb_length, ih (p - 8) (by simp at h; omega)]
      have h1 : p / 8 = (p - 8) / 8 + 1 := by omega
      have h2 : (p - 8) % 8 = p % 8 := by omega
      simp [h1, h2]

theorem Bsr.bits_length (r : Bsr) : r.bits.length = r.bitLen := flatMap_bits_length r.inp

theorem Bsr.rest_length (r : Bsr) : r.rest.length = r.bitLen - r.rpos := by simp [Bsr.rest, Bsr.bits_length]

/-- The next bit of the stream is the bit at the cursor. -/
theorem Bsr.rest_cons {r : Bsr} (h : r.rpos < r.bitLen) :
    r.rest = r.bitAt r.rpos :: ({ r with rpos := r.rpos + 1 } : Bsr).rest := by
  have hl : r.rpos < r.bits.length := by rwa [Bsr.bits_length]
  have hb := flatMap_bits_getElem? r.inp r.rpos h
  rw [show r.inp.flatMap bitsMsb = r.bits from rfl, List.getElem?_eq_getElem hl] at hb
  simp only [Option.some.injEq] at hb
  rw [Bsr.rest, List.drop_eq_getElem_cons hl, hb]
  rfl

/-- The cursor `n` bits on. -/
theorem Bsr.rest_drop (r : Bsr) (n : Nat) : ({ r with rpos := r.rpos + n } : Bsr).rest = r.rest.drop n := by
  simp [Bsr.rest, Bsr.bits]

/-! ## Shifting bits in -/

/-- `v <- (v << 1) | b` drops the first bit and appends `b`. -/
theorem bitsMsb_shiftIn {w : Nat} (hw : 0 < w) (v : BitVec w) (b : Bool) :
    bitsMsb (v <<< 1 ||| (BitVec.ofBool b).setWidth w) = (bitsMsb v).drop 1 ++ [b] := by
  apply List.ext_getElem
  · simp; omega
  · intro i h1 h2
    simp only [bitsMsb_length] at h1
    rw [bitsMsb_getElem, List.getElem_append]
    simp only [List.length_drop, bitsMsb_length, BitVec.getLsbD_or, BitVec.getLsbD_shiftLeft, BitVec.getLsbD_setWidth]
    split
    · rename_i h3
      rw [List.getElem_drop, bitsMsb_getElem]
      have hi : w - 1 - i - 1 = w - 1 - (1 + i) := by omega
      have hz : BitVec.getLsbD (BitVec.ofBool b) (w - 1 - i) = false := by
        apply BitVec.getLsbD_of_ge; omega
      have hlt : ¬ w - 1 - i < 1 := by omega
      simp [hz, hi, hlt]
      intro; omega
    · rename_i h3
      have hi : i = w - 1 := by omega
      subst hi
      simp [hw]

/-- `v <- (v << 8) | b` drops the first eight bits and appends those of `b`. -/
theorem bitsMsb_shiftInByte (v : Word32) (b : Byte) :
    bitsMsb (v <<< 8 ||| b.setWidth 32) = (bitsMsb v).drop 8 ++ bitsMsb b := by
  simp [bitsMsb, List.range, List.range.loop]

/-! ## What a read returns -/

/-- `n` reads of a bit give the next `n` bits, first bit first. -/
theorem rdBitsInto_ok {w : Nat} (hw : 0 < w) (n : Nat) (v : BitVec w) (r : Bsr) (h : r.rpos + n ≤ r.bitLen) :
    ∃ v', rdBitsInto n v r = .ok (v', { r with rpos := r.rpos + n })
      ∧ bitsMsb v' = (bitsMsb v ++ r.rest.take n).drop n := by
  induction n generalizing v r with
  | zero => exact ⟨v, by simp [rdBitsInto], by simp⟩
  | succ n ih =>
    have hlt : r.rpos < r.bitLen := by omega
    obtain ⟨v', h1, h2⟩ := ih (v <<< 1 ||| (BitVec.ofBool (r.bitAt r.rpos)).setWidth w) { r with rpos := r.rpos + 1 }
      (by simp only [Bsr.bitLen] at h ⊢; omega)
    refine ⟨v', ?_, ?_⟩
    · simp only [rdBitsInto, bind, Except.bind, rdBit_ok hlt]
      rw [h1, show r.rpos + 1 + n = r.rpos + (n + 1) by omega]
    · rw [h2, bitsMsb_shiftIn hw, Bsr.rest_cons hlt, List.take_succ_cons]
      cases hv : bitsMsb v with
      | nil => simp [← bitsMsb_length v, hv] at hw
      | cons a as => simp

/-- `RdByte()` with eight bits left (40_bitstream.md R101). -/
theorem rdByte_ok {r : Bsr} (h : r.rpos + 8 ≤ r.bitLen) :
    ∃ v, rdByte r = .ok (v, { r with rpos := r.rpos + 8 }) ∧ bitsMsb v = r.rest.take 8 := by
  obtain ⟨v, h1, h2⟩ := rdBitsInto_ok (by decide) 8 (0 : Byte) r h
  exact ⟨v, by rw [rdByte, if_neg (by omega)]; exact h1, by rw [h2, List.drop_left' (by simp)]⟩

/-- `RdByte()` raises `UnexpectedEof` only, exactly when fewer than eight bits are left. -/
theorem rdByte_error {r : Bsr} {e : Stop} (h : rdByte r = .error e) : e = .raise .unexpectedEof ∧ r.bitLen < r.rpos + 8 := by
  by_cases hr : r.rpos + 8 ≤ r.bitLen
  · obtain ⟨v, h1, -⟩ := rdByte_ok hr
    simp [h1] at h
  · rw [rdByte, if_pos (by omega)] at h
    exact ⟨by simpa using h.symm, by omega⟩

theorem rdBytesInto_ok (n : Nat) (v : Word32) (r : Bsr) (h : r.rpos + 8 * n ≤ r.bitLen) :
    ∃ v', rdBytesInto n v r = .ok (v', { r with rpos := r.rpos + 8 * n })
      ∧ bitsMsb v' = (bitsMsb v ++ r.rest.take (8 * n)).drop (8 * n) := by
  induction n generalizing v r with
  | zero => exact ⟨v, by simp [rdBytesInto], by simp⟩
  | succ n ih =>
    obtain ⟨b, h1, h2⟩ := rdByte_ok (r := r) (by omega)
    obtain ⟨v', h3, h4⟩ := ih (v <<< 8 ||| b.setWidth 32) { r with rpos := r.rpos + 8 }
      (by simp only [Bsr.bitLen] at h ⊢; omega)
    refine ⟨v', ?_, ?_⟩
    · simp only [rdBytesInto, bind, Except.bind, h1]
      rw [h3, show r.rpos + 8 + 8 * n = r.rpos + 8 * (n + 1) by omega]
    · rw [h4, bitsMsb_shiftInByte, h2, Bsr.rest_drop, List.append_assoc, ← List.take_add,
        show 8 * (n + 1) = 8 + 8 * n by omega, ← List.drop_drop, List.drop_append_of_le_length (i := 8) (by simp)]

/-- `RdInt()` with 32 bits left (40_bitstream.md R102). -/
theorem rdInt_ok {r : Bsr} (h : r.rpos + 32 ≤ r.bitLen) :
    ∃ v, rdInt r = .ok (v, { r with rpos := r.rpos + 32 }) ∧ bitsMsb v = r.rest.take 32 := by
  obtain ⟨v, h1, h2⟩ := rdBytesInto_ok 4 0 r h
  exact ⟨v, by rw [rdInt, if_neg (by omega)]; exact h1, by rw [h2, List.drop_left' (by simp)]⟩

/-- `RdInt()` raises `UnexpectedEof` only, exactly when fewer than 32 bits are left. -/
theorem rdInt_error {r : Bsr} {e : Stop} (h : rdInt r = .error e) : e = .raise .unexpectedEof ∧ r.bitLen < r.rpos + 32 := by
  by_cases hr : r.rpos + 32 ≤ r.bitLen
  · obtain ⟨v, h1, -⟩ := rdInt_ok hr
    simp [h1] at h
  · rw [rdInt, if_pos (by omega)] at h
    exact ⟨by simpa using h.symm, by omega⟩

/-- `n` calls of `RdByte()` with `8·n` bits left. -/
theorem rdBytes_ok (n : Nat) (r : Bsr) (h : r.rpos + 8 * n ≤ r.bitLen) :
    ∃ bs, rdBytes n r = .ok (bs, { r with rpos := r.rpos + 8 * n }) ∧ bs.flatMap bitsMsb = r.rest.take (8 * n) := by
  induction n generalizing r with
  | zero => exact ⟨[], by simp [rdBytes], by simp⟩
  | succ n ih =>
    obtain ⟨b, h1, h2⟩ := rdByte_ok (r := r) (by omega)
    obtain ⟨bs, h3, h4⟩ := ih { r with rpos := r.rpos + 8 } (by simp only [Bsr.bitLen] at h ⊢; omega)
    refine ⟨b :: bs, ?_, ?_⟩
    · simp only [rdBytes, bind, Except.bind, h1, h3]
      rw [show r.rpos + 8 + 8 * n = r.rpos + 8 * (n + 1) by omega]
    · rw [List.flatMap_cons, h2, h4, Bsr.rest_drop, ← List.take_add, show 8 * (n + 1) = 8 + 8 * n by omega]

/-! ## Every writer primitive is `wrBits` -/

theorem wrBits_append (cap : Option Nat) (w : Bsw) (as bs : Bits) :
    wrBits cap w (as ++ bs) = (wrBits cap w as).bind (fun w => wrBits cap w bs) := by
  induction as generalizing w with
  | nil => rfl
  | cons a as ih =>
    simp only [List.cons_append, wrBits, bind, Except.bind]
    cases wrBit cap w a with
    | error e => rfl
    | ok w1 => exact ih w1

theorem wrBytes_eq_wrBits (cap : Option Nat) (w : Bsw) (vs : List Byte) :
    wrBytes cap w vs = wrBits cap w (vs.flatMap bitsMsb) := by
  induction vs generalizing w with
  | nil => rfl
  | cons v vs ih =>
    rw [List.flatMap_cons, wrBits_append]
    simp only [wrBytes, wrByte, bind, Except.bind]
    cases wrBits cap w (bitsMsb v) with
    | error e => rfl
    | ok w1 => exact ih w1

/-- `WrInt(v)` is 32 calls of `WrBit`, `v[31]` first (40_bitstream.md R105). -/
theorem wrInt_eq_wrBits (cap : Option Nat) (w : Bsw) (v : Word32) : wrInt cap w v = wrBits cap w (bitsMsb v) := by
  rw [wrInt, wrBytes_eq_wrBits, be32_bits]

/-- Writing raises `Overflow` only (60_exceptions.md R217 (a)). -/
theorem wrBits_error {cap : Option Nat} (bs : Bits) {w : Bsw} {e : Stop} (h : wrBits cap w bs = .error e) :
    e = .raise .overflow := by
  induction bs generalizing w with
  | nil => simp [wrBits] at h
  | cons b bs ih =>
    simp only [wrBits, bind, Except.bind] at h
    cases hb : wrBit cap w b with
    | error e' =>
      simp only [hb, Except.error.injEq] at h
      exact h ▸ (wrBit_error hb).1
    | ok w1 =>
      rw [hb] at h
      exact ih h

/-- Writing completes where every byte it completes has room. -/
theorem wrBits_ok {cap : Option Nat} (bs : Bits) {w : Bsw}
    (h : ∀ c, cap = some c → (w.bits.length + bs.length) / 8 ≤ c) : ∃ w', wrBits cap w bs = .ok w' := by
  induction bs generalizing w with
  | nil => exact ⟨w, rfl⟩
  | cons b bs ih =>
    cases hb : wrBit cap w b with
    | error e =>
      obtain ⟨-, h7, hf⟩ := wrBit_error hb
      have hc : cap = some w.out.length := by simpa [Bsw.full] using hf
      have := h _ hc
      rw [bits_length, wcnt_eq_seven.mp h7] at this
      simp at this
      omega
    | ok w1 =>
      obtain ⟨w', hw'⟩ := ih (w := w1) (fun c hc => by
        have := h c hc
        rw [(wrBit_bits hb).1]
        simp at this ⊢
        rwa [show w.bits.length + 1 + bs.length = w.bits.length + (bs.length + 1) by omega])
      exact ⟨w', by simp [wrBits, bind, Except.bind, hb, hw']⟩

/-- Writing that completes had room for every byte it completed. -/
theorem wrBits_room {cap : Option Nat} (bs : Bits) {w w' : Bsw} (hw : w.within cap) (h : wrBits cap w bs = .ok w') :
    ∀ c, cap = some c → (w.bits.length + bs.length) / 8 ≤ c := by
  intro c hc
  have h1 := wrBits_within bs hw h c hc
  have h2 := congrArg List.length (wrBits_bits bs h).1
  rw [List.length_append, bits_length w'] at h2
  have := wcnt_lt w'
  omega

theorem flush_error {cap : Option Nat} {w : Bsw} {e : Stop} (h : flush cap w = .error e) :
    e = .raise .overflow ∧ w.wcnt ≠ 0 ∧ w.full cap = true := by
  unfold flush at h
  split at h
  · cases h
  · rename_i h0
    split at h
    · rename_i hf
      exact ⟨by simpa using h.symm, h0, hf⟩
    · cases h

end Sys2Proof.Machine
end

