-- ==== Sys2Proof/Laws/Tables.lean ====
section
/-! SUPPORT. Tables with one entry per symbol, and the node table: what a read gives after a write. -/

namespace Sys2Proof.Machine

@[simp] theorem tabGet_tabFill {α : Type} (x : α) (s : Byte) : tabGet (tabFill x) s = x := by
  simp [tabGet, tabFill]

/-- Reading an entry after writing one. -/
theorem tabGet_tabSet {α : Type} (t : Table α) (s a : Byte) (x : α) :
    tabGet (tabSet t s x) a = if a = s then x else tabGet t a := by
  by_cases h : a = s
  · subst h; simp [tabGet, tabSet]
  · have hn : s.toNat ≠ a.toNat := fun e => h (BitVec.eq_of_toNat_eq e.symm)
    simp [tabGet, tabSet, h, hn, Vector.getElem_set_ne]

/-- Two tables with equal entries are equal. -/
theorem table_ext {α : Type} {t u : Table α} (h : ∀ s, tabGet t s = tabGet u s) : t = u := by
  apply Vector.ext
  intro i hi
  have := h (BitVec.ofNat 8 i)
  simpa [tabGet, Nat.mod_eq_of_lt hi] using this

theorem mem_allSyms (s : Byte) : s ∈ allSyms := by
  simp only [allSyms, List.mem_map, List.mem_range]
  exact ⟨s.toNat, s.isLt, by simp⟩

theorem allSyms_nodup : allSyms.Nodup := by
  unfold allSyms
  refine List.Nodup.map_on ?_ List.nodup_range
  intro a ha b hb h
  have := congrArg BitVec.toNat h
  simp only [List.mem_range] at ha hb
  simpa [Nat.mod_eq_of_lt ha, Nat.mod_eq_of_lt hb] using this

/-- The mapping is empty exactly when every entry is 0 (10_state.md R34). -/
theorem freqEmpty_iff {f : Table Count} : freqEmpty f = true ↔ ∀ s, tabGet f s = 0 := by
  simp only [freqEmpty, List.all_eq_true, beq_iff_eq]
  constructor
  · intro h s
    exact h _ (by simp [tabGet])
  · intro h c hc
    obtain ⟨i, hi, rfl⟩ := List.getElem_of_mem hc
    have hi' : i < 256 := by simpa using hi
    have := h (BitVec.ofNat 8 i)
    simpa [tabGet, Nat.mod_eq_of_lt hi'] using this

/-- A node that the table has lies below its length. -/
theorem nodeAt_lt {nodes : List Node} {i : Idx} {n : Node} (h : nodeAt nodes i = some n) : i.toNat < nodes.length := by
  obtain ⟨hi, -⟩ := List.getElem?_eq_some_iff.mp h
  exact hi

/-- Appending a node keeps the ones before it. -/
theorem nodeAt_append {nodes : List Node} {i : Idx} (n : Node) (h : i.toNat < nodes.length) :
    nodeAt (nodes ++ [n]) i = nodeAt nodes i := by
  simp [nodeAt, List.getElem?_append, h]

/-- The index of the next node is the number of nodes as long as the table has room. -/
theorem nextIdx_toNat {nodes : List Node} (h : nodes.length < 512) : (nextIdx nodes).toNat = nodes.length := by
  simp [nextIdx, Nat.mod_eq_of_lt h]

theorem nodeAt_setParent (nodes : List Node) (i m j : Idx) :
    nodeAt (setParent i m nodes) j = if i = j then (nodeAt nodes j).map (fun n => { n with parent := m }) else nodeAt nodes j := by
  by_cases h : i = j
  · subst h; simp [nodeAt, setParent]
  · have hn : i.toNat ≠ j.toNat := fun e => h (BitVec.eq_of_toNat_eq e)
    simp [nodeAt, setParent, h, hn]

@[simp] theorem setParent_length (nodes : List Node) (i m : Idx) : (setParent i m nodes).length = nodes.length := by
  simp [setParent]

@[simp] theorem setLeft_length (nodes : List Node) (i m : Idx) : (setLeft i m nodes).length = nodes.length := by
  simp [setLeft]

@[simp] theorem setRight_length (nodes : List Node) (i m : Idx) : (setRight i m nodes).length = nodes.length := by
  simp [setRight]

end Sys2Proof.Machine
end

