-- ==== Sys2Proof/Laws/Coders.lean ====
section
/-! SUPPORT. What the Huffman coder's walks and the sequencers can do: what they leave alone, and how they end early. -/

namespace Sys2Proof.Machine

/-- A reader moved forward: the same `IN`, the cursor no earlier and, if it was, still within the stream. -/
def Bsr.Moved (r r' : Bsr) : Prop :=
  r'.inp = r.inp ∧ r.rpos ≤ r'.rpos ∧ (r.rpos ≤ r.bitLen → r'.rpos ≤ r'.bitLen)

theorem Bsr.Moved.refl (r : Bsr) : r.Moved r := ⟨rfl, Nat.le_refl _, id⟩

theorem Bsr.Moved.trans {a b c : Bsr} (h1 : a.Moved b) (h2 : b.Moved c) : a.Moved c :=
  ⟨h2.1.trans h1.1, Nat.le_trans h1.2.1 h2.2.1, fun h => h2.2.2 (h1.2.2 h)⟩

theorem rdBit_moved {r r' : Bsr} {b : Bool} (h : rdBit r = .ok (b, r')) : r.Moved r' := by
  obtain ⟨h1, -, rfl⟩ := rdBit_cases h
  exact ⟨rfl, by simp, fun _ => by simp only [Bsr.bitLen] at h1 ⊢; omega⟩

theorem rdByte_moved {r r' : Bsr} {v : Byte} (h : rdByte r = .ok (v, r')) : r.Moved r' := by
  obtain ⟨h1, h2, h3⟩ := rdByte_frame h
  exact ⟨h1, by omega, fun _ => by simp only [Bsr.bitLen, h1] at h3 ⊢; omega⟩

theorem rdInt_moved {r r' : Bsr} {v : Word32} (h : rdInt r = .ok (v, r')) : r.Moved r' := by
  obtain ⟨h1, h2, h3⟩ := rdInt_frame h
  exact ⟨h1, by omega, fun _ => by simp only [Bsr.bitLen, h1] at h3 ⊢; omega⟩

/-! ## Encoding and decoding a symbol -/

/-- Everything `Enc(sym)` can do when it answers (44_huffman.md R180). -/
theorem enc_cases {cap : Option Nat} {h : Huf} {w w' : Bsw} {a : Byte} (he : enc cap h w a = .ok w') :
    h.tree = true ∧ tabGet h.symidx a ≠ NIL ∧ ∃ u, codeword h a = .ok u ∧ wrBits cap w u = .ok w' := by
  unfold enc at he
  split at he
  · cases he
  · rename_i ht
    split at he
    · cases he
    · rename_i hs
      simp only [bind, Except.bind] at he
      cases hc : codeword h a with
      | error e => simp [hc] at he
      | ok u =>
        rw [hc] at he
        exact ⟨by simpa using ht, hs, u, rfl, he⟩

/-- The descent of R181 only moves the reader. -/
theorem decWalk_moved (nodes : List Node) (fuel : Nat) (i : Idx) (r r' : Bsr) (v : Byte)
    (h : decWalk nodes fuel i r = .ok (v, r')) : r.Moved r' := by
  induction fuel generalizing i r with
  | zero => simp [decWalk] at h
  | succ fuel ih =>
    unfold decWalk at h
    split at h
    · cases h
    · split at h
      · simp only [Except.ok.injEq, Prod.mk.injEq] at h
        exact h.2 ▸ Bsr.Moved.refl r
      · simp only [bind, Except.bind] at h
        cases hb : rdBit r with
        | error e => simp [hb] at h
        | ok p =>
          rw [hb] at h
          exact (rdBit_moved hb).trans (ih _ _ h)

/-- The descent of R181 raises `UnexpectedEof` only. -/
theorem decWalk_error (nodes : List Node) (fuel : Nat) (i : Idx) (r : Bsr) (e : Stop)
    (h : decWalk nodes fuel i r = .error e) : e = .raise .unexpectedEof ∨ e = .stuck .brokenTree := by
  induction fuel generalizing i r with
  | zero => exact .inr (by simpa [decWalk] using h.symm)
  | succ fuel ih =>
    unfold decWalk at h
    split at h
    · exact .inr (by simpa using h.symm)
    · split at h
      · cases h
      · simp only [bind, Except.bind] at h
        cases hb : rdBit r with
        | error e' =>
          simp only [hb, Except.error.injEq] at h
          exact .inl (h ▸ (rdBit_error hb).1)
        | ok p =>
          rw [hb] at h
          exact ih _ _ h

/-- Everything `Dec()` can do when it answers: it has a tree, and only the reader moves (44_huffman.md R181). -/
theorem dec_moved {h : Huf} {r r' : Bsr} {v : Byte} (hd : dec h r = .ok (v, r')) : h.tree = true ∧ r.Moved r' := by
  unfold dec at hd
  split at hd
  · cases hd
  · rename_i ht
    exact ⟨by simpa using ht, decWalk_moved _ _ _ _ _ _ hd⟩

/-! ## Parsing a header -/

/-- What a call of `ParseNode` leaves: the reader moved forward, and nodes were added. -/
theorem parseNode_moved (fuel : Nat) (par i : Idx) (p p' : ParseState) (h : parseNode fuel par p = .ok (i, p')) :
    p.bsr.Moved p'.bsr ∧ p.node.length < p'.node.length := by
  induction fuel generalizing par i p p' with
  | zero => simp [parseNode, raise] at h
  | succ fuel ih =>
    simp only [parseNode, bind, Except.bind] at h
    cases hb : rdBit p.bsr with
    | error e => simp [hb] at h
    | ok q =>
      obtain ⟨t, r⟩ := q
      have hm := rdBit_moved hb
      simp only [hb] at h
      split at h
      · simp only [parseLeaf, bind, Except.bind] at h
        cases hs : rdByte r with
        | error e => simp [hs] at h
        | ok q =>
          simp only [hs] at h
          split at h
          · cases h
          · simp only [Except.ok.injEq, Prod.mk.injEq] at h
            rw [← h.2]
            exact ⟨hm.trans (rdByte_moved hs), by simp⟩
      · split at h
        · cases h
        · split at h
          · cases h
          · rename_i q1 hq1
            obtain ⟨hl1, hl2⟩ := ih _ _ _ _ hq1
            split at h
            · cases h
            · rename_i q2 hq2
              obtain ⟨hr1, hr2⟩ := ih _ _ _ _ hq2
              simp only [Except.ok.injEq, Prod.mk.injEq] at h
              rw [← h.2]
              simp only [setLeft_length] at hr2
              simp only [List.length_append, List.length_singleton] at hl2
              exact ⟨hm.trans (hl1.trans hr1), by simp; omega⟩

/-- A header parse raises `UnexpectedEof` or `CorruptHeader` (60_exceptions.md R214, R215). -/
theorem parseNode_error (fuel : Nat) (par : Idx) (p : ParseState) (e : Stop) (h : parseNode fuel par p = .error e) :
    e = .raise .unexpectedEof ∨ e = .raise .corruptHeader := by
  induction fuel generalizing par p e with
  | zero => exact .inr (by simpa [parseNode, raise] using h.symm)
  | succ fuel ih =>
    simp only [parseNode, bind, Except.bind] at h
    cases hb : rdBit p.bsr with
    | error e' =>
      simp only [hb, Except.error.injEq] at h
      exact .inl (h ▸ (rdBit_error hb).1)
    | ok q =>
      obtain ⟨t, r⟩ := q
      simp only [hb] at h
      split at h
      · simp only [parseLeaf, bind, Except.bind] at h
        cases hs : rdByte r with
        | error e' =>
          simp only [hs, Except.error.injEq] at h
          exact .inl (h ▸ (rdByte_error hs).1)
        | ok q =>
          simp only [hs] at h
          split at h
          · exact .inr (by simpa [raise] using h.symm)
          · cases h
      · split at h
        · exact .inr (by simpa [raise] using h.symm)
        · split at h
          · rename_i e1 he1
            rw [← Except.error.inj h]
            exact ih _ _ _ he1
          · split at h
            · rename_i e2 he2
              rw [← Except.error.inj h]
              exact ih _ _ _ he2
            · cases h

/-- Everything `ParseTree()` leaves alone: `IN` and `FREQ`; a tree is held after it (44_huffman.md R178). -/
theorem parseTree_cases {r r' : Bsr} {h h' : Huf} (hp : parseTree r h = .ok (r', h')) :
    r.Moved r' ∧ h'.tree = true ∧ h'.freq = h.freq ∧ h'.node ≠ [] := by
  simp only [parseTree, bind, Except.bind] at hp
  cases hn : parseNode 256 NIL { bsr := r, node := [], symidx := tabFill NIL, nint := 0 } with
  | error e => simp [hn] at hp
  | ok q =>
    obtain ⟨i, p⟩ := q
    obtain ⟨h1, h2⟩ := parseNode_moved _ _ _ _ _ hn
    simp only [hn, Except.ok.injEq, Prod.mk.injEq] at hp
    obtain ⟨rfl, rfl⟩ := hp
    exact ⟨h1, rfl, rfl, List.ne_nil_of_length_pos h2⟩

theorem parseTree_error {r : Bsr} {h : Huf} {e : Stop} (hp : parseTree r h = .error e) :
    e = .raise .unexpectedEof ∨ e = .raise .corruptHeader := by
  simp only [parseTree, bind, Except.bind] at hp
  cases hn : parseNode 256 NIL { bsr := r, node := [], symidx := tabFill NIL, nint := 0 } with
  | error e' =>
    simp only [hn, Except.error.injEq] at hp
    exact hp ▸ parseNode_error _ _ _ _ hn
  | ok q => simp [hn] at hp

/-! ## Sequencers -/

/-- The decode loop of R198 moves the reader, and what it stores keeps every property that one store keeps. -/
theorem decodeLoop_keeps {σ : Type} (h : Huf) (store : σ → Byte → Except Stop σ) (P : σ → Prop)
    (hP : ∀ a v a', P a → store a v = .ok a' → P a') (n : Nat) (acc acc' : σ) (r r' : Bsr)
    (hd : decodeLoop h store n acc r = .ok (acc', r')) : r.Moved r' ∧ (P acc → P acc') := by
  induction n generalizing acc r with
  | zero =>
    simp only [decodeLoop, Except.ok.injEq, Prod.mk.injEq] at hd
    obtain ⟨rfl, rfl⟩ := hd
    exact ⟨Bsr.Moved.refl r, id⟩
  | succ n ih =>
    simp only [decodeLoop, bind, Except.bind] at hd
    cases h1 : dec h r with
    | error e => simp [h1] at hd
    | ok q =>
      simp only [h1] at hd
      cases h2 : store acc q.1 with
      | error e => simp [h2] at hd
      | ok a =>
        rw [h2] at hd
        obtain ⟨h3, h4⟩ := ih _ _ hd
        exact ⟨(dec_moved h1).2.trans h3, fun hp => h4 (hP _ _ _ hp h2)⟩

/-- Everything `HcExpandSeq()` can do when it answers (45_compressors.md R198). -/
theorem hcExpandSeq_cases {σ : Type} {store : σ → Byte → Except Stop σ} {acc acc' : σ} {r r' : Bsr} {h h' : Huf}
    (hx : hcExpandSeq store acc r h = .ok (acc', r', h')) :
    (r.rpos = r.bitLen ∧ acc' = acc ∧ r' = r ∧ h' = h) ∨
    (∃ r1 r2 n, r.rpos ≠ r.bitLen ∧ parseTree r h = .ok (r1, h') ∧ rdInt r1 = .ok (n, r2) ∧ 0 ≤ n.toInt
      ∧ decodeLoop h' store n.toInt.toNat acc r2 = .ok (acc', r')) := by
  unfold hcExpandSeq at hx
  split at hx
  · rename_i he
    simp only [Except.ok.injEq, Prod.mk.injEq] at hx
    exact .inl ⟨he, hx.1.symm, hx.2.1.symm, hx.2.2.symm⟩
  · rename_i he
    simp only [bind, Except.bind] at hx
    cases h1 : parseTree r h with
    | error e => simp [h1] at hx
    | ok q1 =>
      simp only [h1] at hx
      cases h2 : rdInt q1.1 with
      | error e => simp [h2] at hx
      | ok q2 =>
        simp only [h2] at hx
        split at hx
        · cases hx
        · rename_i hn
          cases h3 : decodeLoop q1.2 store q2.1.toInt.toNat acc q2.2 with
          | error e => simp [h3] at hx
          | ok q3 =>
            simp only [h3, Except.ok.injEq, Prod.mk.injEq] at hx
            obtain ⟨rfl, rfl, rfl⟩ := hx
            exact .inr ⟨q1.1, q2.2, q2.1, he, rfl, h2, by omega, h3⟩

/-- Collecting decoded bytes never exceeds NMAX (45_compressors.md R202). -/
theorem collect_cases {nmax : Nat} {acc acc' : List Byte} {v : Byte} (h : collect nmax acc v = .ok acc') :
    acc.length < nmax ∧ acc' = acc ++ [v] := by
  unfold collect at h
  split at h
  · cases h
  · rename_i hl
    exact ⟨by omega, by simpa using h.symm⟩

end Sys2Proof.Machine
end

