-- ==== Sys2Proof/Laws/Headers.lean ====
section
/-! SUPPORT. Headers turn by turn: the turns of `ParseNode` over a prefix, an append and a whole tree. -/

namespace Sys2Proof.Machine

/-- The codes tell the kinds apart (60_exceptions.md R210). -/
theorem FaultKind.code_inj {j k : FaultKind} (h : j.code = k.code) : j = k := by
  cases j <;> cases k <;> first | rfl | exact absurd h (by decide)

@[simp] theorem tagBits_nil : tagBits [] = [] := rfl
@[simp] theorem tagBits_cons (t : HTag) (ts : List HTag) : tagBits (t :: ts) = t.bits ++ tagBits ts := by simp [tagBits]
@[simp] theorem tagBits_append (ts us : List HTag) : tagBits (ts ++ us) = tagBits ts ++ tagBits us := by simp [tagBits]

@[simp] theorem leafSyms_append (ts us : List HTag) : leafSyms (ts ++ us) = leafSyms ts ++ leafSyms us := by
  induction ts with
  | nil => rfl
  | cons t ts ih => cases t <;> simp [leafSyms, ih]

@[simp] theorem internals_append (ts us : List HTag) : internals (ts ++ us) = internals ts + internals us := by
  induction ts with
  | nil => simp [internals]
  | cons t ts ih => cases t <;> (simp [internals, ih]; try omega)

theorem begun_nil : Begun [] where
  unfinished := by simp [leafSyms]
  distinct := by simp [leafSyms]
  few := by simp [internals]

/-- What is begun was begun at every point before. -/
theorem Begun.of_prefix {ts us : List HTag} (h : Begun ts) (hp : us <+: ts) : Begun us := by
  obtain ⟨vs, rfl⟩ := hp
  refine ⟨fun ws hw => h.unfinished ws (hw.trans (List.prefix_append _ _)), ?_, ?_⟩
  · have := h.distinct
    rw [leafSyms_append] at this
    exact this.of_append_left
  · have := h.few
    rw [internals_append] at this
    omega

/-- `Begun` by evaluation. -/
theorem begun_of_check {ts : List HTag}
    (h : (ts.inits.all (fun us => decide ((leafSyms us).length ≤ internals us))
      && decide (leafSyms ts).Nodup && decide (internals ts ≤ 255)) = true) : Begun ts := by
  simp only [Bool.and_eq_true, List.all_eq_true, decide_eq_true_eq, List.mem_inits] at h
  exact ⟨h.1.1, h.1.2, h.2⟩

/-! ## Whole trees -/

/-- The turns of `ParseNode` over the header of a tree. -/
def HTree.tags : HTree → List HTag
  | .leaf s => [.leaf s]
  | .node l r => .internal :: (l.tags ++ r.tags)

theorem HTree.tagBits_tags (t : HTree) : tagBits t.tags = t.hdr := by
  induction t with
  | leaf s => simp [HTree.tags, HTree.hdr, HTag.bits]
  | node l r hl hr => simp [HTree.tags, HTree.hdr, HTag.bits, hl, hr]

theorem HTree.leafSyms_tags (t : HTree) : leafSyms t.tags = t.syms := by
  induction t with
  | leaf s => rfl
  | node l r hl hr => simp [HTree.tags, HTree.syms, leafSyms, hl, hr]

/-- A full binary tree has one internal node fewer than leaves. -/
theorem HTree.internals_tags (t : HTree) : internals t.tags + 1 = t.syms.length := by
  induction t with
  | leaf s => rfl
  | node l r hl hr => simp [HTree.tags, HTree.syms, internals]; omega

/-- Inside the header of a tree the header is unfinished. -/
theorem HTree.unfinished (t : HTree) {us : List HTag} (hp : us <+: t.tags) (hne : us ≠ t.tags) :
    (leafSyms us).length ≤ internals us := by
  induction t generalizing us with
  | leaf s =>
    rcases List.prefix_cons_iff.mp hp with rfl | ⟨vs, rfl, hv⟩
    · simp [leafSyms]
    · exact absurd (by simp [List.prefix_nil.mp hv, HTree.tags]) hne
  | node l r hl hr =>
    rcases List.prefix_cons_iff.mp hp with rfl | ⟨vs, rfl, hv⟩
    · simp [leafSyms]
    · simp only [leafSyms, internals]
      rcases List.prefix_or_prefix_of_prefix hv (List.prefix_append l.tags r.tags) with h | ⟨ws, rfl⟩
      · by_cases he : vs = l.tags
        · have := HTree.internals_tags l
          rw [he, HTree.leafSyms_tags]
          omega
        · have := hl h he
          omega
      · have h1 := HTree.internals_tags l
        have h2 := hr ((List.prefix_append_right_inj _).mp hv) (by rintro rfl; exact hne rfl)
        simp only [leafSyms_append, internals_append, List.length_append, HTree.leafSyms_tags]
        omega

end Sys2Proof.Machine
end

