-- ==== Sys2Proof/Laws/PerInstr.lean ====
section
/-! SUPPORT. Facts about the encoding of each command, one lemma per constructor. -/

namespace Sys2Proof

open Machine

theorem opOf_encode (i : Instr) : opOf (encode i) = i.opcode := by
  apply BitVec.eq_of_getLsbD_eq
  intro k hk
  have h : 56 + k < 64 := by omega
  simp [opOf, encode, hk, h]

theorem argOf_encode (i : Instr) : argOf (encode i) = i.arg := by
  apply BitVec.eq_of_getLsbD_eq
  intro k hk
  have h : k < 64 := by omega
  simp [argOf, encode, hk, h]

/-- A word is its opcode and its operand field (30_encoding.md R80). -/
theorem word_eq {w w' : CmdWord} (ho : opOf w = opOf w') (ha : argOf w = argOf w') : w = w' := by
  apply BitVec.eq_of_getLsbD_eq
  intro k hk
  by_cases h : k < 56
  · have e := congrArg (fun v => BitVec.getLsbD v k) ha
    simpa [argOf, h] using e
  · have e := congrArg (fun v => BitVec.getLsbD v (k - 56)) ho
    have h1 : k - 56 < 8 := by omega
    have h2 : 56 + (k - 56) = k := by omega
    simpa [opOf, h1, h2] using e

/-! ## The reserved bits of an assembled operand field are 0 (30_encoding.md R81) -/

theorem fmtB_reserved (b : Bool) : field 0 (BitVec.ofBool b) &&& 0xFFFFFFFFFFFFFE#56 = 0 := by
  apply BitVec.eq_of_getLsbD_eq
  intro k hk
  interval_cases k <;> simp [field]

theorem fmtY_reserved (v : Byte) : field 0 v &&& 0xFFFFFFFFFFFF00#56 = 0 := by
  apply BitVec.eq_of_getLsbD_eq
  intro k hk
  interval_cases k <;> simp [field]

theorem fmtI_reserved (v : Word32) : field 0 v &&& 0xFFFFFF00000000#56 = 0 := by
  apply BitVec.eq_of_getLsbD_eq
  intro k hk
  interval_cases k <;> simp [field]

theorem fmtF_reserved (sym : Byte) (count : Count) : (field 8 count ||| field 0 sym) &&& 0xFFFF0000000000#56 = 0 := by
  apply BitVec.eq_of_getLsbD_eq
  intro k hk
  interval_cases k <;> simp [field]

theorem fmtE_reserved (key : Key) (payload : Idx) : (field 9 key ||| field 0 payload) &&& 0xFE000000000000#56 = 0 := by
  apply BitVec.eq_of_getLsbD_eq
  intro k hk
  interval_cases k <;> simp [field]

theorem fmtQ_reserved (ce : Bool) (cap : Word32) (cmp : Byte) :
    (field 40 cmp ||| field 32 (BitVec.ofBool ce) ||| field 0 cap) &&& 0xFF00FE00000000#56 = 0 := by
  apply BitVec.eq_of_getLsbD_eq
  intro k hk
  interval_cases k <;> simp [field]

/-- The operand field of a command has the reserved bits `mask` 0. -/
theorem tableRow_of_arg {i : Instr} {mask : Arg} (hrow : (i.opcode, mask) ∈ opcodeTable) (ha : i.arg &&& mask = 0) :
    ∃ row ∈ opcodeTable, opOf (encode i) = row.1 ∧ argOf (encode i) &&& row.2 = 0 :=
  ⟨_, hrow, opOf_encode i, by rw [argOf_encode]; exact ha⟩

/-- The word of the command stands in the opcode table, and every reserved bit of its format is 0 (30_encoding.md R81,
R86). -/
def Laws.TableRow.Statement (i : Instr) : Prop :=
  ∃ row ∈ opcodeTable, opOf (encode i) = row.1 ∧ argOf (encode i) &&& row.2 = 0

namespace Laws.TableRow

theorem bsRbit : Statement .bsRbit :=
  tableRow_of_arg (mask := 0xFFFFFFFFFFFFFF) (by simp [opcodeTable, Instr.opcode]) (by decide)
theorem bsRbyte : Statement .bsRbyte :=
  tableRow_of_arg (mask := 0xFFFFFFFFFFFFFF) (by simp [opcodeTable, Instr.opcode]) (by decide)
theorem bsRint : Statement .bsRint :=
  tableRow_of_arg (mask := 0xFFFFFFFFFFFFFF) (by simp [opcodeTable, Instr.opcode]) (by decide)
theorem bsRlen : Statement .bsRlen :=
  tableRow_of_arg (mask := 0xFFFFFFFFFFFFFF) (by simp [opcodeTable, Instr.opcode]) (by decide)
theorem bsRrst : Statement .bsRrst :=
  tableRow_of_arg (mask := 0xFFFFFFFFFFFFFF) (by simp [opcodeTable, Instr.opcode]) (by decide)
theorem bsWbit (b : Bool) : Statement (.bsWbit b) :=
  tableRow_of_arg (mask := 0xFFFFFFFFFFFFFE) (by simp [opcodeTable, Instr.opcode]) (fmtB_reserved b)
theorem bsWbyte (v : Byte) : Statement (.bsWbyte v) :=
  tableRow_of_arg (mask := 0xFFFFFFFFFFFF00) (by simp [opcodeTable, Instr.opcode]) (fmtY_reserved v)
theorem bsWint (v : Word32) : Statement (.bsWint v) :=
  tableRow_of_arg (mask := 0xFFFFFF00000000) (by simp [opcodeTable, Instr.opcode]) (fmtI_reserved v)
theorem bsWlen : Statement .bsWlen :=
  tableRow_of_arg (mask := 0xFFFFFFFFFFFFFF) (by simp [opcodeTable, Instr.opcode]) (by decide)
theorem bsWrst : Statement .bsWrst :=
  tableRow_of_arg (mask := 0xFFFFFFFFFFFFFF) (by simp [opcodeTable, Instr.opcode]) (by decide)
theorem bsFlush : Statement .bsFlush :=
  tableRow_of_arg (mask := 0xFFFFFFFFFFFFFF) (by simp [opcodeTable, Instr.opcode]) (by decide)
theorem pqInit (ce : Bool) (cap : Word32) (cmp : Byte) : Statement (.pqInit ce cap cmp) :=
  tableRow_of_arg (mask := 0xFF00FE00000000) (by simp [opcodeTable, Instr.opcode]) (fmtQ_reserved ce cap cmp)
theorem pqOffer (key : Key) (payload : Idx) : Statement (.pqOffer key payload) :=
  tableRow_of_arg (mask := 0xFE000000000000) (by simp [opcodeTable, Instr.opcode]) (fmtE_reserved key payload)
theorem pqPoll : Statement .pqPoll :=
  tableRow_of_arg (mask := 0xFFFFFFFFFFFFFF) (by simp [opcodeTable, Instr.opcode]) (by decide)
theorem pqPeek : Statement .pqPeek :=
  tableRow_of_arg (mask := 0xFFFFFFFFFFFFFF) (by simp [opcodeTable, Instr.opcode]) (by decide)
theorem pqSize : Statement .pqSize :=
  tableRow_of_arg (mask := 0xFFFFFFFFFFFFFF) (by simp [opcodeTable, Instr.opcode]) (by decide)
theorem pqCmp : Statement .pqCmp :=
  tableRow_of_arg (mask := 0xFFFFFFFFFFFFFF) (by simp [opcodeTable, Instr.opcode]) (by decide)
theorem mtfFwd : Statement .mtfFwd :=
  tableRow_of_arg (mask := 0xFFFFFFFFFFFFFF) (by simp [opcodeTable, Instr.opcode]) (by decide)
theorem mtfInv : Statement .mtfInv :=
  tableRow_of_arg (mask := 0xFFFFFFFFFFFFFF) (by simp [opcodeTable, Instr.opcode]) (by decide)
theorem bwtFwd : Statement .bwtFwd :=
  tableRow_of_arg (mask := 0xFFFFFFFFFFFFFF) (by simp [opcodeTable, Instr.opcode]) (by decide)
theorem bwtInv : Statement .bwtInv :=
  tableRow_of_arg (mask := 0xFFFFFFFFFFFFFF) (by simp [opcodeTable, Instr.opcode]) (by decide)
theorem hufFclr : Statement .hufFclr :=
  tableRow_of_arg (mask := 0xFFFFFFFFFFFFFF) (by simp [opcodeTable, Instr.opcode]) (by decide)
theorem hufFset (sym : Byte) (count : Count) : Statement (.hufFset sym count) :=
  tableRow_of_arg (mask := 0xFFFF0000000000) (by simp [opcodeTable, Instr.opcode]) (fmtF_reserved sym count)
theorem hufFcnt : Statement .hufFcnt :=
  tableRow_of_arg (mask := 0xFFFFFFFFFFFFFF) (by simp [opcodeTable, Instr.opcode]) (by decide)
theorem hufBuild : Statement .hufBuild :=
  tableRow_of_arg (mask := 0xFFFFFFFFFFFFFF) (by simp [opcodeTable, Instr.opcode]) (by decide)
theorem hufWhdr : Statement .hufWhdr :=
  tableRow_of_arg (mask := 0xFFFFFFFFFFFFFF) (by simp [opcodeTable, Instr.opcode]) (by decide)
theorem hufRhdr : Statement .hufRhdr :=
  tableRow_of_arg (mask := 0xFFFFFFFFFFFFFF) (by simp [opcodeTable, Instr.opcode]) (by decide)
theorem hufEnc (sym : Byte) : Statement (.hufEnc sym) :=
  tableRow_of_arg (mask := 0xFFFFFFFFFFFF00) (by simp [opcodeTable, Instr.opcode]) (fmtY_reserved sym)
theorem hufDec : Statement .hufDec :=
  tableRow_of_arg (mask := 0xFFFFFFFFFFFFFF) (by simp [opcodeTable, Instr.opcode]) (by decide)
theorem hcCompress : Statement .hcCompress :=
  tableRow_of_arg (mask := 0xFFFFFFFFFFFFFF) (by simp [opcodeTable, Instr.opcode]) (by decide)
theorem hcExpand : Statement .hcExpand :=
  tableRow_of_arg (mask := 0xFFFFFFFFFFFFFF) (by simp [opcodeTable, Instr.opcode]) (by decide)
theorem bwCompress : Statement .bwCompress :=
  tableRow_of_arg (mask := 0xFFFFFFFFFFFFFF) (by simp [opcodeTable, Instr.opcode]) (by decide)
theorem bwExpand : Statement .bwExpand :=
  tableRow_of_arg (mask := 0xFFFFFFFFFFFFFF) (by simp [opcodeTable, Instr.opcode]) (by decide)

end Laws.TableRow

end Sys2Proof
end

