-- ==== Sys2Proof/Laws/Queue.lean ====
section
/-! SUPPORT. What each queue operation can do: the elements held, their number, the capacity. -/

namespace Sys2Proof.Machine

theorem heapAt_eq {h : List Elem} {k : Nat} (h1 : 1 ≤ k) (h2 : k ≤ h.length) :
    heapAt h k = h[k - 1]'(by omega) := by
  have hk : k - 1 < h.length := by omega
  simp [heapAt, List.getD_eq_getElem?_getD, List.getElem?_eq_getElem hk]

@[simp] theorem heapSwap_length (h : List Elem) (i j : Nat) : (heapSwap h i j).length = h.length := by
  simp [heapSwap]

/-- A swap keeps the elements. -/
theorem heapSwap_perm {h : List Elem} {i j : Nat} (hi1 : 1 ≤ i) (hi : i ≤ h.length) (hj1 : 1 ≤ j) (hj : j ≤ h.length) :
    (heapSwap h i j).Perm h := by
  rw [heapSwap, heapAt_eq hi1 hi, heapAt_eq hj1 hj]
  exact List.set_set_perm (by omega) (by omega)

theorem percUpIn_perm (o : PqOrd) (fuel k : Nat) (h : List Elem) (hk : k ≤ h.length) :
    (percUpIn o fuel k h).Perm h := by
  induction fuel generalizing k h with
  | zero => exact .refl _
  | succ n ih =>
    rw [percUpIn]
    split
    · rename_i hc
      have hs : (heapSwap h k (k / 2)).Perm h := heapSwap_perm (by omega) hk (by omega) (by omega)
      exact (ih _ _ (by rw [heapSwap_length]; omega)).trans hs
    · exact .refl _

/-- `PercUp(k)` keeps the elements (41_pqueue.md R124). -/
theorem percUp_perm (o : PqOrd) (k : Nat) (h : List Elem) (hk : k ≤ h.length) : (percUp o k h).Perm h :=
  percUpIn_perm o k k h hk

theorem smallerChild_cases (o : PqOrd) (k : Nat) (h : List Elem) :
    smallerChild o k h = 2 * k ∨ (smallerChild o k h = 2 * k + 1 ∧ 2 * k < h.length) := by
  unfold smallerChild
  split
  · rename_i hc; exact .inr ⟨rfl, hc.1⟩
  · exact .inl rfl

theorem percDownIn_perm (o : PqOrd) (fuel k : Nat) (h : List Elem) (hk : 1 ≤ k) : (percDownIn o fuel k h).Perm h := by
  induction fuel generalizing k h with
  | zero => exact .refl _
  | succ n ih =>
    rw [percDownIn]
    split
    · rename_i hc
      have hj := smallerChild_cases o k h
      dsimp only
      split
      · have hs : (heapSwap h k (smallerChild o k h)).Perm h :=
          heapSwap_perm hk (by omega) (by omega) (by omega)
        exact (ih _ _ (by omega)).trans hs
      · exact .refl _
    · exact .refl _

/-- `PercDown(k)` keeps the elements (41_pqueue.md R125). -/
theorem percDown_perm (o : PqOrd) (k : Nat) (h : List Elem) (hk : 1 ≤ k) : (percDown o k h).Perm h :=
  percDownIn_perm o _ k h hk

@[simp] theorem percUp_length (o : PqOrd) (k : Nat) (h : List Elem) (hk : k ≤ h.length) :
    (percUp o k h).length = h.length := (percUp_perm o k h hk).length_eq

@[simp] theorem percDown_length (o : PqOrd) (h : List Elem) : (percDown o 1 h).length = h.length :=
  (percDown_perm o 1 h (by omega)).length_eq

/-- Everything `Grow()` can do when it answers (41_pqueue.md R126). -/
theorem pqGrow_cases {m : Nat} {q q' : Pq} (h : pqGrow m q = .ok q') : 2 * q.cap ≤ m ∧ q' = { q with cap := 2 * q.cap } := by
  unfold pqGrow at h
  split at h
  · cases h
  · exact ⟨by omega, (Except.ok.inj h).symm⟩

/-- Everything `PqOffer(el)` can do when it answers (41_pqueue.md R127). -/
theorem pqOffer_cases {m : Nat} {el : Elem} {q q' : Pq} (h : pqOffer m el q = .ok q') :
    q'.heap = percUp q.ord (q.heap.length + 1) (q.heap ++ [el]) ∧ q'.ord = q.ord
      ∧ ((q.heap.length ≠ q.cap ∧ q'.cap = q.cap) ∨ (q.heap.length = q.cap ∧ q'.cap = 2 * q.cap ∧ 2 * q.cap ≤ m)) := by
  unfold pqOffer at h
  split at h
  · rename_i hf
    simp only [bind, Except.bind] at h
    cases hg : pqGrow m q with
    | error e => simp [hg] at h
    | ok q1 =>
      obtain ⟨hle, rfl⟩ := pqGrow_cases hg
      simp only [hg, Except.ok.injEq] at h
      subst h
      exact ⟨rfl, rfl, .inr ⟨hf, rfl, hle⟩⟩
  · rename_i hf
    simp only [bind, Except.bind, Except.ok.injEq] at h
    subst h
    exact ⟨rfl, rfl, .inl ⟨hf, rfl⟩⟩

/-- `PqOffer(el)` only ever raises `Overflow` (60_exceptions.md R217 (b)), and only when the queue is full and cannot
double. -/
theorem pqOffer_error {m : Nat} {el : Elem} {q : Pq} {e : Stop} (h : pqOffer m el q = .error e) :
    e = .raise .overflow ∧ q.heap.length = q.cap ∧ m < 2 * q.cap := by
  unfold pqOffer at h
  split at h
  · rename_i hf
    by_cases hm : 2 * q.cap > m
    · simp only [pqGrow, hm, if_true, raise, bind, Except.bind] at h
      exact ⟨by simpa using h.symm, hf, hm⟩
    · simp [pqGrow, hm, bind, Except.bind] at h
  · simp [bind, Except.bind] at h

/-- `PqOffer(el)` adds exactly `el` to the elements held. -/
theorem pqOffer_perm {m : Nat} {el : Elem} {q q' : Pq} (h : pqOffer m el q = .ok q') : q'.heap.Perm (el :: q.heap) := by
  rw [(pqOffer_cases h).1]
  exact (percUp_perm _ _ _ (by simp)).trans (List.perm_append_singleton _ _)

/-- `PqPoll()` on a nonempty queue takes exactly the first element away and leaves capacity and ordering alone
(41_pqueue.md R128). -/
theorem pqPoll_perm {q : Pq} (h : q.heap ≠ []) : q.heap.Perm ((pqPoll q).1 :: (pqPoll q).2.heap) := by
  obtain ⟨m, tl, hq⟩ := List.exists_cons_of_ne_nil h
  have hm : (pqPoll q).1 = m := by simp [pqPoll, heapAt, hq]
  have hp : (pqPoll q).2.heap.Perm tl := by
    refine (percDown_perm _ _ _ (by omega)).trans ?_
    rw [hq]
    rcases List.eq_nil_or_concat tl with rfl | ⟨pre, last, rfl⟩
    · simp
    · have hl : heapAt (m :: (pre ++ [last])) (m :: (pre ++ [last])).length = last := by
        simp [heapAt]
      rw [List.concat_eq_append, hl, List.set_cons_zero, ← List.cons_append, List.dropLast_concat]
      exact (List.perm_append_singleton _ _).symm
  rw [hm, hq]
  exact (hp.symm).cons m

theorem pqPoll_length {q : Pq} (h : q.heap ≠ []) : (pqPoll q).2.heap.length + 1 = q.heap.length := by
  simpa using (pqPoll_perm h).length_eq.symm

@[simp] theorem pqPoll_cap (q : Pq) : (pqPoll q).2.cap = q.cap := rfl
@[simp] theorem pqPoll_ord (q : Pq) : (pqPoll q).2.ord = q.ord := rfl

/-- `less` is a strict order that any two elements can be compared in (41_pqueue.md R122). -/
theorem less_irrefl (o : PqOrd) (a : Elem) : less o a a = false := by
  cases o <;> simp [less]

theorem less_asymm {o : PqOrd} {a b : Elem} (h : less o a b = true) : less o b a = false := by
  cases o <;> simp [less, BitVec.lt_def] at h ⊢ <;> omega

theorem less_trans {o : PqOrd} {a b c : Elem} (h1 : less o a b = true) (h2 : less o b c = true) : less o a c = true := by
  cases o <;> simp [less, BitVec.lt_def] at h1 h2 ⊢ <;> omega

/-- "is never greater than" is transitive. -/
theorem notLess_trans {o : PqOrd} {a b c : Elem} (h1 : less o b a = false) (h2 : less o c b = false) :
    less o c a = false := by
  cases o <;> simp [less, BitVec.le_def] at h1 h2 ⊢ <;> omega

end Sys2Proof.Machine
end

