-- ==== Sys2Proof/Laws/Step.lean ====
section
/-! SUPPORT. What a command's end, a host operation and a step can do: one inversion lemma each. -/

namespace Sys2Proof.Machine

/-! ## The end of a command -/

/-- A next state is a completion or a fault entry (30_encoding.md R85; 60_exceptions.md R216). -/
theorem conclude_cases {s t : State} {e : Except Stop Done} (h : conclude s e = .next t) :
    (∃ d, e = .ok d ∧ t = complete d) ∨ (∃ k, e = .error (.raise k) ∧ t = enterFault k s) := by
  match e, h with
  | .ok d, h => exact .inl ⟨d, rfl, by simpa [conclude] using h.symm⟩
  | .error (.raise k), h => exact .inr ⟨k, rfl, by simpa [conclude] using h.symm⟩
  | .error (.stuck f), h => simp [conclude] at h

/-- A next state without a fault, from a state without one, is a completion. -/
theorem conclude_completes {s t : State} {e : Except Stop Done} (h : conclude s e = .next t) (ht : t.ctl.fault = false) :
    ∃ d, e = .ok d ∧ t = complete d := by
  rcases conclude_cases h with hd | ⟨k, -, rfl⟩
  · exact hd
  · simp at ht

/-- A command never refuses, and stops only where its pseudocode is stuck. -/
theorem conclude_next {s : State} {e : Except Stop Done} (h : ∀ f, e ≠ .error (.stuck f)) :
    ∃ t, conclude s e = .next t := by
  match e, h with
  | .ok d, _ => exact ⟨_, rfl⟩
  | .error (.raise k), _ => exact ⟨_, rfl⟩
  | .error (.stuck f), h => exact absurd rfl (h f)

/-! ## The host port -/

/-- Everything `HostIssue(W)` can do when it answers (30_encoding.md R85; 60_exceptions.md R222). -/
theorem hostIssue_cases {w : CmdWord} {s t : State} (h : hostIssue w s = .next t) :
    (s.ctl.fault = true ∧ t = s)
      ∨ (s.ctl.fault = false ∧ (∃ e, decode w = .error e) ∧ t = enterFault .invalidArgument s)
      ∨ (s.ctl.fault = false ∧ ∃ i, decode w = .ok i ∧ exec i s = .next t) := by
  unfold hostIssue at h
  split at h
  · rename_i hf
    exact .inl ⟨hf, by simpa using h.symm⟩
  · rename_i hf
    have hf : s.ctl.fault = false := by simpa using hf
    split at h
    · rename_i e he
      exact .inr (.inl ⟨hf, ⟨e, he⟩, by simpa using h.symm⟩)
    · rename_i i hi
      exact .inr (.inr ⟨hf, i, hi, h⟩)

/-- The return to the host changes the reply only. -/
theorem withIssued_cases {o : Host.Outcome State Fault Refusal} {t : State} (h : withIssued o = .next t) :
    ∃ u, o = .next u ∧ t = { u with reply := .issued (statusWord u) u.ctl.res } := by
  match o, h with
  | .next u, h => exact ⟨u, rfl, by simpa [withIssued] using h.symm⟩

/-- Everything a step can do when it answers: idle, or serve one of the five host operations (70_reset_and_hazards.md
R240). -/
theorem step_cases {s t : State} (h : step s = .next t) :
    (s.port = [] ∧ t = s)
      ∨ (∃ rest, s.port = .reset :: rest ∧ t = { hostReset { s with port := rest } with reply := .nothing })
      ∨ (∃ x rest, s.port = .loadIn x :: rest ∧ x.length ≤ s.params.nmax
          ∧ ((s.ctl.fault = true ∧ t = { s with port := rest, reply := .nothing })
            ∨ (s.ctl.fault = false ∧ t = { hostLoadIn x { s with port := rest } with reply := .nothing })))
      ∨ (∃ w rest u, s.port = .issue w :: rest ∧ hostIssue w { s with port := rest } = .next u
          ∧ t = { u with reply := .issued (statusWord u) u.ctl.res })
      ∨ (∃ rest, s.port = .readOut :: rest
          ∧ t = { afterRead { s with port := rest } with reply := .bytes (hostReadOut { s with port := rest }) })
      ∨ (∃ r rest, s.port = .readReg r :: rest
          ∧ t = { afterRead { s with port := rest } with reply := .value (hostReadReg r { s with port := rest }) }) := by
  unfold step hostStep at h
  split at h
  · rename_i hp
    exact .inl ⟨hp, by simpa using h.symm⟩
  · rename_i op rest hp
    refine .inr ?_
    match op, hp, h with
    | .reset, hp, h => exact .inl ⟨rest, hp, by simpa [hostOp] using h.symm⟩
    | .loadIn x, hp, h =>
      refine .inr (.inl ⟨x, rest, hp, ?_⟩)
      simp only [hostOp] at h
      split at h
      · cases h
      · rename_i hx
        refine ⟨Nat.le_of_not_lt hx, ?_⟩
        split at h
        · rename_i hf
          exact .inl ⟨hf, by simpa using h.symm⟩
        · rename_i hf
          exact .inr ⟨by simpa using hf, by simpa using h.symm⟩
    | .issue w, hp, h =>
      obtain ⟨u, hu, ht⟩ := withIssued_cases h
      exact .inr (.inr (.inl ⟨w, rest, u, hp, hu, ht⟩))
    | .readOut, hp, h => exact .inr (.inr (.inr (.inl ⟨rest, hp, by simpa [hostOp] using h.symm⟩)))
    | .readReg r, hp, h => exact .inr (.inr (.inr (.inr ⟨r, rest, hp, by simpa [hostOp] using h.symm⟩)))

/-- A read changes the counter of the free values at most. -/
theorem afterRead_cases (s : State) : afterRead s = s ∨ (s.ctl.fault = true ∧ afterRead s = { s with stamp := s.stamp + 1 }) := by
  unfold afterRead
  split
  · rename_i h; exact .inr ⟨h, rfl⟩
  · exact .inl rfl

end Sys2Proof.Machine
end

