-- ==== Sys2Proof/Laws/Transforms.lean ====
section
/-! SUPPORT. The run of a Move-to-Front step function: over an append, its last list, its length. -/

namespace Sys2Proof.Machine

variable (f : Table Byte → Byte → Byte × Table Byte)

/-- The second part of an input is run from the list that the first part left. -/
theorem mtfRun_append (l : Table Byte) (x y : List Byte) :
    mtfRun f l (x ++ y) = ((mtfRun f l x).1 ++ (mtfRun f (mtfRun f l x).2 y).1, (mtfRun f (mtfRun f l x).2 y).2) := by
  induction x generalizing l with
  | nil => rfl
  | cons b x ih => simp [mtfRun, ih]

/-- The list that a run leaves is the steps' lists folded in order. -/
theorem mtfRun_snd (l : Table Byte) (x : List Byte) : (mtfRun f l x).2 = x.foldl (fun l b => (f l b).2) l := by
  induction x generalizing l with
  | nil => rfl
  | cons b x ih => simp [mtfRun, ih]

@[simp] theorem mtfRun_length (l : Table Byte) (x : List Byte) : (mtfRun f l x).1.length = x.length := by
  induction x generalizing l with
  | nil => rfl
  | cons b x ih => simp [mtfRun, ih]

theorem mtfListAfter_eq (x : List Byte) : mtfListAfter f x = (mtfRun f mtfInit x).2 := (mtfRun_snd f mtfInit x).symm

end Sys2Proof.Machine
end

