-- ==== Sys2Proof/Tests/Slice0.lean ====
section
/-! SUPPORT. The model's own tests. Expected values are the spec's: the encodings of 30_encoding.md and the vectors of
95_test_vectors.md, named in each comment. Then, for every statement with hypotheses, states and operands that meet
them. -/

namespace Sys2Proof.Tests

open Machine

/-! ## Helpers -/

/-- The next state of an outcome. -/
def nextOf : Host.Outcome State Fault Refusal → Option State
  | .next t => some t
  | .fault _ => none
  | .refused _ => none

/-- The reset state with `x` loaded. -/
def loaded (x : List Byte) : State := hostLoadIn x State.reset

/-- The same with a finite OUT_CAP. -/
def capped (c : Nat) (x : List Byte) : State :=
  hostLoadIn x (State.resetWith { Config.params with outCap := some c })

/-- The state after the host issued the words, one after the other. -/
def issued (s : State) (ws : List CmdWord) : Option State :=
  ws.foldl (fun o w => o.bind (fun t => nextOf (hostIssue w t))) (some s)

/-- What reading commands show: RES, NONE, RPOS. -/
def seenRead (s : Option State) : Option (Word × Bool × Nat) := s.map (fun t => (t.ctl.res, t.ctl.none, t.bsr.rpos))

/-- What writing commands show: OUT, WCNT, WACC. -/
def seenWrite (s : Option State) : Option (List Byte × BitVec 3 × Byte) :=
  s.map (fun t => (t.bsw.out, t.bsw.wcnt, t.bsw.wacc))

/-- What a fault shows: FAULT, ERR. -/
def seenFault (s : Option State) : Option (Bool × BitVec 3) := s.map (fun t => (t.ctl.fault, t.ctl.err))

/-- What queue commands show: RES, NONE, PQ_CAP, then the heap, elements as the numbers key·512 + payload. -/
def seenQueue (s : Option State) : Option (List Nat) :=
  s.map (fun t => t.ctl.res.toNat :: t.ctl.none.toNat :: t.pq.cap :: t.pq.heap.map BitVec.toNat)

/-! ## WellFormed -/

theorem test_wellFormed_refuses_cap_without_ce : Instr.wf (.pqInit false 4 0) = false := by decide
theorem test_wellFormed_accepts_cap_with_ce : Instr.wf (.pqInit true 4 1) = true := by decide

/-! ## Decoding: a word of each constructor, written out from 30_encoding.md R81, R86 (op in 63:56) -/

theorem test_decode_reader :
    [0x1000000000000000#64, 0x1100000000000000, 0x1200000000000000, 0x1300000000000000, 0x1400000000000000].map
        (fun w => (decode w).toOption) =
      [some .bsRbit, some .bsRbyte, some .bsRint, some .bsRlen, some .bsRrst] := by decide

/-- R90: `BS.WBIT 1`, `BS.WBYTE 0x41`, `BS.WINT 11`, `BS.WINT -1`. -/
theorem test_decode_writer :
    [0x2000000000000001#64, 0x2100000000000041, 0x220000000000000B, 0x22000000FFFFFFFF, 0x2300000000000000,
        0x2400000000000000, 0x2500000000000000].map (fun w => (decode w).toOption) =
      [some (.bsWbit true), some (.bsWbyte 0x41), some (.bsWint 11), some (.bsWint 0xFFFFFFFF), some .bsWlen,
        some .bsWrst, some .bsFlush] := by decide

/-- R90: `PQ.INIT cap=4, cmp=KEY`, `PQ.INIT cap=0`, `PQ.INIT`, `PQ.OFFER 5, 0`, `PQ.OFFER 5, NIL`. -/
theorem test_decode_queue :
    [0x3000010100000004#64, 0x3000000100000000, 0x3000000000000000, 0x3100000000000A00, 0x3100000000000BFF,
        0x3200000000000000, 0x3300000000000000, 0x3400000000000000, 0x3500000000000000].map
        (fun w => (decode w).toOption) =
      [some (.pqInit true 4 1), some (.pqInit true 0 0), some (.pqInit false 0 0), some (.pqOffer 5 0),
        some (.pqOffer 5 0x1FF), some .pqPoll, some .pqPeek, some .pqSize, some .pqCmp] := by decide

theorem test_decode_transforms :
    [0x4000000000000000#64, 0x4100000000000000, 0x5000000000000000, 0x5100000000000000].map
        (fun w => (decode w).toOption) =
      [some .mtfFwd, some .mtfInv, some .bwtFwd, some .bwtInv] := by decide

/-- R90: `HUF.FSET 'a', 5`, `HUF.ENC 'a'`. -/
theorem test_decode_huffman :
    [0x6000000000000000#64, 0x6100000000000561, 0x6200000000000000, 0x6300000000000000, 0x6400000000000000,
        0x6500000000000000, 0x6600000000000061, 0x6700000000000000].map (fun w => (decode w).toOption) =
      [some .hufFclr, some (.hufFset 0x61 5), some .hufFcnt, some .hufBuild, some .hufWhdr, some .hufRhdr,
        some (.hufEnc 0x61), some .hufDec] := by decide

theorem test_decode_compressors :
    [0x7000000000000000#64, 0x7100000000000000, 0x7200000000000000, 0x7300000000000000].map
        (fun w => (decode w).toOption) =
      [some .hcCompress, some .hcExpand, some .bwCompress, some .bwExpand] := by decide

/-- V-ENC1: reserved words. -/
theorem test_decode_reserved :
    [0#64, 0xFFFFFFFFFFFFFFFF, 0x1500000000000000, 0x2600000000000000, 0x7400000000000000, 0x8000000000000000,
        0x1000000000000001, 0x2000000000000002, 0x2100000000000100, 0x2200000100000000, 0x6100010000000000,
        0x3102000000000000, 0x6600000000000161, 0x3001000000000000].map (fun w => (decode w).toOption) =
      List.replicate 14 none := by decide

/-- V-PQ5: `CE` = 0 with `cap` = 4, and arg bit 33, are reserved; `cmp` = 2 is not. -/
theorem test_decode_format_q :
    (decode 0x3000000000000004 = .error .capWithoutCE ∧ decode 0x3000000200000000 = .error .reservedBit)
      ∧ decode 0x3000020000000000 = .ok (.pqInit false 0 2) := by decide

/-- The example lines of R90. -/
theorem test_assembler_examples :
    ["BS.WINT -1", "HUF.FSET 'a', 5", "PQ.OFFER 5, NIL", "PQ.INIT cap=4, cmp=KEY"].map
        (fun l => (Asm.line l.toList).map encode) =
      [some 0x22000000FFFFFFFF#64, some 0x6100000000000561, some 0x3100000000000BFF, some 0x3000010100000004] := by
  decide +kernel

/-! ## Bit stream -/

/-- R107's and R108's examples, V-BS4, V-BS1 steps 7 and 8: a bit, an unaligned byte, a negative integer, the total length
whatever the cursor is, the rewind. -/
theorem test_reads_return_values :
    [issued (loaded [0xA5]) [0x1000000000000000],
      issued (loaded [0xA5, 0xC3]) [0x1000000000000000, 0x1100000000000000],
      issued (loaded [0xFF, 0xFF, 0xFF, 0xFE]) [0x1200000000000000],
      issued (loaded [1, 2, 3, 4, 5, 6, 7]) [0x1100000000000000, 0x1300000000000000],
      issued (loaded [1, 2]) [0x1100000000000000, 0x1400000000000000]].map seenRead =
    [some (1, false, 1), some (0x4B, false, 9), some (0xFFFFFFFFFFFFFFFE, false, 32), some (7, false, 8),
      some (0, false, 0)] := by decide +kernel

/-- V-BS5 (a), (b), (c): no bit, 7 bits, 31 bits left. -/
theorem test_reads_past_the_end_fault :
    [issued (loaded []) [0x1000000000000000],
      issued (loaded [0x80]) [0x1000000000000000, 0x1100000000000000],
      issued (loaded [0x80, 0, 0, 0]) [0x1000000000000000, 0x1200000000000000]].map seenFault =
    [some (true, 4), some (true, 4), some (true, 4)] := by decide +kernel

/-- V-BS2 steps 1, 2, 4, R117's example, and V-BS2 step 11. -/
theorem test_writes_append :
    [issued State.reset [0x2000000000000001],
      issued State.reset [0x2000000000000001, 0x2100000000000041],
      issued State.reset [0x2000000000000001, 0x2100000000000041, 0x220000000000000B],
      issued State.reset [0x2000000000000001, 0x2100000000000041, 0x2500000000000000],
      issued State.reset [0x2100000000000041, 0x2000000000000001, 0x2400000000000000]].map seenWrite =
    [some ([], 1, 0x80), some ([0xA0], 1, 0x80), some ([0xA0, 0x80, 0, 0, 5], 1, 0x80), some ([0xA0, 0x80], 0, 0),
      some ([], 0, 0)] := by decide +kernel

/-- V-BS2 step 3: pending bits are not counted. -/
theorem test_wlen_counts_complete_bytes :
    seenRead (issued State.reset [0x2000000000000001, 0x2100000000000041, 0x2300000000000000]) =
      some (1, false, 0) := by decide +kernel

/-- V-BS6: a byte and a flush into a full `OUT`. -/
theorem test_writes_into_full_out_fault :
    [issued (capped 1 []) [0x21000000000000AA, 0x2000000000000001, 0x2500000000000000],
      issued (capped 1 []) [0x21000000000000AA, 0x2100000000000000]].map seenFault =
    [some (true, 6), some (true, 6)] := by decide +kernel

/-! ## Priority queue -/

/-- V-PQ2 (growth from capacity 1), V-PQ3 step 6 (under `KEY` the last element stays at the root on a tie), V-PQ5 (the empty
queue), R132's example, `PQ.SIZE`, `PQ.CMP` under both orderings. -/
theorem test_queue_commands :
    [issued State.reset [0x3000000100000001, 0x3100000000000A00, 0x3100000000000601],
      issued State.reset
        [0x3000010100000004, 0x3100000000000200, 0x3100000000000201, 0x3100000000000202, 0x3200000000000000],
      issued State.reset [0x3200000000000000],
      issued State.reset [0x3100000000000A00, 0x3300000000000000],
      issued State.reset [0x3100000000000A00, 0x3400000000000000],
      issued State.reset [0x3500000000000000],
      issued State.reset [0x3000010100000004, 0x3500000000000000]].map seenQueue =
    [some [1, 0, 2, 0x601, 0xA00], some [0x200, 0, 4, 0x202, 0x201], some [0, 1, 16], some [0xA00, 0, 16, 0xA00],
      some [1, 0, 16, 0xA00], some [0, 1, 16], some [1, 0, 4]] := by decide +kernel

/-- V-PQ5: a negative capacity, one above PQ_MAX, a missing element. -/
theorem test_queue_faults :
    [issued State.reset [0x30000001FFFFFFFF], issued State.reset [0x3000000100000101],
      issued State.reset [0x3100000000000BFF]].map seenFault =
    [some (true, 1), some (true, 6), some (true, 2)] := by decide +kernel

/-! ## Transforms -/

/-- V-MTF4, V-MTF9. -/
theorem test_mtf :
    [issued (loaded [0x62, 0x61, 0x6E, 0x61, 0x6E, 0x61]) [0x4000000000000000],
      issued (loaded [5, 5, 5]) [0x4100000000000000]].map seenWrite =
    [some ([0x62, 0x62, 0x6E, 1, 1, 1], 0, 0), some ([5, 4, 3], 0, 0)] := by decide +kernel

/-- V-BWT1 (distinct rotations), V-BWT5 (equal rotations), V-BWT2 backwards. -/
theorem test_bwt :
    [issued (loaded [0x6C, 0x75, 0x6B, 0x65]) [0x5000000000000000],
      issued (loaded [0x61, 0x62, 0x61, 0x62]) [0x5000000000000000],
      issued (loaded [0, 0, 0, 2, 0x75, 0x6C, 0x6C, 0x6C]) [0x5100000000000000]].map seenWrite =
    [some ([0, 0, 0, 2, 0x6B, 0x75, 0x65, 0x6C], 0, 0), some ([0, 0, 0, 0, 0x62, 0x62, 0x61, 0x61], 0, 0),
      some ([0x6C, 0x75, 0x6C, 0x6C], 0, 0)] := by decide +kernel

/-- R158: a short input; an index that is not below n. -/
theorem test_bwtInv_faults :
    [issued (loaded [0, 0, 0]) [0x5100000000000000],
      issued (loaded [0, 0, 0, 4, 0x75, 0x6C, 0x6C, 0x6C]) [0x5100000000000000]].map seenFault =
    [some (true, 4), some (true, 5)] := by decide +kernel

/-! ## Huffman -/

/-- R167, R166: the entry written, the others kept, all cleared. -/
theorem test_fset_fclr :
    [issued State.reset [0x6100000000000561], issued State.reset [0x6100000000000561, 0x6000000000000000]].map
        (fun s => s.map (fun t => (tabGet t.huf.freq 0x61, tabGet t.huf.freq 0x62))) =
    [some (5, 0), some (0, 0)] := by decide +kernel

/-- R168's example. -/
theorem test_fcnt_abracadabra :
    (issued (loaded [0x61, 0x62, 0x72, 0x61, 0x63, 0x61, 0x64, 0x61, 0x62, 0x72, 0x61]) [0x6200000000000000]).map
        (fun t => [0x61, 0x62, 0x63, 0x64, 0x72, 0x65].map (fun a => (tabGet t.huf.freq a).toNat)) =
      some [5, 2, 1, 1, 2, 0] := by decide +kernel

/-- R177's header read back (R179): 49 bits, node 0 the root, preorder. -/
theorem test_rhdr_abracadabra :
    (issued (loaded [0x98, 0x73, 0x19, 0x92, 0x62, 0x39, 0]) [0x6500000000000000]).map
        (fun t => (t.bsr.rpos, t.huf.root, t.huf.node.length, t.huf.node.map (fun n => n.sym))) =
      some (49, 0, 9, [0, 0x61, 0, 0, 0x63, 0x64, 0, 0x62, 0x72]) := by decide +kernel

/-- R184: the one-leaf tree has the header `0 01100001` and an empty codeword. R180's example: `HUF.ENC 'c'` writes `100`. -/
theorem test_whdr_enc :
    [issued (loaded [0x30, 0x80]) [0x6500000000000000, 0x6400000000000000],
      issued (loaded [0x30, 0x80]) [0x6500000000000000, 0x6600000000000061],
      issued (loaded [0x98, 0x73, 0x19, 0x92, 0x62, 0x39, 0]) [0x6500000000000000, 0x6600000000000063]].map seenWrite =
    [some ([0x30], 1, 0x80), some ([], 0, 0), some ([], 3, 0x80)] := by decide +kernel

/-- R184: decoding with one leaf reads nothing. R181's example: the bits `101` are `d`. -/
theorem test_dec :
    [issued (loaded [0x30, 0x80]) [0x6500000000000000, 0x6700000000000000],
      issued (loaded [0x98, 0x73, 0x19, 0x92, 0x62, 0x39, 0x50]) [0x6500000000000000, 0x6700000000000000]].map seenRead =
    [some (0x61, false, 9), some (0x64, false, 52)] := by decide +kernel

/-- V-HUF8 (a leaf twice), V-HUF9 (no tree, empty mapping), R180 (an unknown symbol). -/
theorem test_huffman_faults :
    [issued (loaded [0x98, 0x4C, 0x20]) [0x6500000000000000],
      issued State.reset [0x6400000000000000], issued State.reset [0x6600000000000061],
      issued State.reset [0x6700000000000000], issued State.reset [0x6300000000000000],
      issued (loaded [0x30, 0x80]) [0x6500000000000000, 0x660000000000007A]].map seenFault =
    [some (true, 5), some (true, 1), some (true, 1), some (true, 1), some (true, 1), some (true, 1)] := by
  decide +kernel

/-! ## Compressors -/

/-- V-HC3 backwards. -/
theorem test_hcExpand_aaaa :
    seenWrite (issued (loaded [0x30, 0x80, 0, 0, 2, 0]) [0x7100000000000000]) =
      some ([0x61, 0x61, 0x61, 0x61], 0, 0) := by decide +kernel

/-- V-HC9: a negative count, an end in the header. V-BW8: an index that is not below n. -/
theorem test_expand_faults :
    [issued (loaded [0x30, 0xC0, 0, 0, 0, 0]) [0x7100000000000000],
      issued (loaded [0x98, 0x73]) [0x7100000000000000],
      issued (loaded [0, 0, 0, 4, 0x80, 0x26, 0xD3, 0xA8, 0, 0, 0, 0x27, 0]) [0x7300000000000000]].map seenFault =
    [some (true, 5), some (true, 4), some (true, 5)] := by decide +kernel

/-- V-BW4 backwards. -/
theorem test_bwExpand_lull :
    seenWrite (issued (loaded [0, 0, 0, 2, 0x80, 0x26, 0xD3, 0xA8, 0, 0, 0, 0x27, 0]) [0x7300000000000000]) =
      some ([0x6C, 0x75, 0x6C, 0x6C], 0, 0) := by decide +kernel

/-! ## Witnesses: for each statement of Certificates/Slice0/Obligations.lean that has hypotheses, what meets them -/

/-- A next state that meets a check is a next state that meets it. -/
theorem next_of_check {o : Host.Outcome State Fault Refusal} {p : State → Bool} (h : (nextOf o).any p = true) :
    ∃ t, o = .next t ∧ p t = true := by
  match o, h with
  | .next t, h => exact ⟨t, rfl, by simpa [nextOf] using h⟩

/-- The reset state with host operations pending. -/
def pending (ops : List HostOp) : State := { State.reset with port := ops }

/-- The same in the fault state, ERR the code of `UnexpectedEof`. -/
def faulted (ops : List HostOp) : State :=
  { pending ops with ctl := { res := 0, fault := true, err := 4, none := false } }

/-- A queue holding the elements of a list, laid out as given. -/
def queued (cap : Nat) (o : PqOrd) (h : List Elem) : State :=
  { State.reset with pq := { heap := h, cap := cap, ord := o } }

/-- The tree of one leaf `a` = 61, as `HUF.RHDR` leaves it (44_huffman.md R184). -/
def oneLeaf : Huf :=
  { freq := tabFill 0, node := [leafNode 0x61 0 NIL], symidx := tabSet (tabFill NIL) 0x61 0, root := 0, tree := true }

/-- The tree of two leaves `a`, `b` below the root, as `HUF.RHDR` leaves it. -/
def twoLeaves : Huf :=
  { freq := tabFill 0
    node := [internalNode 0 1 2 NIL, leafNode 0x61 0 0, leafNode 0x62 0 0]
    symidx := tabSet (tabSet (tabFill NIL) 0x61 1) 0x62 2
    root := 0, tree := true }

/-- The same two trees as trees. -/
def treeA : HTree := .leaf 0x61
def treeAB : HTree := .node (.leaf 0x61) (.leaf 0x62)

/-- A state that holds a tree, `x` loaded. -/
def holding (h : Huf) (x : List Byte) : State := { loaded x with huf := h }

theorem test_witness_holdsTree_one_leaf : HoldsTree oneLeaf treeA where
  held := rfl
  nodes := ⟨[0], ⟨rfl, _, rfl, rfl, rfl, rfl, rfl, rfl⟩, .refl _⟩
  distinct := by decide
  index := by
    intro s i hi
    have hget : tabGet oneLeaf.symidx s = if s = 0x61 then 0 else NIL := by
      simp [oneLeaf, tabGet_tabSet]
    rw [hget]
    constructor
    · intro h
      split at h
      · rename_i hs
        subst hs; subst h
        exact ⟨_, rfl, rfl, rfl⟩
      · exact absurd h.symm hi
    · rintro ⟨n, hn, -, rfl⟩
      have hlt := nodeAt_lt hn
      have h0 : i = 0 := BitVec.eq_of_toNat_eq (by simpa [oneLeaf] using hlt)
      subst h0
      simp only [oneLeaf, nodeAt, leafNode] at hn
      obtain rfl := Option.some.inj hn
      rfl

theorem test_witness_holdsTree_two_leaves : HoldsTree twoLeaves treeAB where
  held := rfl
  nodes := by
    refine ⟨[0, 1, 2], ⟨_, [1], [2], rfl, rfl, rfl, rfl, rfl, ?_, ?_⟩, .refl _⟩
    · exact ⟨rfl, _, rfl, rfl, rfl, rfl, rfl, rfl⟩
    · exact ⟨rfl, _, rfl, rfl, rfl, rfl, rfl, rfl⟩
  distinct := by decide
  index := by
    intro s i hi
    have hget : tabGet twoLeaves.symidx s = if s = 0x62 then 2 else if s = 0x61 then 1 else NIL := by
      simp [twoLeaves, tabGet_tabSet]
    rw [hget]
    constructor
    · intro h
      split at h
      · rename_i hs
        subst hs; subst h
        exact ⟨_, rfl, rfl, rfl⟩
      · split at h
        · rename_i hs
          subst hs; subst h
          exact ⟨_, rfl, rfl, rfl⟩
        · exact absurd h.symm hi
    · rintro ⟨n, hn, hk, rfl⟩
      have hlt : i.toNat < 3 := by simpa [twoLeaves] using nodeAt_lt hn
      have hc : i = 0 ∨ i = 1 ∨ i = 2 := by
        have : i.toNat = 0 ∨ i.toNat = 1 ∨ i.toNat = 2 := by omega
        rcases this with h | h | h
        · exact .inl (BitVec.eq_of_toNat_eq h)
        · exact .inr (.inl (BitVec.eq_of_toNat_eq h))
        · exact .inr (.inr (BitVec.eq_of_toNat_eq h))
      rcases hc with rfl | rfl | rfl
      · obtain rfl := Option.some.inj hn
        exact absurd hk (by decide)
      · obtain rfl := Option.some.inj hn
        rfl
      · obtain rfl := Option.some.inj hn
        rfl

/-- DecodeOfEncode, at the largest operands; EncodeOfDecode. -/
theorem test_witness_encoding :
    Instr.wf (.pqInit true 0xFFFFFFFF 0xFF) = true ∧ decode 0x300001010000000A = .ok (.pqInit true 10 1) := by decide

/-- ReservedWordRaisesInvalidArgument: a reserved word on a block without a fault; the first unused fn of a unit; a reserved
bit; format Q with `CE` = 0 and `cap` = 1; a `PQ.INIT` with `cmp` = 2. -/
theorem test_witness_reserved :
    State.reset.ctl.fault = false ∧ decode 0x1500000000000000 = .error .opcode
      ∧ (0x1500000000000000#64).extractLsb' 60 4 = 1 ∧ (0x1500000000000000#64).extractLsb' 56 4 = 5
      ∧ (∃ row ∈ opcodeTable, opOf 0x2000000000000002 = row.1 ∧ argOf 0x2000000000000002 &&& row.2 ≠ 0)
      ∧ (opOf 0x3000000000000001 = 0x30 ∧ (0x3000000000000001#64).getLsbD 32 = false
          ∧ (0x3000000000000001#64).extractLsb' 0 32 ≠ 0)
      ∧ (opOf 0x3000020000000000 = 0x30 ∧ argOf 0x3000020000000000 &&& 0xFF00FE00000000 = 0
          ∧ 1 < ((0x3000020000000000#64).extractLsb' 40 8).toNat) := by decide

/-- StepRunsDecodedCommand. -/
theorem test_witness_step :
    (pending [.issue 0x2300000000000000]).port = .issue 0x2300000000000000 :: []
      ∧ (pending [.issue 0x2300000000000000]).ctl.fault = false
      ∧ decode 0x2300000000000000 = .ok .bsWlen
      ∧ (∃ t, exec .bsWlen State.reset = .next t) ∧ decodeTableWord 64 0x2300000000000000 = some .bsWlen
      ∧ State.reset.port = [] := by
  refine ⟨rfl, rfl, by decide, ⟨_, rfl⟩, by decide, rfl⟩

/-- FaultedBlockRefusesCommands, one list for each operation, STATUS as in V-FLT1; OnlyHostResetLeavesFault; HostResetGivesResetValues. -/
theorem test_witness_fault_state :
    (∀ op : HostOp, (faulted [op]).ctl.fault = true ∧ (faulted [op]).port = op :: [])
      ∧ (statusWord (faulted [])).toNat % 16 = 9
      ∧ [0x41#8].length ≤ (faulted [.loadIn [0x41]]).params.nmax
      ∧ (∃ t, step (faulted [.reset]) = .next t) ∧ (∃ t, step (faulted [.issue 0]) = .next t) :=
  ⟨fun _ => ⟨rfl, rfl⟩, by decide, by decide, ⟨_, rfl⟩, ⟨_, rfl⟩⟩

/-- HostLoadInAndReadOutMoveBytes, with an input of exactly NMAX bytes. -/
theorem test_witness_host_bytes :
    let s : State := { pending [.loadIn [0x41]] with params := { Config.params with nmax := 1 } }
    (s.ctl.fault = false ∧ [0x41#8].length ≤ s.params.nmax ∧ s.port = .loadIn [0x41] :: [])
      ∧ (pending [.readOut, .readOut]).ctl.fault = false
      ∧ (pending [.readOut, .readOut]).port = .readOut :: .readOut :: [] := by
  refine ⟨⟨rfl, by decide, rfl⟩, rfl, rfl⟩

/-- HostReadRegReturnsRegister, for every register number. -/
theorem test_witness_readReg (r : BitVec 8) :
    let s := pending [.readReg r]
    s.ctl.fault = false ∧ s.port = .readReg r :: [] ∧ s.bsr.inp.length < 2 ^ 32 ∧ s.bsr.rpos < 2 ^ 35
      ∧ s.bsw.out.length < 2 ^ 32 ∧ s.pq.heap.length < 2 ^ 32 ∧ s.pq.cap < 2 ^ 32 ∧ s.huf.node.length < 2 ^ 10 := by
  refine ⟨rfl, rfl, ?_, ?_, ?_, ?_, ?_, ?_⟩ <;> simp [pending, State.reset, State.resetWith, Config.params]

/-- StepKeepsStatusInv, with and without a fault. -/
theorem test_witness_statusInv :
    StatusInv State.reset ∧ (∃ t, step State.reset = .next t)
      ∧ StatusInv (faulted [.reset]) ∧ (∃ t, step (faulted [.reset]) = .next t) := by
  refine ⟨by simp [StatusInv, State.reset, State.resetWith], ⟨_, rfl⟩, by simp [StatusInv, faulted], ⟨_, rfl⟩⟩

/-- FaultKindsBySource. -/
theorem test_witness_fault_kinds :
    State.reset.params.legal = true ∧ Memory.wf State.reset = true ∧ State.reset.ctl.fault = false
      ∧ ∃ t, exec .bsRbit State.reset = .next t ∧ t.ctl.fault = true :=
  ⟨by decide, by decide, rfl, _, rfl, rfl⟩

/-- CompletionWritesResAndNone (NONE = 1 and NONE = 0), CommandsWriteOnlyTheirUnits. -/
theorem test_witness_completion :
    (∃ t, exec .pqPoll State.reset = .next t ∧ t.ctl.fault = false)
      ∧ (∃ t, exec .hufFclr State.reset = .next t ∧ t.ctl.fault = false) :=
  ⟨⟨_, rfl, rfl⟩, ⟨_, rfl, rfl⟩⟩

/-- RbitReturnsNextBit and RbyteAndRintReturnNextField: exactly the width left, and one bit less. -/
theorem test_witness_reads :
    let at_ (n : Nat) : State := { loaded [1, 2, 3, 4] with bsr := { inp := [1, 2, 3, 4], rpos := n } }
    (at_ 31).bsr.rpos < (at_ 31).bsr.bitLen ∧ (at_ 32).bsr.bitLen ≤ (at_ 32).bsr.rpos
      ∧ (at_ 24).bsr.rpos + 8 ≤ (at_ 24).bsr.bitLen ∧ (at_ 25).bsr.bitLen < (at_ 25).bsr.rpos + 8
      ∧ (at_ 0).bsr.rpos + 32 ≤ (at_ 0).bsr.bitLen ∧ (at_ 1).bsr.bitLen < (at_ 1).bsr.rpos + 32 := by
  refine ⟨?_, ?_, ?_, ?_, ?_, ?_⟩ <;> decide

/-- LengthAndResetCommands; FrequencyCommands. -/
theorem test_witness_lengths :
    (loaded [1]).bsr.inp.length < 2 ^ 32 ∧ (loaded [1]).bsw.out.length < 2 ^ 32 := by decide

/-- With OUT_CAP = 1 and nothing written there is room for 15 bits, not for 16. -/
theorem room_capped (x : List Byte) (n : Nat) : Room (capped 1 x) n ↔ n < 16 := by
  have hb : (capped 1 x).bsw.bits.length = 0 := by
    rw [bits_length]; rfl
  have hc : (capped 1 x).params.outCap = some 1 := rfl
  constructor
  · intro h
    have := h 1 hc
    omega
  · intro h c hc'
    have : c = 1 := by rw [hc] at hc'; exact (Option.some.inj hc').symm
    omega

theorem room_unbounded {s : State} (h : s.params.outCap = none) (n : Nat) : Room s n := by
  intro c hc
  rw [h] at hc
  cases hc

theorem room_loaded (x : List Byte) (n : Nat) : Room (loaded x) n := room_unbounded rfl n

/-- WritersAppendTheirBits at the boundary: 8 bits fit into one byte of `OUT`, 32 do not. -/
theorem test_witness_writers :
    Room (capped 1 []) (Field.byte 0xFF).bits.length ∧ Memory.wf (capped 1 []) = true
      ∧ ¬ Room (capped 1 []) (Field.int 0).bits.length := by
  refine ⟨(room_capped _ _).mpr (by decide), by decide, fun h => ?_⟩
  have := (room_capped _ _).mp h
  simp [Field.bits] at this

/-- FlushPadsToByteBoundary: nothing pending; a bit pending with room; a bit pending and `OUT` full. -/
theorem test_witness_flush :
    let full : State := { capped 1 [] with bsw := { out := [0xAA], wacc := 0x80, wcnt := 1 } }
    let one : State := { loaded [] with bsw := { out := [], wacc := 0x80, wcnt := 1 } }
    (loaded []).bsw.aligned ∧ Room (loaded []) (padBits (loaded []).bsw.bits.length).length
      ∧ one.bsw.aligned ∧ Room one (padBits one.bsw.bits.length).length
      ∧ full.bsw.aligned ∧ full.bsw.wcnt ≠ 0 ∧ full.params.outCap = some full.bsw.out.length := by
  have ha : ∀ i, i < 7 → (0x80#8).getLsbD i = false := by decide
  refine ⟨?_, room_loaded _ _, ?_, room_unbounded rfl _, ?_, by decide, rfl⟩
  · intro i _; simp [loaded, State.reset, State.resetWith]
  · intro i hi; exact ha i hi
  · intro i hi; exact ha i hi

/-- StreamLaws: fields written from an empty writer, room for the pad; a stream that begins with fields; a read past the end. -/
theorem test_witness_stream_laws :
    (loaded []).ctl.fault = false ∧ (loaded []).bsw = Bsw.empty
      ∧ Room (loaded []) ([Field.bit true, .byte 0x41].flatMap Field.bits).length
      ∧ (loaded [0xA0, 0x80]).bsr.rest = [Field.bit true, .byte 0x41].flatMap Field.bits ++ List.replicate 7 false
      ∧ (loaded [0xA0]).bsr.rpos ≤ (loaded [0xA0]).bsr.bitLen
      ∧ (loaded [0xA0]).bsr.bitLen - (loaded [0xA0]).bsr.rpos < (Field.int 0).bits.length := by
  refine ⟨rfl, rfl, room_loaded _ _, by decide, by decide, by decide⟩

/-- PqInitSetsEmptyQueue: `cmp` = 2; `cap` = 0; `cap` = 257; `cap` = 256, each with the PQ_MAX = 256 of the reset state. -/
theorem test_witness_pqInit :
    1 < (2#8).toNat ∧ ((1#8).toNat ≤ 1 ∧ (0#32).toInt < 1)
      ∧ ((257#32).toInt ≥ 1 ∧ (State.reset.params.pqMax : Int) < (257#32).toInt)
      ∧ (1 ≤ (256#32).toInt ∧ (256#32).toInt ≤ State.reset.params.pqMax) := by decide

/-- PqOfferInsertsElement: NIL; a queue of capacity 200 that is full; one of capacity 128 that is full and may grow. -/
theorem test_witness_pqOffer :
    let full (n : Nat) : State := queued n .natural (List.replicate n 0)
    (0#9 ≠ NIL ∧ (full 200).pq.heap.length = (full 200).pq.cap ∧ (full 200).params.pqMax < 2 * (full 200).pq.cap)
      ∧ ((full 128).pq.heap.length = (full 128).pq.cap ∧ 2 * (full 128).pq.cap ≤ (full 128).params.pqMax) := by
  have h1 : 256 < 2 * 200 := by decide
  exact ⟨⟨by decide, List.length_replicate, h1⟩, List.length_replicate, le_refl 256⟩

/-- A heap of three elements under either ordering. -/
theorem heapInv_three (o : PqOrd) : HeapInv o [0x600, 0xA00, 0x802] := by
  intro k h1 h2
  have : k = 2 ∨ k = 3 := by simp at h2; omega
  rcases this with rfl | rfl <;> cases o <;> decide

theorem heapInv_three_other : HeapInv .natural [0x600, 0x802, 0xA00] := by
  intro k h1 h2
  have : k = 2 ∨ k = 3 := by simp at h2; omega
  rcases this with rfl | rfl <;> decide

/-- PqPollRemovesMinimum, PqQueriesReadTheQueue: the empty queue and a heap; PollsComeOutAscending: two heaps of the same
elements; PercolationSwapsWhileStrictlyLess needs a position of at least 1. -/
theorem test_witness_queue :
    State.reset.pq.heap = []
      ∧ (queued 16 .key [0x600, 0xA00, 0x802]).pq.heap = 0x600 :: [0xA00, 0x802]
      ∧ HeapInv .key [0x600, 0xA00, 0x802] ∧ HeapInv .natural [0x600, 0xA00, 0x802]
      ∧ HeapInv .natural [0x600, 0x802, 0xA00] ∧ [0x600#49, 0xA00, 0x802].Perm [0x600, 0x802, 0xA00]
      ∧ (queued 16 .natural []).pq.ord = .natural
      ∧ (queued 16 .key [0x600, 0xA00, 0x802]).pq.ord = .key ∧ 1 ≤ 1 :=
  ⟨rfl, rfl, heapInv_three _, heapInv_three _, heapInv_three_other, .cons _ (.swap _ _ _), rfl, rfl, le_refl _⟩

/-- The invariants of the statements StepKeeps… and EveryHostOperationReturns, in the reset state with operations pending. -/
theorem test_witness_invariants :
    let s := pending [.issue 0x3100000000000A00, .loadIn [0x41]]
    HostInv s ∧ StreamInv s ∧ QueueInv s ∧ TreeInv s ∧ ∃ t, step s = .next t := by
  refine ⟨⟨by decide, ?_⟩, fun _ => ⟨by decide, by decide, ?_⟩, fun _ => ⟨by decide, by decide, by decide, ?_, ?_⟩,
    fun _ => ⟨?_, ?_⟩, ?_⟩
  · intro x hx
    have : x = [0x41] := by simpa [pending] using hx
    subst this
    decide
  · intro i _; simp [pending, State.reset, State.resetWith]
  · intro k h1 h2; simp [pending, State.reset, State.resetWith] at h2; omega
  · intro el hel; simp [pending, State.reset, State.resetWith] at hel
  · intro h; simp [pending, State.reset, State.resetWith] at h
  · intro _; exact ⟨rfl, rfl⟩
  · obtain ⟨t, ht, -⟩ := next_of_check (p := fun _ => true)
      (show (nextOf (step (pending [.issue 0x3100000000000A00, .loadIn [0x41]]))).any _ = true by decide +kernel)
    exact ⟨t, ht⟩

/-- StepKeepsTreeInv and EveryHostOperationReturns with a tree held. -/
theorem test_witness_treeInv : TreeInv (holding twoLeaves []) :=
  fun _ => ⟨fun _ => ⟨_, test_witness_holdsTree_two_leaves⟩, fun h => by simp [holding, twoLeaves] at h⟩

/-- MtfStepsMoveToFront: the list without repeats; i = p = 5 and i = p + 1 = 6 for the symbol 5. -/
theorem test_witness_mtf :
    mtfInit.toList.Nodup ∧ (mtfEnc mtfInit 5).1 = 5 ∧ 1 ≤ (5#8).toNat ∧ (5#8).toNat ≤ (5#8).toNat
      ∧ (5#8).toNat < (6#8).toNat := by
  refine ⟨?_, by decide +kernel, by decide, le_refl _, by decide⟩
  have h : mtfInit.toList = allSyms := by rw [mtfInit, Vector.toList, List.toList_toArray]
  rw [h]
  exact allSyms_nodup

/-- MtfCommandsWriteTransform and BwtFwdWritesTransform: one byte of `OUT` takes the ranks of one byte, not of two, and not the
index and the last column. -/
theorem test_witness_transforms :
    Room (capped 1 [0x61]) (8 * (capped 1 [0x61]).bsr.inp.length)
      ∧ ¬ Room (capped 1 [0x61, 0x62]) (8 * (capped 1 [0x61, 0x62]).bsr.inp.length)
      ∧ Memory.wf (capped 1 [0x61, 0x62]) = true
      ∧ (loaded []).bsr.inp = [] ∧ (loaded [0x61]).bsr.inp ≠ [] ∧ Room (loaded [0x61]) (8 * 5)
      ∧ (capped 1 [0x61]).bsr.inp ≠ [] ∧ Memory.wf (capped 1 [0x61]) = true ∧ ¬ Room (capped 1 [0x61]) (8 * 5) := by
  refine ⟨(room_capped _ _).mpr (by decide), fun h => absurd ((room_capped _ _).mp h) (by decide), by decide, rfl,
    by decide, room_loaded _ _, by decide, by decide, fun h => absurd ((room_capped _ _).mp h) (by decide)⟩

/-- RotTableIsTheSortedPermutation: three indices in order; LastColumnPermutesTheBlock: a nonempty block; BwtRoundTrip. -/
theorem test_witness_rotations :
    (0 < [1#8, 2, 3].length ∧ 1 < [1#8, 2, 3].length ∧ 2 < [1#8, 2, 3].length)
      ∧ rotLess [1, 2, 3] 0 1 = true ∧ rotLess [1, 2, 3] 1 2 = true ∧ [1#8] ≠ [] ∧ [1#8].length < 2 ^ 32 := by decide

/-- BwtInvWritesInverse: lengths 0, 1, 3 and 4; c = n, c = n - 1 with and without room. -/
theorem test_witness_bwtInv :
    (loaded []).bsr.inp = [] ∧ (1 ≤ (loaded [0]).bsr.inp.length ∧ (loaded [0, 0, 0]).bsr.inp.length < 4)
      ∧ (loaded [0, 0, 0, 9]).bsr.inp.length = 4
      ∧ (loaded [0, 0, 0, 2, 0x61, 0x62]).bsr.inp = be32 2 ++ [0x61, 0x62]
      ∧ [0x61#8, 0x62].length ≤ (2#32).toNat ∧ (1#32).toNat < [0x61#8, 0x62].length
      ∧ (loaded [0, 0, 0, 1, 0x61, 0x62]).bsr.inp = be32 1 ++ [0x61, 0x62]
      ∧ Room (loaded [0, 0, 0, 1, 0x61, 0x62]) 16
      ∧ (capped 1 [0, 0, 0, 1, 0x61, 0x62]).bsr.inp = be32 1 ++ [0x61, 0x62]
      ∧ Memory.wf (capped 1 [0, 0, 0, 1, 0x61, 0x62]) = true ∧ ¬ Room (capped 1 [0, 0, 0, 1, 0x61, 0x62]) 16 := by
  refine ⟨rfl, by decide, rfl, by decide, by decide, by decide, by decide, room_loaded _ _, by decide, by decide,
    fun h => absurd ((room_capped _ _).mp h) (by decide)⟩

/-- HufBuildMakesTree and BuildEqualsHeapFreeConstruction: the empty mapping; a mapping of one symbol. -/
theorem test_witness_build :
    (∀ a, tabGet State.reset.huf.freq a = 0) ∧ State.reset.params.legal = true
      ∧ (∃ a, tabGet (tabSet (tabFill 0) 0x61 (1 : Count)) a ≠ 0)
      ∧ freqEmpty (tabSet (tabFill 0) 0x61 1) = false := by
  have h1 : tabGet (tabSet (tabFill 0) 0x61 (1 : Count)) 0x61 ≠ 0 := by simp [tabGet_tabSet]
  refine ⟨fun a => tabGet_tabFill 0 a, by decide, ⟨_, h1⟩, ?_⟩
  cases h : freqEmpty (tabSet (tabFill 0) 0x61 1) with
  | false => rfl
  | true => exact absurd (freqEmpty_iff.mp h 0x61) h1

/-- WhdrWritesHeader, EncWritesCodeword, DecReadsCodeword: no tree; a tree, with room for the 19 header bits and the codeword,
and without (a byte less one bit written, `OUT` full); a symbol the tree lacks; the empty codeword at the end of `IN`. -/
theorem test_witness_tree_commands :
    State.reset.huf.tree = false
      ∧ HoldsTree (holding twoLeaves []).huf treeAB ∧ Room (loaded []) treeAB.hdr.length
      ∧ ¬ Room { capped 1 [] with huf := twoLeaves } treeAB.hdr.length
      ∧ 0x7A ∉ treeAB.syms ∧ 0x62 ∈ treeAB.syms ∧ treeAB.code 0x62 = some [true]
      ∧ treeA.code 0x61 = some [] ∧ (holding oneLeaf []).bsr.rest = [] ++ []
      ∧ (holding twoLeaves [0x80]).bsr.rest = [true] ++ List.replicate 7 false
      ∧ (∀ a u, treeAB.code a = some u → ¬ u <+: (holding twoLeaves []).bsr.rest) := by
  refine ⟨rfl, test_witness_holdsTree_two_leaves, room_loaded _ _,
    fun h => absurd ((room_capped [] _).mp h) (by decide), by decide, by decide, by decide, by decide, by decide,
    by decide, ?_⟩
  intro a u h hp
  have hr : (holding twoLeaves []).bsr.rest = [] := rfl
  rw [hr, List.prefix_nil] at hp
  subst hp
  by_cases ha : (0x61#8 = a)
  · simp [treeAB, HTree.code, ha] at h
  · simp [treeAB, HTree.code, ha] at h

/-- A codeword that does not fit: seven bits pending before a full `OUT`. -/
theorem test_witness_enc_overflow :
    let s : State := { capped 1 [] with huf := twoLeaves, bsw := { out := [0xAA], wacc := 0xFE, wcnt := 7 } }
    HoldsTree s.huf treeAB ∧ treeAB.code 0x62 = some [true] ∧ Memory.wf s = true ∧ ¬ Room s [true].length := by
  refine ⟨test_witness_holdsTree_two_leaves, by decide, by decide, fun h => ?_⟩
  have := h 1 rfl
  rw [bits_length] at this
  exact absurd this (by decide)

/-- RhdrParsesExactlyHeaders and RhdrFaultsByReadingOrder: a header with distinct symbols, one with a symbol twice, 256 internal
tags, a header cut short. -/
theorem test_witness_rhdr :
    treeAB.syms.Nodup
      ∧ (loaded [0x98, 0x4C, 0x40]).bsr.rest = treeAB.hdr ++ List.replicate 5 false
      ∧ (∃ t, exec .hufRhdr (loaded [0x98, 0x4C, 0x40]) = .next t ∧ t.ctl.fault = false)
      ∧ ¬ (HTree.node (.leaf 0x61) (.leaf 0x61)).syms.Nodup
      ∧ (loaded [0x98, 0x4C, 0x20]).bsr.rest = (HTree.node (.leaf 0x61) (.leaf 0x61)).hdr ++ List.replicate 5 false
      ∧ (loaded (List.replicate 32 0xFF)).bsr.rest = List.replicate 256 true ++ []
      ∧ treeAB.hdr = (loaded [0x98, 0x4C]).bsr.rest ++ [false, true, false] := by
  refine ⟨by decide, by decide, ?_, by decide, by decide, by decide +kernel, by decide⟩
  obtain ⟨t, ht, hf⟩ := next_of_check (p := fun t => !t.ctl.fault)
    (show (nextOf (exec .hufRhdr (loaded [0x98, 0x4C, 0x40]))).any _ = true by decide +kernel)
  exact ⟨t, ht, by simpa using hf⟩

/-- The 256th internal tag after a leaf: tags `1 0 a`, then 254 more internal tags. -/
def fullTags : List HTag := [.internal, .leaf 0x61] ++ List.replicate 254 .internal

theorem test_witness_begun :
    Begun [.internal, .leaf 0x61, .internal] ∧ Begun fullTags ∧ Begun [.internal, .leaf 0x61] :=
  ⟨begun_of_check (by decide), begun_of_check (by decide +kernel), begun_of_check (by decide)⟩

/-- RhdrFaultsByReadingOrder, the faults in reading order: a symbol repeated and the stream ending inside the header, a 256th
internal tag that does not follow 255 others, the end before a tag, the end inside a symbol. Then a header
parse that faults. -/
theorem test_witness_headerFault :
    HeaderFault (loaded [0x98, 0x66, 0x10]).bsr.rest .corruptHeader
      ∧ HeaderFault (loaded (0x98 :: 0x7F :: List.replicate 32 0xFF)).bsr.rest .corruptHeader
      ∧ HeaderFault (loaded []).bsr.rest .unexpectedEof
      ∧ HeaderFault (loaded [0x98, 0x4C]).bsr.rest .unexpectedEof
      ∧ (loaded []).ctl.fault = false ∧ ∃ t, exec .hufRhdr (loaded []) = .next t ∧ t.ctl.fault = true := by
  refine ⟨.repeatedSymbol [.internal, .leaf 0x61, .internal] 0x61 (List.replicate 4 false) test_witness_begun.1
      (by decide) (by decide +kernel),
    .tooManyInternal fullTags (List.replicate 7 true) test_witness_begun.2.1 (by decide +kernel) (by decide +kernel),
    .endBeforeTag [] begun_nil (by decide),
    .endInSymbol [.internal, .leaf 0x61] [false, true, true, false, false] test_witness_begun.2.2 (by decide)
      (by decide +kernel), rfl, _, rfl, rfl⟩

/-- CodewordsArePrefixFree. -/
theorem test_witness_prefixFree :
    HoldsTree twoLeaves treeAB ∧ tabGet twoLeaves.symidx 0x62 ≠ NIL
      ∧ codeword twoLeaves 0x62 = .ok [true] ∧ [true] <+: [true] := by
  refine ⟨test_witness_holdsTree_two_leaves, by decide +kernel, by rfl, List.prefix_refl _⟩

/-- HcCompressWritesLayout, HcCommandsEqualPrimitiveCommands, BwCompressWritesLayout: an empty and a nonempty `IN`, streams in
form; with OUT_CAP = 1 no sequence of 16 bits or more fits. -/
theorem test_witness_compress :
    (loaded []).bsr.inp = [] ∧ (loaded [0x61]).bsr.inp ≠ [] ∧ (loaded [0x61]).params.legal = true
      ∧ Memory.wf (loaded [0x61]) = true ∧ (loaded [0x61]).bsw.aligned ∧ (∀ n, Room (loaded [0x61]) n)
      ∧ (capped 1 [0x61]).params.legal = true ∧ Memory.wf (capped 1 [0x61]) = true ∧ (capped 1 [0x61]).bsw.aligned
      ∧ (∀ n, 16 ≤ n → ¬ Room (capped 1 [0x61]) n) := by
  refine ⟨rfl, by decide, by decide, by decide, ?_, room_loaded _, by decide, by decide, ?_, ?_⟩
  · intro i _; simp [loaded, State.reset, State.resetWith]
  · intro i _; simp [capped, State.resetWith]
  · intro n hn h
    have := (room_capped _ _).mp h
    omega

/-- HcExpandReadsLayout: the layout of "ab" under its tree (V-HC4), with and without room; a negative count after a header; a
layout cut short. -/
theorem test_witness_hcExpand :
    treeAB.syms.Nodup ∧ (∀ a ∈ [0x61#8, 0x62], a ∈ treeAB.syms)
      ∧ (loaded [0x98, 0x4C, 0x40, 0, 0, 0, 0x48]).bsr.bits = treeAB.layout [0x61, 0x62] ++ List.replicate 3 false
      ∧ Room (loaded [0x98, 0x4C, 0x40, 0, 0, 0, 0x48]) 16
      ∧ (capped 1 [0x98, 0x4C, 0x40, 0, 0, 0, 0x48]).bsr.bits = treeAB.layout [0x61, 0x62] ++ List.replicate 3 false
      ∧ Memory.wf (capped 1 [0x98, 0x4C, 0x40, 0, 0, 0, 0x48]) = true
      ∧ ¬ Room (capped 1 [0x98, 0x4C, 0x40, 0, 0, 0, 0x48]) 16
      ∧ (0x80000000#32).toInt < 0
      ∧ (loaded [0x30, 0xC0, 0, 0, 0, 0]).bsr.bits =
          treeA.hdr ++ (bitsMsb 0x80000000#32 ++ List.replicate 7 false)
      ∧ treeAB.layout [0x61, 0x62] = (loaded [0x98, 0x4C, 0x40, 0, 0, 0]).bsr.bits ++ [false, true, false, false, true]
      ∧ (loaded [0x98, 0x4C, 0x40, 0, 0, 0]).bsr.inp ≠ [] := by
  refine ⟨by decide, by decide, by decide +kernel, room_loaded _ _, by decide +kernel, by decide,
    fun h => absurd ((room_capped _ _).mp h) (by decide), by decide, by decide +kernel, by decide +kernel, by decide⟩

/-- BwExpandReadsLayout: 0, 1, 3 and 4 bytes; an index before the layout of "ab", c = 1 below n = 2 and c = 2 = n; more symbols
than NMAX = 1; no room. -/
theorem test_witness_bwExpand :
    let z (c : Byte) : List Byte := [0, 0, 0, c, 0x98, 0x4C, 0x40, 0, 0, 0, 0x48]
    let small : State := { loaded (z 1) with params := { Config.params with nmax := 1 } }
    (loaded []).bsr.inp = [] ∧ (1 ≤ (loaded [0]).bsr.inp.length ∧ (loaded [0, 0, 0]).bsr.inp.length < 4)
      ∧ (loaded [0, 0, 0, 9]).bsr.inp.length = 4
      ∧ (loaded (z 1)).bsr.bits = bitsMsb 1#32 ++ (treeAB.layout [0x61, 0x62] ++ List.replicate 3 false)
      ∧ (loaded (z 2)).bsr.bits = bitsMsb 2#32 ++ (treeAB.layout [0x61, 0x62] ++ List.replicate 3 false)
      ∧ small.params.nmax < [0x61#8, 0x62].length ∧ [0x61#8, 0x62].length ≤ (loaded (z 1)).params.nmax
      ∧ [0x61#8, 0x62].length ≤ (2#32).toNat ∧ (1#32).toNat < [0x61#8, 0x62].length ∧ Room (loaded (z 1)) 16
      ∧ Memory.wf (capped 1 (z 1)) = true ∧ ¬ Room (capped 1 (z 1)) 16 := by
  refine ⟨rfl, by decide, rfl, by decide +kernel, by decide +kernel, by decide, by decide, by decide, by decide,
    room_loaded _ _, by decide, fun h => absurd ((room_capped _ _).mp h) (by decide)⟩

/-- HcExpandReadsLayout and BwExpandReadsLayout, the faults of the Huffman part, for BW behind an index that is far above n: a
symbol repeated in the header, an end inside the count, a negative count, an end inside the codeword of the second symbol
with room for the first only. The tree is `a` = 0, `b` = 10, `c` = 11. -/
theorem test_witness_expand_faults :
    let tr : HTree := .node (.leaf 0x61) (.node (.leaf 0x62) (.leaf 0x63))
    let cut : List Byte := [0x98, 0x66, 0x23, 0x18, 0, 0, 0, 0x15]
    HeaderFault (loaded [0x98, 0x66, 0x10]).bsr.bits .corruptHeader ∧ (loaded [0x98, 0x66, 0x10]).bsr.inp ≠ []
      ∧ (loaded [0xFF, 0xFF, 0xFF, 0xFF, 0x98, 0x66, 0x10]).bsr.bits =
          bitsMsb 0xFFFFFFFF#32 ++ (loaded [0x98, 0x66, 0x10]).bsr.bits
      ∧ (loaded [0x98, 0x66, 0x10]).bsr.bits ≠ []
      ∧ tr.syms.Nodup
      ∧ (loaded [0x98, 0x66, 0x23, 0x18]).bsr.bits = tr.hdr ++ List.replicate 3 false
      ∧ (loaded [0xFF, 0xFF, 0xFF, 0xFF, 0x98, 0x66, 0x23, 0x18]).bsr.bits =
          bitsMsb 0xFFFFFFFF#32 ++ (tr.hdr ++ List.replicate 3 false)
      ∧ (0x80000000#32).toInt < 0
      ∧ (loaded [0xFF, 0xFF, 0xFF, 0xFF, 0x30, 0xC0, 0, 0, 0, 0]).bsr.bits =
          bitsMsb 0xFFFFFFFF#32 ++ (treeA.hdr ++ (bitsMsb 0x80000000#32 ++ List.replicate 7 false))
      ∧ (∀ b ∈ [0x62#8], b ∈ tr.syms) ∧ ([0x62#8].length : Int) < (2#32).toInt
      ∧ tr.code 0x63 = some ([true] ++ [true])
      ∧ (capped 1 cut).bsr.bits = tr.hdr ++ (bitsMsb 2#32 ++ (tr.codes [0x62] ++ [true]))
      ∧ Room (capped 1 cut) 8
      ∧ (loaded ([0xFF, 0xFF, 0xFF, 0xFF] ++ cut)).bsr.bits =
          bitsMsb 0xFFFFFFFF#32 ++ (tr.hdr ++ (bitsMsb 2#32 ++ (tr.codes [0x62] ++ [true])))
      ∧ [0x62#8].length ≤ (loaded cut).params.nmax := by
  refine ⟨test_witness_headerFault.1, by decide, by decide +kernel, by decide, by decide, by decide +kernel, by decide +kernel,
    by decide, by decide +kernel, by decide, by decide, by decide, by decide +kernel, (room_capped _ _).mpr (by decide),
    by decide +kernel, by decide⟩

/-- HcCommandsEqualPrimitiveCommands (expand), HcRoundTrip, BwRoundTrip: the commands complete on an input of one byte, from
an empty writer, with an OUT_CAP that the input fits in or none. -/
theorem test_witness_round_trips :
    State.reset.params.legal = true ∧ State.reset.ctl.fault = false ∧ State.reset.bsw = Bsw.empty
      ∧ [0x61#8].length ≤ State.reset.params.nmax ∧ (∀ c, State.reset.params.outCap = some c → [0x61#8].length ≤ c)
      ∧ (∃ t, exec .hcExpand (loaded [0x30, 0x80, 0, 0, 2, 0]) = .next t ∧ t.ctl.fault = false) := by
  refine ⟨by decide, rfl, rfl, by decide, fun c hc => by simp [State.reset, State.resetWith, Config.params] at hc, ?_⟩
  obtain ⟨t, ht, hf⟩ := next_of_check (p := fun t => !t.ctl.fault)
    (show (nextOf (exec .hcExpand (loaded [0x30, 0x80, 0, 0, 2, 0]))).any _ = true by decide +kernel)
  exact ⟨t, ht, by simpa using hf⟩

/-- The same: `HC.COMPRESS` and `BW.COMPRESS` complete. -/
theorem test_witness_compress_completes :
    (∃ t, exec .hcCompress (loaded [0x61]) = .next t ∧ t.ctl.fault = false)
      ∧ (∃ t, exec .bwCompress (loaded [0x61]) = .next t ∧ t.ctl.fault = false) := by
  constructor
  · obtain ⟨t, ht, hf⟩ := next_of_check (p := fun t => !t.ctl.fault)
      (show (nextOf (exec .hcCompress (loaded [0x61]))).any _ = true by decide +kernel)
    exact ⟨t, ht, by simpa using hf⟩
  · obtain ⟨t, ht, hf⟩ := next_of_check (p := fun t => !t.ctl.fault)
      (show (nextOf (exec .bwCompress (loaded [0x61]))).any _ = true by decide +kernel)
    exact ⟨t, ht, by simpa using hf⟩

/-- What was built and serialised, read off one closed evaluation. -/
theorem built_of_check {e : Except Stop (Huf × Pq)} {r : Bits}
    (key : (e.toOption.bind fun p => (hdrBits p.1).toOption.map fun b => decide (b <+: r)) = some true) :
    ∃ (h : Huf) (q : Pq) (bits : Bits), e = .ok (h, q) ∧ hdrBits h = .ok bits ∧ bits <+: r := by
  match e, key with
  | .ok (h, q), key =>
    cases hh : hdrBits h with
    | error e => simp [hh, Except.toOption] at key
    | ok bits => exact ⟨h, q, bits, rfl, hh, by simpa [hh, Except.toOption] using key⟩

/-- HeaderRoundTripKeepsCodewords: the tree of one symbol, and a stream that begins with its header. -/
theorem test_witness_header_round_trip :
    ∃ (h : Huf) (q : Pq) (bits : Bits), buildTree Config.params (countBytes [0x61]) = .ok (h, q)
      ∧ hdrBits h = .ok bits ∧ bits <+: (loaded [0x30, 0x80]).bsr.rest :=
  built_of_check (by decide +kernel)

/-! ## Construction and compression: the longest evaluations, last -/

/-- R173's table: freq, left, right, parent of nodes 5 to 8. -/
theorem test_build_abracadabra :
    (issued (loaded [0x61, 0x62, 0x72, 0x61, 0x63, 0x61, 0x64, 0x61, 0x62, 0x72, 0x61])
        [0x6200000000000000, 0x6300000000000000]).map
        (fun t => (t.huf.node.drop 5).map (fun n => (n.freq.toNat, n.left.toNat, n.right.toNat, n.parent.toNat))) =
      some [(2, 2, 3, 7), (4, 1, 4, 7), (6, 5, 6, 8), (11, 0, 7, 511)] := by decide +kernel

/-- V-HC4. -/
theorem test_hcCompress_ab :
    seenWrite (issued (loaded [0x61, 0x62]) [0x7000000000000000]) =
      some ([0x98, 0x4C, 0x40, 0, 0, 0, 0x48], 0, 0) := by decide +kernel

/-- V-BW4. -/
theorem test_bwCompress_lull :
    seenWrite (issued (loaded [0x6C, 0x75, 0x6C, 0x6C]) [0x7200000000000000]) =
      some ([0, 0, 0, 2, 0x80, 0x26, 0xD3, 0xA8, 0, 0, 0, 0x27, 0], 0, 0) := by decide +kernel

end Sys2Proof.Tests
end

section
/-! PROOFS. The scope family: what no step of the machine changes (00_scope.md R9; 70_reset_and_hazards.md R242). -/

namespace Sys2Proof.Machine

/-! ## Every answer of a computation -/

/-- Every answer of `e` meets `P`. Of a computation that ends early nothing is said. -/
def Ensures {α : Type} (e : Except Stop α) (P : α → Prop) : Prop := ∀ a, e = .ok a → P a

namespace Ensures

variable {α β : Type} {P : β → Prop} {Q : α → Prop}

theorem ok {b : β} (h : P b) : Ensures (.ok b) P := by
  rintro _ ⟨⟩
  exact h

theorem raise {k : FaultKind} : Ensures (Machine.raise k) P := by
  rintro _ ⟨⟩

theorem bind_of {e : Except Stop α} {f : α → Except Stop β} (he : Ensures e Q) (hf : ∀ a, Q a → Ensures (f a) P) :
    Ensures (e >>= f) P := by
  intro b hb
  cases e with
  | error => cases hb
  | ok a => exact hf a (he a rfl) b hb

/-- What the first computation answers does not matter to `P`. -/
theorem bind {e : Except Stop α} {f : α → Except Stop β} (hf : ∀ a, Ensures (f a) P) : Ensures (e >>= f) P :=
  bind_of (Q := fun _ => True) (fun _ _ => trivial) fun a _ => hf a

theorem ite {c : Prop} [Decidable c] {e₁ e₂ : Except Stop β} (h₁ : Ensures e₁ P) (h₂ : Ensures e₂ P) :
    Ensures (if c then e₁ else e₂) P := by
  split
  · exact h₁
  · exact h₂

end Ensures

/-! ## The host's side of the state -/

/-- `t` has the parameters, the pending host operations and the last reply of `s`: the part of the state that is none of
the block's (log 1, 2, 15). -/
structure SameHost (s t : State) : Prop where
  params : t.params = s.params
  port : t.port = s.port
  reply : t.reply = s.reply

/-- A command whose pseudocode keeps the host's side keeps it however it ends: fault entry keeps it too. -/
theorem conclude_sameHost {s t : State} {e : Except Stop Done} (he : Ensures e fun d => SameHost s d.st)
    (h : conclude s e = .next t) : SameHost s t := by
  rcases conclude_cases h with ⟨d, hd, rfl⟩ | ⟨k, -, rfl⟩
  · obtain ⟨hparams, hport, hreply⟩ := he d hd
    exact ⟨hparams, hport, hreply⟩
  · exact ⟨rfl, rfl, rfl⟩

theorem hcCompressSeq_sameHost (x : List Byte) (s : State) : Ensures (hcCompressSeq x s) (SameHost s) :=
  .bind fun _ => .bind fun _ => .bind fun _ => .bind fun _ => .bind fun _ => .bind fun _ => .ok ⟨rfl, rfl, rfl⟩

/-! ## Commands and steps

The proof of each command has the shape of its pseudocode; at the end of each branch the host's side is that of `s`. -/

/-- No command changes the host's side of the state. -/
theorem exec_sameHost {s t : State} : ∀ {i : Instr}, exec i s = .next t → SameHost s t
  | .bsRbit | .bsRbyte | .bsRint => conclude_sameHost (.bind fun _ => .ok ⟨rfl, rfl, rfl⟩)
  | .bsRlen | .bsRrst | .bsWlen | .bsWrst => conclude_sameHost (s := s) (.ok ⟨rfl, rfl, rfl⟩)
  | .bsWbit _ | .bsWbyte _ | .bsWint _ | .bsFlush => conclude_sameHost (.bind fun _ => .ok ⟨rfl, rfl, rfl⟩)
  | .pqInit _ _ cmp => conclude_sameHost <| by
    cases ordOperand cmp with
    | none => exact .raise
    | some o => exact .bind fun _ => .ok ⟨rfl, rfl, rfl⟩
  | .pqOffer _ _ => conclude_sameHost (.ite .raise (.bind fun _ => .ok ⟨rfl, rfl, rfl⟩))
  | .pqPoll | .pqPeek => conclude_sameHost (.ite (.ok ⟨rfl, rfl, rfl⟩) (.ok ⟨rfl, rfl, rfl⟩))
  | .pqSize => conclude_sameHost (.ok ⟨rfl, rfl, rfl⟩)
  | .pqCmp => conclude_sameHost <| by
    cases s.pq.ord with
    | natural => exact .ok ⟨rfl, rfl, rfl⟩
    | key => exact .ok ⟨rfl, rfl, rfl⟩
  | .mtfFwd | .mtfInv => conclude_sameHost (.bind fun _ => .ok ⟨rfl, rfl, rfl⟩)
  | .bwtFwd => conclude_sameHost (.ite (.ok ⟨rfl, rfl, rfl⟩) (.bind fun _ => .bind fun _ => .ok ⟨rfl, rfl, rfl⟩))
  | .bwtInv =>
    conclude_sameHost (.ite (.ok ⟨rfl, rfl, rfl⟩) (.bind fun _ => .bind fun _ =>
      .ite (.ok ⟨rfl, rfl, rfl⟩) (.ite .raise (.bind fun _ => .ok ⟨rfl, rfl, rfl⟩))))
  | .hufFclr | .hufFset _ _ | .hufFcnt => conclude_sameHost (s := s) (.ok ⟨rfl, rfl, rfl⟩)
  | .hufBuild => conclude_sameHost (.ite .raise (.bind fun _ => .ok ⟨rfl, rfl, rfl⟩))
  | .hufWhdr => conclude_sameHost (.ite .raise (.bind fun _ => .bind fun _ => .ok ⟨rfl, rfl, rfl⟩))
  | .hufRhdr | .hufEnc _ | .hufDec => conclude_sameHost (.bind fun _ => .ok ⟨rfl, rfl, rfl⟩)
  | .hcCompress =>
    conclude_sameHost (.ite (.ok ⟨rfl, rfl, rfl⟩)
      (.bind_of (hcCompressSeq_sameHost _ _) fun _ ht => .ok ⟨ht.params, ht.port, ht.reply⟩))
  | .hcExpand => conclude_sameHost (.bind fun _ => .ok ⟨rfl, rfl, rfl⟩)
  | .bwCompress =>
    conclude_sameHost (.ite (.ok ⟨rfl, rfl, rfl⟩) (.bind fun _ =>
      .bind_of (hcCompressSeq_sameHost _ _) fun _ ht => .ok ⟨ht.params, ht.port, ht.reply⟩))
  | .bwExpand =>
    conclude_sameHost (.ite (.ok ⟨rfl, rfl, rfl⟩) (.bind fun _ => .bind fun _ =>
      .ite (.ok ⟨rfl, rfl, rfl⟩) (.ite .raise (.bind fun _ => .ok ⟨rfl, rfl, rfl⟩))))

/-- Whatever `HostIssue(W)` ends in, a refusal, a fault or a completion, the host's side is kept. -/
theorem hostIssue_sameHost {w : CmdWord} {s t : State} (h : hostIssue w s = .next t) : SameHost s t := by
  rcases hostIssue_cases h with ⟨-, rfl⟩ | ⟨-, -, rfl⟩ | ⟨-, i, -, hi⟩
  · exact ⟨rfl, rfl, rfl⟩
  · exact ⟨rfl, rfl, rfl⟩
  · exact exec_sameHost hi

theorem afterRead_sameHost (s : State) : SameHost s (afterRead s) := by
  rcases afterRead_cases s with h | ⟨-, h⟩
  · rw [h]
    exact ⟨rfl, rfl, rfl⟩
  · rw [h]
    exact ⟨rfl, rfl, rfl⟩

/-- A step takes the first pending host operation, if there is one, and changes no parameter. -/
theorem step_params_port {s t : State} (h : step s = .next t) : t.params = s.params ∧ t.port = s.port.tail := by
  rcases step_cases h with ⟨hp, rfl⟩ | ⟨rest, hp, rfl⟩ | ⟨x, rest, hp, -, ⟨-, rfl⟩ | ⟨-, rfl⟩⟩ |
    ⟨w, rest, u, hp, hu, rfl⟩ | ⟨rest, hp, rfl⟩ | ⟨r, rest, hp, rfl⟩
  · simp [hp]
  · simp [hp]
  · simp [hp]
  · simp [hp]
  · have hu := hostIssue_sameHost hu
    simp [hp, hu.params, hu.port]
  · have hr := afterRead_sameHost { s with port := rest }
    simp [hp, hr.params, hr.port]
  · have hr := afterRead_sameHost { s with port := rest }
    simp [hp, hr.params, hr.port]

/-- The constraints speak of the parameters and of every pending operation, so they hold of the tail. -/
theorem hostInv_of_port_tail {s t : State} (hparams : t.params = s.params) (hport : t.port = s.port.tail)
    (hs : HostInv s) : HostInv t := by
  obtain ⟨hlegal, hload⟩ := hs
  rw [HostInv, hparams, hport]
  exact ⟨hlegal, fun x hx => hload x (List.mem_of_mem_tail hx)⟩

/-- Settles O58: a step serves the head of the host's list, and every command keeps the host's side. -/
theorem stepKeepsHostInv : Obligations.StepKeepsHostInv := by
  intro s t h
  obtain ⟨hparams, hport⟩ := step_params_port h
  exact ⟨hparams, hport, hostInv_of_port_tail hparams hport⟩

end Sys2Proof.Machine
end

section
/-! PROOFS. The state family, faults: the kinds that each part of a command can raise (60_exceptions.md R210 to R217). -/

namespace Sys2Proof.Machine

/-- Every fault that `e` raises is of a kind in `E`. Of the model's own stops nothing is said. -/
def Raises {α : Type} (E : FaultKind → Prop) (e : Except Stop α) : Prop := ∀ k, e = .error (.raise k) → E k

namespace Raises

variable {α β : Type} {E : FaultKind → Prop}

theorem ok {a : α} : Raises E (.ok a : Except Stop α) := nofun

theorem raise {k : FaultKind} (hk : E k) : Raises E (Machine.raise k : Except Stop α) := by
  rintro _ ⟨⟩
  exact hk

theorem stuck {f : Fault} : Raises E (.error (.stuck f) : Except Stop α) := nofun

theorem bind {e : Except Stop α} {f : α → Except Stop β} (he : Raises E e) (hf : ∀ a, Raises E (f a)) :
    Raises E (e >>= f) := by
  intro k hk
  cases e with
  | error =>
    cases hk
    exact he k rfl
  | ok a => exact hf a k hk

theorem ite {c : Prop} [Decidable c] {e₁ e₂ : Except Stop α} (h₁ : Raises E e₁) (h₂ : Raises E e₂) :
    Raises E (if c then e₁ else e₂) := by
  split
  · exact h₁
  · exact h₂

theorem of_eq {e : Except Stop α} {k : FaultKind} (h : ∀ x, e = .error x → x = .raise k) (hk : E k) : Raises E e := by
  intro j hj
  obtain ⟨⟩ := h _ hj
  exact hk

end Raises

section
variable {E : FaultKind → Prop}

/-! ## Streams -/

theorem rdBit_raises (hE : E .unexpectedEof) (r : Bsr) : Raises E (rdBit r) := .of_eq (fun _ h => (rdBit_error h).1) hE

theorem rdByte_raises (hE : E .unexpectedEof) (r : Bsr) : Raises E (rdByte r) := .of_eq (fun _ h => (rdByte_error h).1) hE

theorem rdInt_raises (hE : E .unexpectedEof) (r : Bsr) : Raises E (rdInt r) := .of_eq (fun _ h => (rdInt_error h).1) hE

theorem rdBytes_raises (hE : E .unexpectedEof) (n : Nat) (r : Bsr) : Raises E (rdBytes n r) := by
  induction n generalizing r with
  | zero => exact .ok
  | succ n ih => exact .bind (rdByte_raises hE r) fun _ => .bind (ih _) fun _ => .ok

variable {cap : Option Nat}

theorem wrBit_raises (hE : E .overflow) (w : Bsw) (b : Bool) : Raises E (wrBit cap w b) :=
  .of_eq (fun _ h => (wrBit_error h).1) hE

theorem wrBits_raises (hE : E .overflow) (w : Bsw) (bs : Bits) : Raises E (wrBits cap w bs) :=
  .of_eq (fun _ h => wrBits_error bs h) hE

theorem wrBytes_raises (hE : E .overflow) (w : Bsw) (vs : List Byte) : Raises E (wrBytes cap w vs) := by
  rw [wrBytes_eq_wrBits]
  exact wrBits_raises hE _ _

theorem flush_raises (hE : E .overflow) (w : Bsw) : Raises E (flush cap w) := .of_eq (fun _ h => (flush_error h).1) hE

/-! ## The queue and the tree -/

theorem initCapacity_raises (hi : E .invalidArgument) (ho : E .overflow) (p : Params) (cap : Option Int) :
    Raises E (initCapacity p cap) := by
  cases cap with
  | none => exact .ok
  | some c => exact .ite (.raise hi) (.ite (.raise ho) .ok)

theorem pqOffer_raises (hE : E .overflow) (m : Nat) (el : Elem) (q : Pq) : Raises E (pqOffer m el q) :=
  .of_eq (fun _ h => (pqOffer_error h).1) hE

theorem offerNodes_raises (hE : E .overflow) (m i : Nat) (ns : List Node) (q : Pq) : Raises E (offerNodes m i ns q) := by
  induction ns generalizing i q with
  | nil => exact .ok
  | cons n ns ih => exact .bind (pqOffer_raises hE _ _ _) fun _ => ih _ _

theorem mergeLoop_raises (hE : E .overflow) (m fuel : Nat) (q : Pq) (nodes : List Node) :
    Raises E (mergeLoop m fuel q nodes) := by
  induction fuel generalizing q nodes with
  | zero => exact .ok
  | succ fuel ih => exact .ite (.bind (.bind (pqOffer_raises hE _ _ _) fun _ => .ok) fun _ => ih _ _) .ok

theorem buildTree_raises (hE : E .overflow) (p : Params) (f : Table Count) : Raises E (buildTree p f) :=
  .bind (offerNodes_raises hE _ _ _ _) fun _ => .bind (mergeLoop_raises hE _ _ _ _) fun _ => .ok

/-- The walk of R175 raises no fault of the block. -/
theorem codeWalk_raises (nodes : List Node) (fuel : Nat) (i : Idx) (w : Bits) : Raises E (codeWalk nodes fuel i w) := by
  induction fuel generalizing i w with
  | zero => exact .stuck
  | succ fuel ih =>
    rw [codeWalk]
    split
    · exact .stuck
    · refine .ite .ok ?_
      split
      · exact .stuck
      · exact ih _ _

/-- The walk of R176 raises no fault of the block. -/
theorem hdrBitsIn_raises (nodes : List Node) (fuel : Nat) (i : Idx) : Raises E (hdrBitsIn nodes fuel i) := by
  induction fuel generalizing i with
  | zero => exact .stuck
  | succ fuel ih =>
    rw [hdrBitsIn]
    split
    · exact .stuck
    · split
      · exact .ok
      · exact .bind (ih _) fun _ => .bind (ih _) fun _ => .ok

theorem enc_raises (hi : E .invalidArgument) (ho : E .overflow) (h : Huf) (w : Bsw) (sym : Byte) :
    Raises E (enc cap h w sym) :=
  .ite (.raise hi) (.ite (.raise hi) (.bind (codeWalk_raises _ _ _ _) fun _ => wrBits_raises ho _ _))

theorem encAll_raises (hi : E .invalidArgument) (ho : E .overflow) (h : Huf) (w : Bsw) (bs : List Byte) :
    Raises E (encAll cap h w bs) := by
  induction bs generalizing w with
  | nil => exact .ok
  | cons b bs ih => exact .bind (enc_raises hi ho _ _ _) fun _ => ih _

theorem dec_raises (hi : E .invalidArgument) (he : E .unexpectedEof) (h : Huf) (r : Bsr) : Raises E (dec h r) := by
  refine .ite (.raise hi) fun k hk => ?_
  rcases decWalk_error _ _ _ _ _ hk with h | h
  · cases h
    exact he
  · cases h

theorem parseTree_raises (he : E .unexpectedEof) (hc : E .corruptHeader) (r : Bsr) (h : Huf) : Raises E (parseTree r h) := by
  intro k hk
  rcases parseTree_error hk with h | h
  · cases h
    exact he
  · cases h
    exact hc

/-! ## Sequencers -/

theorem hcCompressSeq_raises (hi : E .invalidArgument) (ho : E .overflow) (x : List Byte) (s : State) :
    Raises E (hcCompressSeq x s) :=
  .bind (buildTree_raises ho _ _) fun _ => .bind (hdrBitsIn_raises _ _ _) fun _ => .bind (wrBits_raises ho _ _) fun _ =>
    .bind (wrBytes_raises ho _ _) fun _ => .bind (encAll_raises hi ho _ _ _) fun _ => .bind (flush_raises ho _) fun _ => .ok

theorem decodeLoop_raises {σ : Type} {store : σ → Byte → Except Stop σ} (hi : E .invalidArgument) (he : E .unexpectedEof)
    (hstore : ∀ a v, Raises E (store a v)) (h : Huf) (n : Nat) (acc : σ) (r : Bsr) :
    Raises E (decodeLoop h store n acc r) := by
  induction n generalizing acc r with
  | zero => exact .ok
  | succ n ih => exact .bind (dec_raises hi he _ _) fun _ => .bind (hstore _ _) fun _ => ih _ _

theorem hcExpandSeq_raises {σ : Type} {store : σ → Byte → Except Stop σ} (hi : E .invalidArgument) (he : E .unexpectedEof)
    (hc : E .corruptHeader) (hstore : ∀ a v, Raises E (store a v)) (acc : σ) (r : Bsr) (h : Huf) :
    Raises E (hcExpandSeq store acc r h) :=
  .ite .ok <| .bind (parseTree_raises he hc _ _) fun _ => .bind (rdInt_raises he _) fun _ =>
    .ite (.raise hc) (.bind (decodeLoop_raises hi he hstore _ _ _ _) fun _ => .ok)

theorem collect_raises (ho : E .overflow) (nmax : Nat) (acc : List Byte) (v : Byte) : Raises E (collect nmax acc v) :=
  .ite (.raise ho) .ok

end

end Sys2Proof.Machine
end

section
/-! PROOFS. The state family, commands that complete: what each of the 33 commands may have changed (10_state.md R20 to R26). -/

namespace Sys2Proof.Machine

theorem Ensures.imp {α : Type} {e : Except Stop α} {P Q : α → Prop} (he : Ensures e P) (h : ∀ a, P a → Q a) :
    Ensures e Q := fun a ha => h a (he a ha)

/-! ## The reader only moves -/

theorem rdBit_ensures {r₀ r : Bsr} (h : r₀.Moved r) : Ensures (rdBit r) fun a => r₀.Moved a.2 :=
  fun _ ha => h.trans (rdBit_moved ha)

theorem rdByte_ensures {r₀ r : Bsr} (h : r₀.Moved r) : Ensures (rdByte r) fun a => r₀.Moved a.2 :=
  fun _ ha => h.trans (rdByte_moved ha)

theorem rdInt_ensures {r₀ r : Bsr} (h : r₀.Moved r) : Ensures (rdInt r) fun a => r₀.Moved a.2 :=
  fun _ ha => h.trans (rdInt_moved ha)

theorem rdBytes_ensures {r₀ r : Bsr} (n : Nat) (h : r₀.Moved r) : Ensures (rdBytes n r) fun a => r₀.Moved a.2 := by
  induction n generalizing r with
  | zero => exact .ok h
  | succ n ih => exact .bind_of (rdByte_ensures h) fun _ h1 => .bind_of (ih h1) fun _ h2 => .ok h2

theorem dec_ensures {r₀ r : Bsr} (t : Huf) (h : r₀.Moved r) : Ensures (dec t r) fun a => r₀.Moved a.2 :=
  fun _ ha => h.trans (dec_moved ha).2

theorem parseTree_ensures {r₀ r : Bsr} (t : Huf) (h : r₀.Moved r) :
    Ensures (parseTree r t) fun a => r₀.Moved a.1 ∧ a.2.freq = t.freq := by
  intro a ha
  obtain ⟨hr, -, hfreq, -⟩ := parseTree_cases ha
  exact ⟨h.trans hr, hfreq⟩

/-! ## The writer only grows -/

/-- What writing does to the writer: bytes already in `OUT` stay, `OUT` stays within its capacity, and the bits of `WACC`
below the pending ones stay 0 (10_state.md R23, R24). -/
structure Bsw.Grown (cap : Option Nat) (w w' : Bsw) : Prop where
  out : w.out <+: w'.out
  within : w.within cap → w'.within cap
  aligned : w.aligned → w'.aligned

theorem Bsw.Grown.refl {cap : Option Nat} (w : Bsw) : w.Grown cap w := ⟨List.prefix_rfl, id, id⟩

theorem Bsw.Grown.trans {cap : Option Nat} {w₁ w₂ w₃ : Bsw} (h₁ : w₁.Grown cap w₂) (h₂ : w₂.Grown cap w₃) :
    w₁.Grown cap w₃ :=
  ⟨h₁.out.trans h₂.out, h₂.within ∘ h₁.within, h₂.aligned ∘ h₁.aligned⟩

theorem Bsw.push_aligned (w : Bsw) (acc : BitVec 8) : (w.push acc).aligned := fun i _ => by simp

section
variable {cap : Option Nat} {w₀ w : Bsw}

theorem wrBit_grown {w' : Bsw} {b : Bool} (h : wrBit cap w b = .ok w') : w.Grown cap w' where
  out := by
    rcases wrBit_cases h with ⟨-, -, rfl⟩ | ⟨-, rfl⟩
    · exact List.prefix_append _ _
    · exact List.prefix_rfl
  within hw := wrBit_within hw h
  aligned := (wrBit_bits h).2

theorem wrBits_ensures (bs : Bits) (h : w₀.Grown cap w) : Ensures (wrBits cap w bs) (w₀.Grown cap) := by
  induction bs generalizing w with
  | nil => exact .ok h
  | cons b bs ih => exact .bind_of (fun _ hb => h.trans (wrBit_grown hb)) fun _ h1 => ih h1

theorem wrByte_ensures (v : Byte) (h : w₀.Grown cap w) : Ensures (wrByte cap w v) (w₀.Grown cap) := wrBits_ensures _ h

theorem wrBytes_ensures (vs : List Byte) (h : w₀.Grown cap w) : Ensures (wrBytes cap w vs) (w₀.Grown cap) := by
  rw [wrBytes_eq_wrBits]
  exact wrBits_ensures _ h

theorem wrInt_ensures (v : Word32) (h : w₀.Grown cap w) : Ensures (wrInt cap w v) (w₀.Grown cap) := wrBytes_ensures _ h

theorem flush_ensures (h : w₀.Grown cap w) : Ensures (flush cap w) (w₀.Grown cap) := by
  intro w' hw'
  refine h.trans ⟨?_, fun hw => flush_within hw hw', ?_⟩
  · rcases flush_cases hw' with ⟨-, rfl⟩ | ⟨-, -, rfl⟩
    · exact List.prefix_rfl
    · exact List.prefix_append _ _
  · rcases flush_cases hw' with ⟨-, rfl⟩ | ⟨-, -, rfl⟩
    · exact id
    · exact fun _ => Bsw.push_aligned _ _

theorem enc_ensures (t : Huf) (sym : Byte) (h : w₀.Grown cap w) : Ensures (enc cap t w sym) (w₀.Grown cap) :=
  .ite .raise (.ite .raise (.bind fun _ => wrBits_ensures _ h))

theorem encAll_ensures (t : Huf) (bs : List Byte) (h : w₀.Grown cap w) : Ensures (encAll cap t w bs) (w₀.Grown cap) := by
  induction bs generalizing w with
  | nil => exact .ok h
  | cons b bs ih => exact .bind_of (enc_ensures t b h) fun _ h1 => ih h1

end

/-! ## Sequencers -/

theorem buildTree_freq (p : Params) (f : Table Count) : Ensures (buildTree p f) fun a => a.1.freq = f :=
  .bind fun _ => .bind fun _ => .ok rfl

/-- `HcCompressSeq(x)` changes the HUF unit, the PQ unit and the writer only (45_compressors.md R196). -/
theorem hcCompressSeq_ensures (x : List Byte) (s : State) :
    Ensures (hcCompressSeq x s) fun t =>
      ∃ h q w, t = { s with huf := h, pq := q, bsw := w } ∧ s.bsw.Grown s.params.outCap w :=
  .bind fun _ => .bind fun _ => .bind_of (wrBits_ensures _ (.refl _)) fun _ h1 =>
    .bind_of (wrInt_ensures _ h1) fun _ h2 => .bind_of (encAll_ensures _ _ h2) fun _ h3 =>
      .bind_of (flush_ensures h3) fun _ h4 => .ok ⟨_, _, _, rfl, h4⟩

/-- `HcExpandSeq()` moves the reader and keeps `FREQ`; what it stores keeps every property that one store keeps. -/
theorem hcExpandSeq_ensures {σ : Type} {store : σ → Byte → Except Stop σ} {P : σ → Prop} {acc : σ} {r₀ r : Bsr} {h : Huf}
    (hstore : ∀ a v, P a → Ensures (store a v) P) (hacc : P acc) (hr : r₀.Moved r) :
    Ensures (hcExpandSeq store acc r h) fun a => P a.1 ∧ r₀.Moved a.2.1 ∧ a.2.2.freq = h.freq := by
  intro a ha
  rcases hcExpandSeq_cases ha with ⟨-, h1, h2, h3⟩ | ⟨r1, r2, n, -, hparse, hint, -, hloop⟩
  · exact ⟨h1 ▸ hacc, h2 ▸ hr, by rw [h3]⟩
  · obtain ⟨hr1, hfreq⟩ := parseTree_ensures h hr _ hparse
    obtain ⟨hr2, hP⟩ := decodeLoop_keeps _ _ P (fun a v a' hp hs => hstore a v hp a' hs) _ _ _ _ _ hloop
    exact ⟨hP hacc, (rdInt_ensures hr1 _ hint).trans hr2, hfreq⟩

/-! ## What a command leaves when it completes

The fields are filled in by themselves for what a command does not touch, so that each command below names exactly what it
writes. -/

/-- What the pseudocode of the command `i` may leave when it runs to its end in state `s`: which pieces of state it writes
(10_state.md R20; the tables of Safety.lean), that the streams keep their bounds (R22 to R24), the result and the NONE flag
(30_encoding.md R85). `FAULT` and `ERR` stay. -/
structure Completes (i : Instr) (s : State) (d : Done) : Prop where
  inp : d.st.bsr.inp = s.bsr.inp := by rfl
  cursor : s.bsr.rpos ≤ s.bsr.bitLen → d.st.bsr.rpos ≤ d.st.bsr.bitLen := by exact id
  rpos : movesRpos i = false → d.st.bsr.rpos = s.bsr.rpos := by exact fun _ => rfl
  bsw : writesOut i = false → d.st.bsw = s.bsw := by exact fun _ => rfl
  writer : (i = .bsWrst ∧ d.st.bsw = Bsw.empty) ∨ s.bsw.Grown s.params.outCap d.st.bsw := by exact .inr (.refl _)
  pq : writesPq i = false → d.st.pq = s.pq := by exact fun _ => rfl
  freq : writesFreq i = false → d.st.huf.freq = s.huf.freq := by exact fun _ => rfl
  tree : writesTree i = false → d.st.huf = { s.huf with freq := d.st.huf.freq } := by exact fun _ => rfl
  mtfl : (scratchOf i).1 = false → d.st.mtf = s.mtf := by exact fun _ => rfl
  rot : (scratchOf i).2.1 = false → d.st.bwt.rot = s.bwt.rot := by exact fun _ => rfl
  next : (scratchOf i).2.2.1 = false → d.st.bwt.next = s.bwt.next := by exact fun _ => rfl
  scr : (scratchOf i).2.2.2 = false → d.st.seq = s.seq := by exact fun _ => rfl
  ctl : d.st.ctl = s.ctl := by rfl
  res : hasResult i = false → d.res = 0 := by exact fun _ => rfl
  none : d.none = true ↔ ((i = .pqPoll ∨ i = .pqPeek) ∧ s.pq.heap = []) ∨ (i = .pqCmp ∧ s.pq.ord = .natural) := by simp

theorem Bsr.Moved.inp {r r' : Bsr} (h : r.Moved r') : r'.inp = r.inp := h.1

theorem Bsr.Moved.cursor {r r' : Bsr} (h : r.Moved r') : r.rpos ≤ r.bitLen → r'.rpos ≤ r'.bitLen := h.2.2

theorem Bsr.Moved.cursor_of_rewind {r r' : Bsr} (h : r.rewind.Moved r') : r'.rpos ≤ r'.bitLen := h.cursor (Nat.zero_le _)

/-- Every answer of the pseudocode of `i` keeps to `Completes`, and every fault it raises is of a kind that is raised
(60_exceptions.md R213): so the command completes in such a way or enters such a fault. -/
theorem conclude_cases_of {i : Instr} {s t : State} {e : Except Stop Done} (hr : Raises (· ≠ .incomparable) e)
    (he : Ensures e (Completes i s)) (h : conclude s e = .next t) :
    (∃ d, t = complete d ∧ Completes i s d) ∨ (∃ k, k ≠ .incomparable ∧ t = enterFault k s) := by
  rcases conclude_cases h with ⟨d, hd, rfl⟩ | ⟨k, hk, rfl⟩
  · exact .inl ⟨d, rfl, he d hd⟩
  · exact .inr ⟨k, hr k hk, rfl⟩

/-- Everything a command can do when it answers. A case gives the shape of the command's pseudocode twice: for the faults it
raises and for what it leaves. -/
theorem exec_cases {s t : State} : ∀ {i : Instr}, exec i s = .next t →
    (∃ d, t = complete d ∧ Completes i s d) ∨ (∃ k, k ≠ .incomparable ∧ t = enterFault k s)
  | .bsRbit => conclude_cases_of
    (.bind (rdBit_raises nofun _) fun _ => .ok) <|
    .bind_of (rdBit_ensures (.refl _)) fun _ hr => .ok { inp := hr.inp, cursor := hr.cursor, rpos := nofun, res := nofun }
  | .bsRbyte => conclude_cases_of
    (.bind (rdByte_raises nofun _) fun _ => .ok) <|
    .bind_of (rdByte_ensures (.refl _)) fun _ hr => .ok { inp := hr.inp, cursor := hr.cursor, rpos := nofun, res := nofun }
  | .bsRint => conclude_cases_of
    (.bind (rdInt_raises nofun _) fun _ => .ok) <|
    .bind_of (rdInt_ensures (.refl _)) fun _ hr => .ok { inp := hr.inp, cursor := hr.cursor, rpos := nofun, res := nofun }
  | .bsRlen | .bsWlen | .pqSize => fun h => conclude_cases_of .ok (.ok { res := nofun }) h
  | .bsRrst => fun h => conclude_cases_of .ok (.ok { cursor := fun _ => Nat.zero_le _, rpos := nofun }) h
  | .bsWbit _ => conclude_cases_of
    (.bind (wrBit_raises nofun _ _) fun _ => .ok) <|
    .bind_of (fun _ hb => wrBit_grown hb) fun _ hw => .ok { bsw := nofun, writer := .inr hw }
  | .bsWbyte _ => conclude_cases_of
    (.bind (wrBits_raises nofun _ _) fun _ => .ok) <|
    .bind_of (wrByte_ensures _ (.refl _)) fun _ hw => .ok { bsw := nofun, writer := .inr hw }
  | .bsWint _ => conclude_cases_of
    (.bind (wrBytes_raises nofun _ _) fun _ => .ok) <|
    .bind_of (wrInt_ensures _ (.refl _)) fun _ hw => .ok { bsw := nofun, writer := .inr hw }
  | .bsWrst => fun h => conclude_cases_of .ok (.ok { bsw := nofun, writer := .inl ⟨rfl, rfl⟩ }) h
  | .bsFlush => conclude_cases_of
    (.bind (flush_raises nofun _) fun _ => .ok) <|
    .bind_of (flush_ensures (.refl _)) fun _ hw => .ok { bsw := nofun, writer := .inr hw }
  | .pqInit _ _ cmp => conclude_cases_of
    (by
      cases ordOperand cmp with
      | none => exact .raise nofun
      | some o => exact .bind (initCapacity_raises nofun nofun _ _) fun _ => .ok)
    (by
      cases ordOperand cmp with
      | none => exact .raise
      | some o => exact .bind fun _ => .ok { pq := nofun })
  | .pqOffer _ _ => conclude_cases_of
    (.ite (.raise nofun) (.bind (pqOffer_raises nofun _ _ _) fun _ => .ok)) <|
    .ite .raise (.bind fun _ => .ok { pq := nofun, res := nofun })
  | .pqPoll => conclude_cases_of (.ite .ok .ok) <| by
    split
    next h => exact .ok { pq := nofun, none := by simp [List.length_eq_zero_iff.mp h] }
    next h => exact .ok { pq := nofun, res := nofun, none := by simp [List.length_eq_zero_iff.not.mp h] }
  | .pqPeek => conclude_cases_of (.ite .ok .ok) <| by
    split
    next h => exact .ok { none := by simp [List.length_eq_zero_iff.mp h] }
    next h => exact .ok { res := nofun, none := by simp [List.length_eq_zero_iff.not.mp h] }
  | .pqCmp => conclude_cases_of
    (by
      cases s.pq.ord with
      | natural => exact .ok
      | key => exact .ok)
    (by
      cases ho : s.pq.ord with
      | natural => exact .ok { none := by simp [ho] }
      | key => exact .ok { res := nofun, none := by simp [ho] })
  | .mtfFwd | .mtfInv => conclude_cases_of
    (.bind (wrBytes_raises nofun _ _) fun _ => .ok) <|
    .bind_of (wrBytes_ensures _ (.refl _)) fun _ hw =>
      .ok { cursor := fun _ => Nat.le_refl _, rpos := nofun, bsw := nofun, writer := .inr hw, mtfl := nofun }
  | .bwtFwd => conclude_cases_of
    (.ite .ok (.bind (wrBytes_raises nofun _ _) fun _ => .bind (wrBytes_raises nofun _ _) fun _ => .ok)) <|
    .ite (.ok { cursor := fun _ => Nat.zero_le _, rpos := nofun }) <|
      .bind_of (wrInt_ensures _ (.refl _)) fun _ h1 => .bind_of (wrBytes_ensures _ h1) fun _ hw =>
        .ok { cursor := fun _ => Nat.le_refl _, rpos := nofun, bsw := nofun, writer := .inr hw, rot := nofun }
  | .bwtInv => conclude_cases_of
    (.ite .ok (.bind (rdInt_raises nofun _) fun _ => .bind (rdBytes_raises nofun _ _) fun _ =>
      .ite .ok (.ite (.raise nofun) (.bind (wrBytes_raises nofun _ _) fun _ => .ok)))) <|
    .ite (.ok { cursor := fun _ => Nat.zero_le _, rpos := nofun }) <|
      .bind_of (rdInt_ensures (.refl _)) fun _ h1 => .bind_of (rdBytes_ensures _ h1) fun _ hr =>
        .ite (.ok { inp := hr.inp, cursor := fun _ => hr.cursor_of_rewind, rpos := nofun }) <| .ite .raise <|
          .bind_of (wrBytes_ensures _ (.refl _)) fun _ hw =>
            .ok { inp := hr.inp, cursor := fun _ => hr.cursor_of_rewind, rpos := nofun, bsw := nofun, writer := .inr hw,
                  next := nofun }
  | .hufFclr | .hufFset _ _ => fun h => conclude_cases_of .ok (.ok { freq := nofun }) h
  | .hufFcnt => fun h => conclude_cases_of .ok (.ok { cursor := fun _ => Nat.le_refl _, rpos := nofun, freq := nofun }) h
  | .hufBuild => conclude_cases_of
    (.ite (.raise nofun) (.bind (buildTree_raises nofun _ _) fun _ => .ok)) <|
    .ite .raise (.bind_of (buildTree_freq _ _) fun _ hf => .ok { pq := nofun, freq := fun _ => hf, tree := nofun })
  | .hufWhdr => conclude_cases_of
    (.ite (.raise nofun) (.bind (hdrBitsIn_raises _ _ _) fun _ => .bind (wrBits_raises nofun _ _) fun _ => .ok)) <|
    .ite .raise (.bind fun _ => .bind_of (wrBits_ensures _ (.refl _)) fun _ hw => .ok { bsw := nofun, writer := .inr hw })
  | .hufRhdr => conclude_cases_of
    (.bind (parseTree_raises nofun nofun _ _) fun _ => .ok) <|
    .bind_of (parseTree_ensures _ (.refl _)) fun _ ⟨hr, hfreq⟩ =>
      .ok { inp := hr.inp, cursor := hr.cursor, rpos := nofun, freq := fun _ => hfreq, tree := nofun }
  | .hufEnc _ => conclude_cases_of
    (.bind (enc_raises nofun nofun _ _ _) fun _ => .ok) <|
    .bind_of (enc_ensures _ _ (.refl _)) fun _ hw => .ok { bsw := nofun, writer := .inr hw }
  | .hufDec => conclude_cases_of
    (.bind (dec_raises nofun nofun _ _) fun _ => .ok) <|
    .bind_of (dec_ensures _ (.refl _)) fun _ hr => .ok { inp := hr.inp, cursor := hr.cursor, rpos := nofun, res := nofun }
  | .hcCompress => conclude_cases_of
    (.ite .ok (.bind (hcCompressSeq_raises nofun nofun _ _) fun _ => .ok)) <|
    .ite (.ok { cursor := fun _ => Nat.zero_le _, rpos := nofun }) <|
      .bind_of (hcCompressSeq_ensures _ _) fun _ ⟨_, _, _, ht, hw⟩ => by
        subst ht
        exact .ok { cursor := fun _ => Nat.le_refl _, rpos := nofun, bsw := nofun, writer := .inr hw, pq := nofun,
                    freq := nofun, tree := nofun }
  | .hcExpand => conclude_cases_of
    (.bind (hcExpandSeq_raises nofun nofun nofun (fun _ _ => wrBits_raises nofun _ _) _ _ _) fun _ => .ok) <|
    .bind_of (hcExpandSeq_ensures (P := s.bsw.Grown s.params.outCap) (fun _ v hw => wrByte_ensures v hw) (.refl _) (.refl _))
      fun _ ⟨hw, hr, hfreq⟩ =>
        .ok { inp := hr.inp, cursor := fun _ => hr.cursor_of_rewind, rpos := nofun, bsw := nofun, writer := .inr hw,
              freq := fun _ => hfreq, tree := nofun }
  | .bwCompress => conclude_cases_of
    (.ite .ok (.bind (wrBytes_raises nofun _ _) fun _ => .bind (hcCompressSeq_raises nofun nofun _ _) fun _ => .ok)) <|
    .ite (.ok { cursor := fun _ => Nat.zero_le _, rpos := nofun }) <|
      .bind_of (wrInt_ensures _ (.refl _)) fun _ h1 => .bind_of (hcCompressSeq_ensures _ _) fun _ ⟨_, _, _, ht, hw⟩ => by
        subst ht
        exact .ok { cursor := fun _ => Nat.le_refl _, rpos := nofun, bsw := nofun, writer := .inr (h1.trans hw), pq := nofun,
                    freq := nofun, tree := nofun, mtfl := nofun, rot := nofun, scr := nofun }
  | .bwExpand => conclude_cases_of
    (.ite .ok (.bind (rdInt_raises nofun _) fun _ =>
      .bind (hcExpandSeq_raises nofun nofun nofun (fun _ _ => collect_raises nofun _ _ _) _ _ _) fun _ =>
        .ite .ok (.ite (.raise nofun) (.bind (wrBytes_raises nofun _ _) fun _ => .ok)))) <|
    .ite (.ok { cursor := fun _ => Nat.zero_le _, rpos := nofun }) <|
      .bind_of (rdInt_ensures (.refl _)) fun _ h1 =>
        .bind_of (hcExpandSeq_ensures (P := fun _ => True) (fun _ _ _ _ _ => trivial) trivial h1) fun _ ⟨_, hr, hfreq⟩ =>
          .ite (.ok { inp := hr.inp, cursor := fun _ => hr.cursor_of_rewind, rpos := nofun, freq := fun _ => hfreq,
                      tree := nofun, mtfl := nofun, scr := nofun }) <| .ite .raise <|
            .bind_of (wrBytes_ensures _ (.refl _)) fun _ hw =>
              .ok { inp := hr.inp, cursor := fun _ => hr.cursor_of_rewind, rpos := nofun, bsw := nofun,
                    writer := .inr hw, freq := fun _ => hfreq, tree := nofun, mtfl := nofun, next := nofun, scr := nofun }

/-- A command that leaves no fault has completed. -/
theorem exec_completes {i : Instr} {s t : State} (h : exec i s = .next t) (ht : t.ctl.fault = false) :
    ∃ d, t = complete d ∧ Completes i s d := by
  rcases exec_cases h with hd | ⟨k, -, rfl⟩
  · exact hd
  · exact absurd ht (by simp)

end Sys2Proof.Machine
end

section
/-! PROOFS. The state family, what `Completes` and the inversion of a step give: the frame of commands, the control state, the
bounds of the streams, reset. -/

namespace Sys2Proof.Machine

/-- Settles O16: each field of `Completes` is one clause, and the host's side is kept by `exec_sameHost`. -/
theorem commandsWriteOnlyTheirUnits : Obligations.CommandsWriteOnlyTheirUnits := by
  intro i s t _ h ht
  obtain ⟨hparams, hport, hreply⟩ := exec_sameHost h
  obtain ⟨d, rfl, hc⟩ := exec_completes h ht
  have hout (hi : i ≠ .bsWrst) : s.bsw.out <+: d.st.bsw.out := (hc.writer.resolve_left fun hw => hi hw.1).out
  exact ⟨hc.inp, hc.rpos, hc.bsw, hout, hc.pq, hc.freq, hc.tree, hc.mtfl, hc.rot, hc.next, hc.scr, hparams, hport, hreply⟩

/-- Settles O15, from the fields of `Completes` on the control state. -/
theorem completionWritesResAndNone : Obligations.CompletionWritesResAndNone := by
  intro i s t _ h ht
  obtain ⟨d, rfl, hc⟩ := exec_completes h ht
  exact ⟨by rw [complete_ctl_err, hc.ctl], hc.res, hc.none⟩

/-! ## Invariants of a block without a fault -/

theorem afterRead_eq (s : State) : afterRead s = { s with stamp := (afterRead s).stamp } := by
  rcases afterRead_cases s with h | ⟨-, h⟩
  · rw [h]
  · rw [h]

/-- A property of the block's units that `HostReset` establishes, and that a load and every command that completes keep,
is kept by every step that leaves no fault. It may speak of the parameters, which no step changes. -/
theorem step_keeps_unless_faulted {P : State → Prop} {s t : State}
    (units : ∀ u port reply stamp, P u → P { u with port := port, reply := reply, stamp := stamp })
    (reset : ∀ u, u.params = s.params → P (hostReset u))
    (load : ∀ u x, x.length ≤ u.params.nmax → P u → P (hostLoadIn x u))
    (command : ∀ i u v, u.params = s.params → P u → exec i u = .next v → v.ctl.fault = false → P v)
    (hs : s.ctl.fault = false → P s) (h : step s = .next t) : t.ctl.fault = false → P t := by
  rcases step_cases h with ⟨-, rfl⟩ | ⟨rest, -, rfl⟩ | ⟨x, rest, -, hx, ⟨-, rfl⟩ | ⟨hf, rfl⟩⟩ |
    ⟨w, rest, u, -, hu, rfl⟩ | ⟨rest, -, rfl⟩ | ⟨r, rest, -, rfl⟩
  · exact hs
  · exact fun _ => units _ _ _ _ (reset { s with port := rest } rfl)
  · exact fun hf => units s rest _ _ (hs hf)
  · exact fun _ => units _ _ _ _ (load { s with port := rest } x hx (units s rest _ _ (hs hf)))
  · rcases hostIssue_cases hu with ⟨-, rfl⟩ | ⟨-, -, rfl⟩ | ⟨hf, i, -, hi⟩
    · exact fun hf => units s rest _ _ (hs hf)
    · exact nofun
    · exact fun hv => units u _ _ _ (command i { s with port := rest } u rfl (units s rest _ _ (hs hf)) hi hv)
  · rw [afterRead_eq]
    exact fun hf => units s rest _ _ (hs hf)
  · rw [afterRead_eq]
    exact fun hf => units s rest _ _ (hs hf)

theorem complete_statusInv {s : State} {d : Done} (hctl : d.st.ctl = s.ctl) (hs : StatusInv s) : StatusInv (complete d) := by
  rwa [StatusInv, complete_ctl_fault, complete_ctl_err, hctl]

/-- Every kind that is raised has one of the five codes (60_exceptions.md R210, R213). -/
theorem enterFault_statusInv {k : FaultKind} {s : State} (hk : k ≠ .incomparable) : StatusInv (enterFault k s) := by
  cases k with
  | incomparable => exact absurd rfl hk
  | invalidArgument | nullElement | unexpectedEof | corruptHeader | overflow => simp [StatusInv, FaultKind.code]

/-- Settles O13: a completed command keeps FAULT and ERR, and a fault is of a raised kind, whose code is one of the five. -/
theorem stepKeepsStatusInv : Obligations.StepKeepsStatusInv := by
  intro s t hs h
  rcases step_cases h with ⟨-, rfl⟩ | ⟨rest, -, rfl⟩ | ⟨x, rest, -, -, ⟨-, rfl⟩ | ⟨-, rfl⟩⟩ |
    ⟨w, rest, u, -, hu, rfl⟩ | ⟨rest, -, rfl⟩ | ⟨r, rest, -, rfl⟩
  · exact hs
  · exact rfl
  · exact hs
  · exact hs
  · rcases hostIssue_cases hu with ⟨-, rfl⟩ | ⟨-, -, rfl⟩ | ⟨hf, i, -, hi⟩
    · exact hs
    · exact enterFault_statusInv nofun
    · rcases exec_cases hi with ⟨d, rfl, hc⟩ | ⟨k, hk, rfl⟩
      · exact complete_statusInv hc.ctl hs
      · exact enterFault_statusInv hk
  · rw [afterRead_eq]
    exact hs
  · rw [afterRead_eq]
    exact hs

theorem Bsw.empty_aligned : Bsw.empty.aligned := fun i _ => by simp [Bsw.empty]

/-- Settles O57: the streams are empty after a reset and after a load, and `Completes` keeps their bounds. -/
theorem stepKeepsStreamInv : Obligations.StepKeepsStreamInv := by
  intro s t hs h
  refine step_keeps_unless_faulted (P := fun u => Memory.wf u = true ∧ u.bsr.rpos ≤ u.bsr.bitLen ∧ u.bsw.aligned)
    (fun _ _ _ _ hu => hu) ?reset ?load ?command hs h
  case reset =>
    intro u _
    exact ⟨memory_wf_iff.mpr ⟨Nat.zero_le _, fun _ _ => Nat.zero_le _⟩, Nat.zero_le _, Bsw.empty_aligned⟩
  case load => exact fun u x hx ⟨hwf, _, halign⟩ => ⟨hostLoadIn_memory_wf hwf hx, Nat.zero_le _, halign⟩
  case command =>
    intro i u v _ ⟨hwf, hcursor, halign⟩ hi hv
    have hparams := (exec_sameHost hi).params
    obtain ⟨d, rfl, hc⟩ := exec_completes hi hv
    obtain ⟨hin, hout⟩ := memory_wf_iff.mp hwf
    have hout' : d.st.bsw.within u.params.outCap ∧ d.st.bsw.aligned := by
      rcases hc.writer with ⟨-, he⟩ | hg
      · rw [he]
        exact ⟨fun _ _ => Nat.zero_le _, Bsw.empty_aligned⟩
      · exact ⟨hg.within hout, hg.aligned halign⟩
    refine ⟨memory_wf_iff.mpr ?_, hc.cursor hcursor, hout'.2⟩
    rw [hparams, complete_bsr, hc.inp]
    exact ⟨hin, hout'.1⟩

theorem heapInv_nil (o : PqOrd) : HeapInv o [] := fun k h2 hk => by simp at hk; omega

/-! ## Reset -/

/-- Settles O9: the values of `hostReset`, one by one. -/
theorem hostResetGivesResetValues : Obligations.HostResetGivesResetValues := by
  intro s rest hp
  refine ⟨{ hostReset { s with port := rest } with reply := .nothing }, ?_, rfl, rfl, rfl, rfl, rfl, rfl, rfl, rfl, rfl, rfl,
    rfl, rfl, rfl, fun a => tabGet_tabFill 0 a, rfl, rfl, rfl, rfl⟩
  simp [step, hostStep, hp, hostOp]

/-- Settles O10: every table and every list is empty after reset. -/
theorem resetStateMeetsInvariants : Obligations.ResetStateMeetsInvariants := by
  have hhost : HostInv State.reset := ⟨by decide, nofun⟩
  have hstream : StreamInv State.reset := fun _ => ⟨reset_memory_wf, Nat.zero_le _, Bsw.empty_aligned⟩
  have hqueue : QueueInv State.reset :=
    fun _ => ⟨by decide, by decide, Nat.zero_le _, heapInv_nil _, nofun⟩
  have htree : TreeInv State.reset := fun _ => ⟨nofun, fun _ => ⟨rfl, rfl⟩⟩
  exact ⟨hhost, hstream, rfl, hqueue, htree, rfl, rfl, rfl, rfl, rfl⟩

end Sys2Proof.Machine
end

section
/-! PROOFS. The state family, the queue: `PercUp` and `PercDown` restore the heap invariant (10_state.md R31; 41_pqueue.md R124,
R125), and every command keeps the queue's invariants. -/

namespace Sys2Proof.Machine

/-! ## Positions of the heap -/

section
variable {h : List Elem} {i j k : Nat}

/-- A swap exchanges two positions and leaves the others. -/
theorem heapAt_heapSwap (hi : 1 ≤ i ∧ i ≤ h.length) (hj : 1 ≤ j ∧ j ≤ h.length) (hk : 1 ≤ k) :
    heapAt (heapSwap h i j) k = if k = j then heapAt h i else if k = i then heapAt h j else heapAt h k := by
  have h1 : j - 1 = k - 1 ↔ k = j := by omega
  have h2 : i - 1 = k - 1 ↔ k = i := by omega
  have h3 : j - 1 < h.length := by omega
  have h4 : i - 1 < h.length := by omega
  by_cases hkj : k = j
  · simp [heapSwap, heapAt, hkj, h3]
  · by_cases hki : k = i
    · subst hki
      simp [heapSwap, heapAt, hkj, h1, h4]
    · simp [heapSwap, heapAt, hkj, hki, h1, h2]

theorem heapAt_append_left (el : Elem) (hk : 1 ≤ k ∧ k ≤ h.length) : heapAt (h ++ [el]) k = heapAt h k := by
  have : k - 1 < h.length := by omega
  simp [heapAt, List.getElem?_append, this]

/-- Taking the last element away and writing the first one leaves the positions between. -/
theorem heapAt_set_dropLast (el : Elem) (hk : 2 ≤ k ∧ k < h.length) : heapAt (h.set 0 el).dropLast k = heapAt h k := by
  have h1 : k - 1 < h.length - 1 := by omega
  have h2 : 0 ≠ k - 1 := by omega
  have h3 : k - 1 < h.length := by omega
  simp [heapAt, h1, h2, h3]

end

/-! ## `PercUp` -/

/-- The heap invariant up to position `k`, whose element may be smaller than its parent; its children are no smaller than that
parent. -/
structure HeapInvButUp (o : PqOrd) (h : List Elem) (k : Nat) : Prop where
  others : ∀ j, 2 ≤ j → j ≤ h.length → j ≠ k → less o (heapAt h j) (heapAt h (j / 2)) = false
  children : ∀ j, 4 ≤ j → j ≤ h.length → j / 2 = k → less o (heapAt h j) (heapAt h (k / 2)) = false

/-- Where the element at `k` is no smaller than its parent, the invariant holds everywhere. -/
theorem HeapInvButUp.heapInv {o : PqOrd} {h : List Elem} {k : Nat} (hh : HeapInvButUp o h k)
    (hk : 2 ≤ k → less o (heapAt h k) (heapAt h (k / 2)) = false) : HeapInv o h := by
  intro j h2 hj
  by_cases hjk : j = k
  · exact hjk ▸ hk (hjk ▸ h2)
  · exact hh.others j h2 hj hjk

/-- One turn of `PercUp`: the element at `k` changes places with its larger parent. -/
theorem HeapInvButUp.swap {o : PqOrd} {h : List Elem} {k : Nat} (hh : HeapInvButUp o h k) (hk : 2 ≤ k) (hlen : k ≤ h.length)
    (hless : less o (heapAt h k) (heapAt h (k / 2)) = true) : HeapInvButUp o (heapSwap h k (k / 2)) (k / 2) := by
  have hat (j : Nat) (hj : 1 ≤ j) : heapAt (heapSwap h k (k / 2)) j =
      if j = k / 2 then heapAt h k else if j = k then heapAt h (k / 2) else heapAt h j :=
    heapAt_heapSwap (by omega) (by omega) hj
  have hle := less_asymm hless
  constructor
  · intro j h2 hj hne
    rw [heapSwap_length] at hj
    rw [hat j (by omega), hat (j / 2) (by omega), if_neg hne]
    by_cases hjk : j = k
    · rw [if_pos hjk, if_pos (by omega)]
      exact hle
    · rw [if_neg hjk]
      by_cases hsib : j / 2 = k / 2
      · rw [if_pos hsib]
        exact notLess_trans hle (hsib ▸ hh.others j h2 hj hjk)
      · rw [if_neg hsib]
        by_cases hchild : j / 2 = k
        · rw [if_pos hchild]
          exact hh.children j (by omega) hj hchild
        · rw [if_neg hchild]
          exact hh.others j h2 hj hjk
  · intro j h4 hj hjk
    rw [heapSwap_length] at hj
    rw [hat j (by omega), hat (k / 2 / 2) (by omega), if_neg (show j ≠ k / 2 by omega),
      if_neg (show k / 2 / 2 ≠ k / 2 by omega), if_neg (show k / 2 / 2 ≠ k by omega)]
    have hparent := hh.others (k / 2) (by omega) (by omega) (by omega)
    by_cases h : j = k
    · rw [if_pos h]
      exact hparent
    · rw [if_neg h]
      exact notLess_trans hparent (hjk ▸ hh.others j (by omega) hj h)

theorem percUpIn_heapInv {o : PqOrd} {fuel k : Nat} {h : List Elem} (hfuel : k ≤ fuel) (hlen : k ≤ h.length)
    (hh : HeapInvButUp o h k) : HeapInv o (percUpIn o fuel k h) := by
  induction fuel generalizing k h with
  | zero => exact hh.heapInv (by omega)
  | succ fuel ih =>
    rw [percUpIn]
    split
    next hc => exact ih (by omega) (by rw [heapSwap_length]; omega) (hh.swap hc.1 hlen hc.2)
    next hc => exact hh.heapInv fun hk => by simpa [show k > 1 from hk] using hc

/-- `PercUp` from the end restores the invariant after an element is added there (41_pqueue.md R124, R127). -/
theorem percUp_heapInv {o : PqOrd} {h : List Elem} (el : Elem) (hh : HeapInv o h) :
    HeapInv o (percUp o (h.length + 1) (h ++ [el])) := by
  refine percUpIn_heapInv (Nat.le_refl _) (by simp) ⟨?_, ?_⟩
  · intro j h2 hj hne
    have hj : j ≤ h.length := by simp at hj; omega
    rw [heapAt_append_left el (by omega), heapAt_append_left el (by omega)]
    exact hh j h2 hj
  · intro j _ hj hjk
    simp at hj
    omega

/-! ## `PercDown` -/

/-- The heap invariant but for position `k`, whose children may be smaller than it; they are no smaller than its parent. -/
structure HeapInvButDown (o : PqOrd) (h : List Elem) (k : Nat) : Prop where
  others : ∀ j, 2 ≤ j → j ≤ h.length → j / 2 ≠ k → less o (heapAt h j) (heapAt h (j / 2)) = false
  children : ∀ j, 4 ≤ j → j ≤ h.length → j / 2 = k → less o (heapAt h j) (heapAt h (k / 2)) = false

/-- Where no child of `k` is smaller than it, the invariant holds everywhere. -/
theorem HeapInvButDown.heapInv {o : PqOrd} {h : List Elem} {k : Nat} (hh : HeapInvButDown o h k)
    (hk : ∀ j, 2 ≤ j → j ≤ h.length → j / 2 = k → less o (heapAt h j) (heapAt h k) = false) : HeapInv o h := by
  intro j h2 hj
  by_cases hjk : j / 2 = k
  · exact hjk ▸ hk j h2 hj hjk
  · exact hh.others j h2 hj hjk

/-- No child of `k` is smaller than the one that the descent takes (41_pqueue.md R125). -/
theorem smallerChild_le {o : PqOrd} {h : List Elem} {j k : Nat} (hj : j ≤ h.length) (hjk : j / 2 = k) :
    less o (heapAt h j) (heapAt h (smallerChild o k h)) = false := by
  have hc : j = 2 * k ∨ j = 2 * k + 1 := by omega
  unfold smallerChild
  split
  next h1 =>
    rcases hc with rfl | rfl
    · exact less_asymm h1.2
    · exact less_irrefl _ _
  next h1 =>
    rcases hc with rfl | rfl
    · exact less_irrefl _ _
    · simpa [show 2 * k < h.length by omega] using h1

/-- One turn of `PercDown`: the element at `k` changes places with the smaller child. -/
theorem HeapInvButDown.swap {o : PqOrd} {h : List Elem} {j k : Nat} (hh : HeapInvButDown o h k) (hk : 1 ≤ k)
    (hj : j ≤ h.length) (hjk : j / 2 = k)
    (hmin : ∀ i, i ≤ h.length → i / 2 = k → less o (heapAt h i) (heapAt h j) = false)
    (hless : less o (heapAt h j) (heapAt h k) = true) : HeapInvButDown o (heapSwap h k j) j := by
  have hat (i : Nat) (hi : 1 ≤ i) : heapAt (heapSwap h k j) i =
      if i = j then heapAt h k else if i = k then heapAt h j else heapAt h i :=
    heapAt_heapSwap (by omega) (by omega) hi
  constructor
  · intro i h2 hi hne
    rw [heapSwap_length] at hi
    rw [hat i (by omega), hat (i / 2) (by omega), if_neg hne]
    by_cases hij : i = j
    · rw [if_pos hij, if_pos (by omega)]
      exact less_asymm hless
    · rw [if_neg hij]
      by_cases hsib : i / 2 = k
      · rw [if_neg (by omega), if_pos hsib]
        exact hmin i hi hsib
      · rw [if_neg hsib]
        by_cases hik : i = k
        · rw [if_pos hik, hik]
          exact hh.children j (by omega) hj hjk
        · rw [if_neg hik]
          exact hh.others i h2 hi hsib
  · intro i h4 hi hij
    rw [heapSwap_length] at hi
    rw [hat i (by omega), hat (j / 2) (by omega), if_neg (by omega), if_neg (by omega), if_neg (by omega), if_pos hjk]
    exact hij ▸ hh.others i (by omega) hi (by omega)

theorem percDownIn_heapInv {o : PqOrd} {fuel k : Nat} {h : List Elem} (hfuel : h.length ≤ fuel + k) (hk : 1 ≤ k)
    (hh : HeapInvButDown o h k) : HeapInv o (percDownIn o fuel k h) := by
  induction fuel generalizing k h with
  | zero => exact hh.heapInv (by omega)
  | succ fuel ih =>
    rw [percDownIn]
    split
    next hc =>
      have hchild : smallerChild o k h / 2 = k ∧ smallerChild o k h ≤ h.length := by
        have := smallerChild_cases o k h
        omega
      have hmin := fun j => smallerChild_le (o := o) (h := h) (j := j) (k := k)
      dsimp only
      split
      next hless => exact ih (by rw [heapSwap_length]; omega) (by omega) (hh.swap hk hchild.2 hchild.1 hmin hless)
      next hless => exact hh.heapInv fun j _ hj hjk => notLess_trans (by simpa using hless) (hmin j hj hjk)
    next hc => exact hh.heapInv (by omega)

/-- `PercDown` from the root restores the invariant after the last element took the place of the first (41_pqueue.md R125,
R128). -/
theorem percDown_heapInv {o : PqOrd} {h : List Elem} (el : Elem) (hh : HeapInv o h) :
    HeapInv o (percDown o 1 (h.set 0 el).dropLast) := by
  refine percDownIn_heapInv (by omega) (by omega) ⟨?_, by omega⟩
  intro j h2 hj hne
  have hj : j < h.length := by simp at hj; omega
  rw [heapAt_set_dropLast el (by omega), heapAt_set_dropLast el (by omega)]
  exact hh j h2 (by omega)

/-! ## The queue's invariants -/

theorem pqOffer_heapInv {m : Nat} {el : Elem} {q q' : Pq} (h : pqOffer m el q = .ok q') (hq : HeapInv q.ord q.heap) :
    HeapInv q'.ord q'.heap := by
  obtain ⟨hheap, hord, -⟩ := pqOffer_cases h
  rw [hheap, hord]
  exact percUp_heapInv el hq

theorem pqPoll_heapInv {q : Pq} (hq : HeapInv q.ord q.heap) : HeapInv (pqPoll q).2.ord (pqPoll q).2.heap :=
  percDown_heapInv _ hq

/-- Polling takes one element away if there is one. -/
theorem pqPoll_length_eq (q : Pq) : (pqPoll q).2.heap.length = q.heap.length - 1 := by simp [pqPoll]

/-- The invariants of `QueueInv`, of a queue whose capacity is at most `m`. -/
structure Pq.Safe (m : Nat) (q : Pq) : Prop where
  cap_pos : 1 ≤ q.cap
  cap_le : q.cap ≤ m
  size_le : q.heap.length ≤ q.cap
  heapInv : HeapInv q.ord q.heap
  present : ∀ el ∈ q.heap, elemPayload el ≠ NIL

theorem queueInv_iff {s : State} : QueueInv s ↔ (s.ctl.fault = false → s.pq.Safe s.params.pqMax) :=
  ⟨fun h hf => have ⟨h1, h2, h3, h4, h5⟩ := h hf; ⟨h1, h2, h3, h4, h5⟩,
   fun h hf => have ⟨h1, h2, h3, h4, h5⟩ := h hf; ⟨h1, h2, h3, h4, h5⟩⟩

theorem Pq.Safe.of_empty {m : Nat} {q : Pq} (hpos : 1 ≤ q.cap) (hle : q.cap ≤ m) (hq : q.heap = []) : q.Safe m where
  cap_pos := hpos
  cap_le := hle
  size_le := by simp [hq]
  heapInv := hq ▸ heapInv_nil _
  present := by simp [hq]

/-- `PqOffer(el)` grows a full queue within `PQ_MAX` and adds an element that is not missing. -/
theorem Pq.Safe.offer {m : Nat} {el : Elem} {q : Pq} (hq : q.Safe m) (hel : elemPayload el ≠ NIL) :
    Ensures (pqOffer m el q) (Pq.Safe m) := by
  intro q' h
  obtain ⟨-, -, hcap⟩ := pqOffer_cases h
  have hperm := pqOffer_perm h
  have hlen : q'.heap.length = q.heap.length + 1 := by simpa using hperm.length_eq
  obtain ⟨hpos, hle, hsize, hinv, hpresent⟩ := hq
  refine ⟨by omega, by omega, by omega, pqOffer_heapInv h hinv, fun a ha => ?_⟩
  rcases List.mem_cons.mp (hperm.mem_iff.mp ha) with rfl | ha
  · exact hel
  · exact hpresent a ha

theorem Pq.Safe.poll {m : Nat} {q : Pq} (hq : q.Safe m) (hne : q.heap ≠ []) : (pqPoll q).2.Safe m where
  cap_pos := hq.cap_pos
  cap_le := hq.cap_le
  size_le := by
    have := hq.size_le
    rw [pqPoll_length_eq, pqPoll_cap]
    omega
  heapInv := pqPoll_heapInv hq.heapInv
  present a ha := hq.present a ((pqPoll_perm hne).mem_iff.mpr (List.mem_cons_of_mem _ ha))

/-! ## Construction, its local values written out -/

/-- The node table after nodes `a` and `b` became the children of a new node (44_huffman.md R170). -/
def joinNodes (nodes : List Node) (freq : Key) (a b : Idx) : List Node :=
  setParent b (nextIdx nodes) (setParent a (nextIdx nodes) (nodes ++ [internalNode freq a b NIL]))

theorem buildTree_eq (p : Params) (f : Table Count) :
    buildTree p f =
      offerNodes p.pqMax 0 (buildLeaves f).1 (pqInit p.pqDefaultCap .natural) >>= fun q =>
        mergeLoop p.pqMax (buildLeaves f).1.length q (buildLeaves f).1 >>= fun a =>
          .ok ({ freq := f, node := a.2, symidx := (buildLeaves f).2, root := elemPayload (pqPoll a.1).1, tree := true },
            (pqPoll a.1).2) := rfl

/-! ## The queue that construction leaves -/

/-- The capacity of a queue stays between 1 and `m` however full it is. -/
def Pq.Bounded (m : Nat) (q : Pq) : Prop := 1 ≤ q.cap ∧ q.cap ≤ m

/-- `PqOffer(el)` keeps the bounds of the capacity and adds one element. -/
theorem pqOffer_bounded {m : Nat} {el : Elem} {q : Pq} (hq : q.Bounded m) :
    Ensures (pqOffer m el q) fun q' => q'.Bounded m ∧ q'.heap.length = q.heap.length + 1 := by
  intro q' h
  obtain ⟨-, -, hcap⟩ := pqOffer_cases h
  obtain ⟨hpos, hle⟩ := hq
  exact ⟨⟨by omega, by omega⟩, by simpa using (pqOffer_perm h).length_eq⟩

theorem offerNodes_bounded {m : Nat} (i : Nat) (ns : List Node) {q : Pq} (hq : q.Bounded m) :
    Ensures (offerNodes m i ns q) fun q' => q'.Bounded m ∧ q'.heap.length = q.heap.length + ns.length := by
  induction ns generalizing i q with
  | nil => exact .ok ⟨hq, rfl⟩
  | cons n ns ih =>
    refine .bind_of (pqOffer_bounded hq) fun q1 h1 => (ih (i + 1) h1.1).imp fun q' h' => ⟨h'.1, ?_⟩
    rw [h'.2, h1.2, List.length_cons]
    omega

/-- One turn of R170's loop with its two polls written out. -/
theorem mergeStep_eq (m : Nat) (q : Pq) (nodes : List Node) :
    mergeStep m q nodes =
      pqOffer m (elemOf (elemKey (pqPoll q).1 + elemKey (pqPoll (pqPoll q).2).1) (nextIdx nodes)) (pqPoll (pqPoll q).2).2 >>=
        fun q' => .ok (q', joinNodes nodes (elemKey (pqPoll q).1 + elemKey (pqPoll (pqPoll q).2).1)
          (elemPayload (pqPoll q).1) (elemPayload (pqPoll (pqPoll q).2).1)) := rfl

/-- One turn of R170's loop makes the queue shorter by one. -/
theorem mergeStep_bounded {m : Nat} {q : Pq} (nodes : List Node) (hq : q.Bounded m) (hlen : 1 < q.heap.length) :
    Ensures (mergeStep m q nodes) fun a => a.1.Bounded m ∧ a.1.heap.length + 1 = q.heap.length := by
  rw [mergeStep_eq]
  refine .bind_of (pqOffer_bounded (q := (pqPoll (pqPoll q).2).2) hq) fun q' h' => .ok ⟨h'.1, ?_⟩
  rw [h'.2, pqPoll_length_eq, pqPoll_length_eq]
  omega

/-- R170's loop ends with at most one element. -/
theorem mergeLoop_bounded {m fuel : Nat} {q : Pq} (nodes : List Node) (hq : q.Bounded m) (hlen : q.heap.length ≤ fuel + 1) :
    Ensures (mergeLoop m fuel q nodes) fun a => a.1.Bounded m ∧ a.1.heap.length ≤ 1 := by
  induction fuel generalizing q nodes with
  | zero => exact .ok ⟨hq, hlen⟩
  | succ fuel ih =>
    rw [mergeLoop]
    split
    next hc =>
      exact .bind_of (mergeStep_bounded nodes hq hc) fun a ha => ih a.2 ha.1 (by have := ha.2; omega)
    next hc => exact .ok ⟨hq, Nat.le_of_not_lt hc⟩

theorem isPow2_pos {n : Nat} (h : isPow2 n = true) : 1 ≤ n := by
  have : 2 ^ n.log2 = n := by simpa [isPow2] using h
  rw [← this]
  exact Nat.one_le_two_pow

/-- The default capacity is a legal one (00_scope.md R9). -/
theorem pqDefaultCap_bounds {p : Params} (hp : p.legal = true) : 1 ≤ p.pqDefaultCap ∧ p.pqDefaultCap ≤ p.pqMax := by
  simp only [Params.legal, Bool.and_eq_true, decide_eq_true_eq] at hp
  exact ⟨isPow2_pos hp.1.2, hp.2⟩

/-- Construction leaves an empty queue within its bounds (44_huffman.md R173). -/
theorem buildTree_queue {p : Params} (hp : p.legal = true) (f : Table Count) :
    Ensures (buildTree p f) fun a => a.2.Safe p.pqMax := by
  have h0 : (pqInit p.pqDefaultCap .natural).Bounded p.pqMax := pqDefaultCap_bounds hp
  rw [buildTree_eq]
  refine .bind_of (offerNodes_bounded 0 _ h0) fun q1 h1 => ?_
  refine .bind_of (mergeLoop_bounded _ h1.1 ?_) fun a ha => .ok (.of_empty ha.1.1 ha.1.2 ?_)
  · rw [h1.2, pqInit_heap, List.length_nil]
    omega
  · exact List.eq_nil_of_length_eq_zero (by rw [pqPoll_length_eq]; omega)

/-! ## Commands -/

theorem conclude_ensures {P : Done → Prop} {s t : State} {e : Except Stop Done} (ht : t.ctl.fault = false)
    (he : Ensures e P) (h : conclude s e = .next t) : ∃ d, t = complete d ∧ P d := by
  obtain ⟨d, hd, rfl⟩ := conclude_completes h ht
  exact ⟨d, rfl, he d hd⟩

theorem initCapacity_bounds {p : Params} (hp : p.legal = true) (cap : Option Int) :
    Ensures (initCapacity p cap) fun c => 1 ≤ c ∧ c ≤ p.pqMax := by
  cases cap with
  | none => exact .ok (pqDefaultCap_bounds hp)
  | some c =>
    unfold initCapacity
    dsimp only
    split
    · exact .raise
    · split
      · exact .raise
      · exact .ok (by omega)

/-- `HC.COMPRESS` and `BW.COMPRESS` build a tree from the counts, and its header was serialised. -/
theorem hcCompressSeq_builds (x : List Byte) (s : State) :
    Ensures (hcCompressSeq x s) fun t =>
      buildTree s.params (countBytes x) = .ok (t.huf, t.pq) ∧ ∃ bits, hdrBits t.huf = .ok bits :=
  .bind_of (fun _ h => h) fun _ hb => .bind_of (fun _ h => h) fun bits hh => .bind fun _ => .bind fun _ => .bind fun _ =>
    .bind fun _ => .ok ⟨hb, bits, hh⟩

theorem hcCompressSeq_queue {p : Params} {s : State} (hp : p.legal = true) (x : List Byte) (hs : s.params = p) :
    Ensures (hcCompressSeq x s) fun t => t.pq.Safe p.pqMax :=
  (hcCompressSeq_builds x s).imp fun _ ht => buildTree_queue hp _ _ (hs ▸ ht.1)

/-- The commands that write the PQ unit keep its invariants, each through what it does to the queue. -/
theorem exec_pq_safe {s t : State} (hp : s.params.legal = true) (hq : s.pq.Safe s.params.pqMax) (ht : t.ctl.fault = false) :
    ∀ {i : Instr}, writesPq i = true → exec i s = .next t → ∃ d, t = complete d ∧ d.st.pq.Safe s.params.pqMax
  | .pqInit ce cap cmp, _ => conclude_ensures ht <| by
    cases ordOperand cmp with
    | none => exact .raise
    | some o => exact .bind_of (initCapacity_bounds hp _) fun c hc => .ok (.of_empty hc.1 hc.2 rfl)
  | .pqOffer key payload, _ => conclude_ensures ht <| by
    split
    next => exact .raise
    next hel => exact .bind_of (hq.offer hel) fun q' hq' => .ok hq'
  | .pqPoll, _ => conclude_ensures ht <| by
    split
    next => exact .ok hq
    next hne => exact .ok (hq.poll (List.length_eq_zero_iff.not.mp hne))
  | .hufBuild, _ => conclude_ensures ht (.ite .raise (.bind_of (buildTree_queue hp _) fun a ha => .ok ha))
  | .hcCompress, _ => conclude_ensures ht (.ite (.ok hq) (.bind_of (hcCompressSeq_queue hp _ rfl) fun u hu => .ok hu))
  | .bwCompress, _ => conclude_ensures ht <|
    .ite (.ok hq) (.bind fun w => .bind_of (hcCompressSeq_queue hp _ rfl) fun u hu => .ok hu)

/-- Every command that completes keeps the queue's invariants: those that do not write the PQ unit by their frame. -/
theorem exec_queue {i : Instr} {s t : State} (hp : s.params.legal = true) (hq : s.pq.Safe s.params.pqMax)
    (h : exec i s = .next t) (ht : t.ctl.fault = false) : t.pq.Safe s.params.pqMax := by
  cases hw : writesPq i with
  | false =>
    obtain ⟨d, rfl, hc⟩ := exec_completes h ht
    rw [complete_pq, hc.pq hw]
    exact hq
  | true =>
    obtain ⟨d, rfl, hd⟩ := exec_pq_safe hp hq ht hw h
    exact hd

/-- Settles O29 -/
theorem stepKeepsQueueInv : Obligations.StepKeepsQueueInv := by
  intro s t ⟨hlegal, _⟩ hs h
  rw [queueInv_iff] at hs ⊢
  refine step_keeps_unless_faulted (P := fun u => u.pq.Safe u.params.pqMax) (fun _ _ _ _ hu => hu) ?reset ?load ?command hs h
  case reset =>
    intro u hu
    obtain ⟨hpos, hle⟩ := pqDefaultCap_bounds (hu ▸ hlegal)
    exact .of_empty hpos hle rfl
  case load => exact fun u x _ hu => hu
  case command =>
    intro i u v hu hq hi hv
    rw [(exec_sameHost hi).params]
    exact exec_queue (hu ▸ hlegal) hq hi hv

end Sys2Proof.Machine
end

section
/-! PROOFS. The state family, trees in the node table: copies of a tree, and the agreement of `SYMIDX` with the leaves
(10_state.md R35 to R38). -/

namespace Sys2Proof.Machine

/-! ## Copies of a tree -/

/-- A copy of a tree stays where its nodes stay. -/
theorem repAt_congr {nodes nodes' : List Node} {t : HTree} {par i : Idx} {is : List Nat} (h : RepAt nodes t par i is)
    (hsame : ∀ j ∈ is, nodes'[j]? = nodes[j]?) : RepAt nodes' t par i is := by
  induction t generalizing par i is with
  | leaf s =>
    obtain ⟨rfl, n, hn, hrest⟩ := h
    exact ⟨rfl, n, (hsame _ (by simp)).trans hn, hrest⟩
  | node l r ihl ihr =>
    obtain ⟨n, isl, isr, hn, hk, hs, hp, rfl, hl, hr⟩ := h
    exact ⟨n, isl, isr, (hsame _ (by simp)).trans hn, hk, hs, hp, rfl, ihl hl fun j hj => hsame j (by simp [hj]),
      ihr hr fun j hj => hsame j (by simp [hj])⟩

/-- The root is one of the nodes of the copy. -/
theorem repAt_root_mem {nodes : List Node} {t : HTree} {par i : Idx} {is : List Nat} (h : RepAt nodes t par i is) :
    i.toNat ∈ is := by
  cases t with
  | leaf s => simp [h.1]
  | node l r =>
    obtain ⟨_, _, _, _, _, _, _, rfl, _, _⟩ := h
    simp

/-- The nodes of a copy are nodes of the table. -/
theorem repAt_lt {nodes : List Node} {t : HTree} {par i : Idx} {is : List Nat} (h : RepAt nodes t par i is) :
    ∀ j ∈ is, j < nodes.length := by
  induction t generalizing par i is with
  | leaf s =>
    obtain ⟨rfl, n, hn, -⟩ := h
    simpa using nodeAt_lt hn
  | node l r ihl ihr =>
    obtain ⟨n, isl, isr, hn, -, -, -, rfl, hl, hr⟩ := h
    intro j hj
    rcases List.mem_cons.mp hj with rfl | hj
    · exact nodeAt_lt hn
    · exact (List.mem_append.mp hj).elim (ihl hl j) (ihr hr j)

/-- Changing a node outside a copy leaves the copy. -/
theorem repAt_modify {nodes : List Node} {t : HTree} {par i : Idx} {is : List Nat} {j : Nat} (g : Node → Node)
    (h : RepAt nodes t par i is) (hj : j ∉ is) : RepAt (nodes.modify j g) t par i is :=
  repAt_congr h fun a ha => by
    have : j ≠ a := fun e => hj (e ▸ ha)
    simp [this]

/-- Adding a node to the table leaves a copy. -/
theorem repAt_append {nodes : List Node} {t : HTree} {par i : Idx} {is : List Nat} (n : Node)
    (h : RepAt nodes t par i is) : RepAt (nodes ++ [n]) t par i is :=
  repAt_congr h fun j hj => by simp [List.getElem?_append, repAt_lt h j hj]

/-- Setting the parent of the root of a copy hangs the copy below that parent. -/
theorem repAt_setParent_root {nodes : List Node} {t : HTree} {par i : Idx} {is : List Nat} (m : Idx)
    (h : RepAt nodes t par i is) (hnd : is.Nodup) : RepAt (setParent i m nodes) t m i is := by
  cases t with
  | leaf s =>
    obtain ⟨rfl, n, hn, hk, hs, hl, hr, -⟩ := h
    exact ⟨rfl, { n with parent := m }, by simp [nodeAt_setParent, hn], hk, hs, hl, hr, rfl⟩
  | node l r =>
    obtain ⟨n, isl, isr, hn, hk, hs, -, rfl, hl, hr⟩ := h
    have hi : i.toNat ∉ isl ++ isr := (List.nodup_cons.mp hnd).1
    rw [List.mem_append, not_or] at hi
    exact ⟨{ n with parent := m }, isl, isr, by simp [nodeAt_setParent, hn], hk, hs, rfl, rfl, repAt_modify _ hl hi.1,
      repAt_modify _ hr hi.2⟩

/-! ## The symbols in the table -/

/-- The symbol of a leaf; an internal node has none. -/
def leafMark (n : Node) : Option Byte := if n.kind = .leaf then some n.sym else none

/-- The symbols of a table, node by node: all of it that `SYMIDX` speaks of. -/
def marks (nodes : List Node) : List (Option Byte) := nodes.map leafMark

@[simp] theorem marks_length (nodes : List Node) : (marks nodes).length = nodes.length := List.length_map _

@[simp] theorem marks_append (nodes : List Node) (n : Node) : marks (nodes ++ [n]) = marks nodes ++ [leafMark n] :=
  List.map_append

@[simp] theorem leafMark_leafNode (s : Byte) (f : Key) (par : Idx) : leafMark (leafNode s f par) = some s := rfl

@[simp] theorem leafMark_internalNode (f : Key) (l r par : Idx) : leafMark (internalNode f l r par) = none := rfl

/-- Changing links does not change symbols. -/
theorem marks_modify (nodes : List Node) (j : Nat) {g : Node → Node} (hg : ∀ n, leafMark (g n) = leafMark n) :
    marks (nodes.modify j g) = marks nodes := by
  apply List.ext_getElem?
  intro a
  by_cases h : j = a
  · cases hn : nodes[a]? <;> simp [marks, h, hn, hg]
  · simp [marks, h]

@[simp] theorem marks_setParent (nodes : List Node) (i m : Idx) : marks (setParent i m nodes) = marks nodes :=
  marks_modify nodes _ fun _ => rfl

@[simp] theorem marks_setLeft (nodes : List Node) (i m : Idx) : marks (setLeft i m nodes) = marks nodes :=
  marks_modify nodes _ fun _ => rfl

@[simp] theorem marks_setRight (nodes : List Node) (i m : Idx) : marks (setRight i m nodes) = marks nodes :=
  marks_modify nodes _ fun _ => rfl

theorem marks_getElem?_eq_some {nodes : List Node} {j : Nat} {s : Byte} :
    (marks nodes)[j]? = some (some s) ↔ ∃ n, nodes[j]? = some n ∧ n.kind = .leaf ∧ n.sym = s := by
  simp [marks, leafMark]

/-- Symbols without repeats are at most 256. -/
theorem bytes_length_le {l : List Byte} (h : l.Nodup) : l.length ≤ 256 := by
  simpa [allSyms] using (List.subperm_of_subset h fun s _ => mem_allSyms s).length_le

/-- `SYMIDX` finds exactly the leaves of a table with the symbols `ms`, and no symbol has two (10_state.md R36, R38). -/
structure Indexed (ms : List (Option Byte)) (symidx : Table Idx) : Prop where
  index : ∀ (s : Byte) (i : Idx), i ≠ NIL → (tabGet symidx s = i ↔ ms[i.toNat]? = some (some s))
  distinct : ms.reduceOption.Nodup

theorem indexed_nil : Indexed [] (tabFill NIL) where
  index s i hi := by simpa using hi.symm
  distinct := List.nodup_nil

theorem idx_ne_NIL {n : Nat} (h : n < 511) : BitVec.ofNat 9 n ≠ NIL := by
  intro e
  have := congrArg BitVec.toNat e
  simp [NIL] at this
  omega

/-- A symbol without an entry in `SYMIDX` has no leaf. -/
theorem Indexed.not_mem {ms : List (Option Byte)} {symidx : Table Idx} {s : Byte} (h : Indexed ms symidx)
    (hlen : ms.length ≤ 511) (hs : tabGet symidx s = NIL) : s ∉ ms.reduceOption := by
  intro hmem
  obtain ⟨j, hj, hjs⟩ := List.getElem_of_mem (List.reduceOption_mem_iff.mp hmem)
  have hnil : BitVec.ofNat 9 j ≠ NIL := idx_ne_NIL (by omega)
  have htoNat : (BitVec.ofNat 9 j).toNat = j := by simp; omega
  have := (h.index s _ hnil).mpr (by rw [htoNat, List.getElem?_eq_getElem hj, hjs])
  exact hnil (this.symm.trans hs)

/-- A new leaf for a symbol without one. -/
theorem Indexed.leaf {ms : List (Option Byte)} {symidx : Table Idx} {s : Byte} (h : Indexed ms symidx)
    (hlen : ms.length < 511) (hs : tabGet symidx s = NIL) :
    Indexed (ms ++ [some s]) (tabSet symidx s (BitVec.ofNat 9 ms.length)) where
  index a i hi := by
    have hnew : BitVec.ofNat 9 ms.length = i ↔ i.toNat = ms.length := by
      constructor
      · rintro rfl
        simp
        omega
      · exact fun e => BitVec.eq_of_toNat_eq (by simp; omega)
    rw [tabGet_tabSet, List.getElem?_append]
    by_cases ha : a = s
    · subst ha
      have hold : ms[i.toNat]? ≠ some (some a) := fun e => hi (((h.index a i hi).mpr e).symm.trans hs)
      rw [if_pos rfl, hnew]
      split
      next hlt =>
        constructor
        · omega
        · exact fun e => absurd e hold
      next hge =>
        constructor
        · intro e
          simp [e]
        · intro e
          have := (List.getElem?_eq_some_iff.mp e).1
          simp at this
          omega
    · rw [if_neg ha, h.index a i hi]
      split
      · rfl
      next hge =>
        rw [List.getElem?_eq_none (Nat.le_of_not_lt hge)]
        constructor
        · exact nofun
        · intro e
          have := List.mem_of_getElem? e
          simp [ha] at this
  distinct := by
    have hnew := h.distinct.concat (h.not_mem (by omega) hs)
    simpa [List.reduceOption_append] using hnew

/-- A new internal node. -/
theorem Indexed.internal {ms : List (Option Byte)} {symidx : Table Idx} (h : Indexed ms symidx) :
    Indexed (ms ++ [none]) symidx where
  index s i hi := by
    rw [h.index s i hi, List.getElem?_append]
    split
    · rfl
    next hge =>
      rw [List.getElem?_eq_none (Nat.le_of_not_lt hge)]
      constructor
      · exact nofun
      · intro e
        have := List.mem_of_getElem? e
        simp at this
  distinct := by simpa [List.reduceOption_append] using h.distinct

/-! ## A table that holds a tree -/

/-- The symbols of a tree are those of the nodes of its copy. -/
theorem repAt_syms {nodes : List Node} {t : HTree} {par i : Idx} {is : List Nat} (h : RepAt nodes t par i is) :
    t.syms = is.filterMap fun j => (marks nodes)[j]?.join := by
  induction t generalizing par i is with
  | leaf s =>
    obtain ⟨rfl, n, hn, hk, hs, -⟩ := h
    have hn : nodes[i.toNat]? = some n := hn
    simp [HTree.syms, marks, hn, leafMark, hk, hs]
  | node l r ihl ihr =>
    obtain ⟨n, isl, isr, hn, hk, -, -, rfl, hl, hr⟩ := h
    have hn : nodes[i.toNat]? = some n := hn
    simp [HTree.syms, ihl hl, ihr hr, marks, hn, leafMark, hk]

theorem filterMap_range_join {α : Type} (ms : List (Option α)) :
    ((List.range ms.length).filterMap fun j => ms[j]?.join) = ms.reduceOption := by
  have h : ((List.range ms.length).map fun j => ms[j]?.join) = ms := by
    apply List.ext_getElem
    · simp
    · intro i h1 h2
      simp [h2]
  conv_rhs => rw [← h]
  rw [List.reduceOption, List.filterMap_map]
  rfl

/-- A table whose nodes are those of one copy of `t`, with `SYMIDX` in agreement, holds `t` (10_state.md R38). -/
theorem holdsTree_of_repAt {h : Huf} {t : HTree} {is : List Nat} (held : h.tree = true)
    (hrep : RepAt h.node t NIL h.root is) (hall : is.Perm (List.range h.node.length))
    (hidx : Indexed (marks h.node) h.symidx) : HoldsTree h t where
  held := held
  nodes := ⟨is, hrep, hall⟩
  distinct := by
    rw [repAt_syms hrep, (hall.filterMap _).nodup_iff, ← marks_length, filterMap_range_join]
    exact hidx.distinct
  index s i hi := (hidx.index s i hi).trans marks_getElem?_eq_some

/-- The tree held does not depend on `FREQ` (10_state.md R34). -/
theorem HoldsTree.of_freq {h : Huf} {t : HTree} (ht : HoldsTree h t) (f : Table Count) : HoldsTree { h with freq := f } t :=
  ⟨ht.held, ht.nodes, ht.distinct, ht.index⟩

end Sys2Proof.Machine
end

section
/-! PROOFS. The state family, construction: the merge loop joins the copies of a forest until one is left
(44_huffman.md R169, R170). -/

namespace Sys2Proof.Machine

/-! ## The leaves -/

/-- One turn of R169's loop on a symbol without a leaf. -/
theorem Indexed.addLeaf {f : Table Count} {acc : List Node × Table Idx} {s : Byte} (h : Indexed (marks acc.1) acc.2)
    (hlen : acc.1.length < 511) (hs : tabGet acc.2 s = NIL) :
    Indexed (marks (addLeaf f acc s).1) (addLeaf f acc s).2 := by
  unfold Machine.addLeaf
  split
  · simpa [nextIdx] using h.leaf (by simpa using hlen) hs
  · exact h

/-- What R169's loop does over a list of symbols. -/
theorem foldl_addLeaf {f : Table Count} {ss : List Byte} {acc : List Node × Table Idx} (h : Indexed (marks acc.1) acc.2)
    (hlen : acc.1.length + ss.length ≤ 511) (hnd : ss.Nodup) (hfresh : ∀ s ∈ ss, tabGet acc.2 s = NIL) :
    Indexed (marks (ss.foldl (addLeaf f) acc).1) (ss.foldl (addLeaf f) acc).2
      ∧ (ss.foldl (addLeaf f) acc).1 = acc.1 ++ (ss.filter fun s => 0 < tabGet f s).map
          fun s => leafNode s ((tabGet f s).setWidth 40) NIL := by
  induction ss generalizing acc with
  | nil => exact ⟨h, by simp⟩
  | cons s ss ih =>
    obtain ⟨hs, hnd⟩ := List.nodup_cons.mp hnd
    rw [List.length_cons] at hlen
    have hnext := h.addLeaf (f := f) (by omega) (hfresh s (by simp))
    by_cases hpos : 0 < tabGet f s
    · have hacc : addLeaf f acc s =
          (acc.1 ++ [leafNode s ((tabGet f s).setWidth 40) NIL], tabSet acc.2 s (nextIdx acc.1)) := if_pos hpos
      rw [hacc] at hnext
      have := ih hnext (by simp; omega) hnd fun a ha => by
        rw [tabGet_tabSet, if_neg (by rintro rfl; exact hs ha)]
        exact hfresh a (List.mem_cons_of_mem _ ha)
      rw [List.foldl_cons, hacc, List.filter_cons_of_pos (by exact decide_eq_true hpos)]
      simpa using this
    · have hacc : addLeaf f acc s = acc := if_neg hpos
      rw [List.foldl_cons, hacc, List.filter_cons_of_neg (by simpa using hpos)]
      exact ih h (by omega) hnd fun a ha => hfresh a (List.mem_cons_of_mem _ ha)

theorem buildLeaves_spec (f : Table Count) :
    Indexed (marks (buildLeaves f).1) (buildLeaves f).2
      ∧ (buildLeaves f).1 = (allSyms.filter fun s => 0 < tabGet f s).map
          fun s => leafNode s ((tabGet f s).setWidth 40) NIL := by
  unfold buildLeaves
  simpa using foldl_addLeaf (f := f) (acc := ([], tabFill NIL)) indexed_nil (by simp [allSyms]) allSyms_nodup (by simp)

theorem buildLeaves_length_le (f : Table Count) : (buildLeaves f).1.length ≤ 256 := by
  rw [(buildLeaves_spec f).2, List.length_map]
  exact (List.length_filter_le _ _).trans (by simp [allSyms])

/-- There is a leaf where the mapping is not empty. -/
theorem buildLeaves_ne_nil {f : Table Count} (h : freqEmpty f = false) : (buildLeaves f).1 ≠ [] := by
  rw [(buildLeaves_spec f).2]
  intro hnil
  refine absurd (freqEmpty_iff.mpr fun s => ?_) (Bool.eq_false_iff.mp h)
  have hs := List.filter_eq_nil_iff.mp (List.map_eq_nil_iff.mp hnil) s (mem_allSyms s)
  simpa using hs

/-! ## Forests -/

/-- One copy of a tree in the table: the tree, its root, its nodes. -/
structure Copy where
  tree : HTree
  root : Idx
  nodes : List Nat

/-- The nodes of the table are the nodes of the copies `cs`, each exactly once; no root has a parent. -/
structure Forest (nodes : List Node) (cs : List Copy) : Prop where
  rep : ∀ c ∈ cs, RepAt nodes c.tree NIL c.root c.nodes
  cover : (cs.flatMap Copy.nodes).Perm (List.range nodes.length)

theorem Forest.perm {nodes : List Node} {cs cs' : List Copy} (h : Forest nodes cs) (hp : cs'.Perm cs) : Forest nodes cs' :=
  ⟨fun c hc => h.rep c (hp.mem_iff.mp hc), (hp.flatMap_right _).trans h.cover⟩

/-- A new root above two copies joins them into one. -/
theorem Forest.join {nodes : List Node} {a b : Copy} {cs : List Copy} (h : Forest nodes (a :: b :: cs))
    (hlen : nodes.length < 511) (freq : Key) :
    Forest (joinNodes nodes freq a.root b.root)
      ({ tree := .node a.tree b.tree, root := nextIdx nodes, nodes := nodes.length :: (a.nodes ++ b.nodes) } :: cs) := by
  have hm : (nextIdx nodes).toNat = nodes.length := nextIdx_toNat (by omega)
  have ha := h.rep a (by simp)
  have hb := h.rep b (by simp)
  have hcover : (a.nodes ++ (b.nodes ++ cs.flatMap Copy.nodes)).Perm (List.range nodes.length) := by
    simpa using h.cover
  have hnd := hcover.nodup_iff.mpr List.nodup_range
  obtain ⟨hnda, hndb, hab⟩ := List.nodup_append.mp hnd
  obtain ⟨hndb, -, hbc⟩ := List.nodup_append.mp hndb
  have haroot := repAt_root_mem ha
  have hbroot := repAt_root_mem hb
  have hb_a : b.root.toNat ∉ a.nodes := fun hmem => hab _ hmem _ (List.mem_append_left _ hbroot) rfl
  have ha_b : a.root.toNat ∉ b.nodes := fun hmem => hab _ haroot _ (List.mem_append_left _ hmem) rfl
  have hlength : (joinNodes nodes freq a.root b.root).length = nodes.length + 1 := by simp [joinNodes]
  constructor
  · intro c hc
    rcases List.mem_cons.mp hc with rfl | hc
    · have hne (x : Copy) (hx : RepAt nodes x.tree NIL x.root x.nodes) : x.root ≠ nextIdx nodes := fun e => by
        have := repAt_lt hx _ (repAt_root_mem hx)
        rw [e, hm] at this
        omega
      refine ⟨internalNode freq a.root b.root NIL, a.nodes, b.nodes, ?_, rfl, rfl, rfl, by rw [hm], ?_, ?_⟩
      · rw [joinNodes, nodeAt_setParent, if_neg (hne b hb), nodeAt_setParent, if_neg (hne a ha), nodeAt, hm]
        simp
      · exact repAt_modify _ (repAt_setParent_root _ (repAt_append _ ha) hnda) hb_a
      · exact repAt_setParent_root _ (repAt_modify _ (repAt_append _ hb) ha_b) hndb
    · have hmem (j : Nat) (hj : j ∈ c.nodes) : j ∈ cs.flatMap Copy.nodes := List.mem_flatMap.mpr ⟨c, hc, hj⟩
      refine repAt_modify _ (repAt_modify _ (repAt_append _ (h.rep c (by simp [hc]))) fun hj => ?_) fun hj => ?_
      · exact hab _ haroot _ (List.mem_append_right _ (hmem _ hj)) rfl
      · exact hbc _ hbroot _ (hmem _ hj) rfl
  · rw [hlength, List.range_succ]
    simpa using (hcover.cons nodes.length).trans (List.perm_append_singleton _ _).symm

/-- The copies that unconnected leaves are. -/
def leafCopies (nodes : List Node) : List Copy :=
  nodes.zipIdx.map fun p => { tree := .leaf p.1.sym, root := BitVec.ofNat 9 p.2, nodes := [p.2] }

theorem leafCopies_roots (nodes : List Node) :
    (leafCopies nodes).map Copy.root = (List.range' 0 nodes.length).map (BitVec.ofNat 9) := by
  rw [← List.zipIdx_map_snd 0 nodes, leafCopies, List.map_map, List.map_map]
  rfl

theorem forest_leafCopies {nodes : List Node} (hlen : nodes.length ≤ 512)
    (hleaf : ∀ n ∈ nodes, ∃ s f, n = leafNode s f NIL) : Forest nodes (leafCopies nodes) where
  rep c hc := by
    obtain ⟨⟨n, j⟩, hj, rfl⟩ := List.mem_map.mp hc
    have hj := List.mem_zipIdx_iff_getElem?.mp hj
    obtain ⟨s, f, rfl⟩ := hleaf n (List.mem_of_getElem? hj)
    have hlt := (List.getElem?_eq_some_iff.mp hj).1
    have htoNat : (BitVec.ofNat 9 j).toNat = j := by simp; omega
    exact ⟨by rw [htoNat], leafNode s f NIL, by rw [nodeAt, htoNat]; exact hj, rfl, rfl, rfl, rfl, rfl⟩
  cover := by
    have : (leafCopies nodes).flatMap Copy.nodes = List.range nodes.length := by
      rw [leafCopies, List.flatMap_map, List.range_eq_range', ← List.zipIdx_map_snd 0 nodes, List.map_eq_flatMap]
    rw [this]

/-! ## The queue lists the roots -/

@[simp] theorem elemPayload_elemOf (key : Key) (payload : Idx) : elemPayload (elemOf key payload) = payload := by
  apply BitVec.eq_of_getLsbD_eq
  intro i hi
  simp [elemPayload, elemOf, hi]
  omega

/-- The payloads that a queue holds. -/
def Pq.payloads (q : Pq) : List Idx := q.heap.map elemPayload

theorem pqOffer_payloads {m : Nat} {key : Key} {i : Idx} {q : Pq} :
    Ensures (pqOffer m (elemOf key i) q) fun q' => q'.payloads.Perm (i :: q.payloads) := by
  intro q' h
  simpa [Pq.payloads] using (pqOffer_perm h).map elemPayload

theorem pqPoll_payloads {q : Pq} (h : q.heap ≠ []) : q.payloads.Perm (elemPayload (pqPoll q).1 :: (pqPoll q).2.payloads) := by
  simpa [Pq.payloads] using (pqPoll_perm h).map elemPayload

/-- R170's first loop offers the indices of the nodes. -/
theorem offerNodes_payloads {m i : Nat} {ns : List Node} {q : Pq} :
    Ensures (offerNodes m i ns q) fun q' =>
      q'.payloads.Perm ((List.range' i ns.length).map (BitVec.ofNat 9) ++ q.payloads) := by
  induction ns generalizing i q with
  | nil => exact .ok (.refl _)
  | cons n ns ih =>
    refine .bind_of pqOffer_payloads fun q1 h1 => ih.imp fun q' h' => h'.trans ?_
    rw [List.length_cons, List.range'_succ, List.map_cons, List.cons_append]
    exact (List.Perm.append_left _ h1).trans List.perm_middle

/-- The state of the merge loop: a forest, its roots in the queue, room in the table for the nodes still to come, and
`SYMIDX` in agreement with the leaves. -/
structure Merging (symidx : Table Idx) (q : Pq) (nodes : List Node) (cs : List Copy) : Prop where
  forest : Forest nodes cs
  roots : q.payloads.Perm (cs.map Copy.root)
  room : nodes.length + cs.length ≤ 512
  indexed : Indexed (marks nodes) symidx

theorem Merging.queue_length {symidx : Table Idx} {q : Pq} {nodes : List Node} {cs : List Copy}
    (h : Merging symidx q nodes cs) : q.heap.length = cs.length := by
  simpa [Pq.payloads] using h.roots.length_eq

/-- A copy whose root stands first among the roots can be put first. -/
theorem exists_perm_cons_of_roots {i : Idx} {is : List Idx} {cs : List Copy} (h : (i :: is).Perm (cs.map Copy.root)) :
    ∃ c rest, cs.Perm (c :: rest) ∧ c.root = i ∧ is.Perm (rest.map Copy.root) := by
  obtain ⟨c, hc, rfl⟩ := List.mem_map.mp (h.subset (List.mem_cons_self ..))
  obtain ⟨l, r, rfl⟩ := List.append_of_mem hc
  refine ⟨c, l ++ r, List.perm_middle, rfl, (List.perm_cons c.root).mp (h.trans ?_)⟩
  simp

/-- One turn of R170's loop joins two copies. -/
theorem Merging.step {symidx : Table Idx} {m : Nat} {q : Pq} {nodes : List Node} {cs : List Copy}
    (h : Merging symidx q nodes cs) (hlen : 1 < q.heap.length) :
    Ensures (mergeStep m q nodes) fun a => ∃ cs', Merging symidx a.1 a.2 cs' ∧ cs'.length + 1 = cs.length := by
  have hq1 : q.heap ≠ [] := List.ne_nil_of_length_pos (by omega)
  have hq2 : (pqPoll q).2.heap ≠ [] := List.ne_nil_of_length_pos (by rw [pqPoll_length_eq]; omega)
  obtain ⟨a, cs1, hp1, ha, hr1⟩ := exists_perm_cons_of_roots ((pqPoll_payloads hq1).symm.trans h.roots)
  obtain ⟨b, cs2, hp2, hb, hr2⟩ := exists_perm_cons_of_roots ((pqPoll_payloads hq2).symm.trans hr1)
  have hcs : cs.Perm (a :: b :: cs2) := hp1.trans (hp2.cons a)
  have hcount : cs.length = cs2.length + 2 := by simpa using hcs.length_eq
  have hroom := h.room
  rw [mergeStep_eq]
  refine .bind_of pqOffer_payloads fun q' hq' => .ok ⟨{
    tree := .node a.tree b.tree, root := nextIdx nodes, nodes := nodes.length :: (a.nodes ++ b.nodes) } :: cs2,
    ⟨?_, ?_, ?_, ?_⟩, ?_⟩
  · rw [← ha, ← hb]
    exact (h.forest.perm hcs.symm).join (by omega) _
  · exact hq'.trans (hr2.cons _)
  · simp [joinNodes]
    omega
  · simpa [joinNodes] using h.indexed.internal
  · simp [hcount]

/-- R170's loop ends with one copy. -/
theorem Merging.loop {symidx : Table Idx} {m fuel : Nat} {q : Pq} {nodes : List Node} {cs : List Copy}
    (h : Merging symidx q nodes cs) (hpos : 0 < cs.length) (hfuel : cs.length ≤ fuel + 1) :
    Ensures (mergeLoop m fuel q nodes) fun a => ∃ c, Merging symidx a.1 a.2 [c] := by
  induction fuel generalizing q nodes cs with
  | zero =>
    obtain ⟨c, rfl⟩ := List.length_eq_one_iff.mp (show cs.length = 1 by omega)
    exact .ok ⟨c, h⟩
  | succ fuel ih =>
    rw [mergeLoop]
    have hq := h.queue_length
    split
    next hc =>
      refine .bind_of (h.step hc) fun a ha => ?_
      obtain ⟨cs', h', hlen⟩ := ha
      exact ih h' (by omega) (by omega)
    next hc =>
      obtain ⟨c, rfl⟩ := List.length_eq_one_iff.mp (show cs.length = 1 by omega)
      exact .ok ⟨c, h⟩

/-- A table with one copy, whose root is in the queue, holds its tree. -/
theorem Merging.holdsTree {symidx : Table Idx} {q : Pq} {nodes : List Node} {c : Copy} (h : Merging symidx q nodes [c])
    (f : Table Count) :
    HoldsTree { freq := f, node := nodes, symidx := symidx, root := elemPayload (pqPoll q).1, tree := true } c.tree := by
  have hq : q.heap ≠ [] := List.ne_nil_of_length_pos (by rw [h.queue_length]; simp)
  obtain ⟨c', rest, hp, hroot, -⟩ := exists_perm_cons_of_roots ((pqPoll_payloads hq).symm.trans h.roots)
  obtain ⟨rfl, -⟩ : c = c' ∧ rest = [] := by simpa using List.singleton_perm.mp hp
  have hrep := h.forest.rep c (by simp)
  exact holdsTree_of_repAt rfl (hroot ▸ hrep) (by simpa using h.forest.cover) h.indexed

/-- Construction from a mapping with a symbol leaves a tree (44_huffman.md R173). -/
theorem buildTree_holdsTree {p : Params} {f : Table Count} (hne : (buildLeaves f).1 ≠ []) :
    Ensures (buildTree p f) fun a => ∃ t, HoldsTree a.1 t := by
  obtain ⟨hidx, hnodes⟩ := buildLeaves_spec f
  have hle := buildLeaves_length_le f
  have hpos := List.length_pos_of_ne_nil hne
  have hcopies : (leafCopies (buildLeaves f).1).length = (buildLeaves f).1.length := by simp [leafCopies]
  have hforest : Forest (buildLeaves f).1 (leafCopies (buildLeaves f).1) := by
    refine forest_leafCopies (by omega) fun n hn => ?_
    rw [hnodes] at hn
    obtain ⟨s, -, rfl⟩ := List.mem_map.mp hn
    exact ⟨_, _, rfl⟩
  rw [buildTree_eq]
  refine .bind_of offerNodes_payloads fun q hq => ?_
  have hmerging : Merging (buildLeaves f).2 q (buildLeaves f).1 (leafCopies (buildLeaves f).1) :=
    ⟨hforest, by simpa [leafCopies_roots, Pq.payloads] using hq, by omega, hidx⟩
  exact .bind_of (hmerging.loop (by omega) (by omega)) fun a ⟨c, hc⟩ => .ok ⟨c.tree, hc.holdsTree f⟩

/-- Construction from the empty mapping leaves no node. -/
theorem buildTree_no_node {p : Params} {f : Table Count} (hnil : (buildLeaves f).1 = []) :
    Ensures (buildTree p f) fun a => a.1.node = [] := by
  rw [buildTree_eq, hnil]
  exact .bind fun _ => .bind_of (Q := fun a => a.2 = []) (.ok rfl) fun _ ha => .ok ha

end Sys2Proof.Machine
end

section
/-! PROOFS. The state family, headers and commands: a parsed header is a copy of a tree (44_huffman.md R178), and every command
keeps the tree's invariants (10_state.md R37, R38). -/

namespace Sys2Proof.Machine

/-! ## Parsing a header -/

/-- The state of a header parse: `SYMIDX` in agreement with the leaves, `NINT` the number of the other nodes. -/
structure Parsing (p : ParseState) : Prop where
  indexed : Indexed (marks p.node) p.symidx
  count : p.node.length = p.nint + (marks p.node).reduceOption.length
  few : p.nint ≤ 255

/-- What a call `ParseNode(par)` from the state `p` leaves: a copy of a tree in the nodes it added, the others as they were. -/
structure Parsed (par : Idx) (p : ParseState) (a : Idx × ParseState) : Prop where
  parsing : Parsing a.2
  longer : p.node.length < a.2.node.length
  kept : ∀ j < p.node.length, a.2.node[j]? = p.node[j]?
  rep : ∃ t, RepAt a.2.node t par a.1 (List.range' p.node.length (a.2.node.length - p.node.length))

/-- With at most 255 internal nodes and a symbol still without a leaf, the table has room for its leaf. -/
theorem Parsing.leaf {p : ParseState} (h : Parsing p) {s : Byte} (hs : tabGet p.symidx s = NIL) (par : Idx) (r : Bsr) :
    p.node.length < 511
      ∧ Parsing { p with
          bsr := r, node := p.node ++ [leafNode s 0 par], symidx := tabSet p.symidx s (nextIdx p.node) } := by
  have hcount := h.count
  have hfew := h.few
  have hle := bytes_length_le h.indexed.distinct
  have hlt := bytes_length_le (h.indexed.distinct.concat (h.indexed.not_mem (by simp; omega) hs))
  rw [List.length_concat] at hlt
  have hroom : p.node.length < 511 := by omega
  refine ⟨hroom, ⟨?_, ?_, hfew⟩⟩
  · simpa [nextIdx] using h.indexed.leaf (by simpa using hroom) hs
  · simp [List.reduceOption_append]
    omega

/-- With at most 254 internal nodes the table has room for another. -/
theorem Parsing.internal {p : ParseState} (h : Parsing p) (hn : p.nint ≠ 255) (par : Idx) (r : Bsr) :
    p.node.length < 511
      ∧ Parsing { p with bsr := r, nint := p.nint + 1, node := p.node ++ [internalNode 0 NIL NIL par] } := by
  have hcount := h.count
  have hfew := h.few
  have hle := bytes_length_le h.indexed.distinct
  refine ⟨by omega, ⟨?_, ?_, ?_⟩⟩
  · simpa using h.indexed.internal
  · simp [List.reduceOption_append]
    omega
  · dsimp only
    omega

theorem Parsing.of_marks {p : ParseState} (h : Parsing p) {nodes : List Node} (hm : marks nodes = marks p.node) :
    Parsing { p with node := nodes } where
  indexed := hm ▸ h.indexed
  count := by
    have hlen := congrArg List.length hm
    rw [marks_length, marks_length] at hlen
    rw [hm, hlen]
    exact h.count
  few := h.few

theorem parseLeaf_parsed {p : ParseState} (h : Parsing p) (par : Idx) :
    Ensures (parseLeaf par p) fun a => a.1 = nextIdx p.node ∧ Parsed par p a := by
  refine .bind fun a => ?_
  dsimp only
  split
  · exact .raise
  next hs =>
    obtain ⟨hroom, hparsing⟩ := h.leaf (not_not.mp hs) par a.2
    have hi : (nextIdx p.node).toNat = p.node.length := nextIdx_toNat (by omega)
    refine .ok ⟨rfl, hparsing, by simp, fun j hj => by simp [List.getElem?_append, hj], .leaf a.1, ?_⟩
    exact ⟨by simp [hi], leafNode a.1 0 par, by simp [nodeAt, hi], rfl, rfl, rfl, rfl, rfl⟩

theorem range'_split {n k m : Nat} (h1 : n < k) (h2 : k ≤ m) :
    List.range' n (m - n) = n :: (List.range' (n + 1) (k - (n + 1)) ++ List.range' k (m - k)) := by
  obtain ⟨c, rfl⟩ := Nat.exists_eq_add_of_le h1
  obtain ⟨d, rfl⟩ := Nat.exists_eq_add_of_le h2
  rw [show n.succ + c + d - n = c + d + 1 by omega, show n.succ + c - (n + 1) = c by omega,
    show n.succ + c + d - (n.succ + c) = d by omega, List.range'_succ, List.range'_append_1]

/-- The internal branch of `ParseNode` (44_huffman.md R178) with its two calls' results given: the new node above both copies. -/
theorem Parsed.node {p : ParseState} {par : Idx} {r : Bsr} {a b : Idx × ParseState} (hroom : p.node.length < 511)
    (ha : Parsed (nextIdx p.node) { p with bsr := r, nint := p.nint + 1, node := p.node ++ [internalNode 0 NIL NIL par] } a)
    (hb : Parsed (nextIdx p.node) { a.2 with node := setLeft (nextIdx p.node) a.1 a.2.node } b) :
    Parsed par p (nextIdx p.node, { b.2 with node := setRight (nextIdx p.node) b.1 b.2.node }) := by
  have hi : (nextIdx p.node).toNat = p.node.length := nextIdx_toNat (by omega)
  obtain ⟨-, hlena, hkepta, tl, hl⟩ := ha
  obtain ⟨hparsing, hlenb, hkeptb, tr, hr⟩ := hb
  simp only [List.length_append, List.length_singleton] at hlena hkepta hl
  simp only [setLeft_length] at hlenb hkeptb hr
  have hbelow (j : Nat) (hj : j < p.node.length) : b.2.node[j]? = p.node[j]? := by
    rw [hkeptb j (by omega), setLeft, hi, List.getElem?_modify_ne _ _ (show p.node.length ≠ j by omega), hkepta j (by omega),
      List.getElem?_append_left hj]
  have hnode : b.2.node[p.node.length]? = some (internalNode 0 a.1 NIL par) := by
    rw [hkeptb _ (by omega), setLeft, hi, List.getElem?_modify_eq, hkepta _ (by omega)]
    simp [internalNode]
  have hl' : RepAt b.2.node tl (nextIdx p.node) a.1
      (List.range' (p.node.length + 1) (a.2.node.length - (p.node.length + 1))) := by
    refine repAt_congr (repAt_modify _ hl (j := (nextIdx p.node).toNat) ?_) fun j hj => hkeptb j ?_
    · rw [hi, List.mem_range'_1]
      omega
    · rw [List.mem_range'_1] at hj
      omega
  refine ⟨hparsing.of_marks (marks_setRight ..), by simp; omega, fun j hj => ?_, .node tl tr, ?_⟩
  · dsimp only
    rw [setRight, hi, List.getElem?_modify_ne _ _ (show p.node.length ≠ j by omega)]
    exact hbelow j hj
  · refine ⟨internalNode 0 a.1 b.1 par, _, _, ?_, rfl, rfl, rfl, ?_, repAt_modify _ hl' ?_, repAt_modify _ hr ?_⟩
    · rw [nodeAt, setRight, hi, List.getElem?_modify_eq, hnode]
      rfl
    · rw [hi, setRight_length]
      exact range'_split (by omega) (by omega)
    · rw [hi, List.mem_range'_1]
      omega
    · rw [hi, List.mem_range'_1]
      omega

theorem parseNode_parsed {fuel : Nat} {par : Idx} {p : ParseState} (h : Parsing p) :
    Ensures (parseNode fuel par p) (Parsed par p) := by
  induction fuel generalizing par p with
  | zero => exact .raise
  | succ fuel ih =>
    refine .bind fun a => ?_
    have h : Parsing { p with bsr := a.2 } := ⟨h.indexed, h.count, h.few⟩
    dsimp only
    split
    · exact (parseLeaf_parsed h par).imp fun b hb => ⟨hb.2.parsing, hb.2.longer, hb.2.kept, hb.2.rep⟩
    · split
      · exact .raise
      next hn =>
        obtain ⟨hroom, hparsing⟩ := h.internal hn par a.2
        refine .bind_of (ih hparsing) fun b hb => ?_
        refine .bind_of (ih (hb.parsing.of_marks (marks_setLeft ..))) fun c hc => .ok ?_
        exact Parsed.node hroom hb hc

/-- A parsed header leaves a tree (44_huffman.md R178, R179). -/
theorem parseTree_holdsTree (r : Bsr) (h : Huf) : Ensures (parseTree r h) fun a => ∃ t, HoldsTree a.2 t := by
  have hstart : Parsing { bsr := r, node := [], symidx := tabFill NIL, nint := 0 } :=
    ⟨indexed_nil, rfl, Nat.zero_le _⟩
  refine .bind_of (parseNode_parsed hstart) fun a ha => .ok ?_
  obtain ⟨t, hrep⟩ := ha.rep
  exact ⟨t, holdsTree_of_repAt rfl hrep (by simp [List.range_eq_range']) ha.parsing.indexed⟩

/-! ## Commands -/

/-- The invariant of `TreeInv` (10_state.md R37, R38). -/
def Huf.Safe (h : Huf) : Prop :=
  (h.tree = true → ∃ t, HoldsTree h t) ∧ (h.tree = false → h.node = [] ∧ h.root = NIL)

theorem Huf.safe_of_holdsTree {h : Huf} (ht : ∃ t, HoldsTree h t) : h.Safe := by
  refine ⟨fun _ => ht, fun hf => ?_⟩
  obtain ⟨t, ht⟩ := ht
  exact absurd (ht.held.symm.trans hf) (by decide)

theorem Huf.Safe.of_freq {h : Huf} (hs : h.Safe) (f : Table Count) : ({ h with freq := f } : Huf).Safe := by
  obtain ⟨hheld, hnone⟩ := hs
  refine ⟨fun ht => ?_, hnone⟩
  obtain ⟨t, ht⟩ := hheld ht
  exact ⟨t, ht.of_freq f⟩

/-- The header of a tree is not empty, so the tree that a compressor serialised has a node. -/
theorem node_ne_nil_of_hdrBits {h : Huf} {bits : Bits} (hb : hdrBits h = .ok bits) : h.node ≠ [] := by
  intro hnil
  simp [hdrBits, hnil, hdrBitsIn] at hb

theorem hcCompressSeq_tree (x : List Byte) (s : State) : Ensures (hcCompressSeq x s) fun t => t.huf.Safe :=
  (hcCompressSeq_builds x s).imp fun t ⟨hbuild, bits, hbits⟩ => by
    refine Huf.safe_of_holdsTree (buildTree_holdsTree (fun hnil => ?_) _ hbuild)
    exact node_ne_nil_of_hdrBits hbits (buildTree_no_node hnil _ hbuild)

theorem hcExpandSeq_tree {σ : Type} {store : σ → Byte → Except Stop σ} {acc : σ} {r : Bsr} {h : Huf} (hs : h.Safe) :
    Ensures (hcExpandSeq store acc r h) fun a => a.2.2.Safe := by
  intro a ha
  rcases hcExpandSeq_cases ha with ⟨-, -, -, h3⟩ | ⟨r1, r2, n, -, hparse, -⟩
  · exact h3 ▸ hs
  · exact Huf.safe_of_holdsTree (parseTree_holdsTree r h (r1, a.2.2) hparse)

/-- The commands that write the tree keep its invariants, each through what it does to the HUF unit. -/
theorem exec_tree_safe {s t : State} (hs : s.huf.Safe) (ht : t.ctl.fault = false) :
    ∀ {i : Instr}, writesTree i = true → exec i s = .next t → ∃ d, t = complete d ∧ d.st.huf.Safe
  | .hufBuild, _ => conclude_ensures ht <| by
    split
    next => exact .raise
    next hf =>
      refine .bind_of (buildTree_holdsTree (buildLeaves_ne_nil (Bool.eq_false_iff.mpr hf))) fun a ha => .ok ?_
      exact Huf.safe_of_holdsTree ha
  | .hufRhdr, _ => conclude_ensures ht (.bind_of (parseTree_holdsTree _ _) fun a ha => .ok (Huf.safe_of_holdsTree ha))
  | .hcCompress, _ => conclude_ensures ht (.ite (.ok hs) (.bind_of (hcCompressSeq_tree _ _) fun u hu => .ok hu))
  | .hcExpand, _ => conclude_ensures ht (.bind_of (hcExpandSeq_tree hs) fun a ha => .ok ha)
  | .bwCompress, _ => conclude_ensures ht <|
    .ite (.ok hs) (.bind fun w => .bind_of (hcCompressSeq_tree _ _) fun u hu => .ok hu)
  | .bwExpand, _ => conclude_ensures ht <|
    .ite (.ok hs) (.bind fun w => .bind_of (hcExpandSeq_tree hs) fun a ha =>
      .ite (.ok ha) (.ite .raise (.bind fun v => .ok ha)))

/-- Every command that completes keeps the tree's invariants: those that do not write the tree by their frame. -/
theorem exec_tree {i : Instr} {s t : State} (hs : s.huf.Safe) (h : exec i s = .next t) (ht : t.ctl.fault = false) :
    t.huf.Safe := by
  cases hw : writesTree i with
  | false =>
    obtain ⟨d, rfl, hc⟩ := exec_completes h ht
    rw [complete_huf, hc.tree hw]
    exact hs.of_freq _
  | true =>
    obtain ⟨d, rfl, hd⟩ := exec_tree_safe hs ht hw h
    exact hd

/-- Settles O49: no tree after a reset, the tree kept by a load, and every command keeps `Huf.Safe`. The invariants of the host
and of the streams are not needed: a compressor that completes has serialised a tree, so it had a symbol. -/
theorem stepKeepsTreeInv : Obligations.StepKeepsTreeInv := by
  intro s t _ _ hs h
  refine step_keeps_unless_faulted (P := fun u => u.huf.Safe) (fun _ _ _ _ hu => hu) ?reset ?load ?command hs h
  case reset => exact fun u _ => ⟨nofun, fun _ => ⟨rfl, rfl⟩⟩
  case load => exact fun u x _ hu => hu
  case command => exact fun i u v _ hu hi hv => exec_tree hu hi hv

end Sys2Proof.Machine
end

section
/-! PROOFS. The encoding family, bit ranges: an operand field is its bit ranges side by side, and a mask tests that a range
is 0 (30_encoding.md R81). -/

namespace Sys2Proof

theorem getLsbD_field {n : Nat} (lo : Nat) (v : BitVec n) (k : Nat) :
    (field lo v).getLsbD k = (decide (lo ≤ k ∧ k < 56) && v.getLsbD (k - lo)) := by
  by_cases hk : k < 56 <;> by_cases hlo : lo ≤ k <;> simp [field, hk, hlo]

/-! ## Reading a range of a field -/

@[simp] theorem extractLsb'_field_same {n : Nat} (lo : Nat) (v : BitVec n) (h : lo + n ≤ 56) :
    (field lo v).extractLsb' lo n = v := by
  apply BitVec.eq_of_getLsbD_eq
  intro k hk
  have hk56 : lo + k < 56 := by omega
  rw [BitVec.getLsbD_extractLsb', getLsbD_field]
  simp [hk, hk56]

@[simp] theorem extractLsb'_field_below {n lo lo' n' : Nat} (v : BitVec n) (h : lo' + n' ≤ lo) :
    (field lo v).extractLsb' lo' n' = 0#n' := by
  apply BitVec.eq_of_getLsbD_eq
  intro k hk
  have hlo : ¬ lo ≤ lo' + k := by omega
  rw [BitVec.getLsbD_extractLsb', getLsbD_field]
  simp [hlo]

@[simp] theorem extractLsb'_field_above {n lo lo' n' : Nat} (v : BitVec n) (h : lo + n ≤ lo') :
    (field lo v).extractLsb' lo' n' = 0#n' := by
  apply BitVec.eq_of_getLsbD_eq
  intro k hk
  have hv : v.getLsbD (lo' + k - lo) = false := BitVec.getLsbD_of_ge _ _ (by omega)
  rw [BitVec.getLsbD_extractLsb', getLsbD_field]
  simp [hv]

/-! ## Putting ranges together -/

@[simp] theorem field_zero (lo n : Nat) : field lo 0#n = 0 := by
  simp [field]

theorem field_whole (arg : Arg) : field 0 (arg.extractLsb' 0 56) = arg := by
  simp [field]

/-- Two ranges side by side are one range. -/
theorem field_or_field {arg : Arg} (lo m n : Nat) :
    field (lo + m) (arg.extractLsb' (lo + m) n) ||| field lo (arg.extractLsb' lo m) =
      field lo (arg.extractLsb' lo (m + n)) := by
  apply BitVec.eq_of_getLsbD_eq
  intro k hk
  simp only [BitVec.getLsbD_or, getLsbD_field, BitVec.getLsbD_extractLsb', hk, and_true]
  rcases Nat.lt_or_ge k lo with hlo | hlo
  · have hm : ¬ lo + m ≤ k := by omega
    simp [hm, Nat.not_le.mpr hlo]
  rcases Nat.lt_or_ge k (lo + m) with hm | hm
  · have hlow : k - lo < m := by omega
    simp [hlo, hm, hlow, Nat.lt_add_right]
  · obtain ⟨j, rfl⟩ := Nat.exists_eq_add_of_le hm
    have hj : lo + m + j - lo = m + j := by omega
    simp only [hj, Nat.add_sub_cancel_left]
    simp [Nat.add_assoc]

/-- An operand field whose bits from bit `m` on are 0 is its range below bit `m`. -/
theorem field_low {arg : Arg} (m n : Nat) (hmn : m + n = 56) (h : arg.extractLsb' m n = 0) :
    field 0 (arg.extractLsb' 0 m) = arg := by
  have hjoin := field_or_field (arg := arg) 0 m n
  simp only [Nat.zero_add] at hjoin
  rw [h, hmn, field_whole] at hjoin
  simpa using hjoin

theorem ofBool_getLsbD (arg : Arg) (k : Nat) : BitVec.ofBool (arg.getLsbD k) = arg.extractLsb' k 1 := by
  apply BitVec.eq_of_getLsbD_eq
  intro j hj
  obtain rfl : j = 0 := by omega
  simp

/-! ## Masks -/

/-- A mask of ones over a range tests that range. -/
theorem and_field_allOnes_eq_zero {arg : Arg} {lo n : Nat} (h : lo + n ≤ 56) :
    arg &&& field lo (BitVec.allOnes n) = 0 ↔ arg.extractLsb' lo n = 0 := by
  constructor
  · intro hz
    have hr := congrArg (BitVec.extractLsb' lo n) hz
    simpa [BitVec.extractLsb'_and, h] using hr
  · intro hz
    have hbit (j : Nat) (hj : j < n) : arg.getLsbD (lo + j) = false := by
      have hb := congrArg (fun v => BitVec.getLsbD v j) hz
      simpa [BitVec.getLsbD_extractLsb', hj] using hb
    apply BitVec.eq_of_getLsbD_eq
    intro k hk
    simp only [BitVec.getLsbD_and, getLsbD_field, BitVec.getLsbD_allOnes, BitVec.ofNat_eq_ofNat, BitVec.getLsbD_zero]
    by_cases hr : lo ≤ k ∧ k - lo < n
    · obtain ⟨j, rfl⟩ := Nat.exists_eq_add_of_le hr.1
      rw [hbit j (by omega), Bool.false_and]
    · have hout : (decide (lo ≤ k ∧ k < 56) && decide (k - lo < n)) = false := by
        simp only [Bool.and_eq_false_imp, decide_eq_true_eq, decide_eq_false_iff_not]
        exact fun hlo hn => hr ⟨hlo.1, hn⟩
      rw [hout, Bool.and_false]

/-! ## Ranges of a command word (30_encoding.md R80) -/

theorem getLsbD_argOf (w : CmdWord) {k : Nat} (h : k < 56) : (argOf w).getLsbD k = w.getLsbD k := by
  simp [argOf, h]

theorem extractLsb'_argOf (w : CmdWord) {lo n : Nat} (h : lo + n ≤ 56) :
    (argOf w).extractLsb' lo n = w.extractLsb' lo n := by
  rw [argOf, BitVec.extractLsb'_extractLsb'_of_le h]

theorem extractLsb'_opOf (w : CmdWord) {lo n : Nat} (h : lo + n ≤ 8) :
    (opOf w).extractLsb' lo n = w.extractLsb' (56 + lo) n := by
  apply BitVec.eq_of_getLsbD_eq
  intro k hk
  have hk8 : lo + k < 8 := by omega
  rw [opOf, BitVec.getLsbD_extractLsb', BitVec.getLsbD_extractLsb', BitVec.getLsbD_extractLsb', Nat.add_assoc]
  simp only [hk8, decide_true, Bool.true_and]

end Sys2Proof
end

section
/-! PROOFS. The encoding family, formats: the mask of a format and the ranges its decoder tests, its operand field from its
fields, and its fields from its operand field (30_encoding.md R81, R82, R84). -/

namespace Sys2Proof

section
variable {arg : Arg}

/-! ## The mask of a format tests the ranges that its decoder tests -/

theorem fmtN_mask : arg &&& 0xFFFFFFFFFFFFFF = 0 ↔ arg = 0 := by
  rw [show (0xFFFFFFFFFFFFFF : Arg) = BitVec.allOnes 56 from rfl, BitVec.and_allOnes]

theorem fmtB_mask : arg &&& 0xFFFFFFFFFFFFFE = 0 ↔ arg.extractLsb' 1 55 = 0 :=
  and_field_allOnes_eq_zero (lo := 1) (n := 55) (by decide)

theorem fmtY_mask : arg &&& 0xFFFFFFFFFFFF00 = 0 ↔ arg.extractLsb' 8 48 = 0 :=
  and_field_allOnes_eq_zero (lo := 8) (n := 48) (by decide)

theorem fmtI_mask : arg &&& 0xFFFFFF00000000 = 0 ↔ arg.extractLsb' 32 24 = 0 :=
  and_field_allOnes_eq_zero (lo := 32) (n := 24) (by decide)

theorem fmtF_mask : arg &&& 0xFFFF0000000000 = 0 ↔ arg.extractLsb' 40 16 = 0 :=
  and_field_allOnes_eq_zero (lo := 40) (n := 16) (by decide)

theorem fmtE_mask : arg &&& 0xFE000000000000 = 0 ↔ arg.extractLsb' 49 7 = 0 :=
  and_field_allOnes_eq_zero (lo := 49) (n := 7) (by decide)

theorem fmtQ_mask : arg &&& 0xFF00FE00000000 = 0 ↔ arg.extractLsb' 33 7 = 0 ∧ arg.extractLsb' 48 8 = 0 := by
  rw [show (0xFF00FE00000000 : Arg) = field 33 (BitVec.allOnes 7) ||| field 48 (BitVec.allOnes 8) from rfl,
    BitVec.and_or_distrib_left, ← and_field_allOnes_eq_zero (by decide), ← and_field_allOnes_eq_zero (by decide)]
  exact BitVec.or_eq_zero_iff

/-! ## An operand field with no reserved bit set is put together from its fields

Formats Y and I have one field from bit 0 on: `field_low`. -/

theorem fmtB_assembled (h : arg.extractLsb' 1 55 = 0) : field 0 (BitVec.ofBool (arg.getLsbD 0)) = arg := by
  rw [ofBool_getLsbD, field_low 1 55 rfl h]

theorem fmtF_assembled (h : arg.extractLsb' 40 16 = 0) :
    field 8 (arg.extractLsb' 8 32) ||| field 0 (arg.extractLsb' 0 8) = arg :=
  (field_or_field 0 8 32).trans (field_low 40 16 rfl h)

theorem fmtE_assembled (h : arg.extractLsb' 49 7 = 0) :
    field 9 (arg.extractLsb' 9 40) ||| field 0 (arg.extractLsb' 0 9) = arg :=
  (field_or_field 0 9 40).trans (field_low 49 7 rfl h)

theorem fmtQ_assembled (h : arg.extractLsb' 33 7 = 0 ∧ arg.extractLsb' 48 8 = 0) :
    field 40 (arg.extractLsb' 40 8) ||| field 32 (BitVec.ofBool (arg.getLsbD 32)) ||| field 0 (arg.extractLsb' 0 32)
      = arg := by
  obtain ⟨hmid, htop⟩ := h
  have hlow : field 0 (arg.extractLsb' 0 33) = field 0 (arg.extractLsb' 0 40) := by
    have hjoin := field_or_field (arg := arg) 0 33 7
    simpa [hmid] using hjoin
  calc
    _ = field 40 (arg.extractLsb' 40 8) ||| (field 32 (arg.extractLsb' 32 1) ||| field 0 (arg.extractLsb' 0 32)) := by
      rw [ofBool_getLsbD, BitVec.or_assoc]
    _ = field 40 (arg.extractLsb' 40 8) ||| field 0 (arg.extractLsb' 0 40) := by rw [field_or_field 0 32 1, hlow]
    _ = field 0 (arg.extractLsb' 0 48) := field_or_field 0 40 8
    _ = arg := field_low 48 8 rfl htop

/-- Everything format Q asks of an operand field, and the fields it reads. -/
theorem fmtQ_eq_ok_iff {f : Bool → Word32 → Byte → Instr} {i : Instr} :
    fmtQ arg f = .ok i ↔ (arg.extractLsb' 33 7 = 0 ∧ arg.extractLsb' 48 8 = 0)
      ∧ (arg.getLsbD 32 = false → arg.extractLsb' 0 32 = 0)
      ∧ f (arg.getLsbD 32) (arg.extractLsb' 0 32) (arg.extractLsb' 40 8) = i := by
  unfold fmtQ
  split
  case isFalse hres => exact ⟨nofun, fun h => absurd h.1 hres⟩
  case isTrue hres =>
    split
    case isTrue hbad => exact ⟨nofun, fun h => absurd (h.2.1 hbad.1) hbad.2⟩
    case isFalse hbad =>
      have hcap : arg.getLsbD 32 = false → arg.extractLsb' 0 32 = 0 := by simpa only [not_and, not_not] using hbad
      exact ⟨fun h => ⟨hres, hcap, Except.ok.inj h⟩, fun h => congrArg _ h.2.2⟩

end

/-! ## An operand field that is put together from fields is read as those fields -/

theorem fmtB_field (f : Bool → Instr) (b : Bool) : fmtB (field 0 (BitVec.ofBool b)) f = .ok (f b) := by
  simp only [fmtB, BitVec.getLsbD_eq_extractLsb']
  cases b <;> simp

theorem fmtY_field (f : Byte → Instr) (v : Byte) : fmtY (field 0 v) f = .ok (f v) := by
  simp [fmtY]

theorem fmtI_field (f : Word32 → Instr) (v : Word32) : fmtI (field 0 v) f = .ok (f v) := by
  simp [fmtI]

theorem fmtF_field (f : Byte → Count → Instr) (sym : Byte) (count : Count) :
    fmtF (field 8 count ||| field 0 sym) f = .ok (f sym count) := by
  simp [fmtF, BitVec.extractLsb'_or]

theorem fmtE_field (f : Key → Idx → Instr) (key : Key) (payload : Idx) :
    fmtE (field 9 key ||| field 0 payload) f = .ok (f key payload) := by
  simp [fmtE, BitVec.extractLsb'_or]

theorem wf_pqInit {ce : Bool} {cap : Word32} {cmp : Byte} :
    (Instr.pqInit ce cap cmp).wf = true ↔ (ce = false → cap = 0) := by
  cases ce <;> simp [Instr.wf]

theorem fmtQ_field (f : Bool → Word32 → Byte → Instr) (ce : Bool) (cap : Word32) (cmp : Byte)
    (h : (Instr.pqInit ce cap cmp).wf = true) :
    fmtQ (field 40 cmp ||| field 32 (BitVec.ofBool ce) ||| field 0 cap) f = .ok (f ce cap cmp) := by
  have hce : (field 40 cmp ||| field 32 (BitVec.ofBool ce) ||| field 0 cap).getLsbD 32 = ce := by
    rw [BitVec.getLsbD_eq_extractLsb']
    cases ce <;> simp [BitVec.extractLsb'_or]
  rw [fmtQ_eq_ok_iff, hce]
  simpa [BitVec.extractLsb'_or] using wf_pqInit.mp h

end Sys2Proof
end

section
/-! PROOFS. The encoding family, rows: decoding follows the row of the opcode table that has the word's opcode
(30_encoding.md R84, R86). -/

namespace Sys2Proof

open Machine

/-! ## From a command to its word -/

theorem encode_eq {i : Instr} {w : CmdWord} (hop : i.opcode = opOf w) (harg : i.arg = argOf w) : encode i = w :=
  word_eq (by rw [opOf_encode, hop]) (by rw [argOf_encode, harg])

theorem decode_encode (i : Instr) (h : i.wf = true) : decode (encode i) = .ok i := by
  unfold decode
  rw [opOf_encode, argOf_encode]
  match i with
  | .bsWbit b => exact fmtB_field .bsWbit b
  | .bsWbyte v => exact fmtY_field .bsWbyte v
  | .bsWint v => exact fmtI_field .bsWint v
  | .pqInit ce cap cmp => exact fmtQ_field .pqInit ce cap cmp h
  | .pqOffer key payload => exact fmtE_field .pqOffer key payload
  | .hufFset sym count => exact fmtF_field .hufFset sym count
  | .hufEnc sym => exact fmtY_field .hufEnc sym
  | .bsRbit | .bsRbyte | .bsRint | .bsRlen | .bsRrst | .bsWlen | .bsWrst | .bsFlush => rfl
  | .pqPoll | .pqPeek | .pqSize | .pqCmp | .mtfFwd | .mtfInv | .bwtFwd | .bwtInv => rfl
  | .hufFclr | .hufFcnt | .hufBuild | .hufWhdr | .hufRhdr | .hufDec => rfl
  | .hcCompress | .hcExpand | .bwCompress | .bwExpand => rfl

theorem decode_of_encode_eq {i : Instr} {w : CmdWord} (hwf : i.wf = true) (hw : encode i = w) : decode w = .ok i :=
  hw ▸ decode_encode i hwf

/-! ## From a word to its row -/

/-- `r` answers to the word `w` as a row of the opcode table with the reserved bits `mask` should: there is a command exactly
when no reserved bit is set and, in format Q, `cap` = 0 when `CE` = 0; the word is then the command's word. -/
structure FollowsRow (w : CmdWord) (mask : Arg) (r : Except Reserved Instr) : Prop where
  row : (opOf w, mask) ∈ opcodeTable
  answers : (∃ i, r = .ok i) ↔
    argOf w &&& mask = 0 ∧ (opOf w = 0x30 → w.getLsbD 32 = false → w.extractLsb' 0 32 = 0)
  answer : ∀ i, r = .ok i → i.wf = true ∧ encode i = w

/-- A row of a format other than Q: `free` is the decoder's test of the reserved bits, `i` the command it then answers. -/
theorem followsRow_of {w : CmdWord} {op : BitVec 8} {mask : Arg} {free : Prop} [Decidable free] (i : Instr)
    (hop : opOf w = op) (hrow : (op, mask) ∈ opcodeTable) (hq : op ≠ 0x30) (hmask : argOf w &&& mask = 0 ↔ free)
    (hwf : i.wf = true) (hi : i.opcode = op) (harg : free → i.arg = argOf w) :
    FollowsRow w mask (if free then .ok i else .error .reservedBit) := by
  subst hop
  by_cases hf : free
  · rw [if_pos hf]
    refine ⟨hrow, ⟨fun _ => ⟨hmask.mpr hf, fun h => absurd h hq⟩, fun _ => ⟨i, rfl⟩⟩, ?_⟩
    rintro _ ⟨⟩
    exact ⟨hwf, encode_eq hi (harg hf)⟩
  · rw [if_neg hf]
    exact ⟨hrow, ⟨nofun, fun h => absurd (hmask.mp h.1) hf⟩, nofun⟩

theorem followsRow_fmtN {w : CmdWord} {op : BitVec 8} (i : Instr) (hop : opOf w = op)
    (hrow : (op, 0xFFFFFFFFFFFFFF) ∈ opcodeTable) (hq : op ≠ 0x30) (hwf : i.wf = true) (hi : i.opcode = op)
    (harg : i.arg = 0) : FollowsRow w 0xFFFFFFFFFFFFFF (fmtN (argOf w) i) :=
  followsRow_of i hop hrow hq fmtN_mask hwf hi fun h => harg.trans h.symm

theorem followsRow_pqInit {w : CmdWord} (hop : opOf w = 0x30) :
    FollowsRow w 0xFF00FE00000000 (fmtQ (argOf w) .pqInit) := by
  refine ⟨by rw [hop]; decide, ?_, fun i hi => ?_⟩
  · simp only [fmtQ_eq_ok_iff, fmtQ_mask, hop, getLsbD_argOf w (show 32 < 56 by decide),
      extractLsb'_argOf w (show 0 + 32 ≤ 56 by decide), true_implies]
    exact ⟨fun ⟨_, hres, hcap, _⟩ => ⟨hres, hcap⟩, fun ⟨hres, hcap⟩ => ⟨_, hres, hcap, rfl⟩⟩
  · obtain ⟨hres, hcap, rfl⟩ := fmtQ_eq_ok_iff.mp hi
    exact ⟨wf_pqInit.mpr hcap, encode_eq hop.symm (fmtQ_assembled hres)⟩

/-- Decoding follows the row of the word's opcode, or there is none. The rows that are not named are those of format N. -/
theorem decode_cases (w : CmdWord) :
    (∃ mask, FollowsRow w mask (decode w)) ∨ ((∀ row ∈ opcodeTable, opOf w ≠ row.1) ∧ decode w = .error .opcode) := by
  unfold decode
  split
  case h_6 hop => exact .inl ⟨_, followsRow_of _ hop (by decide) (by decide) fmtB_mask rfl rfl fmtB_assembled⟩
  case h_7 hop | h_28 hop =>
    exact .inl ⟨_, followsRow_of _ hop (by decide) (by decide) fmtY_mask rfl rfl (field_low 8 48 rfl)⟩
  case h_8 hop =>
    exact .inl ⟨_, followsRow_of _ hop (by decide) (by decide) fmtI_mask rfl rfl (field_low 32 24 rfl)⟩
  case h_12 hop => exact .inl ⟨_, followsRow_pqInit hop⟩
  case h_13 hop => exact .inl ⟨_, followsRow_of _ hop (by decide) (by decide) fmtE_mask rfl rfl fmtE_assembled⟩
  case h_23 hop => exact .inl ⟨_, followsRow_of _ hop (by decide) (by decide) fmtF_mask rfl rfl fmtF_assembled⟩
  case h_34 =>
    refine .inr ⟨?_, rfl⟩
    simp only [opcodeTable, List.cons_append, List.nil_append, List.forall_mem_cons, List.not_mem_nil, false_implies,
      implies_true, and_true]
    and_intros <;> assumption
  all_goals
    rename_i hop
    exact .inl ⟨_, followsRow_fmtN _ hop (by decide) (by decide) rfl rfl rfl⟩

theorem encode_of_decode {w : CmdWord} {i : Instr} (h : decode w = .ok i) : i.wf = true ∧ encode i = w := by
  rcases decode_cases w with ⟨_, hr⟩ | ⟨-, he⟩
  · exact hr.answer i h
  · rw [he] at h
    nomatch h

/-! ## The words that decode -/

theorem opcodeTable_opcodes_nodup : (opcodeTable.map Prod.fst).Nodup := by decide

theorem row_eq_of_opcode_eq {row row' : BitVec 8 × Arg} (h : row ∈ opcodeTable) (h' : row' ∈ opcodeTable)
    (hop : row.1 = row'.1) : row = row' :=
  List.inj_on_of_nodup_map opcodeTable_opcodes_nodup h h' hop

theorem decode_ok_iff (w : CmdWord) :
    (∃ i, decode w = .ok i) ↔ (∃ row ∈ opcodeTable, opOf w = row.1 ∧ argOf w &&& row.2 = 0)
      ∧ (opOf w = 0x30 → w.getLsbD 32 = false → w.extractLsb' 0 32 = 0) := by
  rcases decode_cases w with ⟨mask, hmem, hok, -⟩ | ⟨hnone, he⟩
  · have hmask : (∃ row ∈ opcodeTable, opOf w = row.1 ∧ argOf w &&& row.2 = 0) ↔ argOf w &&& mask = 0 := by
      refine ⟨?_, fun hz => ⟨_, hmem, rfl, hz⟩⟩
      rintro ⟨row, hrow, hop, hz⟩
      obtain rfl := row_eq_of_opcode_eq hmem hrow hop
      exact hz
    rw [hok, hmask]
  · rw [he]
    exact ⟨nofun, fun ⟨⟨row, hrow, hop, _⟩, _⟩ => absurd hop (hnone row hrow)⟩

theorem decode_error_of_not_ok {w : CmdWord} (h : ¬ ∃ i, decode w = .ok i) : ∃ e, decode w = .error e := by
  cases hd : decode w with
  | error e => exact ⟨e, rfl⟩
  | ok i => exact absurd ⟨i, hd⟩ h

/-! ## The statements about words -/

/-- Settles O1: each format reads back the fields that an operand field is put together from. -/
theorem decodeOfEncode : Obligations.DecodeOfEncode := decode_encode

/-- Settles O2: a row's command has the word's opcode and operand field, and these fix the word. -/
theorem encodeOfDecode : Obligations.EncodeOfDecode := fun _ _ => encode_of_decode

/-- Settles O3: `decode` follows the row of the word's opcode, which is the only one with that opcode. -/
theorem wordsOutsideTheTableAreReserved : Obligations.WordsOutsideTheTableAreReserved :=
  ⟨decode_ok_iff, ⟨.opcode, by decide⟩, ⟨.opcode, by decide +kernel⟩⟩

/-- Settles O5: each word is the encoding of its command, so it decodes to it. -/
theorem sampleWordsDecode : Obligations.SampleWordsDecode := by
  unfold Obligations.SampleWordsDecode
  refine ⟨⟨by decide +kernel, ?_⟩, ⟨by decide +kernel, ?_⟩, ⟨by decide +kernel, ?_⟩, ⟨by decide +kernel, ?_⟩,
    ?_, ?_, ?_, ?_⟩
  all_goals exact decode_of_encode_eq rfl (by decide)

end Sys2Proof
end

section
/-! PROOFS. The encoding family, issued words: what `HostIssue(W)` and a step make of a reserved word and of a command
(30_encoding.md R85, R87; 70_reset_and_hazards.md R240, R242). -/

namespace Sys2Proof.Machine

/-! ## Issuing a word on a block without a fault -/

theorem hostIssue_reserved {s : State} {w : CmdWord} {e : Reserved} (hs : s.ctl.fault = false)
    (h : decode w = .error e) : hostIssue w s = .next (enterFault .invalidArgument s) := by
  simp [hostIssue, hs, h]

theorem hostIssue_command {s : State} {w : CmdWord} {i : Instr} (hs : s.ctl.fault = false) (h : decode w = .ok i) :
    hostIssue w s = exec i s := by
  simp [hostIssue, hs, h]

theorem step_issue {s : State} {w : CmdWord} {rest : List HostOp} {i : Instr} (hp : s.port = .issue w :: rest)
    (hs : s.ctl.fault = false) (hd : decode w = .ok i) : step s = withIssued (exec i { s with port := rest }) := by
  rw [step, hostStep, hp]
  exact congrArg withIssued (hostIssue_command hs hd)

theorem decode_of_decodeTableWord {n : Nat} {i : Instr} (h : decodeTableWord 64 n = some i) :
    decode (BitVec.ofNat 64 (n % 2 ^ 64)) = .ok i := by
  rw [decodeTableWord, if_pos (Nat.mod_lt _ (by decide))] at h
  cases hd : decode (BitVec.ofNat 64 (n % 2 ^ 64)) with
  | error e =>
    rw [hd] at h
    nomatch h
  | ok j =>
    rw [hd] at h
    exact congrArg _ (Option.some.inj h)

theorem step_withFetchWord {s : State} {n : Nat} {i : Instr} (hs : s.ctl.fault = false)
    (hd : decodeTableWord 64 n = some i) : step (s.withFetchWord 64 n) = withIssued (exec i s) :=
  step_issue (s := s.withFetchWord 64 n) rfl hs (decode_of_decodeTableWord hd)

/-- Settles O6: an issued word that decodes is the run of its command, with the reply that `withIssued` hands back. -/
theorem stepRunsDecodedCommand : Obligations.StepRunsDecodedCommand := by
  unfold Obligations.StepRunsDecodedCommand
  refine ⟨fun s w rest i hp hs hd => ?issue, fun s n i hs hd t ht => ?fetch, fun s hp => ?idle⟩
  case issue =>
    rw [step_issue hp hs hd]
    exact ⟨fun t h => congrArg withIssued h, fun f h => congrArg withIssued h, fun r h => congrArg withIssued h⟩
  case fetch => exact (step_withFetchWord hs hd).trans (congrArg withIssued ht)
  case idle => rw [step, hostStep, hp]

/-! ## Opcodes in use -/

/-- The `fn` values that the table of R86 gives a meaning, unit by unit. -/
def UsedFn (unit fn : Nat) : Prop :=
  (unit = 1 ∧ fn < 5) ∨ (unit = 2 ∧ fn < 6) ∨ (unit = 3 ∧ fn < 6) ∨ (unit = 4 ∧ fn < 2) ∨ (unit = 5 ∧ fn < 2)
    ∨ (unit = 6 ∧ fn < 8) ∨ (unit = 7 ∧ fn < 4)

theorem opcodeTable_usedFn :
    ∀ row ∈ opcodeTable, UsedFn (row.1.extractLsb' 4 4).toNat (row.1.extractLsb' 0 4).toNat := by
  simp [opcodeTable, UsedFn]

theorem usedFn_of_row {w : CmdWord} {row : BitVec 8 × Arg} (hrow : row ∈ opcodeTable) (hop : opOf w = row.1) :
    UsedFn (w.extractLsb' 60 4).toNat (w.extractLsb' 56 4).toNat := by
  have h := opcodeTable_usedFn row hrow
  rwa [← hop, extractLsb'_opOf w (by decide), extractLsb'_opOf w (by decide)] at h

/-! ## `PQ.INIT` with an ordering id that is not defined -/

theorem decode_pqInit {w : CmdWord} (hop : opOf w = 0x30#8) : decode w = fmtQ (argOf w) .pqInit := by
  unfold decode
  rw [hop]
  rfl

theorem ordOperand_eq_none {cmp : Byte} (h : 1 < cmp.toNat) : ordOperand cmp = none := by
  have h0 : cmp ≠ 0 := by
    rintro rfl
    contradiction
  have h1 : cmp ≠ 1 := by
    rintro rfl
    contradiction
  rw [ordOperand, if_neg h0, if_neg h1]

theorem exec_pqInit_of_undefined_cmp {cmp : Byte} (h : 1 < cmp.toNat) (ce : Bool) (cap : Word32) (s : State) :
    exec (.pqInit ce cap cmp) s = .next (enterFault .invalidArgument s) := by
  change execPqInit ce cap cmp s = _
  rw [execPqInit, ordOperand_eq_none h]
  rfl

/-- Settles O4: each listed kind of word fails one of the conditions of `decode_ok_iff`; a `PQ.INIT` with `cmp` above 1 meets
them, and no ordering has its id. -/
theorem reservedWordRaisesInvalidArgument : Obligations.ReservedWordRaisesInvalidArgument := by
  unfold Obligations.ReservedWordRaisesInvalidArgument
  refine ⟨fun s w e => hostIssue_reserved, fun w => ?reserved, fun w s hop hres hcap hcmp => ?undefinedCmp⟩
  case reserved =>
    intro unit fn hw
    refine decode_error_of_not_ok fun hok => ?_
    obtain ⟨⟨row, hrow, hop, hz⟩, hq⟩ := (decode_ok_iff w).mp hok
    have hfn : UsedFn unit fn := usedFn_of_row hrow hop
    have hmask : ¬ ∃ row ∈ opcodeTable, opOf w = row.1 ∧ argOf w &&& row.2 ≠ 0 := by
      rintro ⟨row', hrow', hop', hnz⟩
      obtain rfl := row_eq_of_opcode_eq hrow hrow' (hop.symm.trans hop')
      exact hnz hz
    have hcap : ¬ (opOf w = 0x30 ∧ w.getLsbD 32 = false ∧ w.extractLsb' 0 32 ≠ 0) :=
      fun ⟨h30, hce, hne⟩ => hne (hq h30 hce)
    simp only [hmask, hcap, or_false] at hw
    unfold UsedFn at hfn
    omega
  case undefinedCmp =>
    have hrow : (0x30, 0xFF00FE00000000) ∈ opcodeTable := by decide
    obtain ⟨i, hi⟩ := (decode_ok_iff w).mpr ⟨⟨_, hrow, hop, hres⟩, fun _ => hcap⟩
    refine ⟨i, hi, ?_⟩
    rw [decode_pqInit hop] at hi
    obtain ⟨-, -, rfl⟩ := fmtQ_eq_ok_iff.mp hi
    rw [← extractLsb'_argOf w (by decide)] at hcmp
    exact exec_pqInit_of_undefined_cmp hcmp _ _ s

end Sys2Proof.Machine
end

section
/-! PROOFS. The stream family, reads: what `BS.RBIT`, `BS.RBYTE` and `BS.RINT` answer, at any cursor; lengths and resets
(40_bitstream.md R107 to R111, R115, R116). -/

namespace Sys2Proof.Machine

/-! ## The word of a command with at most one operand field -/

theorem encodedAs_of_encode_eq {i : Instr} {w : CmdWord} (hwf : i.wf = true) (h : encode i = w) : EncodedAs i w := by
  intro w'
  constructor
  · intro hd
    exact (encode_of_decode hd).2.symm.trans h
  · rintro rfl
    exact decode_of_encode_eq hwf h

/-- The word of a command whose one operand field is `v`, from bit 0 on (30_encoding.md R80, R81). -/
theorem encodedAs_of_arg_eq_field {i : Instr} {op : BitVec 8} {w : CmdWord} {n : Nat} {v : BitVec n} (hwf : i.wf = true)
    (hop : i.opcode = op) (hw : op.setWidth 64 <<< 56 = w) (hn : n ≤ 56) (harg : i.arg = field 0 v) :
    EncodedAs i (w ||| v.setWidth 64) := by
  refine encodedAs_of_encode_eq hwf ?_
  rw [encode, hop, hw, harg, field, BitVec.shiftLeft_zero, BitVec.setWidth_setWidth (by omega)]

/-! ## How a command whose pseudocode begins with one primitive ends -/

section
variable {α : Type} {s : State} {e : Except Stop α} {f : α → Except Stop Done}

theorem conclude_bind_ok {a : α} (h : e = .ok a) : conclude s (e >>= f) = conclude s (f a) := by
  rw [h]
  rfl

theorem conclude_bind_raise {k : FaultKind} (h : e = .error (.raise k)) :
    conclude s (e >>= f) = .next (enterFault k s) := by
  rw [h]
  rfl

end

theorem faultsWith_of_exec {i : Instr} {s : State} {k : FaultKind} (h : exec i s = .next (enterFault k s)) :
    FaultsWith i s k := ⟨_, h, rfl, rfl⟩

/-! ## Reads -/

/-- `s` after a read of `n` bits that returned `v`. -/
def readDone (s : State) (n : Nat) (v : Word) : State :=
  completed { s with bsr := { s.bsr with rpos := s.bsr.rpos + n } } v false

@[simp] theorem readDone_bsr (s : State) (n : Nat) (v : Word) :
    (readDone s n v).bsr = { s.bsr with rpos := s.bsr.rpos + n } := rfl

section
variable {s : State}

theorem exec_bsRbit_ok (h : s.bsr.rpos < s.bsr.bitLen) :
    exec .bsRbit s = .next (readDone s 1 ((BitVec.ofBool (s.bsr.bitAt s.bsr.rpos)).setWidth 64)) :=
  conclude_bind_ok (rdBit_ok h)

theorem exec_bsRbyte_ok (h : s.bsr.rpos + 8 ≤ s.bsr.bitLen) :
    ∃ v : Byte, bitsMsb v = s.bsr.rest.take 8 ∧ exec .bsRbyte s = .next (readDone s 8 (v.setWidth 64)) := by
  obtain ⟨v, hv, hbits⟩ := rdByte_ok h
  exact ⟨v, hbits, conclude_bind_ok hv⟩

theorem exec_bsRint_ok (h : s.bsr.rpos + 32 ≤ s.bsr.bitLen) :
    ∃ v : Word32, bitsMsb v = s.bsr.rest.take 32 ∧ exec .bsRint s = .next (readDone s 32 (v.signExtend 64)) := by
  obtain ⟨v, hv, hbits⟩ := rdInt_ok h
  exact ⟨v, hbits, conclude_bind_ok hv⟩

/-- With fewer bits left than a read's width, the read is the fault entry. -/
theorem exec_read_eof (f : Field) (h : s.bsr.bitLen < s.bsr.rpos + f.bits.length) :
    exec f.read s = .next (enterFault .unexpectedEof s) := by
  cases f with
  | bit _ => exact conclude_bind_raise (rdBit_eof (Nat.le_of_lt_succ h))
  | byte v => exact conclude_bind_raise (if_pos (bitsMsb_length v ▸ h))
  | int v => exact conclude_bind_raise (if_pos (bitsMsb_length v ▸ h))

theorem read_faults (f : Field) (h : s.bsr.bitLen < s.bsr.rpos + f.bits.length) :
    FaultsWith f.read s .unexpectedEof := faultsWith_of_exec (exec_read_eof f h)

end

/-- Settles O17: with a bit left `RdBit()` answers the bit at the cursor, and at the end it raises. -/
theorem rbitReturnsNextBit : Obligations.RbitReturnsNextBit := by
  refine ⟨encodedAs_of_encode_eq rfl (by decide), fun s => ⟨fun h => ?next, fun h => ?eof⟩⟩
  case next => exact ⟨_, flatMap_bits_getElem? _ _ h, exec_bsRbit_ok h⟩
  case eof => exact read_faults (.bit false) (Nat.lt_succ_of_le h)

/-- Settles O18: a read of 8 or 32 bits answers the value that has the next bits of `IN`, wherever the cursor is. -/
theorem rbyteAndRintReturnNextField : Obligations.RbyteAndRintReturnNextField :=
  ⟨encodedAs_of_encode_eq rfl (by decide), encodedAs_of_encode_eq rfl (by decide), fun _ =>
    ⟨exec_bsRbyte_ok, read_faults (.byte 0), exec_bsRint_ok, read_faults (.int 0)⟩⟩

/-! ## Lengths and resets -/

theorem resLen_toNat {n : Nat} (h : n < 2 ^ 32) : (resLen n).toNat = n := by
  have h64 : n < 2 ^ 64 := by omega
  rw [resLen, resZext, len32, if_pos h, BitVec.toNat_setWidth, BitVec.toNat_ofNat, Nat.mod_eq_of_lt h,
    Nat.mod_eq_of_lt h64]

/-- Settles O19: the pseudocode of each of the four raises nothing; the counts are those of the length registers. -/
theorem lengthAndResetCommands : Obligations.LengthAndResetCommands := by
  refine ⟨encodedAs_of_encode_eq rfl (by decide), encodedAs_of_encode_eq rfl (by decide),
    encodedAs_of_encode_eq rfl (by decide), encodedAs_of_encode_eq rfl (by decide), fun s => ⟨?rlen, rfl, ?wlen, rfl⟩⟩
  case rlen => exact ⟨_, rfl, resLen_toNat⟩
  case wlen => exact ⟨_, rfl, resLen_toNat⟩

end Sys2Proof.Machine
end

section
/-! PROOFS. The stream family, writes: each writer command appends the bits of its operand, and `BS.FLUSH` the pad bits
(40_bitstream.md R112 to R114, R117). -/

namespace Sys2Proof.Machine

/-! ## Writer primitives -/

theorem wrBits_singleton (cap : Option Nat) (w : Bsw) (b : Bool) : wrBits cap w [b] = wrBit cap w b := by
  simp only [wrBits, bind, Except.bind]
  cases wrBit cap w b with
  | error e => rfl
  | ok w' => rfl

theorem wrBits_appends {cap : Option Nat} {w w' : Bsw} {bs : Bits} (h : wrBits cap w bs = .ok w') : Appends w w' bs := by
  obtain ⟨hbits, haligned⟩ := wrBits_bits bs h
  exact ⟨hbits, (wrBits_ensures bs (.refl w) w' h).out, haligned⟩

theorem Appends.trans {w₁ w₂ w₃ : Bsw} {as bs : Bits} (h₁ : Appends w₁ w₂ as) (h₂ : Appends w₂ w₃ bs) :
    Appends w₁ w₃ (as ++ bs) := by
  obtain ⟨hbits₁, hout₁, haligned₁⟩ := h₁
  obtain ⟨hbits₂, hout₂, haligned₂⟩ := h₂
  exact ⟨by rw [hbits₂, hbits₁, List.append_assoc], hout₁.trans hout₂, haligned₂ ∘ haligned₁⟩

theorem Appends.refl (w : Bsw) : Appends w w [] := ⟨(List.append_nil _).symm, List.prefix_rfl, id⟩

/-! ## The three writer commands -/

/-- Every writer command is `WrBit` for each bit of its field. -/
theorem exec_write (f : Field) (s : State) :
    exec f.write s = conclude s (wrBits s.params.outCap s.bsw f.bits >>= fun w => .ok { st := { s with bsw := w } }) := by
  cases f with
  | bit b =>
    rw [Field.bits, wrBits_singleton]
    rfl
  | byte v => rfl
  | int v =>
    rw [Field.bits, ← wrInt_eq_wrBits]
    rfl

theorem exec_write_ok {f : Field} {s : State} (h : Room s f.bits.length) :
    ∃ w, exec f.write s = .next (completed { s with bsw := w } 0 false) ∧ Appends s.bsw w f.bits := by
  obtain ⟨w, hw⟩ := wrBits_ok f.bits h
  exact ⟨w, (exec_write f s).trans (conclude_bind_ok hw), wrBits_appends hw⟩

theorem exec_write_overflow {f : Field} {s : State} (hs : Memory.wf s = true) (h : ¬ Room s f.bits.length) :
    exec f.write s = .next (enterFault .overflow s) := by
  rw [exec_write]
  cases hw : wrBits s.params.outCap s.bsw f.bits with
  | ok w => exact absurd (wrBits_room f.bits (memory_wf_iff.mp hs).2 hw) h
  | error e => exact conclude_bind_raise (congrArg _ (wrBits_error f.bits hw))

/-- Settles O20: every writer command is `WrBit` for each bit of its field, which completes exactly where there is room. -/
theorem writersAppendTheirBits : Obligations.WritersAppendTheirBits := by
  refine ⟨fun b => ?wbit, fun v => ?wbyte, fun v => ?wint, fun s f => ⟨exec_write_ok, fun hs h => ?overflow⟩⟩
  case wbit => exact encodedAs_of_arg_eq_field (op := 0x20) rfl rfl (by decide) (by decide) rfl
  case wbyte => exact encodedAs_of_arg_eq_field (op := 0x21) rfl rfl (by decide) (by decide) rfl
  case wint => exact encodedAs_of_arg_eq_field (op := 0x22) rfl rfl (by decide) (by decide) rfl
  case overflow => exact faultsWith_of_exec (exec_write_overflow hs h)

/-! ## `BS.FLUSH` -/

theorem wcnt_toNat_ne_zero {w : Bsw} (h : w.wcnt ≠ 0) : w.wcnt.toNat ≠ 0 :=
  fun h0 => h (BitVec.eq_of_toNat_eq h0)

theorem Bsw.bits_eq_of_wcnt_zero {w : Bsw} (h : w.wcnt = 0) : w.bits = w.out.flatMap bitsMsb := by
  simp [Bsw.bits, Bsw.pending, h]

theorem Bsw.wacc_eq_zero {w : Bsw} (ha : w.aligned) (h : w.wcnt = 0) : w.wacc = 0 := by
  apply BitVec.eq_of_getLsbD_eq
  intro i hi
  rw [ha i (by simpa [h] using hi)]
  simp

theorem padBits_bits_length (w : Bsw) : padBits w.bits.length = List.replicate ((8 - w.wcnt.toNat) % 8) false := by
  have hmod : w.bits.length % 8 = w.wcnt.toNat := by
    rw [bits_length, Nat.mul_add_mod, Nat.mod_eq_of_lt (wcnt_lt w)]
  rw [padBits, hmod]

/-- The pending byte, its unused bits 0, is the pending bits and the pad bits. -/
theorem bitsMsb_wacc {w : Bsw} (ha : w.aligned) (h : w.wcnt ≠ 0) :
    bitsMsb w.wacc = w.pending ++ padBits w.bits.length := by
  have hlt := wcnt_lt w
  have hpos := wcnt_toNat_ne_zero h
  rw [padBits_bits_length, Nat.mod_eq_of_lt (by omega)]
  conv_lhs => rw [← List.take_append_drop w.wcnt.toNat (bitsMsb w.wacc)]
  congr 1
  refine List.eq_replicate_iff.mpr ⟨by simp, fun b hb => ?_⟩
  obtain ⟨i, hi, rfl⟩ := List.mem_iff_getElem.mp hb
  simp only [List.length_drop, bitsMsb_length] at hi
  rw [List.getElem_drop, bitsMsb_getElem]
  exact ha _ (by omega)

/-- `Flush()` with room appends the pad bits and leaves nothing pending. -/
theorem flush_spec {cap : Option Nat} {w w' : Bsw} (ha : w.aligned) (h : flush cap w = .ok w') :
    Appends w w' (padBits w.bits.length) ∧ w'.wcnt = 0 ∧ w'.wacc = 0 := by
  have hgrown := flush_ensures (.refl w) w' h
  rcases flush_cases h with ⟨h0, rfl⟩ | ⟨h0, -, rfl⟩
  · have hpad : padBits w'.bits.length = [] := by simp [padBits_bits_length, h0]
    exact ⟨hpad ▸ .refl w', h0, Bsw.wacc_eq_zero ha h0⟩
  · refine ⟨⟨?_, hgrown.out, hgrown.aligned⟩, rfl, rfl⟩
    rw [Bsw.bits_eq_of_wcnt_zero rfl, Bsw.push_out, List.flatMap_append, Bsw.bits, List.append_assoc, ← Bsw.bits,
      ← bitsMsb_wacc ha h0]
    simp

/-- `Flush()` completes where the byte it pads has room. -/
theorem flush_ok {cap : Option Nat} {w : Bsw}
    (h : ∀ c, cap = some c → (w.bits.length + (padBits w.bits.length).length) / 8 ≤ c) : ∃ w', flush cap w = .ok w' := by
  cases hw : flush cap w with
  | ok w' => exact ⟨w', rfl⟩
  | error e =>
    obtain ⟨-, h0, hfull⟩ := flush_error hw
    have hcap : cap = some w.out.length := by simpa [Bsw.full] using hfull
    have hpos := wcnt_toNat_ne_zero h0
    have hroom := h _ hcap
    rw [padBits_bits_length, List.length_replicate, bits_length] at hroom
    have hlt := wcnt_lt w
    omega

theorem flush_overflow {cap : Option Nat} {w : Bsw} (h0 : w.wcnt ≠ 0) (hcap : cap = some w.out.length) :
    flush cap w = .error (.raise .overflow) := by
  have hfull : w.full cap = true := by simp [Bsw.full, hcap]
  rw [flush, if_neg h0, if_pos hfull]

theorem exec_bsFlush_ok {s : State} {w : Bsw} (h : flush s.params.outCap s.bsw = .ok w) :
    exec .bsFlush s = .next (completed { s with bsw := w } 0 false) := conclude_bind_ok h

/-- Settles O21: the pending byte pushed is the pending bits and the pad bits, since its unused bits are 0. -/
theorem flushPadsToByteBoundary : Obligations.FlushPadsToByteBoundary := by
  refine ⟨encodedAs_of_encode_eq rfl (by decide), fun s ha => ⟨fun hroom => ?pads, fun h0 hcap => ?overflow⟩⟩
  case pads =>
    obtain ⟨w, hw⟩ := flush_ok hroom
    obtain ⟨happ, hcnt, hacc⟩ := flush_spec ha hw
    refine ⟨w, exec_bsFlush_ok hw, happ, hcnt, hacc, ?_, fun h0 => ?_⟩
    · rw [← Bsw.bits_eq_of_wcnt_zero hcnt, happ.1]
    · rcases flush_cases hw with ⟨-, hsame⟩ | ⟨hne, -, -⟩
      · exact hsame
      · exact absurd h0 hne
  case overflow => exact faultsWith_of_exec (conclude_bind_raise (flush_overflow h0 hcap))

end Sys2Proof.Machine
end

section
/-! PROOFS. The stream family, sequences: the four stream laws (40_bitstream.md R118), each by induction on the fields. -/

namespace Sys2Proof.Machine

/-! ## A command at the head of a run -/

section
variable {i : Instr} {is : List Instr} {s t : State}

theorem runAll_cons_next (h : exec i s = .next t) (ht : t.ctl.fault = false) :
    runAll (i :: is) s = (runAll is t).map fun p => (t.ctl.res :: p.1, p.2) := by
  simp [runAll, h, ht]

theorem runAll_cons_fault {k : FaultKind} (h : exec i s = .next (enterFault k s)) : runAll (i :: is) s = none := by
  simp [runAll, h]

end

/-! ## Writing a sequence of fields -/

theorem Room.of_appends {s t : State} {bs : Bits} {n : Nat} (h : Room s (bs.length + n)) (hp : t.params = s.params)
    (ht : Appends s.bsw t.bsw bs) : Room t n := by
  intro c hc
  rw [ht.1, List.length_append, Nat.add_assoc]
  exact h c (hp ▸ hc)

theorem Room.mono {s : State} {m n : Nat} (h : Room s n) (hmn : m ≤ n) : Room s m :=
  fun c hc => (Nat.div_le_div_right (by omega)).trans (h c hc)

/-- Writing fields that have room appends their bits, one field after the other. -/
theorem runAll_write (fs : List Field) {s : State} (hs : s.ctl.fault = false)
    (hroom : Room s (fs.flatMap Field.bits).length) :
    ∃ rs t, runAll (fs.map Field.write) s = some (rs, t) ∧ t = { s with bsw := t.bsw, ctl := t.ctl }
      ∧ t.ctl.fault = false ∧ Appends s.bsw t.bsw (fs.flatMap Field.bits) := by
  induction fs generalizing s with
  | nil => exact ⟨[], s, rfl, rfl, hs, .refl _⟩
  | cons f fs ih =>
    rw [List.flatMap_cons, List.length_append] at hroom
    obtain ⟨w, hexec, happ⟩ := exec_write_ok (hroom.mono (Nat.le_add_right _ _))
    obtain ⟨rs, t, hrun, hframe, ht, happs⟩ :=
      ih (s := completed { s with bsw := w } 0 false) hs (hroom.of_appends rfl happ)
    refine ⟨0 :: rs, t, ?_, hframe, ht, happ.trans happs⟩
    rw [List.map_cons, runAll_cons_next hexec hs, hrun]
    rfl

/-- Law (a): writing fields to an empty writer leaves their bits and no others, so their number gives OUT_LEN and WCNT. -/
theorem runAll_write_empty {fs : List Field} {s : State} (hs : s.ctl.fault = false) (he : s.bsw = Bsw.empty)
    (hroom : Room s (fs.flatMap Field.bits).length) :
    ∃ rs t, runAll (fs.map Field.write) s = some (rs, t) ∧ t = { s with bsw := t.bsw, ctl := t.ctl }
      ∧ t.ctl.fault = false ∧ t.bsw.bits = fs.flatMap Field.bits ∧ t.bsw.aligned
      ∧ t.bsw.out.length = (fs.flatMap Field.bits).length / 8
      ∧ t.bsw.wcnt.toNat = (fs.flatMap Field.bits).length % 8 := by
  obtain ⟨rs, t, hrun, hframe, ht, hbits, -, haligned⟩ := runAll_write fs hs hroom
  rw [he] at hbits haligned
  have hempty : t.bsw.bits = fs.flatMap Field.bits := hbits
  have hlen := bits_length t.bsw
  have hcnt := wcnt_lt t.bsw
  rw [hempty] at hlen
  exact ⟨rs, t, hrun, hframe, ht, hempty, haligned Bsw.empty_aligned, by omega, by omega⟩

/-- Law (b): a flush after the bits `bs` appends their pad bits. -/
theorem exec_bsFlush_of_bits {t : State} {bs : Bits} (ht : t.ctl.fault = false) (ha : t.bsw.aligned) (hbits : t.bsw.bits = bs)
    (hroom : Room t (padBits bs.length).length) :
    ∃ u, exec .bsFlush t = .next u ∧ u.ctl.fault = false ∧ u.bsw.out.flatMap bitsMsb = bs ++ padBits bs.length
      ∧ u.bsw.bits = bs ++ padBits bs.length := by
  subst hbits
  obtain ⟨w, hw⟩ := flush_ok hroom
  obtain ⟨⟨happ, -, -⟩, hcnt, -⟩ := flush_spec ha hw
  exact ⟨_, exec_bsFlush_ok hw, ht, (Bsw.bits_eq_of_wcnt_zero hcnt).symm.trans happ, happ⟩

/-! ## Reading a sequence of fields -/

theorem Field.bits_length_pos (f : Field) : 0 < f.bits.length := by
  cases f with
  | bit _ => exact Nat.one_pos
  | byte v => simp [Field.bits]
  | int v => simp [Field.bits]

theorem Field.eq_of_read_bits {f g : Field} (hread : g.read = f.read) (hbits : g.bits = f.bits) : g = f := by
  match f, g, hread with
  | .bit _, .bit _, _ => exact congrArg _ (List.cons.inj hbits).1
  | .byte _, .byte _, _ => exact congrArg _ (bitsMsb_inj hbits)
  | .int _, .int _, _ => exact congrArg _ (bitsMsb_inj hbits)

section
variable {s : State}

/-- A read with its width left returns the field of that width that `IN` goes on with. -/
theorem exec_read_ok (f : Field) (h : s.bsr.rpos + f.bits.length ≤ s.bsr.bitLen) :
    ∃ g : Field, g.read = f.read ∧ g.bits = s.bsr.rest.take f.bits.length
      ∧ exec f.read s = .next (readDone s f.bits.length g.value) := by
  cases f with
  | bit _ =>
    refine ⟨.bit (s.bsr.bitAt s.bsr.rpos), rfl, ?_, exec_bsRbit_ok h⟩
    rw [Bsr.rest_cons h]
    rfl
  | byte v =>
    simp only [Field.bits, bitsMsb_length] at h ⊢
    obtain ⟨u, hbits, hexec⟩ := exec_bsRbyte_ok h
    exact ⟨.byte u, rfl, hbits, hexec⟩
  | int v =>
    simp only [Field.bits, bitsMsb_length] at h ⊢
    obtain ⟨u, hbits, hexec⟩ := exec_bsRint_ok h
    exact ⟨.int u, rfl, hbits, hexec⟩

theorem exec_read_of_rest {f : Field} {more : Bits} (h : s.bsr.rest = f.bits ++ more) :
    exec f.read s = .next (readDone s f.bits.length f.value) := by
  have hpos := f.bits_length_pos
  have hlen := congrArg List.length h
  rw [Bsr.rest_length, List.length_append] at hlen
  obtain ⟨g, hread, hbits, hexec⟩ := exec_read_ok (s := s) f (by omega)
  rw [h, List.take_left] at hbits
  rwa [Field.eq_of_read_bits hread hbits] at hexec

/-- Law (c): a stream that goes on with the bits of the fields is read back as their values. -/
theorem runAll_read_of_rest (fs : List Field) {more : Bits} (hs : s.ctl.fault = false)
    (h : s.bsr.rest = fs.flatMap Field.bits ++ more) :
    ∃ t, runAll (fs.map Field.read) s = some (fs.map Field.value, t)
      ∧ t = { s with bsr := { s.bsr with rpos := s.bsr.rpos + (fs.flatMap Field.bits).length }, ctl := t.ctl } := by
  induction fs generalizing s with
  | nil => exact ⟨s, rfl, rfl⟩
  | cons f fs ih =>
    rw [List.flatMap_cons, List.append_assoc] at h
    have hrest : (readDone s f.bits.length f.value).bsr.rest = fs.flatMap Field.bits ++ more := by
      rw [readDone_bsr, Bsr.rest_drop, h, List.drop_left]
    obtain ⟨t, hrun, hframe⟩ := ih (s := readDone s f.bits.length f.value) hs hrest
    refine ⟨t, ?_, ?_⟩
    · rw [List.map_cons, runAll_cons_next (exec_read_of_rest h) hs, hrun]
      rfl
    · rw [List.flatMap_cons, List.length_append, ← Nat.add_assoc]
      exact hframe

/-- Law (d): reads end in a fault exactly when their widths together exceed the bits left. -/
theorem runAll_read_eq_none_iff (fs : List Field) (hs : s.ctl.fault = false) (hcur : s.bsr.rpos ≤ s.bsr.bitLen) :
    runAll (fs.map Field.read) s = none ↔ s.bsr.bitLen - s.bsr.rpos < (fs.flatMap Field.bits).length := by
  induction fs generalizing s with
  | nil => simp [runAll]
  | cons f fs ih =>
    rw [List.map_cons, List.flatMap_cons, List.length_append]
    by_cases hfits : s.bsr.rpos + f.bits.length ≤ s.bsr.bitLen
    · obtain ⟨g, -, -, hexec⟩ := exec_read_ok f hfits
      have hrun := ih (s := readDone s f.bits.length g.value) hs hfits
      rw [runAll_cons_next hexec hs, Option.map_eq_none_iff, hrun]
      simp only [readDone_bsr, Bsr.bitLen] at hfits ⊢
      omega
    · have hnone := runAll_cons_fault (is := fs.map Field.read) (exec_read_eof f (Nat.lt_of_not_le hfits))
      exact iff_of_true hnone (by omega)

end

/-- Settles O22: (a) and (b) from what writing appends and a flush pads, (c) and (d) from what each read returns. -/
theorem streamLaws : Obligations.StreamLaws := by
  refine ⟨fun fs s hs he hroom => ?writing, fun fs s more => runAll_read_of_rest fs, fun fs s => runAll_read_eq_none_iff fs,
    fun f s hcur hend => read_faults f (by omega)⟩
  case writing =>
    obtain ⟨rs, t, hrun, hframe, ht, hbits, ha, hout, hcnt⟩ := runAll_write_empty hs he hroom
    exact ⟨rs, t, hrun, hframe, hbits, hout, hcnt, exec_bsFlush_of_bits ht ha hbits⟩

end Sys2Proof.Machine
end

section
/-! PROOFS. The queue family, sorting: the first element of a heap is a minimum, so polls come out ascending (41_pqueue.md
R121, R122, R128, R135). -/

namespace Sys2Proof.Machine

/-! ## The orderings as orders of numbers -/

theorem less_natural_iff {a b : Elem} : less .natural a b = true ↔ a.toNat < b.toNat := by
  simp [less, BitVec.lt_def]

/-- The key of an element is the element divided by 512: its payload has 9 bits. -/
theorem elemKey_toNat (a : Elem) : (elemKey a).toNat = a.toNat / 512 := by
  have ha := a.isLt
  rw [elemKey, BitVec.extractLsb'_toNat, Nat.shiftRight_eq_div_pow, Nat.mod_eq_of_lt (by omega)]

theorem less_key_iff {a b : Elem} : less .key a b = true ↔ a.toNat / 512 < b.toNat / 512 := by
  simp [less, BitVec.lt_def, elemKey_toNat]

theorem notLess_natural_iff {a b : Elem} : less .natural a b = false ↔ b.toNat ≤ a.toNat := by
  rw [← Bool.not_eq_true, less_natural_iff, Nat.not_lt]

theorem notLess_key_iff {a b : Elem} : less .key a b = false ↔ b.toNat / 512 ≤ a.toNat / 512 := by
  rw [← Bool.not_eq_true, less_key_iff, Nat.not_lt]

/-! ## The root of a heap -/

section
variable {o : PqOrd} {h : List Elem}

/-- No position holds less than the root: by the invariant along its ancestors `k / 2`, `k / 4`, … down to 1. -/
theorem HeapInv.root_le (hh : HeapInv o h) {k : Nat} (hk : 1 ≤ k) (hlen : k ≤ h.length) :
    less o (heapAt h k) (heapAt h 1) = false := by
  induction k using Nat.strong_induction_on with
  | h k ih =>
    obtain rfl | h2 : k = 1 ∨ 2 ≤ k := by omega
    · exact less_irrefl o _
    · exact notLess_trans (ih (k / 2) (by omega) (by omega) (by omega)) (hh k h2 hlen)

theorem HeapInv.root_min (hh : HeapInv o h) {x : Elem} (hx : x ∈ h) : less o x (heapAt h 1) = false := by
  obtain ⟨i, hi, rfl⟩ := List.mem_iff_getElem.mp hx
  have hroot := hh.root_le (k := i + 1) (by omega) hi
  rwa [heapAt_eq (by omega) hi] at hroot

end

/-! ## Polling until the queue is empty -/

theorem drain_perm {n : Nat} {q : Pq} (hn : q.heap.length = n) : (drain n q).Perm q.heap := by
  induction n generalizing q with
  | zero => rw [drain, List.eq_nil_of_length_eq_zero hn]
  | succ n ih =>
    have hne : q.heap ≠ [] := List.ne_nil_of_length_eq_add_one hn
    have hrest := ih (q := (pqPoll q).2) (by rw [pqPoll_length_eq, hn]; rfl)
    exact (hrest.cons _).trans (pqPoll_perm hne).symm

/-- What is polled later was held when an element is polled, and so is no smaller than it. -/
theorem drain_ascending {n : Nat} {q : Pq} (hn : q.heap.length = n) (hq : HeapInv q.ord q.heap) :
    (drain n q).Pairwise fun a b => less q.ord b a = false := by
  induction n generalizing q with
  | zero => exact .nil
  | succ n ih =>
    have hne : q.heap ≠ [] := List.ne_nil_of_length_eq_add_one hn
    have hlen : (pqPoll q).2.heap.length = n := by rw [pqPoll_length_eq, hn]; rfl
    refine .cons (fun x hx => ?_) (ih hlen (pqPoll_heapInv hq))
    have hleft : x ∈ (pqPoll q).2.heap := (drain_perm hlen).mem_iff.mp hx
    exact hq.root_min ((pqPoll_perm hne).mem_iff.mpr (List.mem_cons_of_mem _ hleft))

theorem drain_natural_ascending {q : Pq} (hq : HeapInv q.ord q.heap) (ho : q.ord = .natural) :
    (drain q.heap.length q).Pairwise fun a b => a.toNat ≤ b.toNat :=
  (drain_ascending rfl hq).imp fun h => notLess_natural_iff.mp (ho ▸ h)

theorem drain_key_ascending {q : Pq} (hq : HeapInv q.ord q.heap) (ho : q.ord = .key) :
    (drain q.heap.length q).Pairwise fun a b => a.toNat / 512 ≤ b.toNat / 512 :=
  (drain_ascending rfl hq).imp fun h => notLess_key_iff.mp (ho ▸ h)

/-- Under natural ordering what is held fixes the results: two ascending lists of the same numbers are the same. -/
theorem drain_natural_unique {q r : Pq} (hq : HeapInv q.ord q.heap) (hr : HeapInv r.ord r.heap) (hqo : q.ord = .natural)
    (hro : r.ord = .natural) (hqr : q.heap.Perm r.heap) : drain q.heap.length q = drain r.heap.length r :=
  List.Perm.eq_of_pairwise (fun _ _ _ _ hab hba => BitVec.eq_of_toNat_eq (Nat.le_antisymm hab hba))
    (drain_natural_ascending hq hqo) (drain_natural_ascending hr hro)
    ((drain_perm rfl).trans (hqr.trans (drain_perm rfl).symm))

/-- Settles O28: each poll takes a minimum away and leaves a heap, by induction on the number of polls. -/
theorem pollsComeOutAscending : Obligations.PollsComeOutAscending := by
  unfold Obligations.PollsComeOutAscending
  exact ⟨fun a b => ⟨less_natural_iff, less_key_iff⟩, fun q => drain_key_ascending,
    fun q hq => ⟨drain_perm rfl, drain_ascending rfl hq⟩,
    fun q r hq hr hqo hro hqr => ⟨drain_natural_unique hq hr hqo hro hqr, drain_natural_ascending hq hqo⟩⟩

end Sys2Proof.Machine
end

section
/-! PROOFS. The queue family, loops: the turn counters of `PercUp` and `PercDown` suffice, so each follows the loop of its
rule (41_pqueue.md R124, R125). -/

namespace Sys2Proof.Machine

section
variable {o : PqOrd} {m n k : Nat} {h : List Elem}

/-! ## `PercUp` -/

theorem percUpIn_of_le_one (hk : k ≤ 1) : percUpIn o n k h = h := by
  cases n with
  | zero => rfl
  | succ n => rw [percUpIn, if_neg fun hc => absurd hc.1 (Nat.not_lt.mpr hk)]

/-- The position halves at every turn, so any two counters that are at least `k` give the same heap. -/
theorem percUpIn_congr_fuel (hm : k ≤ m) (hn : k ≤ n) : percUpIn o m k h = percUpIn o n k h := by
  induction m generalizing n k h with
  | zero => rw [percUpIn_of_le_one (by omega), percUpIn_of_le_one (by omega)]
  | succ m ih =>
    obtain hk | hk : k ≤ 1 ∨ 1 < k := by omega
    · rw [percUpIn_of_le_one hk, percUpIn_of_le_one hk]
    · obtain ⟨n, rfl⟩ := Nat.exists_eq_succ_of_ne_zero (show n ≠ 0 by omega)
      rw [percUpIn, percUpIn, ih (n := n) (by omega) (by omega)]

theorem percUp_eq (o : PqOrd) (k : Nat) (h : List Elem) :
    percUp o k h =
      if k > 1 ∧ less o (heapAt h k) (heapAt h (k / 2)) = true then percUp o (k / 2) (heapSwap h k (k / 2)) else h :=
  calc
    percUp o k h = percUpIn o (k + 1) k h := percUpIn_congr_fuel (Nat.le_refl k) (Nat.le_succ k)
    _ = _ := by rw [percUpIn, percUp, percUpIn_congr_fuel (Nat.div_le_self k 2) (Nat.le_refl _)]

/-! ## `PercDown` -/

theorem percDownIn_of_no_child (hk : h.length < 2 * k) : percDownIn o n k h = h := by
  cases n with
  | zero => rfl
  | succ n => rw [percDownIn, if_neg (Nat.not_le.mpr hk)]

/-- The position grows at every turn, so any two counters that reach the end of the heap from `k` give the same heap. -/
theorem percDownIn_congr_fuel (hk : 1 ≤ k) (hm : h.length ≤ m + k) (hn : h.length ≤ n + k) :
    percDownIn o m k h = percDownIn o n k h := by
  induction m generalizing n k h with
  | zero => rw [percDownIn_of_no_child (by omega), percDownIn_of_no_child (by omega)]
  | succ m ih =>
    obtain hc | hc : h.length < 2 * k ∨ 2 * k ≤ h.length := by omega
    · rw [percDownIn_of_no_child hc, percDownIn_of_no_child hc]
    · obtain ⟨n, rfl⟩ := Nat.exists_eq_succ_of_ne_zero (show n ≠ 0 by omega)
      have hj := smallerChild_cases o k h
      have hlen := heapSwap_length h k (smallerChild o k h)
      have hturn : percDownIn o m (smallerChild o k h) (heapSwap h k (smallerChild o k h)) =
          percDownIn o n (smallerChild o k h) (heapSwap h k (smallerChild o k h)) :=
        ih (by omega) (by omega) (by omega)
      rw [percDownIn, percDownIn]
      dsimp only
      rw [hturn]

theorem percDown_eq (hk : 1 ≤ k) :
    percDown o k h =
      if 2 * k ≤ h.length then
        if less o (heapAt h (smallerChild o k h)) (heapAt h k) = true then
          percDown o (smallerChild o k h) (heapSwap h k (smallerChild o k h))
        else h
      else h := by
  have hj := smallerChild_cases o k h
  calc
    percDown o k h = percDownIn o (h.length + 1) k h := percDownIn_congr_fuel hk (by omega) (by omega)
    _ = _ := by rw [percDownIn, percDown, heapSwap_length]

end

/-- Settles O23: a loop with one turn more on its counter is the loop of the rule, and gives the same heap. -/
theorem percolationSwapsWhileStrictlyLess : Obligations.PercolationSwapsWhileStrictlyLess :=
  ⟨percUp_eq, fun _ _ _ => percDown_eq⟩

end Sys2Proof.Machine
end

section
/-! PROOFS. The queue family, commands: how each of the six PQ commands ends, from every state (41_pqueue.md R129 to
R134). -/

namespace Sys2Proof.Machine

/-! ## The words of the commands with operands (30_encoding.md R80, R82) -/

theorem setWidth_field {n lo : Nat} (v : BitVec n) (h : lo + n ≤ 56) :
    (field lo v).setWidth 64 = v.setWidth 64 <<< lo := by
  apply BitVec.eq_of_getLsbD_eq
  intro k hk
  rw [BitVec.getLsbD_setWidth, getLsbD_field, BitVec.getLsbD_shiftLeft, BitVec.getLsbD_setWidth]
  by_cases hhigh : k < 56
  · by_cases hlo : lo ≤ k
    · have hlt : k - lo < 64 := by omega
      simp [hk, hhigh, hlo, hlt]
    · simp [hk, hlo, Nat.lt_of_not_le hlo]
  · have hv : v.getLsbD (k - lo) = false := BitVec.getLsbD_of_ge _ _ (by omega)
    simp [hv]

theorem encodedAs_pqInit {ce : Bool} {cap : Word32} (h : ce = true ∨ cap = 0) (cmp : Byte) :
    EncodedAs (.pqInit ce cap cmp)
      (0x3000000000000000 ||| cmp.setWidth 64 <<< 40 ||| (BitVec.ofBool ce).setWidth 64 <<< 32 ||| cap.setWidth 64) := by
  have hop : (0x30 : BitVec 8).setWidth 64 <<< 56 = ((0x3000000000000000 : Nat) : CmdWord) := by decide
  refine encodedAs_of_encode_eq (by simpa [Instr.wf] using h) ?_
  rw [encode, Instr.opcode, Instr.arg, hop, BitVec.setWidth_or, BitVec.setWidth_or, setWidth_field cmp (by decide),
    setWidth_field _ (by decide), setWidth_field cap (by decide), BitVec.shiftLeft_zero, ← BitVec.or_assoc,
    ← BitVec.or_assoc]

theorem encodedAs_pqOffer (key : Key) (payload : Idx) :
    EncodedAs (.pqOffer key payload) (0x3100000000000000 ||| key.setWidth 64 <<< 9 ||| payload.setWidth 64) := by
  have hop : (0x31 : BitVec 8).setWidth 64 <<< 56 = ((0x3100000000000000 : Nat) : CmdWord) := by decide
  refine encodedAs_of_encode_eq rfl ?_
  rw [encode, Instr.opcode, Instr.arg, hop, BitVec.setWidth_or, setWidth_field key (by decide),
    setWidth_field payload (by decide), BitVec.shiftLeft_zero, ← BitVec.or_assoc]

/-! ## `PQ.INIT` -/

theorem ordOperand_eq_some {cmp : Byte} (h : cmp.toNat ≤ 1) :
    ordOperand cmp = some (if cmp = 0 then .natural else .key) := by
  by_cases h0 : cmp = 0
  · rw [ordOperand, if_pos h0, if_pos h0]
  · have h1 : cmp = 1 := by bv_omega
    rw [ordOperand, if_neg h0, if_pos h1, if_neg h0]

/-- With a defined ordering id, what is left of `PQ.INIT` is the test of its capacity. -/
theorem exec_pqInit {cmp : Byte} (h : cmp.toNat ≤ 1) (ce : Bool) (cap : Word32) (s : State) :
    exec (.pqInit ce cap cmp) s =
      conclude s (initCapacity s.params (capOperand ce cap) >>= fun c =>
        .ok { st := { s with pq := pqInit c (if cmp = 0 then .natural else .key) } }) := by
  change execPqInit ce cap cmp s = _
  rw [execPqInit, ordOperand_eq_some h]

section
variable {p : Params} {cap : Word32}

theorem initCapacity_nonpositive (h : cap.toInt < 1) :
    initCapacity p (capOperand true cap) = .error (.raise .invalidArgument) := if_pos h

theorem initCapacity_tooLarge (h1 : 1 ≤ cap.toInt) (h : (p.pqMax : Int) < cap.toInt) :
    initCapacity p (capOperand true cap) = .error (.raise .overflow) :=
  (if_neg (Int.not_lt.mpr h1)).trans (if_pos h)

theorem initCapacity_ok {ce : Bool} (h : ce = true → 1 ≤ cap.toInt ∧ cap.toInt ≤ p.pqMax) :
    initCapacity p (capOperand ce cap) = .ok (if ce then cap.toNat else p.pqDefaultCap) := by
  cases ce with
  | false => rfl
  | true =>
    obtain ⟨h1, hmax⟩ := h rfl
    have hsame : cap.toInt = cap.toNat :=
      BitVec.toInt_eq_toNat_of_lt (BitVec.toInt_pos_iff.mp (Int.le_trans Int.one_nonneg h1))
    calc
      initCapacity p (capOperand true cap) = .ok cap.toInt.toNat :=
        (if_neg (Int.not_lt.mpr h1)).trans (if_neg (Int.not_lt.mpr hmax))
      _ = .ok cap.toNat := by rw [hsame, Int.toNat_natCast]

end

/-- Settles O24: the ordering id is tested first, then the capacity, and only then is the queue written. -/
theorem pqInitSetsEmptyQueue : Obligations.PqInitSetsEmptyQueue := by
  unfold Obligations.PqInitSetsEmptyQueue
  refine ⟨fun _ _ cmp h => encodedAs_pqInit h cmp, fun s ce cap cmp =>
    ⟨fun hcmp => ?undefined, ?nonpositive, ?tooLarge, ?done⟩⟩
  case undefined => exact faultsWith_of_exec (exec_pqInit_of_undefined_cmp hcmp ce cap s)
  case nonpositive =>
    rintro hcmp rfl hcap
    exact faultsWith_of_exec ((exec_pqInit hcmp _ _ s).trans (conclude_bind_raise (initCapacity_nonpositive hcap)))
  case tooLarge =>
    rintro hcmp rfl h1 hmax
    exact faultsWith_of_exec ((exec_pqInit hcmp _ _ s).trans (conclude_bind_raise (initCapacity_tooLarge h1 hmax)))
  case done =>
    intro hcmp hcap
    exact (exec_pqInit hcmp _ _ s).trans (conclude_bind_ok (initCapacity_ok hcap))

/-! ## `PQ.OFFER` -/

section
variable {m : Nat} {el : Elem} {q : Pq}

theorem pqOffer_ok (h : q.heap.length = q.cap → 2 * q.cap ≤ m) :
    pqOffer m el q =
      .ok { heap := percUp q.ord (q.heap.length + 1) (q.heap ++ [el])
            cap := if q.heap.length = q.cap then 2 * q.cap else q.cap
            ord := q.ord } := by
  cases hq : pqOffer m el q with
  | error e =>
    obtain ⟨-, hfull, hmax⟩ := pqOffer_error hq
    exact absurd hmax (Nat.not_lt.mpr (h hfull))
  | ok q' =>
    obtain ⟨heap, cap, ord⟩ := q'
    obtain ⟨hheap, hord, ⟨hfull, hcap⟩ | ⟨hfull, hcap, -⟩⟩ := pqOffer_cases hq
    · rw [if_neg hfull, ← hheap, ← hord, ← hcap]
    · rw [if_pos hfull, ← hheap, ← hord, ← hcap]

theorem pqOffer_overflow (hfull : q.heap.length = q.cap) (hmax : m < 2 * q.cap) :
    pqOffer m el q = .error (.raise .overflow) := by
  cases hq : pqOffer m el q with
  | error e => rw [(pqOffer_error hq).1]
  | ok q' =>
    obtain ⟨-, -, ⟨hne, -⟩ | ⟨-, -, hle⟩⟩ := pqOffer_cases hq
    · exact absurd hfull hne
    · exact absurd hmax (Nat.not_lt.mpr hle)

end

theorem exec_pqOffer_nil (key : Key) (s : State) :
    exec (.pqOffer key NIL) s = .next (enterFault .nullElement s) := by
  change execPqOffer key NIL s = _
  rw [execPqOffer, if_pos (elemPayload_elemOf key NIL)]
  rfl

/-- With a payload, `PQ.OFFER` is `PqOffer(el)` and the result 1. -/
theorem exec_pqOffer {payload : Idx} (h : payload ≠ NIL) (key : Key) (s : State) :
    exec (.pqOffer key payload) s =
      conclude s (pqOffer s.params.pqMax (elemOf key payload) s.pq >>= fun q =>
        .ok { st := { s with pq := q }, res := 1 }) := by
  change execPqOffer key payload s = _
  rw [execPqOffer, if_neg ((elemPayload_elemOf key payload).trans_ne h)]

/-- Settles O25: the payload is tested before `PqOffer(el)`, which raises only where it must grow and cannot. -/
theorem pqOfferInsertsElement : Obligations.PqOfferInsertsElement := by
  unfold Obligations.PqOfferInsertsElement
  refine ⟨encodedAs_pqOffer, fun s key payload =>
    ⟨?null, fun hpay hfull hmax => ?overflow, fun hpay hroom => ?done⟩⟩
  case null =>
    rintro rfl
    exact faultsWith_of_exec (exec_pqOffer_nil key s)
  case overflow =>
    exact faultsWith_of_exec ((exec_pqOffer hpay key s).trans (conclude_bind_raise (pqOffer_overflow hfull hmax)))
  case done =>
    have hoffer := pqOffer_ok (el := elemOf key payload) hroom
    exact ⟨(exec_pqOffer hpay key s).trans (conclude_bind_ok hoffer), pqOffer_perm hoffer, percUp_heapInv _⟩

/-! ## `PQ.POLL` -/

theorem exec_pqPoll_empty {s : State} (h : s.pq.heap = []) : exec .pqPoll s = .next (completed s 0 true) := by
  change execPqPoll s = _
  rw [execPqPoll, if_pos (List.length_eq_zero_iff.mpr h)]
  rfl

theorem exec_pqPoll {s : State} (h : s.pq.heap ≠ []) :
    exec .pqPoll s = .next (completed { s with pq := (pqPoll s.pq).2 } ((pqPoll s.pq).1.setWidth 64) false) := by
  change execPqPoll s = _
  rw [execPqPoll, if_neg (List.length_eq_zero_iff.not.mpr h)]
  rfl

theorem pqPoll_of_cons {q : Pq} {m : Elem} {tl : List Elem} (h : q.heap = m :: tl) :
    pqPoll q = (m, { q with heap := percDown q.ord 1 ((heapAt q.heap q.heap.length :: tl).dropLast) }) := by
  rw [pqPoll, h]
  rfl

/-- Settles O26: `PqPoll()` takes the root of the heap away, of which no element held is less. -/
theorem pqPollRemovesMinimum : Obligations.PqPollRemovesMinimum := by
  unfold Obligations.PqPollRemovesMinimum
  refine ⟨encodedAs_of_encode_eq rfl (by decide), fun s => ⟨exec_pqPoll_empty, fun m tl h => ?taken⟩⟩
  case taken =>
    have hne : s.pq.heap ≠ [] := by simp [h]
    have hpoll := pqPoll_of_cons h
    have hexec := exec_pqPoll hne
    have hperm := pqPoll_perm hne
    have hinv := pqPoll_heapInv (q := s.pq)
    rw [hpoll] at hexec hperm hinv
    have hroot : heapAt s.pq.heap 1 = m := by rw [h]; rfl
    exact ⟨hexec, hperm, fun hq => ⟨hinv hq, fun x hx => hroot ▸ hq.root_min hx⟩⟩

/-! ## Queries -/

theorem exec_pqPeek_empty {s : State} (h : s.pq.heap = []) : exec .pqPeek s = .next (completed s 0 true) := by
  change execPqPeek s = _
  rw [execPqPeek, if_pos (List.length_eq_zero_iff.mpr h)]
  rfl

theorem exec_pqPeek_of_cons {s : State} {m : Elem} {tl : List Elem} (h : s.pq.heap = m :: tl) :
    exec .pqPeek s = .next (completed s (m.setWidth 64) false) := by
  change execPqPeek s = _
  rw [execPqPeek, h]
  rfl

theorem exec_pqCmp_natural {s : State} (h : s.pq.ord = .natural) : exec .pqCmp s = .next (completed s 0 true) := by
  change execPqCmp s = _
  rw [execPqCmp, h]
  rfl

theorem exec_pqCmp_key {s : State} (h : s.pq.ord = .key) : exec .pqCmp s = .next (completed s 1 false) := by
  change execPqCmp s = _
  rw [execPqCmp, h]
  rfl

/-- Settles O27: no query raises or writes the queue; the size is the count of its length register. -/
theorem pqQueriesReadTheQueue : Obligations.PqQueriesReadTheQueue := by
  unfold Obligations.PqQueriesReadTheQueue
  refine ⟨encodedAs_of_encode_eq rfl (by decide), encodedAs_of_encode_eq rfl (by decide),
    encodedAs_of_encode_eq rfl (by decide), fun s =>
      ⟨exec_pqPeek_empty, fun _ _ => exec_pqPeek_of_cons, ?size, exec_pqCmp_natural, exec_pqCmp_key⟩⟩
  case size => exact ⟨resLen s.pq.heap.length, rfl, resLen_toNat⟩

end Sys2Proof.Machine
end

section
/-! PROOFS. The Move-to-Front family, steps: the list after a step, entry by entry, and that the forward and the inverse step
on one list undo each other (42_mtf.md R140 to R142). -/

namespace Sys2Proof.Machine

/-! ## The initial list -/

theorem mtfInit_toList : mtfInit.toList = allSyms := by
  rw [mtfInit, Vector.toList, List.toList_toArray]

theorem mtfInit_nodup : mtfInit.toList.Nodup := mtfInit_toList ▸ allSyms_nodup

@[simp] theorem tabGet_mtfInit (a : Byte) : tabGet mtfInit a = a := by
  simp [tabGet, mtfInit, allSyms]

section
variable {l : Table Byte}

/-! ## Moving an entry to the front -/

theorem toNat_lt_toList_length (l : Table Byte) (p : Byte) : p.toNat < l.toList.length := by
  simpa using p.isLt

theorem tabGet_eq_toList_getElem (l : Table Byte) (p : Byte) :
    tabGet l p = l.toList[p.toNat]'(toNat_lt_toList_length l p) := by
  simp [tabGet]

theorem mtfMove_toList (p b : Byte) :
    (mtfMove l p b).toList = b :: (l.toList.take p.toNat ++ l.toList.drop (p.toNat + 1)) := by
  rw [mtfMove, Vector.toList, List.toList_toArray, List.cons_append]

theorem tabGet_mtfMove_zero (p b : Byte) : tabGet (mtfMove l p b) 0 = b := by
  simp [tabGet_eq_toList_getElem, mtfMove_toList]

/-- The entries before `p` move back by one. -/
theorem tabGet_mtfMove_of_le {p i : Byte} (b : Byte) (h1 : 1 ≤ i.toNat) (hp : i.toNat ≤ p.toNat) :
    tabGet (mtfMove l p b) i = tabGet l (i - 1) := by
  have hlt : i.toNat - 1 < (l.toList.take p.toNat).length := by
    have := toNat_lt_toList_length l p
    rw [List.length_take]
    omega
  have hpred : (i - 1).toNat = i.toNat - 1 := BitVec.toNat_sub_of_le h1
  simp only [tabGet_eq_toList_getElem, mtfMove_toList, hpred]
  rw [List.getElem_cons, dif_neg (by omega), List.getElem_append_left hlt, List.getElem_take]

/-- The entries after `p` stay. -/
theorem tabGet_mtfMove_of_lt {p i : Byte} (b : Byte) (h : p.toNat < i.toNat) : tabGet (mtfMove l p b) i = tabGet l i := by
  have hlen : (l.toList.take p.toNat).length = p.toNat :=
    List.length_take_of_le (toNat_lt_toList_length l p).le
  simp only [tabGet_eq_toList_getElem, mtfMove_toList]
  rw [List.getElem_cons, dif_neg (by omega), List.getElem_append_right (by omega), List.getElem_drop]
  congr 1
  omega

/-- Moving the entry at `p` to the front only reorders the list. -/
theorem mtfMove_perm (l : Table Byte) (p : Byte) : (mtfMove l p (tabGet l p)).toList.Perm l.toList := by
  rw [mtfMove_toList]
  refine List.perm_middle.symm.trans (.of_eq ?_)
  rw [tabGet_eq_toList_getElem, List.getElem_cons_drop, List.take_append_drop]

/-! ## Ranks on a list without repeats -/

/-- A list without repeats is a permutation of 0..255 (10_state.md R33). -/
theorem perm_allSyms_of_nodup (hl : l.toList.Nodup) : l.toList.Perm allSyms :=
  (List.subperm_of_subset hl fun b _ => mem_allSyms b).perm_of_length_le (by simp [allSyms])

theorem exists_tabGet_eq (hl : l.toList.Nodup) (b : Byte) : ∃ p, tabGet l p = b := by
  obtain ⟨i, hi, rfl⟩ := List.getElem_of_mem ((perm_allSyms_of_nodup hl).mem_iff.mpr (mem_allSyms b))
  have hlt : i < 256 := by simpa using hi
  exact ⟨BitVec.ofNat 8 i, by simp [tabGet, Nat.mod_eq_of_lt hlt]⟩

theorem mtfFind_tabGet (hl : l.toList.Nodup) (p : Byte) : mtfFind l (tabGet l p) = p := by
  rw [mtfFind, tabGet_eq_toList_getElem, hl.idxOf_getElem, BitVec.ofNat_toNat, BitVec.setWidth_eq]

theorem tabGet_mtfFind (hl : l.toList.Nodup) (b : Byte) : tabGet l (mtfFind l b) = b := by
  obtain ⟨p, rfl⟩ := exists_tabGet_eq hl b
  rw [mtfFind_tabGet hl]

/-! ## The two steps -/

/-- The forward step on the symbol at `p` changes the list as the inverse step at `p` does (R142). -/
theorem mtfEnc_mtfDec (hl : l.toList.Nodup) (p : Byte) : mtfEnc l (mtfDec l p).1 = (p, (mtfDec l p).2) := by
  have hfind : mtfFind l (mtfDec l p).1 = p := mtfFind_tabGet hl p
  rw [mtfEnc, hfind]
  rfl

theorem mtfDec_mtfEnc (hl : l.toList.Nodup) (b : Byte) : mtfDec l (mtfEnc l b).1 = (b, (mtfEnc l b).2) := by
  have hget : tabGet l (mtfEnc l b).1 = b := tabGet_mtfFind hl b
  rw [mtfDec, hget]
  rfl

theorem mtfDec_nodup (hl : l.toList.Nodup) (p : Byte) : (mtfDec l p).2.toList.Nodup :=
  (mtfMove_perm l p).nodup_iff.mpr hl

theorem mtfEnc_nodup (hl : l.toList.Nodup) (b : Byte) : (mtfEnc l b).2.toList.Nodup := by
  have h := mtfDec_nodup hl (mtfEnc l b).1
  rwa [mtfDec_mtfEnc hl] at h

/-- The symbol in front has rank 0, and its step leaves the list (R141). -/
theorem mtfEnc_front (hl : l.toList.Nodup) : mtfEnc l (tabGet l 0) = (0, l) := by
  have hmove : mtfMove l 0 (tabGet l 0) = l := table_ext fun i => by
    by_cases hi : i = 0
    · rw [hi, tabGet_mtfMove_zero]
    · exact tabGet_mtfMove_of_lt _ (Nat.pos_of_ne_zero fun h => hi (BitVec.eq_of_toNat_eq h))
  exact (mtfEnc_mtfDec hl 0).trans (congrArg _ hmove)

end

/-- Settles O30: on a permutation of 0..255 the rank of a symbol is the one position that holds it, and both steps move
the entry at that position to the front. -/
theorem mtfStepsMoveToFront : Obligations.MtfStepsMoveToFront := by
  unfold Obligations.MtfStepsMoveToFront
  refine ⟨tabGet_mtfInit, fun l hl => ⟨fun b => ⟨tabGet_mtfFind hl b, ?unique, mtfEnc_nodup hl b, tabGet_mtfMove_zero _ b,
    fun _ => tabGet_mtfMove_of_le b, fun _ => tabGet_mtfMove_of_lt b⟩, fun p => ?inverse⟩⟩
  case unique =>
    rintro q rfl
    exact (mtfFind_tabGet hl q).symm
  case inverse =>
    have hlist : (mtfEnc l (mtfDec l p).1).2 = (mtfDec l p).2 := by rw [mtfEnc_mtfDec hl]
    exact congrArg (Prod.mk (tabGet l p)) hlist.symm

end Sys2Proof.Machine
end

section
/-! PROOFS. The Move-to-Front family, runs: the transforms of a whole input are inverse to each other, by induction on the
input from any list without repeats (42_mtf.md R143, R144, R147). -/

namespace Sys2Proof.Machine

theorem mtfRun_cons (f : Table Byte → Byte → Byte × Table Byte) (l : Table Byte) (b : Byte) (x : List Byte) :
    mtfRun f l (b :: x) = ((f l b).1 :: (mtfRun f (f l b).2 x).1, (mtfRun f (f l b).2 x).2) := rfl

section
variable {f g : Table Byte → Byte → Byte × Table Byte} (hkeep : ∀ l, l.toList.Nodup → ∀ b, (f l b).2.toList.Nodup)
include hkeep

/-- Where each step keeps a list free of repeats, so does a run. -/
theorem mtfRun_nodup {l : Table Byte} (hl : l.toList.Nodup) (x : List Byte) : (mtfRun f l x).2.toList.Nodup := by
  induction x generalizing l with
  | nil => exact hl
  | cons b x ih => exact ih (hkeep l hl b)

/-- Where each step of `f` is undone by the step of `g` on the same list, a run of `f` is undone by a run of `g`. -/
theorem mtfRun_undone (hundo : ∀ l, l.toList.Nodup → ∀ b, g l (f l b).1 = (b, (f l b).2)) {l : Table Byte}
    (hl : l.toList.Nodup) (x : List Byte) : (mtfRun g l (mtfRun f l x).1).1 = x := by
  induction x generalizing l with
  | nil => rfl
  | cons b x ih => rw [mtfRun_cons f, mtfRun_cons g, hundo l hl b, ih (hkeep l hl b)]

end

theorem mtfInv_mtfFwd (x : List Byte) : mtfInv (mtfFwd x) = x :=
  mtfRun_undone (fun _ => mtfEnc_nodup) (fun _ => mtfDec_mtfEnc) mtfInit_nodup x

theorem mtfFwd_mtfInv (y : List Byte) : mtfFwd (mtfInv y) = y :=
  mtfRun_undone (fun _ => mtfDec_nodup) (fun _ => mtfEnc_mtfDec) mtfInit_nodup y

/-- Settles O32: the forward and the inverse step on one list without repeats undo each other, and both keep it so. -/
theorem mtfRoundTrip : Obligations.MtfRoundTrip := fun x =>
  ⟨mtfInv_mtfFwd x, mtfFwd_mtfInv x, mtfRun_length mtfEnc mtfInit x, mtfRun_length mtfDec mtfInit x⟩

end Sys2Proof.Machine
end

section
/-! PROOFS. The Move-to-Front family, commands: `MTF.FWD` and `MTF.INV` write the run of one step function on all of `IN`
(42_mtf.md R143 to R146). -/

namespace Sys2Proof.Machine

/-! ## Runs, a byte at a time -/

/-- One more byte of input is one more output, of the step on the list that the input before it left. -/
theorem mtfRun_concat (f : Table Byte → Byte → Byte × Table Byte) (x : List Byte) (b : Byte) :
    (mtfRun f mtfInit (x ++ [b])).1 = (mtfRun f mtfInit x).1 ++ [(f (mtfListAfter f x) b).1] := by
  rw [mtfRun_append, mtfListAfter_eq]
  rfl

theorem mtfFwd_head? (x : List Byte) (b : Byte) : (mtfFwd (b :: x)).head? = some b := by
  have h := mtfFind_tabGet mtfInit_nodup b
  rw [tabGet_mtfInit] at h
  exact congrArg some h

/-- The symbol in front repeated gives zeros and leaves the list. -/
theorem mtfRun_replicate_front {l : Table Byte} (hl : l.toList.Nodup) (n : Nat) :
    mtfRun mtfEnc l (List.replicate n (tabGet l 0)) = (List.replicate n 0, l) := by
  induction n with
  | zero => rfl
  | succ n ih => rw [List.replicate_succ, mtfRun_cons, mtfEnc_front hl, ih, List.replicate_succ]

theorem mtfFwd_repeat (x : List Byte) (b : Byte) (n : Nat) :
    mtfFwd (x ++ b :: List.replicate n b) = mtfFwd (x ++ [b]) ++ List.replicate n 0 := by
  have hfront : tabGet (mtfRun mtfEnc mtfInit (x ++ [b])).2 0 = b := by
    rw [mtfRun_append]
    exact tabGet_mtfMove_zero _ b
  have hzeros := mtfRun_replicate_front (mtfRun_nodup (fun _ => mtfEnc_nodup) mtfInit_nodup (x ++ [b])) n
  rw [hfront] at hzeros
  rw [List.append_cons, mtfFwd, mtfRun_append, hzeros, mtfFwd]

/-! ## Writing a byte sequence -/

section
variable {s : State} {vs : List Byte}

theorem wrBytes_ok_appends (h : Room s (8 * vs.length)) :
    ∃ w, wrBytes s.params.outCap s.bsw vs = .ok w ∧ Appends s.bsw w (vs.flatMap bitsMsb) := by
  rw [wrBytes_eq_wrBits]
  rw [← flatMap_bits_length] at h
  obtain ⟨w, hw⟩ := wrBits_ok (vs.flatMap bitsMsb) h
  exact ⟨w, hw, wrBits_appends hw⟩

theorem wrBytes_overflow (hs : Memory.wf s = true) (h : ¬ Room s (8 * vs.length)) :
    wrBytes s.params.outCap s.bsw vs = .error (.raise .overflow) := by
  rw [wrBytes_eq_wrBits]
  rw [← flatMap_bits_length] at h
  cases hw : wrBits s.params.outCap s.bsw (vs.flatMap bitsMsb) with
  | ok w => exact absurd (wrBits_room _ (memory_wf_iff.mp hs).2 hw) h
  | error e => rw [wrBits_error _ hw]

end

/-! ## The two commands -/

/-- `s` after the run of `f` on `IN`, written to `w`: the cursor at the end, `MTFL` scratch. -/
def transformed (f : Table Byte → Byte → Byte × Table Byte) (s : State) (w : Bsw) : State :=
  dropMtfl { s with bsr := s.bsr.atEnd, bsw := w, mtf := { mtfl := (mtfRun f mtfInit s.bsr.inp).2 } }

/-- `i` is the command that writes the run of `f` on `IN`. -/
def WritesRun (i : Instr) (f : Table Byte → Byte → Byte × Table Byte) : Prop :=
  ∀ s, exec i s = conclude s
    (wrBytes s.params.outCap s.bsw (mtfRun f mtfInit s.bsr.inp).1 >>= fun w => .ok { st := transformed f s w })

theorem mtfFwd_writesRun : WritesRun .mtfFwd mtfEnc := fun _ => rfl

theorem mtfInv_writesRun : WritesRun .mtfInv mtfDec := fun _ => rfl

section
variable {i : Instr} {f : Table Byte → Byte → Byte × Table Byte} {s : State}

theorem WritesRun.exec_ok (hi : WritesRun i f) (h : Room s (8 * s.bsr.inp.length)) :
    ∃ w m n, exec i s =
        .next (completed
          { s with bsr := { s.bsr with rpos := 8 * s.bsr.inp.length }, bsw := w, mtf := m, stamp := n } 0 false)
      ∧ Appends s.bsw w ((mtfRun f mtfInit s.bsr.inp).1.flatMap bitsMsb) := by
  rw [← mtfRun_length f mtfInit] at h
  obtain ⟨w, hw, happ⟩ := wrBytes_ok_appends h
  exact ⟨w, _, _, (hi s).trans (conclude_bind_ok hw), happ⟩

theorem WritesRun.overflow (hi : WritesRun i f) (hs : Memory.wf s = true) (h : ¬ Room s (8 * s.bsr.inp.length)) :
    FaultsWith i s .overflow := by
  rw [← mtfRun_length f mtfInit] at h
  exact faultsWith_of_exec ((hi s).trans (conclude_bind_raise (wrBytes_overflow hs h)))

end

/-- Settles O31: each command writes the run of its step function, which has an output per input byte; the symbol just
ranked is in front, so a repeated one has rank 0. -/
theorem mtfCommandsWriteTransform : Obligations.MtfCommandsWriteTransform := by
  unfold Obligations.MtfCommandsWriteTransform
  refine ⟨encodedAs_of_encode_eq rfl (by decide), encodedAs_of_encode_eq rfl (by decide), rfl, rfl, mtfRun_concat mtfEnc,
    mtfRun_concat mtfDec, mtfFwd_head?, mtfFwd_repeat, fun s => ⟨fun h => ?completes, fun hs h => ?overflows⟩⟩
  case completes => exact ⟨mtfFwd_writesRun.exec_ok h, mtfInv_writesRun.exec_ok h⟩
  case overflows => exact ⟨mtfFwd_writesRun.overflow hs h, mtfInv_writesRun.overflow hs h⟩

end Sys2Proof.Machine
end

section
/-! PROOFS. The Burrows-Wheeler family, sorting: the two comparators order indices by keys in a linear order, so that their
sorted tables are unique (43_bwt.md R151, R152, R155). -/

namespace Sys2Proof.Machine

/-! ## Sorting by a key -/

/-- Insertion sort by an injective key gives the one permutation of a list without repeats in which the keys ascend. -/
theorem eq_insertionSort_iff {β : Type} [LinearOrder β] {key : Nat → β} (hinj : key.Injective) {r : Nat → Nat → Prop}
    [DecidableRel r] (hr : ∀ i j, r i j ↔ key i ≤ key j) {l t : List Nat} (hl : l.Nodup) :
    (t.Perm l ∧ t.Pairwise (fun i j => key i < key j)) ↔ t = l.insertionSort r := by
  have htotal : Std.Total r := ⟨fun i j => by simpa only [hr] using le_total (key i) (key j)⟩
  have htrans : IsTrans Nat r := ⟨fun i j k => by simpa only [hr] using le_trans⟩
  have hanti : Std.Antisymm r := ⟨fun i j hij hji => hinj (le_antisymm ((hr i j).mp hij) ((hr j i).mp hji))⟩
  have hperm := List.perm_insertionSort r l
  have hsorted := List.pairwise_insertionSort r l
  constructor
  · rintro ⟨ht, hlt⟩
    exact (ht.trans hperm.symm).eq_of_pairwise' (hlt.imp fun h => (hr _ _).mpr h.le) hsorted
  · rintro rfl
    refine ⟨hperm, (hsorted.and (hperm.nodup_iff.mpr hl)).imp ?_⟩
    rintro i j ⟨hle, hne⟩
    exact ((hr i j).mp hle).lt_of_ne (hinj.ne hne)

/-! ## Rotations -/

section
variable (x : List Byte)

theorem rotByte_add (i t u : Nat) : rotByte x i (t + u) = rotByte x (i + t) u := by
  rw [rotByte, rotByte, Nat.add_assoc]

@[simp] theorem rotByte_add_length (i t : Nat) : rotByte x (i + x.length) t = rotByte x i t := by
  rw [rotByte, rotByte, Nat.add_right_comm, Nat.add_mod_right]

@[simp] theorem rotByte_index_mod (i t : Nat) : rotByte x (i % x.length) t = rotByte x i t := by
  rw [rotByte, rotByte, Nat.mod_add_mod]

@[simp] theorem rotByte_mod_length (i t : Nat) : rotByte x i (t % x.length) = rotByte x i t := by
  rw [rotByte, rotByte, Nat.add_mod_mod]

theorem getElem?_rotation {x : List Byte} (hx : x ≠ []) (i t : Nat) :
    x[(i + t) % x.length]? = some (rotByte x i t) := by
  have hlt := Nat.mod_lt (i + t) (List.length_pos_iff.mpr hx)
  rw [rotByte, List.getD_eq_getElem _ _ hlt, List.getElem?_eq_getElem hlt]

/-- The infinite repetition of the block from position `i` on, as unsigned numbers, under the lexicographic order (R150). -/
def rotRow (i : Nat) : Lex (Nat → Nat) := toLex fun t => (rotByte x i t).toNat

theorem rotRow_eq_iff {i j : Nat} : rotRow x i = rotRow x j ↔ ∀ t, rotByte x i t = rotByte x j t := by
  simp only [rotRow, toLex_inj, funext_iff, BitVec.toNat_inj]

theorem rotRow_lt_iff {i j : Nat} : rotRow x i < rotRow x j ↔
    ∃ t, (∀ u, u < t → rotByte x i u = rotByte x j u) ∧ (rotByte x i t).toNat < (rotByte x j t).toNat := by
  simp only [← BitVec.toNat_inj]
  rfl

@[simp] theorem rotRow_index_mod (i : Nat) : rotRow x (i % x.length) = rotRow x i := by
  simp [rotRow]

@[simp] theorem rotRow_add_length (i : Nat) : rotRow x (i + x.length) = rotRow x i := by
  simp [rotRow]

/-- Two rotations in order, with bytes in order put before them, are in order. -/
theorem rotRow_le_of_head {i j : Nat} (h : (rotByte x i 0).toNat < (rotByte x j 0).toNat ∨
    (rotByte x i 0 = rotByte x j 0 ∧ rotRow x (i + 1) ≤ rotRow x (j + 1))) : rotRow x i ≤ rotRow x j := by
  by_contra hlt
  obtain ⟨t, hagree, ht⟩ := (rotRow_lt_iff x).mp (not_le.mp hlt)
  rcases h with h | ⟨heq, htail⟩
  · cases t with
    | zero => exact absurd ht h.not_gt
    | succ t => exact h.ne' (congrArg _ (hagree 0 t.succ_pos))
  · cases t with
    | zero => exact ht.ne' (congrArg _ heq)
    | succ t =>
      refine htail.not_gt ((rotRow_lt_iff x).mpr ⟨t, fun u hu => ?_, ?_⟩)
      · have := hagree (1 + u) (by omega)
        rwa [rotByte_add, rotByte_add] at this
      · rwa [Nat.add_comm, rotByte_add, rotByte_add] at ht

/-! ## The comparator -/

/-- The comparison from byte `t` on: the first of `m` byte pairs that differ decides, or else the index. -/
theorem rotLessFrom_iff (i j t m : Nat) : rotLessFrom x i j t m = true ↔
    (∃ u, u < m ∧ (∀ v, v < u → rotByte x i (t + v) = rotByte x j (t + v))
      ∧ (rotByte x i (t + u)).toNat < (rotByte x j (t + u)).toNat)
    ∨ ((∀ u, u < m → rotByte x i (t + u) = rotByte x j (t + u)) ∧ i < j) := by
  induction m generalizing t with
  | zero => simp [rotLessFrom]
  | succ m ih =>
    have hshift : ∀ k u, rotByte x k (t + 1 + u) = rotByte x k (t + (u + 1)) := fun k u => by
      rw [Nat.add_right_comm, Nat.add_assoc]
    simp only [rotLessFrom, BitVec.lt_def, Nat.exists_lt_succ_left, Nat.forall_lt_succ_left, Nat.add_zero]
    rcases lt_trichotomy (rotByte x i t).toNat (rotByte x j t).toNat with h | h | h
    · simp [h]
    · simp [BitVec.toNat_inj.mp h, ih, hshift]
    · have hne : rotByte x i t ≠ rotByte x j t := fun e => h.ne' (congrArg _ e)
      simp [h, h.not_gt, hne]

theorem rotLess_iff (i j : Nat) : rotLess x i j = true ↔
    (∃ t, t < x.length ∧ (∀ u, u < t → rotByte x i u = rotByte x j u)
      ∧ (rotByte x i t).toNat < (rotByte x j t).toNat)
    ∨ ((∀ u, u < x.length → rotByte x i u = rotByte x j u) ∧ i < j) := by
  simpa [rotLess] using rotLessFrom_iff x i j 0 x.length

/-- Rotations that agree on `n` bytes agree on every byte: the bound of R160 loses nothing. -/
theorem rotByte_eq_of_agree {x : List Byte} {i j : Nat}
    (h : ∀ u, u < x.length → rotByte x i u = rotByte x j u) (t : Nat) : rotByte x i t = rotByte x j t := by
  rcases x.length.eq_zero_or_pos with hx | hx
  · rw [List.length_eq_zero_iff.mp hx]
    rfl
  · rw [← rotByte_mod_length x i, h _ (Nat.mod_lt t hx), rotByte_mod_length]

/-- What `rot_less` orders by: the rotation, then the index. -/
def rotKey (i : Nat) : Lex (Nat → Nat) ×ₗ Nat := toLex (rotRow x i, i)

theorem rotKey_injective : (rotKey x).Injective := fun _ _ h => (Prod.mk.inj (toLex.injective h)).2

theorem rotLess_iff_key (i j : Nat) : rotLess x i j = true ↔ rotKey x i < rotKey x j := by
  rw [rotLess_iff, rotKey, rotKey, Prod.Lex.toLex_lt_toLex, rotRow_lt_iff, rotRow_eq_iff]
  refine or_congr ⟨?_, ?_⟩ (and_congr_left' ⟨rotByte_eq_of_agree, fun h u _ => h u⟩)
  · rintro ⟨t, -, ht⟩
    exact ⟨t, ht⟩
  · rintro ⟨t, hagree, hlt⟩
    refine ⟨t, ?_, hagree, hlt⟩
    by_contra hge
    exact hlt.ne (congrArg _ (rotByte_eq_of_agree (fun u hu => hagree u (by omega)) t))

theorem rotLess_eq_false_iff (i j : Nat) : rotLess x j i = false ↔ rotKey x i ≤ rotKey x j := by
  rw [← not_lt, ← rotLess_iff_key, Bool.not_eq_true]

/-- `ROT` is the one permutation of the indices whose keys ascend (R152). -/
theorem eq_rotTable_iff (r : List Nat) :
    (r.Perm (List.range x.length) ∧ r.Pairwise (fun i j => rotKey x i < rotKey x j)) ↔ r = rotTable x :=
  eq_insertionSort_iff (rotKey_injective x) (fun i j => rotLess_eq_false_iff x i j) List.nodup_range

end

/-- Settles O33: `rot_less` orders the indices by rotation and index, which is a linear order. -/
theorem rotTableIsTheSortedPermutation : Obligations.RotTableIsTheSortedPermutation := by
  refine fun x => ⟨fun i t hx => getElem?_rotation hx i t, fun i j _ _ => rotLess_iff x i j, fun i j _ _ hne => ?total,
    fun i j k _ _ _ hij hjk => ?trans, fun r => ?unique⟩
  case total =>
    rw [rotLess_iff_key, rotLess_eq_false_iff]
    exact ((rotKey_injective x).ne hne).le_iff_lt.symm
  case trans =>
    rw [rotLess_iff_key] at hij hjk ⊢
    exact hij.trans hjk
  case unique => simpa only [rotLess_iff_key] using eq_rotTable_iff x r

/-! ## The order of `NEXT` -/

section
variable (l : List Byte)

/-- What the positions of the last column are ordered by: the byte, unsigned, then the position. -/
def posKey (i : Nat) : Nat ×ₗ Nat := toLex ((l.getD i 0).toNat, i)

theorem posKey_injective : (posKey l).Injective := fun _ _ h => (Prod.mk.inj (toLex.injective h)).2

theorem posKey_lt_iff {i j : Nat} : posKey l i < posKey l j ↔
    (l.getD i 0).toNat < (l.getD j 0).toNat ∨ (l.getD i 0 = l.getD j 0 ∧ i < j) := by
  rw [posKey, posKey, Prod.Lex.toLex_lt_toLex, BitVec.toNat_inj]

theorem posLe_iff_key (i j : Nat) : posLe l i j = true ↔ posKey l i ≤ posKey l j := by
  rw [posKey, posKey, Prod.Lex.toLex_le_toLex]
  simp only [posLe, BitVec.lt_def]
  generalize l.getD i 0 = a, l.getD j 0 = b
  rcases lt_trichotomy a.toNat b.toNat with h | h | h
  · simp [h]
  · simp [h]
  · simp [h, h.not_gt, h.ne']

/-- `NEXT` is the one permutation of the positions whose keys ascend (R155). -/
theorem eq_nextTable_iff (r : List Nat) :
    (r.Perm (List.range l.length) ∧ r.Pairwise (fun i j => posKey l i < posKey l j)) ↔ r = nextTable l :=
  eq_insertionSort_iff (posKey_injective l) (posLe_iff_key l) List.nodup_range

end

/-- Settles O35: a position sorts by its byte and then by itself, which is a linear order. -/
theorem nextTableIsTheStableSort : Obligations.NextTableIsTheStableSort := fun l r => by
  simpa only [posKey_lt_iff] using eq_nextTable_iff l r

end Sys2Proof.Machine
end

section
/-! PROOFS. The Burrows-Wheeler family, the transforms: the last column permutes the block, and the walk over `NEXT` reads
rotation 0 off the sorted rotations (43_bwt.md R153 to R156, R159). -/

namespace Sys2Proof.Machine

/-! ## The two tables -/

section
variable (x l : List Byte)

theorem rotTable_perm : (rotTable x).Perm (List.range x.length) := ((eq_rotTable_iff x _).mpr rfl).1

theorem rotTable_ascends : (rotTable x).Pairwise (fun i j => rotKey x i < rotKey x j) := ((eq_rotTable_iff x _).mpr rfl).2

theorem nextTable_perm : (nextTable l).Perm (List.range l.length) := ((eq_nextTable_iff l _).mpr rfl).1

theorem nextTable_ascends : (nextTable l).Pairwise (fun i j => posKey l i < posKey l j) :=
  ((eq_nextTable_iff l _).mpr rfl).2

@[simp] theorem rotTable_length : (rotTable x).length = x.length := by simpa using (rotTable_perm x).length_eq

@[simp] theorem nextTable_length : (nextTable l).length = l.length := by simpa using (nextTable_perm l).length_eq

end

theorem nextTable_getD_lt {l : List Byte} {p : Nat} (hp : p < l.length) : (nextTable l).getD p 0 < l.length := by
  have hp' : p < (nextTable l).length := by rwa [nextTable_length]
  rw [List.getD_eq_getElem _ _ hp']
  exact List.mem_range.mp ((nextTable_perm l).mem_iff.mp (List.getElem_mem hp'))

/-! ## The index -/

section
variable {x : List Byte} (hx : x ≠ [])
include hx

theorem zero_mem_rotTable : 0 ∈ rotTable x :=
  (rotTable_perm x).mem_iff.mpr (List.mem_range.mpr (List.length_pos_iff.mpr hx))

theorem rotIndex_lt : rotIndex (rotTable x) < x.length :=
  rotTable_length x ▸ List.idxOf_lt_length_of_mem (zero_mem_rotTable hx)

/-- The index is where `ROT` holds rotation 0 (R153). -/
theorem rotTable_getElem?_rotIndex : (rotTable x)[rotIndex (rotTable x)]? = some 0 :=
  List.getElem?_idxOf (zero_mem_rotTable hx)

end

/-! ## The last column -/

/-- A map over the positions of a list that reads its entries is a map over the list. -/
theorem map_range_getD {α β : Type} (l : List α) (d : α) (f : α → β) :
    (List.range l.length).map (fun p => f (l.getD p d)) = l.map f :=
  List.ext_getElem (by simp) fun i _ hi => by simp [List.getElem?_eq_getElem (by simpa using hi : i < l.length)]

/-- Stepping every index back by one, cyclically, permutes the indices. -/
theorem map_pred_mod_range_perm (n : Nat) :
    ((List.range n).map (fun i => (i + n - 1) % n)).Perm (List.range n) := by
  have hrotate : (List.range n).map (fun i => (i + n - 1) % n) = (List.range n).rotate (n - 1) := by
    refine List.ext_getElem (by simp) fun i hi _ => ?_
    have hlt : i < n := by simpa using hi
    simp [List.getElem_rotate, Nat.add_sub_assoc (by omega : 1 ≤ n)]
  exact hrotate ▸ List.rotate_perm _ _

@[simp] theorem lastColumn_length (x : List Byte) (rot : List Nat) : (lastColumn x rot).length = rot.length := by
  simp [lastColumn]

/-- The last column permutes the block (R159 (c)). -/
theorem lastColumn_perm (x : List Byte) : (lastColumn x (rotTable x)).Perm x := by
  have hrot := (rotTable_perm x).map fun i => x.getD ((i + x.length - 1) % x.length) 0
  have hpred := (map_pred_mod_range_perm x.length).map fun i => x.getD i 0
  rw [List.map_map] at hpred
  simpa [lastColumn] using (hrot.trans hpred).trans (.of_eq (map_range_getD x 0 id))

theorem bwtFwd_of_ne_nil {x : List Byte} (hx : x ≠ []) :
    bwtFwd x = be32 (BitVec.ofNat 32 (rotIndex (rotTable x))) ++ lastColumn x (rotTable x) :=
  if_neg fun h => hx (List.length_eq_zero_iff.mp h)

theorem bwtFwd_length {x : List Byte} (hx : x ≠ []) : (bwtFwd x).length = x.length + 4 := by
  rw [bwtFwd_of_ne_nil hx, List.length_append, be32_length, lastColumn_length, rotTable_length, Nat.add_comm]

/-- Settles O34: `ROT` and the step back by one permute the indices. -/
theorem lastColumnPermutesTheBlock : Obligations.LastColumnPermutesTheBlock := by
  refine fun x hx => ⟨rotIndex_lt hx, rotTable_getElem?_rotIndex hx, lastColumn_perm x, fun p i hp => ?entry,
    bwtFwd_of_ne_nil hx, bwtFwd_length hx, rfl⟩
  case entry =>
    have hlt := Nat.mod_lt (i + x.length - 1) (List.length_pos_iff.mpr hx)
    rw [lastColumn, List.getElem?_map, hp, Option.map_some, List.getD_eq_getElem _ _ hlt, List.getElem?_eq_getElem hlt]

/-! ## `NEXT` steps along a rotation

Sorting the sorted rotations by the byte before each of them, stably, sorts the rotations that start one byte earlier. Those
are the same rotations, so they come in the same order. -/

/-- The rotation that starts one byte before the one at position `p` of `ROT`. -/
def predRot (x : List Byte) (p : Nat) : Nat := (rotTable x).getD p 0 + x.length - 1

/-- `NEXT` of the block's own last column: the table that the inverse of the forward transform walks. -/
def nextOf (x : List Byte) : List Nat := nextTable (lastColumn x (rotTable x))

section
variable {x : List Byte} {p q : Nat}

theorem predRot_succ (hp : p < x.length) : predRot x p + 1 = (rotTable x).getD p 0 + x.length := by
  rw [predRot]
  omega

theorem lastColumn_getD (hp : p < x.length) :
    (lastColumn x (rotTable x)).getD p 0 = rotByte x (predRot x p) 0 := by
  have hp' : p < (rotTable x).length := by rwa [rotTable_length]
  rw [List.getD_eq_getElem _ _ (by rwa [lastColumn_length]), predRot, List.getD_eq_getElem _ _ hp']
  simp [lastColumn, rotByte]

theorem nextOf_perm (x : List Byte) : (nextOf x).Perm (List.range x.length) := by
  simpa [nextOf] using nextTable_perm (lastColumn x (rotTable x))

theorem mem_nextOf : p ∈ nextOf x ↔ p < x.length := by
  rw [(nextOf_perm x).mem_iff, List.mem_range]

theorem nextOf_getD_lt (hp : p < x.length) : (nextOf x).getD p 0 < x.length := by
  simpa [nextOf] using nextTable_getD_lt (l := lastColumn x (rotTable x)) (by simpa using hp)

theorem rotRow_rotTable_le (hpq : p < q) (hq : q < x.length) :
    rotRow x ((rotTable x).getD p 0) ≤ rotRow x ((rotTable x).getD q 0) := by
  have hq' : q < (rotTable x).length := by rwa [rotTable_length]
  have hlt := List.pairwise_iff_getElem.mp (rotTable_ascends x) p q (hpq.trans hq') hq' hpq
  rw [List.getD_eq_getElem _ _ (hpq.trans hq'), List.getD_eq_getElem _ _ hq']
  exact Prod.Lex.monotone_fst_ofLex hlt.le

/-- Positions in the order of `NEXT` have their rotations, one byte earlier, in order. -/
theorem rotRow_predRot_le (hp : p < x.length) (hq : q < x.length)
    (h : posKey (lastColumn x (rotTable x)) p < posKey (lastColumn x (rotTable x)) q) :
    rotRow x (predRot x p) ≤ rotRow x (predRot x q) := by
  rw [posKey_lt_iff, lastColumn_getD hp, lastColumn_getD hq] at h
  refine rotRow_le_of_head x (h.imp_right fun ⟨heq, hpq⟩ => ⟨heq, ?_⟩)
  rw [predRot_succ hp, predRot_succ hq, rotRow_add_length, rotRow_add_length]
  exact rotRow_rotTable_le hpq hq

/-- The rotations one byte earlier are the rotations again. -/
theorem map_rotRow_predRot_perm (x : List Byte) :
    ((nextOf x).map fun p => rotRow x (predRot x p)).Perm ((rotTable x).map (rotRow x)) :=
  calc
    ((nextOf x).map fun p => rotRow x (predRot x p)).Perm
        ((List.range x.length).map fun p => rotRow x (predRot x p)) := (nextOf_perm x).map _
    _ = (rotTable x).map fun i => rotRow x (i + x.length - 1) := by
      rw [← map_range_getD (rotTable x) 0 fun i => rotRow x (i + x.length - 1), rotTable_length]
      rfl
    List.Perm _ ((List.range x.length).map fun i => rotRow x (i + x.length - 1)) := (rotTable_perm x).map _
    _ = ((List.range x.length).map fun i => (i + x.length - 1) % x.length).map (rotRow x) := by simp
    List.Perm _ ((List.range x.length).map (rotRow x)) := (map_pred_mod_range_perm x.length).map _
    List.Perm _ ((rotTable x).map (rotRow x)) := ((rotTable_perm x).map _).symm

/-- Two ascending orders of the same rotations agree, rotation by rotation. -/
theorem map_rotRow_predRot (x : List Byte) :
    (nextOf x).map (fun p => rotRow x (predRot x p)) = (rotTable x).map (rotRow x) := by
  refine (map_rotRow_predRot_perm x).eq_of_pairwise' (r := (· ≤ ·)) (List.pairwise_map.mpr ?_) (List.pairwise_map.mpr ?_)
  · exact (nextTable_ascends _).imp_of_mem fun hp hq => rotRow_predRot_le (mem_nextOf.mp hp) (mem_nextOf.mp hq)
  · exact (rotTable_ascends x).imp fun h => Prod.Lex.monotone_fst_ofLex h.le

/-- The rotation at `p` is, as a byte sequence, the one a byte before the rotation at `NEXT[p]`. Where rotations are equal the
indices may differ (R159 (d)). -/
theorem rotByte_predRot_nextOf (hp : p < x.length) (t : Nat) :
    rotByte x (predRot x ((nextOf x).getD p 0)) t = rotByte x ((rotTable x).getD p 0) t := by
  have h := congrArg (·[p]?) (map_rotRow_predRot x)
  have hrot : p < (rotTable x).length := by rwa [rotTable_length]
  have hnext : p < (nextOf x).length := by simpa [(nextOf_perm x).length_eq] using hp
  simp only [List.getElem?_map, List.getElem?_eq_getElem hrot, List.getElem?_eq_getElem hnext, Option.map_some,
    Option.some.injEq] at h
  rw [List.getD_eq_getElem _ _ hrot, List.getD_eq_getElem _ _ hnext]
  exact (rotRow_eq_iff x).mp h t

/-- The walk that starts at `NEXT[p]` emits the rotation at `p`. -/
theorem bwtWalk_nextOf (m : Nat) (hp : p < x.length) :
    bwtWalk (lastColumn x (rotTable x)) (nextOf x) m ((nextOf x).getD p 0)
      = (List.range m).map (rotByte x ((rotTable x).getD p 0)) := by
  induction m generalizing p with
  | zero => rfl
  | succ m ih =>
    have hq := nextOf_getD_lt hp
    have hshift : ∀ t, rotByte x ((rotTable x).getD ((nextOf x).getD p 0) 0) t
        = rotByte x ((rotTable x).getD p 0) (t + 1) := fun t => by
      rw [← rotByte_predRot_nextOf hp, Nat.add_comm t, rotByte_add, predRot_succ hq, rotByte_add_length]
    rw [bwtWalk, ih hq, lastColumn_getD hq, rotByte_predRot_nextOf hp, List.range_succ_eq_map, List.map_cons, List.map_map]
    exact congrArg _ (List.map_congr_left fun t _ => hshift t)

end

/-! ## The round trip -/

/-- Rotation 0 is the block (R150). -/
theorem map_rotByte_zero (x : List Byte) : (List.range x.length).map (rotByte x 0) = x := by
  refine List.ext_getElem (by simp) fun i hi _ => ?_
  have hlt : i < x.length := by simpa using hi
  simp [rotByte, Nat.mod_eq_of_lt hlt, hlt]

theorem bwtInvCore_lastColumn {x : List Byte} (hx : x ≠ []) :
    bwtInvCore (rotIndex (rotTable x)) (lastColumn x (rotTable x)) = x := by
  have hzero : (rotTable x).getD (rotIndex (rotTable x)) 0 = 0 := by
    rw [List.getD_eq_getElem?_getD, rotTable_getElem?_rotIndex hx]
    rfl
  have hwalk := bwtWalk_nextOf x.length (rotIndex_lt hx)
  rw [hzero, map_rotByte_zero] at hwalk
  rw [bwtInvCore, bwtWalkFrom, lastColumn_length, rotTable_length]
  exact hwalk

/-- The four bytes of a number are read as that number (20_memory.md R61). -/
theorem ofBe32_be32 (v : Word32) :
    ofBe32 (v.extractLsb' 24 8) (v.extractLsb' 16 8) (v.extractLsb' 8 8) (v.extractLsb' 0 8) = v :=
  bitsMsb_inj (by simp [ofBe32, bitsMsb, List.range, List.range.loop])

theorem bwtInv_be32_append {c : Word32} {l : List Byte} (h : c.toNat < l.length) :
    bwtInv (be32 c ++ l) = .ok (bwtInvCore c.toNat l) := by
  simp only [be32, List.cons_append, List.nil_append, bwtInv, ofBe32_be32]
  rw [if_neg (by omega), if_neg (by omega)]

/-- Settles O38: the walk from `NEXT[c]` emits the rotation at the index c, which is rotation 0. -/
theorem bwtRoundTrip : Obligations.BwtRoundTrip := by
  intro x hlen
  by_cases hx : x = []
  · subst hx
    rfl
  · have hlt := rotIndex_lt hx
    have hc : (BitVec.ofNat 32 (rotIndex (rotTable x))).toNat = rotIndex (rotTable x) :=
      Nat.mod_eq_of_lt (hlt.trans hlen)
    rw [bwtFwd_of_ne_nil hx, bwtInv_be32_append (by simpa only [hc, lastColumn_length, rotTable_length]), hc,
      bwtInvCore_lastColumn hx]

end Sys2Proof.Machine
end

section
/-! PROOFS. The Burrows-Wheeler family, commands: how `BWT.FWD` and `BWT.INV` end, from every state (43_bwt.md R157, R158). -/

namespace Sys2Proof.Machine

/-! ## Writing and reading byte sequences -/

theorem wrBytes_append (cap : Option Nat) (w : Bsw) (us vs : List Byte) :
    wrBytes cap w (us ++ vs) = wrBytes cap w us >>= fun w => wrBytes cap w vs := by
  simp only [wrBytes_eq_wrBits, List.flatMap_append, wrBits_append]
  rfl

theorem flatMap_bitsMsb_inj {us vs : List Byte} (h : us.flatMap bitsMsb = vs.flatMap bitsMsb) : us = vs := by
  induction us generalizing vs with
  | nil =>
    cases vs with
    | nil => rfl
    | cons v vs => exact absurd (congrArg List.length h) (by simp; omega)
  | cons u us ih =>
    cases vs with
    | nil => exact absurd (congrArg List.length h) (by simp)
    | cons v vs =>
      rw [List.flatMap_cons, List.flatMap_cons] at h
      obtain ⟨hhead, htail⟩ := List.append_inj h (by simp)
      rw [bitsMsb_inj hhead, ih htail]

/-- The bits of `IN` after its first bytes `us`. -/
theorem Bsr.rest_append {us vs : List Byte} {r : Bsr} (hinp : r.inp = us ++ vs) (hpos : r.rpos = 8 * us.length) :
    r.rest = vs.flatMap bitsMsb := by
  rw [Bsr.rest, Bsr.bits, hinp, hpos, List.flatMap_append, List.drop_left' (flatMap_bits_length us)]

/-- `RdInt()` at the start of a stream that begins with `c` reads `c`. -/
theorem rdInt_rewind {r : Bsr} {c : Word32} {l : List Byte} (h : r.inp = be32 c ++ l) :
    rdInt r.rewind = .ok (c, { r with rpos := 32 }) := by
  have hroom : r.rewind.rpos + 32 ≤ r.rewind.bitLen := by
    simp [Bsr.bitLen, h]
    omega
  obtain ⟨v, hv, hbits⟩ := rdInt_ok hroom
  have hrest : r.rewind.rest = (be32 c ++ l).flatMap bitsMsb := Bsr.rest_append (us := []) h rfl
  rw [hrest, List.flatMap_append, be32_bits, List.take_left' (bitsMsb_length c)] at hbits
  rw [hv, bitsMsb_inj hbits]
  simp

/-- `n` calls of `RdByte()` with `n` bytes left read those bytes. -/
theorem rdBytes_to_end {us vs : List Byte} {r : Bsr} (hinp : r.inp = us ++ vs) (hpos : r.rpos = 8 * us.length) :
    rdBytes vs.length r = .ok (vs, r.atEnd) := by
  have hend : r.rpos + 8 * vs.length = r.bitLen := by
    rw [Bsr.bitLen, hinp, hpos, List.length_append]
    omega
  obtain ⟨bs, hbs, hbits⟩ := rdBytes_ok vs.length r hend.le
  rw [Bsr.rest_append hinp hpos, List.take_of_length_le (flatMap_bits_length vs).le] at hbits
  rw [hbs, flatMap_bitsMsb_inj hbits, hend]
  rfl

/-! ## `BWT.FWD` -/

section
variable {s : State}

/-- `s` after `BWT.FWD` has written to `w`: the cursor at the end, `ROT` scratch. -/
def bwtFwdDone (s : State) (w : Bsw) : State :=
  dropRot { s with bsr := s.bsr.atEnd, bsw := w, bwt := { s.bwt with rot := rotTable s.bsr.inp } }

theorem exec_bwtFwd_nil (h : s.bsr.inp = []) :
    exec .bwtFwd s = .next (completed { s with bsr := { s.bsr with rpos := 0 } } 0 false) := by
  have hlen : s.bsr.inp.length = 0 := by rw [h]; rfl
  exact congrArg (conclude s) (if_pos hlen)

/-- On a nonempty `IN`, `BWT.FWD` is `WrByte` for each byte of `bwt_fwd(IN)`. -/
theorem exec_bwtFwd (h : s.bsr.inp ≠ []) : exec .bwtFwd s = conclude s
    (wrBytes s.params.outCap s.bsw (bwtFwd s.bsr.inp) >>= fun w => .ok { st := bwtFwdDone s w }) := by
  have hlen : s.bsr.inp.length ≠ 0 := fun h0 => h (List.length_eq_zero_iff.mp h0)
  rw [bwtFwd_of_ne_nil h, wrBytes_append, bind_assoc]
  exact congrArg (conclude s) (if_neg hlen)

end

/-- Settles O36: the index and the last column are written as one byte sequence, `bwt_fwd(IN)`, of n + 4 bytes. -/
theorem bwtFwdWritesTransform : Obligations.BwtFwdWritesTransform := by
  refine ⟨encodedAs_of_encode_eq rfl (by decide), fun s => ⟨exec_bwtFwd_nil, fun hx h => ?completes,
    fun hx hs h => ?overflows⟩⟩
  case completes =>
    rw [← bwtFwd_length hx] at h
    obtain ⟨w, hw, happ⟩ := wrBytes_ok_appends h
    exact ⟨w, _, _, (exec_bwtFwd hx).trans (conclude_bind_ok hw), happ⟩
  case overflows =>
    rw [← bwtFwd_length hx] at h
    exact faultsWith_of_exec ((exec_bwtFwd hx).trans (conclude_bind_raise (wrBytes_overflow hs h)))

/-! ## The walk over `NEXT` -/

theorem bwtWalk_length (l : List Byte) (next : List Nat) (m cur : Nat) : (bwtWalk l next m cur).length = m := by
  induction m generalizing cur with
  | zero => rfl
  | succ m ih => rw [bwtWalk, List.length_cons, ih]

theorem bwtWalk_getElem? (l : List Byte) (next : List Nat) {m i : Nat} (cur : Nat) (h : i < m) :
    (bwtWalk l next m cur)[i]? = some (l.getD ((fun p => next.getD p 0)^[i] cur) 0) := by
  induction m generalizing cur i with
  | zero => omega
  | succ m ih =>
    cases i with
    | zero => rfl
    | succ i => exact ih _ (by omega)

theorem bwtInvCore_length (c : Nat) (l : List Byte) : (bwtInvCore c l).length = l.length := bwtWalk_length _ _ _ _

/-- `NEXT` stays within the positions of the last column. -/
theorem iterate_nextTable_lt {l : List Byte} {c : Nat} (hc : c < l.length) (i : Nat) :
    (fun p => (nextTable l).getD p 0)^[i] c < l.length := by
  induction i generalizing c with
  | zero => exact hc
  | succ i ih => exact ih (nextTable_getD_lt hc)

/-- Byte `i` of the inverse is the last column at the (i+1)-fold `NEXT` of the index (R156). -/
theorem bwtInvCore_getElem? {l : List Byte} {c i : Nat} (hc : c < l.length) (hi : i < l.length) :
    (bwtInvCore c l)[i]? = l[(fun p => (nextTable l).getD p 0)^[i + 1] c]? := by
  have hlt := iterate_nextTable_lt hc (i + 1)
  rw [bwtInvCore, bwtWalkFrom, bwtWalk_getElem? _ _ _ hi, List.getElem?_eq_getElem hlt, ← List.getD_eq_getElem l 0 hlt,
    Function.iterate_succ_apply]

/-! ## `BWT.INV` -/

section
variable {s : State}

/-- `s` after `BWT.INV` has written to `w`: the cursor at the end, `NEXT` scratch. -/
def bwtInvDone (s : State) (l : List Byte) (w : Bsw) : State :=
  dropNext { s with bsr := s.bsr.atEnd, bsw := w, bwt := { s.bwt with next := nextTable l } }

/-- What `BWT.INV` does once it has read the index `c` and the last column `l` (R158). -/
def bwtInvTail (s : State) (c : Word32) (l : List Byte) : Except Stop Done :=
  if l.length = 0 then .ok { st := { s with bsr := s.bsr.atEnd } }
  else if c.toNat ≥ l.length then raise .corruptHeader
  else wrBytes s.params.outCap s.bsw (bwtInvCore c.toNat l) >>= fun w => .ok { st := bwtInvDone s l w }

theorem exec_bwtInv_nil (h : s.bsr.inp = []) :
    exec .bwtInv s = .next (completed { s with bsr := { s.bsr with rpos := 0 } } 0 false) := by
  have hlen : s.bsr.inp.length = 0 := by rw [h]; rfl
  exact congrArg (conclude s) (if_pos hlen)

/-- Fewer than four bytes hold no index. -/
theorem exec_bwtInv_short (h1 : 1 ≤ s.bsr.inp.length) (h4 : s.bsr.inp.length < 4) :
    exec .bwtInv s = .next (enterFault .unexpectedEof s) := by
  have hlen : s.bsr.inp.length ≠ 0 := by omega
  have heof : rdInt s.bsr.rewind = .error (.raise .unexpectedEof) := if_pos (by simp [Bsr.bitLen]; omega)
  exact (congrArg (conclude s) (if_neg hlen)).trans (conclude_bind_raise heof)

/-- With an index in front, `BWT.INV` reads it and the last column. -/
theorem exec_bwtInv {c : Word32} {l : List Byte} (h : s.bsr.inp = be32 c ++ l) :
    exec .bwtInv s = conclude s (bwtInvTail s c l) := by
  have hlen : s.bsr.inp.length = l.length + 4 := by rw [h, List.length_append, be32_length, Nat.add_comm]
  have hbytes : rdBytes (s.bsr.inp.length - 4) { s.bsr with rpos := 32 } = .ok (l, s.bsr.atEnd) := by
    rw [hlen, Nat.add_sub_cancel]
    exact rdBytes_to_end h rfl
  refine (congrArg (conclude s) (if_neg (by simp [hlen]))).trans ?_
  refine (conclude_bind_ok (rdInt_rewind h)).trans ?_
  exact conclude_bind_ok hbytes

end

/-- Four bytes are a number, big-endian (20_memory.md R61). -/
theorem exists_eq_be32 {z : List Byte} (h : z.length = 4) : ∃ c, z = be32 c := by
  obtain ⟨a, b, c, d, rfl⟩ := List.length_eq_four.mp h
  refine ⟨ofBe32 a b c d, flatMap_bitsMsb_inj ?_⟩
  rw [be32_bits]
  simp [ofBe32, bitsMsb, List.range, List.range.loop]

/-- Settles O37: the index and the last column are read, or the input is too short; then the inverse is written. -/
theorem bwtInvWritesInverse : Obligations.BwtInvWritesInverse := by
  refine ⟨encodedAs_of_encode_eq rfl (by decide), fun s => ⟨exec_bwtInv_nil,
    fun h1 h4 => faultsWith_of_exec (exec_bwtInv_short h1 h4), fun h4 => ?header, fun c l hin hl => ?_⟩⟩
  case header =>
    obtain ⟨c, hin⟩ := exists_eq_be32 h4
    have hend : s.bsr.atEnd = { s.bsr with rpos := 32 } := by rw [Bsr.atEnd, Bsr.bitLen, h4]
    rw [exec_bwtInv (hin.trans (List.append_nil _).symm), bwtInvTail, if_pos List.length_nil, hend]
    rfl
  have hl0 : l.length ≠ 0 := fun h0 => hl (List.length_eq_zero_iff.mp h0)
  have hexec := exec_bwtInv hin
  rw [bwtInvTail, if_neg hl0] at hexec
  refine ⟨fun hc => ?corrupt, fun hc hroom => ?completes, fun hc hs hroom => ?overflows⟩
  case corrupt =>
    rw [if_pos hc] at hexec
    exact faultsWith_of_exec hexec
  case completes =>
    rw [if_neg hc.not_ge] at hexec
    rw [← bwtInvCore_length c.toNat] at hroom
    obtain ⟨w, hw, happ⟩ := wrBytes_ok_appends hroom
    exact ⟨_, w, _, _, hexec.trans (conclude_bind_ok hw), happ, hin ▸ bwtInv_be32_append hc, bwtInvCore_length _ _,
      fun i => bwtInvCore_getElem? hc⟩
  case overflows =>
    rw [if_neg hc.not_ge] at hexec
    rw [← bwtInvCore_length c.toNat] at hroom
    exact faultsWith_of_exec (hexec.trans (conclude_bind_raise (wrBytes_overflow hs hroom)))

end Sys2Proof.Machine
end

section
/-! PROOFS. The Huffman family, codewords and headers: what the walks over the node table give for the tree it holds
(44_huffman.md R175 to R177, R180, R181). -/

namespace Sys2Proof.Machine

/-! ## Codewords of a tree -/

section
variable {a b : Byte} {u v : Bits} {l r t : HTree}

theorem HTree.syms_length_pos (t : HTree) : 0 < t.syms.length := by
  rw [← t.internals_tags]
  omega

/-- The header has one tag bit per node and eight bits per symbol (44_huffman.md R177). -/
theorem HTree.hdr_length (t : HTree) : t.hdr.length + 1 = 10 * t.syms.length := by
  induction t with
  | leaf s => simp [HTree.hdr, HTree.syms]
  | node l r hl hr =>
    rw [HTree.hdr, HTree.syms, List.length_cons, List.length_append, List.length_append]
    omega

/-- A codeword begins with the branch that has the symbol. -/
theorem HTree.code_node : (HTree.node l r).code a = some u ↔
    (∃ v, l.code a = some v ∧ u = false :: v) ∨ (l.code a = none ∧ ∃ v, r.code a = some v ∧ u = true :: v) := by
  rw [HTree.code]
  cases l.code a with
  | none => simp [eq_comm]
  | some v => simp [eq_comm]

theorem HTree.code_leaf {s : Byte} : (HTree.leaf s).code a = some u ↔ s = a ∧ u = [] := by
  simp [HTree.code, eq_comm]

/-- Exactly the symbols of the tree have codewords. -/
theorem HTree.code_eq_none_iff : t.code a = none ↔ a ∉ t.syms := by
  induction t with
  | leaf s => simp [HTree.code, HTree.syms, eq_comm]
  | node l r hl hr =>
    rw [HTree.syms, List.mem_append, not_or, ← hl, ← hr, HTree.code]
    cases l.code a with
    | none => simp
    | some v => simp

theorem HTree.exists_code (h : a ∈ t.syms) : ∃ u, t.code a = some u :=
  Option.ne_none_iff_exists'.mp fun hnone => HTree.code_eq_none_iff.mp hnone h

theorem HTree.mem_syms_of_code (h : t.code a = some u) : a ∈ t.syms := by
  by_contra hmem
  rw [HTree.code_eq_none_iff.mpr hmem] at h
  nomatch h

/-- Every branch of a path leaves a leaf aside. -/
theorem HTree.code_length_lt (h : t.code a = some u) : u.length < t.syms.length := by
  induction t generalizing u with
  | leaf s => simp [(HTree.code_leaf.mp h).2, HTree.syms]
  | node l r hl hr =>
    have hlpos := l.syms_length_pos
    have hrpos := r.syms_length_pos
    rw [HTree.syms, List.length_append]
    rcases HTree.code_node.mp h with ⟨v, hv, rfl⟩ | ⟨-, v, hv, rfl⟩
    · have := hl hv
      rw [List.length_cons]
      omega
    · have := hr hv
      rw [List.length_cons]
      omega

/-- Codewords of which one begins with the other take the same branches down to the same leaf. -/
theorem HTree.code_prefix_free (ha : t.code a = some u) (hb : t.code b = some v) (huv : u <+: v) : a = b := by
  induction t generalizing u v with
  | leaf s => exact (HTree.code_leaf.mp ha).1.symm.trans (HTree.code_leaf.mp hb).1
  | node l r hl hr =>
    rcases HTree.code_node.mp ha with ⟨u', hu, rfl⟩ | ⟨-, u', hu, rfl⟩
    · rcases HTree.code_node.mp hb with ⟨v', hv, rfl⟩ | ⟨-, v', hv, rfl⟩
      · exact hl hu hv (List.cons_prefix_cons.mp huv).2
      · exact absurd (List.cons_prefix_cons.mp huv).1 (by decide)
    · rcases HTree.code_node.mp hb with ⟨v', hv, rfl⟩ | ⟨-, v', hv, rfl⟩
      · exact absurd (List.cons_prefix_cons.mp huv).1 (by decide)
      · exact hr hu hv (List.cons_prefix_cons.mp huv).2

end

/-! ## A copy of a tree -/

section
variable {nodes : List Node} {t : HTree} {par i : Idx} {is : List Nat} {fuel : Nat}

theorem repAt_root (h : RepAt nodes t par i is) : ∃ n, nodeAt nodes i = some n ∧ n.parent = par := by
  cases t with
  | leaf s =>
    obtain ⟨-, n, hn, -, -, -, -, hpar⟩ := h
    exact ⟨n, hn, hpar⟩
  | node l r =>
    obtain ⟨n, -, -, hn, -, -, hpar, -⟩ := h
    exact ⟨n, hn, hpar⟩

/-- A full binary tree with k leaves has 2k - 1 nodes. -/
theorem repAt_length (h : RepAt nodes t par i is) : is.length + 1 = 2 * t.syms.length := by
  induction t generalizing par i is with
  | leaf s => simp [h.1, HTree.syms]
  | node l r ihl ihr =>
    obtain ⟨n, isl, isr, -, -, -, -, rfl, hl, hr⟩ := h
    have := ihl hl
    have := ihr hr
    simp only [List.length_cons, List.length_append, HTree.syms]
    omega

/-- A counter that is enough for a node and both copies below it goes one down to each of them. -/
theorem exists_fuel_below {j : Nat} {isl isr : List Nat} (h : (j :: (isl ++ isr)).length ≤ fuel) :
    ∃ n, fuel = n + 1 ∧ isl.length ≤ n ∧ isr.length ≤ n := by
  rw [List.length_cons, List.length_append] at h
  exact ⟨fuel - 1, by omega, by omega, by omega⟩

/-- The serialisation of R176 from the root of a copy is the header of its tree: no descent is deeper than its nodes are
many. -/
theorem repAt_hdrBitsIn (h : RepAt nodes t par i is) (hfuel : is.length ≤ fuel) : hdrBitsIn nodes fuel i = .ok t.hdr := by
  induction t generalizing par i is fuel with
  | leaf s =>
    obtain ⟨rfl, n, hn, hk, rfl, -⟩ := h
    obtain ⟨fuel, rfl⟩ := Nat.exists_eq_add_of_le' hfuel
    simp [hdrBitsIn, hn, hk, HTree.hdr]
  | node l r ihl ihr =>
    obtain ⟨n, isl, isr, hn, hk, -, -, rfl, hl, hr⟩ := h
    obtain ⟨fuel, rfl, hlenl, hlenr⟩ := exists_fuel_below hfuel
    simp [hdrBitsIn, hn, hk, HTree.hdr, ihl hl hlenl, ihr hr hlenr, bind, Except.bind]

/-! ## The walk up (44_huffman.md R175) -/

theorem codeWalk_root {n : Node} {w : Bits} (hn : nodeAt nodes i = some n) (hpar : n.parent = NIL) :
    codeWalk nodes (fuel + 1) i w = .ok w := by
  simp [codeWalk, hn, hpar]

theorem codeWalk_child {n p : Node} {w : Bits} (hn : nodeAt nodes i = some n) (hpar : n.parent ≠ NIL)
    (hp : nodeAt nodes n.parent = some p) :
    codeWalk nodes (fuel + 1) i w = codeWalk nodes fuel n.parent ((if p.left = i then false else true) :: w) := by
  simp [codeWalk, hn, hpar, hp]

/-- From the root of a copy below node `i` the walk goes to `i`, and a left child adds a 0, a right child a 1. -/
theorem repAt_codeWalk_up {p : Node} {c : Idx} {w : Bits} (h : RepAt nodes t i c is) (hi : i ≠ NIL)
    (hp : nodeAt nodes i = some p) :
    codeWalk nodes (fuel + 1) c w = codeWalk nodes fuel i ((if p.left = c then false else true) :: w) := by
  obtain ⟨n, hn, rfl⟩ := repAt_root h
  exact codeWalk_child hn hi hp

/-- The walk from a leaf of a copy up to its root collects the leaf's codeword. -/
theorem repAt_codeWalk {a : Byte} {u : Bits} (h : RepAt nodes t par i is) (hnd : is.Nodup) (hlen : nodes.length ≤ 511)
    (hu : t.code a = some u) :
    ∃ j n, nodeAt nodes j = some n ∧ n.kind = .leaf ∧ n.sym = a
      ∧ ∀ fuel w, codeWalk nodes (fuel + u.length) j w = codeWalk nodes fuel i (u ++ w) := by
  induction t generalizing par i is u with
  | leaf s =>
    obtain ⟨-, n, hn, hk, hs, -⟩ := h
    obtain ⟨rfl, rfl⟩ := HTree.code_leaf.mp hu
    exact ⟨i, n, hn, hk, hs, fun _ _ => rfl⟩
  | node l r ihl ihr =>
    obtain ⟨p, isl, isr, hp, -, -, -, rfl, hl, hr⟩ := h
    obtain ⟨hndl, hndr, hdisj⟩ := List.nodup_append.mp (List.nodup_cons.mp hnd).2
    have hi : i ≠ NIL := fun e => by
      have := nodeAt_lt hp
      rw [e] at this
      exact absurd hlen (Nat.not_le.mpr this)
    rcases HTree.code_node.mp hu with ⟨v, hv, rfl⟩ | ⟨-, v, hv, rfl⟩
    · obtain ⟨j, n, hn, hk, hs, hwalk⟩ := ihl hl hndl hv
      refine ⟨j, n, hn, hk, hs, fun fuel w => ?_⟩
      rw [List.length_cons, ← Nat.add_assoc, Nat.add_right_comm, hwalk, repAt_codeWalk_up hl hi hp, if_pos rfl]
      rfl
    · obtain ⟨j, n, hn, hk, hs, hwalk⟩ := ihr hr hndr hv
      have hne : p.left ≠ p.right := fun e => hdisj _ (repAt_root_mem hl) _ (repAt_root_mem hr) (congrArg _ e)
      refine ⟨j, n, hn, hk, hs, fun fuel w => ?_⟩
      rw [List.length_cons, ← Nat.add_assoc, Nat.add_right_comm, hwalk, repAt_codeWalk_up hr hi hp, if_neg hne]
      rfl

/-! ## The descent (44_huffman.md R181) -/

theorem rdBit_of_rest_cons {r : Bsr} {b : Bool} {bs : Bits} (h : r.rest = b :: bs) :
    rdBit r = .ok (b, { r with rpos := r.rpos + 1 }) ∧ ({ r with rpos := r.rpos + 1 } : Bsr).rest = bs := by
  have hlt : r.rpos < r.bitLen := by
    have := congrArg List.length h
    rw [Bsr.rest_length, List.length_cons] at this
    omega
  rw [Bsr.rest_cons hlt] at h
  obtain ⟨hb, hbs⟩ := List.cons.inj h
  exact ⟨hb ▸ rdBit_ok hlt, hbs⟩

theorem rdBit_of_rest_nil {r : Bsr} (h : r.rest = []) : rdBit r = .error (.raise .unexpectedEof) := by
  have := congrArg List.length h
  rw [Bsr.rest_length, List.length_nil] at this
  exact rdBit_eof (by omega)

theorem decWalk_leaf {n : Node} (hn : nodeAt nodes i = some n) (hk : n.kind = .leaf) (r : Bsr) :
    decWalk nodes (fuel + 1) i r = .ok (n.sym, r) := by
  simp [decWalk, hn, hk]

theorem decWalk_internal {n : Node} (hn : nodeAt nodes i = some n) (hk : n.kind = .internal) (r : Bsr) :
    decWalk nodes (fuel + 1) i r =
      rdBit r >>= fun p => decWalk nodes fuel (if p.1 = false then n.left else n.right) p.2 := by
  simp [decWalk, hn, hk]

/-- The descent over the codeword of `a` ends at the leaf of `a`, just after the codeword. -/
theorem repAt_decWalk {a : Byte} {u more : Bits} {rd : Bsr} (h : RepAt nodes t par i is) (hfuel : is.length ≤ fuel)
    (hu : t.code a = some u) (hrest : rd.rest = u ++ more) :
    decWalk nodes fuel i rd = .ok (a, { rd with rpos := rd.rpos + u.length }) := by
  induction t generalizing par i is fuel u rd with
  | leaf s =>
    obtain ⟨rfl, n, hn, hk, hs, -⟩ := h
    obtain ⟨fuel, rfl⟩ := Nat.exists_eq_add_of_le' hfuel
    obtain ⟨rfl, rfl⟩ := HTree.code_leaf.mp hu
    rw [← hs]
    exact decWalk_leaf hn hk rd
  | node l r ihl ihr =>
    obtain ⟨n, isl, isr, hn, hk, -, -, rfl, hl, hr⟩ := h
    obtain ⟨fuel, rfl, hlenl, hlenr⟩ := exists_fuel_below hfuel
    rw [decWalk_internal hn hk]
    rcases HTree.code_node.mp hu with ⟨v, hv, rfl⟩ | ⟨-, v, hv, rfl⟩
    · obtain ⟨hbit, htail⟩ := rdBit_of_rest_cons hrest
      rw [hbit, List.length_cons, Nat.add_comm v.length, ← Nat.add_assoc]
      exact ihl hl hlenl hv htail
    · obtain ⟨hbit, htail⟩ := rdBit_of_rest_cons hrest
      rw [hbit, List.length_cons, Nat.add_comm v.length, ← Nat.add_assoc]
      exact ihr hr hlenr hv htail

/-- Where no codeword stands at the cursor, the stream ends before the descent meets a leaf. -/
theorem repAt_decWalk_eof {rd : Bsr} (h : RepAt nodes t par i is) (hfuel : is.length ≤ fuel) (hnd : t.syms.Nodup)
    (hnone : ∀ a u, t.code a = some u → ¬ u <+: rd.rest) :
    decWalk nodes fuel i rd = .error (.raise .unexpectedEof) := by
  induction t generalizing par i is fuel rd with
  | leaf s => exact absurd List.nil_prefix (hnone s [] (HTree.code_leaf.mpr ⟨rfl, rfl⟩))
  | node l r ihl ihr =>
    obtain ⟨n, isl, isr, hn, hk, -, -, rfl, hl, hr⟩ := h
    obtain ⟨fuel, rfl, hlenl, hlenr⟩ := exists_fuel_below hfuel
    obtain ⟨hndl, hndr, hdisj⟩ := List.nodup_append.mp hnd
    rw [decWalk_internal hn hk]
    match hrest : rd.rest with
    | [] =>
      rw [rdBit_of_rest_nil hrest]
      rfl
    | false :: bs =>
      obtain ⟨hbit, htail⟩ := rdBit_of_rest_cons hrest
      rw [hbit]
      refine ihl hl hlenl hndl fun a u hu hpre => hnone a (false :: u) ?_ ?_
      · exact HTree.code_node.mpr (.inl ⟨u, hu, rfl⟩)
      · rw [hrest]
        exact List.cons_prefix_cons.mpr ⟨rfl, htail ▸ hpre⟩
    | true :: bs =>
      obtain ⟨hbit, htail⟩ := rdBit_of_rest_cons hrest
      rw [hbit]
      refine ihr hr hlenr hndr fun a u hu hpre => hnone a (true :: u) ?_ ?_
      · have hleft : a ∉ l.syms := fun hmem => hdisj a hmem a (HTree.mem_syms_of_code hu) rfl
        exact HTree.code_node.mpr (.inr ⟨HTree.code_eq_none_iff.mpr hleft, u, hu, rfl⟩)
      · rw [hrest]
        exact List.cons_prefix_cons.mpr ⟨rfl, htail ▸ hpre⟩

end

/-! ## The tree held -/

section
variable {h : Huf} {t : HTree} {a : Byte} {u : Bits}

/-- The copy of the tree held: its nodes are as many as those of the table. -/
theorem HoldsTree.copy (ht : HoldsTree h t) :
    ∃ is, RepAt h.node t NIL h.root is ∧ is.Nodup ∧ is.length = h.node.length := by
  obtain ⟨is, hrep, hall⟩ := ht.nodes
  exact ⟨is, hrep, hall.nodup_iff.mpr List.nodup_range, by simpa using hall.length_eq⟩

theorem HoldsTree.node_length (ht : HoldsTree h t) : h.node.length + 1 = 2 * t.syms.length := by
  obtain ⟨is, hrep, -, hlen⟩ := ht.copy
  rw [← hlen]
  exact repAt_length hrep

/-- At most 256 symbols, so at most 511 nodes: no index is NIL (10_state.md R35). -/
theorem HoldsTree.node_length_le (ht : HoldsTree h t) : h.node.length ≤ 511 := by
  have := ht.node_length
  have := bytes_length_le ht.distinct
  omega

theorem HoldsTree.syms_perm (ht : HoldsTree h t) : t.syms.Perm (marks h.node).reduceOption := by
  obtain ⟨is, hrep, hall⟩ := ht.nodes
  rw [repAt_syms hrep, ← filterMap_range_join, marks_length]
  exact hall.filterMap _

theorem HoldsTree.indexed (ht : HoldsTree h t) : Indexed (marks h.node) h.symidx where
  index s i hi := (ht.index s i hi).trans marks_getElem?_eq_some.symm
  distinct := ht.syms_perm.nodup_iff.mp ht.distinct

/-- `SYMIDX` has no entry for exactly the symbols that the tree does not have (10_state.md R36). -/
theorem HoldsTree.symidx_eq_NIL_iff (ht : HoldsTree h t) : tabGet h.symidx a = NIL ↔ a ∉ t.syms := by
  rw [ht.syms_perm.mem_iff]
  refine ⟨ht.indexed.not_mem (by simpa using ht.node_length_le), fun hmem => ?_⟩
  by_contra hnil
  exact hmem (List.reduceOption_mem_iff.mpr (List.mem_of_getElem? ((ht.indexed.index a _ hnil).mp rfl)))

/-- `codeword(s)` is the path to the leaf of `s` (44_huffman.md R175). -/
theorem HoldsTree.codeword_eq (ht : HoldsTree h t) (hu : t.code a = some u) : codeword h a = .ok u := by
  obtain ⟨is, hrep, hnd, hlen⟩ := ht.copy
  obtain ⟨j, n, hn, hk, hs, hwalk⟩ := repAt_codeWalk hrep hnd ht.node_length_le hu
  have hj : j ≠ NIL := fun e => by
    have := nodeAt_lt hn
    rw [e] at this
    exact absurd ht.node_length_le (Nat.not_le.mpr this)
  have hidx : tabGet h.symidx a = j := (ht.index a j hj).mpr ⟨n, hn, hk, hs⟩
  obtain ⟨root, hroot, hpar⟩ := repAt_root hrep
  obtain ⟨fuel, hfuel⟩ := Nat.exists_eq_add_of_le' (show u.length + 1 ≤ h.node.length by
    have := HTree.code_length_lt hu
    have := ht.node_length
    omega)
  rw [codeword, hidx, hfuel, show fuel + (u.length + 1) = fuel + 1 + u.length by omega, hwalk,
    codeWalk_root hroot hpar, List.append_nil]

theorem HoldsTree.hdrBits_eq (ht : HoldsTree h t) : hdrBits h = .ok t.hdr := by
  obtain ⟨is, hrep, -, hlen⟩ := ht.copy
  exact repAt_hdrBitsIn hrep hlen.le

theorem HoldsTree.dec_eq {r : Bsr} {more : Bits} (ht : HoldsTree h t) (hu : t.code a = some u) (hrest : r.rest = u ++ more) :
    dec h r = .ok (a, { r with rpos := r.rpos + u.length }) := by
  obtain ⟨is, hrep, -, hlen⟩ := ht.copy
  have htree := ht.held
  rw [dec, if_neg (by simp [htree])]
  exact repAt_decWalk hrep hlen.le hu hrest

theorem HoldsTree.dec_eof {r : Bsr} (ht : HoldsTree h t) (hnone : ∀ a u, t.code a = some u → ¬ u <+: r.rest) :
    dec h r = .error (.raise .unexpectedEof) := by
  obtain ⟨is, hrep, -, hlen⟩ := ht.copy
  have htree := ht.held
  rw [dec, if_neg (by simp [htree])]
  exact repAt_decWalk_eof hrep hlen.le ht.distinct hnone

theorem HoldsTree.code_length_le (ht : HoldsTree h t) (hu : t.code a = some u) : u.length ≤ 255 := by
  have := HTree.code_length_lt hu
  have := bytes_length_le ht.distinct
  omega

end

/-! ## Commands that write a bit sequence -/

/-- `i` from the state `s` is `WrBit` for each bit of `bs`, and writes nothing else. -/
def WritesBits (i : Instr) (s : State) (bs : Bits) : Prop :=
  exec i s = conclude s (wrBits s.params.outCap s.bsw bs >>= fun w => .ok { st := { s with bsw := w } })

section
variable {i : Instr} {s : State} {bs : Bits}

theorem WritesBits.exec_ok (hi : WritesBits i s bs) (h : Room s bs.length) :
    ∃ w, exec i s = .next (completed { s with bsw := w } 0 false) ∧ Appends s.bsw w bs := by
  obtain ⟨w, hw⟩ := wrBits_ok bs h
  exact ⟨w, hi.trans (conclude_bind_ok hw), wrBits_appends hw⟩

theorem WritesBits.overflow (hi : WritesBits i s bs) (hs : Memory.wf s = true) (h : ¬ Room s bs.length) :
    FaultsWith i s .overflow := by
  cases hw : wrBits s.params.outCap s.bsw bs with
  | ok w => exact absurd (wrBits_room bs (memory_wf_iff.mp hs).2 hw) h
  | error e =>
    rw [wrBits_error bs hw] at hw
    exact faultsWith_of_exec (hi.trans (conclude_bind_raise hw))

end

/-! ## The commands -/

section
variable {s : State} {t : HTree} {a : Byte}

theorem exec_hufWhdr_no_tree (h : s.huf.tree = false) : exec .hufWhdr s = .next (enterFault .invalidArgument s) :=
  congrArg (conclude s) (if_pos h)

theorem hufWhdr_writesBits (ht : HoldsTree s.huf t) : WritesBits .hufWhdr s t.hdr := by
  have htree : s.huf.tree ≠ false := by simp [ht.held]
  exact (congrArg (conclude s) (if_neg htree)).trans (conclude_bind_ok ht.hdrBits_eq)

theorem exec_hufEnc_no_tree (h : s.huf.tree = false) : exec (.hufEnc a) s = .next (enterFault .invalidArgument s) :=
  conclude_bind_raise (if_pos h)

theorem exec_hufEnc_no_symbol (ht : HoldsTree s.huf t) (ha : a ∉ t.syms) :
    exec (.hufEnc a) s = .next (enterFault .invalidArgument s) := by
  have htree : s.huf.tree ≠ false := by simp [ht.held]
  exact conclude_bind_raise ((if_neg htree).trans (if_pos (ht.symidx_eq_NIL_iff.mpr ha)))

theorem hufEnc_writesBits {u : Bits} (ht : HoldsTree s.huf t) (hu : t.code a = some u) : WritesBits (.hufEnc a) s u := by
  have htree : s.huf.tree ≠ false := by simp [ht.held]
  have hidx : tabGet s.huf.symidx a ≠ NIL := ht.symidx_eq_NIL_iff.not.mpr (not_not.mpr (HTree.mem_syms_of_code hu))
  have henc : enc s.params.outCap s.huf s.bsw a = wrBits s.params.outCap s.bsw u := by
    rw [enc, if_neg htree, if_neg hidx, ht.codeword_eq hu]
    rfl
  exact congrArg (fun e => conclude s (e >>= fun w => .ok { st := { s with bsw := w } })) henc

end

/-- Settles O42: the header of the tree held is what `hdr_bits` serialises from the root. -/
theorem whdrWritesHeader : Obligations.WhdrWritesHeader := by
  refine ⟨encodedAs_of_encode_eq rfl (by decide), fun s => ⟨fun h => ?noTree, fun tr ht => ?tree⟩⟩
  case noTree => exact faultsWith_of_exec (exec_hufWhdr_no_tree h)
  case tree =>
    have hwrites := hufWhdr_writesBits ht
    exact ⟨tr.hdr_length, ht.hdrBits_eq, hwrites.exec_ok, hwrites.overflow⟩

/-- Settles O45: the walk from the symbol's leaf to the root collects the path between them. -/
theorem encWritesCodeword : Obligations.EncWritesCodeword := by
  refine ⟨fun a => ?word, fun s a => ⟨fun h => ?noTree, fun tr ht =>
    ⟨fun ha => ?noSymbol, fun u hu => ?symbol, HTree.exists_code⟩⟩⟩
  case word => exact encodedAs_of_arg_eq_field (op := 0x66) rfl rfl (by decide) (by decide) rfl
  case noTree => exact faultsWith_of_exec (exec_hufEnc_no_tree h)
  case noSymbol => exact ⟨ht.symidx_eq_NIL_iff.mpr ha, faultsWith_of_exec (exec_hufEnc_no_symbol ht ha)⟩
  case symbol =>
    have hwrites := hufEnc_writesBits ht hu
    exact ⟨ht.codeword_eq hu, ht.code_length_le hu, hwrites.exec_ok, hwrites.overflow⟩

/-- Settles O46: the descent takes the branches of the codeword at the cursor, and without one it reaches the end. -/
theorem decReadsCodeword : Obligations.DecReadsCodeword := by
  refine ⟨encodedAs_of_encode_eq rfl (by decide), fun s => ⟨fun h => ?noTree, fun tr ht =>
    ⟨fun a u more hu hrest => ?reads, fun hnone => ?eof⟩⟩⟩
  case noTree => exact faultsWith_of_exec (conclude_bind_raise (if_pos h))
  case reads => exact ⟨conclude_bind_ok (ht.dec_eq hu hrest), ht.code_length_le hu⟩
  case eof => exact faultsWith_of_exec (conclude_bind_raise (ht.dec_eof hnone))

/-- A symbol with an entry in `SYMIDX` is one of the tree's, and `codeword` gives its path. -/
theorem HoldsTree.code_of_codeword {h : Huf} {t : HTree} {a : Byte} {u : Bits} (ht : HoldsTree h t)
    (ha : tabGet h.symidx a ≠ NIL) (hu : codeword h a = .ok u) : t.code a = some u := by
  obtain ⟨v, hv⟩ := HTree.exists_code (not_not.mp (ht.symidx_eq_NIL_iff.not.mp ha))
  rw [hv, Except.ok.inj ((ht.codeword_eq hv).symm.trans hu)]

/-- Settles O47: codewords are paths of one tree to its leaves. -/
theorem codewordsArePrefixFree : Obligations.CodewordsArePrefixFree :=
  fun _ _ _ _ _ _ ht ha hb hu hv huv => HTree.code_prefix_free (ht.code_of_codeword ha hu) (ht.code_of_codeword hb hv) huv

end Sys2Proof.Machine
end

section
/-! PROOFS. The Huffman family, turns: a bit sequence is a header, or meets a fault, in at most one way (44_huffman.md R176,
R178; 60_exceptions.md R220). -/

namespace Sys2Proof.Machine

/-! ## Turns are read back from their bits -/

theorem HTag.bits_append_inj {t u : HTag} {x y : Bits} (h : t.bits ++ x = u.bits ++ y) : t = u ∧ x = y := by
  match t, u, h with
  | .internal, .internal, h => exact ⟨rfl, (List.cons.inj h).2⟩
  | .leaf a, .leaf b, h =>
    obtain ⟨hbits, hrest⟩ := List.append_inj (List.cons.inj h).2 (by simp)
    exact ⟨congrArg _ (bitsMsb_inj hbits), hrest⟩

/-- Of two readings of the same bits one goes on where the other stopped. -/
theorem tagBits_append_eq {ts us : List HTag} {x y : Bits} (h : tagBits ts ++ x = tagBits us ++ y) :
    (∃ vs, us = ts ++ vs ∧ x = tagBits vs ++ y) ∨ (∃ vs, ts = us ++ vs ∧ y = tagBits vs ++ x) := by
  induction ts generalizing us with
  | nil => exact .inl ⟨us, rfl, h⟩
  | cons t ts ih =>
    cases us with
    | nil => exact .inr ⟨t :: ts, rfl, h.symm⟩
    | cons u us =>
      rw [tagBits_cons, tagBits_cons, List.append_assoc, List.append_assoc] at h
      obtain ⟨rfl, hrest⟩ := HTag.bits_append_inj h
      rcases ih hrest with ⟨vs, rfl, hx⟩ | ⟨vs, rfl, hy⟩
      · exact .inl ⟨vs, rfl, hx⟩
      · exact .inr ⟨vs, rfl, hy⟩

theorem HTree.hdr_append_inj {t u : HTree} {x y : Bits} (h : t.hdr ++ x = u.hdr ++ y) : t = u ∧ x = y := by
  induction t generalizing u x y with
  | leaf a =>
    cases u with
    | leaf b =>
      obtain ⟨hbits, hrest⟩ := List.append_inj (List.cons.inj h).2 (by simp)
      exact ⟨congrArg _ (bitsMsb_inj hbits), hrest⟩
    | node l r => exact absurd (List.cons.inj h).1 (by decide)
  | node l r ihl ihr =>
    cases u with
    | leaf b => exact absurd (List.cons.inj h).1 (by decide)
    | node l' r' =>
      have htail : l.hdr ++ r.hdr ++ x = l'.hdr ++ r'.hdr ++ y := (List.cons.inj h).2
      rw [List.append_assoc, List.append_assoc] at htail
      obtain ⟨rfl, hright⟩ := ihl htail
      obtain ⟨rfl, hrest⟩ := ihr hright
      exact ⟨rfl, hrest⟩

/-! ## Turns that a header may have -/

/-- No symbol has two leaves, and there are at most 255 internal nodes. -/
def Admissible (ts : List HTag) : Prop := (leafSyms ts).Nodup ∧ internals ts ≤ 255

theorem Begun.admissible {ts : List HTag} (h : Begun ts) : Admissible ts := ⟨h.distinct, h.few⟩

theorem Admissible.of_append {ts us : List HTag} (h : Admissible (ts ++ us)) : Admissible ts := by
  obtain ⟨hd, hf⟩ := h
  rw [leafSyms_append] at hd
  rw [internals_append] at hf
  exact ⟨hd.of_append_left, by omega⟩

theorem HTree.tags_admissible {t : HTree} (h : t.syms.Nodup) : Admissible t.tags := by
  have := bytes_length_le h
  have := t.internals_tags
  exact ⟨t.leafSyms_tags ▸ h, by omega⟩

/-- A header goes no further than its tree. -/
theorem Begun.not_tags {t : HTree} {us : List HTag} (h : Begun (t.tags ++ us)) : False := by
  have hun := h.unfinished t.tags (List.prefix_append _ _)
  rw [t.leafSyms_tags, ← t.internals_tags] at hun
  omega

theorem HTree.begun_of_strict {t : HTree} {us vs : List HTag} {u : HTag} (h : t.syms.Nodup) (ht : t.tags = us ++ u :: vs) :
    Begun us := by
  obtain ⟨hd, hf⟩ := (ht ▸ HTree.tags_admissible h : Admissible (us ++ u :: vs)).of_append
  refine ⟨fun ws hws => t.unfinished (ht ▸ hws.trans (List.prefix_append _ _)) fun e => ?_, hd, hf⟩
  have := hws.length_le
  rw [e, ht, List.length_append, List.length_cons] at this
  omega

/-- Another internal node leaves a header unfinished. -/
theorem Begun.internal {ts : List HTag} (h : Begun ts) (hfew : internals ts < 255) : Begun (ts ++ [.internal]) where
  unfinished us hus := by
    rcases List.prefix_concat_iff.mp hus with rfl | hus
    · have := h.unfinished ts List.prefix_rfl
      simp [leafSyms, internals]
      omega
    · exact h.unfinished us hus
  distinct := by simpa [leafSyms] using h.distinct
  few := by
    rw [internals_append]
    exact hfew

/-- Inside a tree, and just after it, there is at most one leaf more than internal nodes. -/
theorem HTree.leafSyms_length_le (t : HTree) {us : List HTag} (h : us <+: t.tags) :
    (leafSyms us).length ≤ internals us + 1 := by
  by_cases hne : us = t.tags
  · rw [hne, t.leafSyms_tags, t.internals_tags]
  · exact (t.unfinished h hne).trans (Nat.le_succ _)

/-- The first child of a node leaves a header unfinished. -/
theorem Begun.child {ts : List HTag} (h : Begun ts) (t : HTree) (ha : Admissible (ts ++ [.internal] ++ t.tags)) :
    Begun (ts ++ [.internal] ++ t.tags) where
  unfinished us hus := by
    rcases List.prefix_or_prefix_of_prefix hus (List.prefix_append _ _) with hle | ⟨ws, rfl⟩
    · have hfew := ha.of_append.2
      rw [internals_append] at hfew
      exact (h.internal hfew).unfinished us hle
    · have hts := h.unfinished ts List.prefix_rfl
      have hws := t.leafSyms_length_le ((List.prefix_append_right_inj _).mp hus)
      simp only [leafSyms_append, internals_append, List.length_append, leafSyms, internals, List.length_nil]
      omega
  distinct := ha.1
  few := ha.2

/-! ## The fault that comes first -/

/-- After the turns `ts`, the rest `x` of the stream is the fault `k`: its next turn is one too many, or it has none. -/
inductive FaultsAfter (ts : List HTag) (x : Bits) : FaultKind → Prop where
  | corrupt (t : HTag) (more : Bits) (bad : ¬ Admissible (ts ++ [t])) (next : x = t.bits ++ more) :
      FaultsAfter ts x .corruptHeader
  | ends (none : ∀ t more, x ≠ HTag.bits t ++ more) : FaultsAfter ts x .unexpectedEof

theorem HeaderFault.faultsAfter {bits : Bits} {k : FaultKind} (h : HeaderFault bits k) :
    ∃ ts x, Begun ts ∧ bits = tagBits ts ++ x ∧ FaultsAfter ts x k := by
  cases h with
  | repeatedSymbol ts a more begun seen read =>
    refine ⟨ts, _, begun, read, .corrupt (.leaf a) more (fun hok => ?_) rfl⟩
    have hd := hok.1
    rw [leafSyms_append] at hd
    exact List.disjoint_of_nodup_append hd seen (List.mem_singleton_self a)
  | tooManyInternal ts more begun full read =>
    refine ⟨ts, _, begun, read, .corrupt .internal more (fun hok => ?_) rfl⟩
    have hf := hok.2
    rw [internals_append, full] at hf
    exact absurd hf (by decide)
  | endBeforeTag ts begun read =>
    exact ⟨ts, [], begun, read.trans (List.append_nil _).symm, .ends fun t more => by cases t <;> simp [HTag.bits]⟩
  | endInSymbol ts part begun short read =>
    refine ⟨ts, _, begun, read, .ends fun t more e => ?_⟩
    cases t with
    | internal => exact absurd (List.cons.inj e).1 (by decide)
    | leaf a =>
      have hpart : part = bitsMsb a ++ more := (List.cons.inj e).2
      rw [hpart, List.length_append, bitsMsb_length] at short
      omega

/-- Turns that a header may have do not go on at a fault. -/
theorem FaultsAfter.eq_nil {ts us : List HTag} {y : Bits} {k : FaultKind} (h : FaultsAfter ts (tagBits us ++ y) k)
    (ha : Admissible (ts ++ us)) : us = [] := by
  cases us with
  | nil => rfl
  | cons u us =>
    rw [tagBits_cons, List.append_assoc] at h
    cases h with
    | corrupt t more bad next =>
      obtain ⟨rfl, -⟩ := HTag.bits_append_inj next
      rw [List.append_cons] at ha
      exact absurd ha.of_append bad
    | ends none => exact absurd rfl (none _ _)

theorem FaultsAfter.unique {ts : List HTag} {x : Bits} {j k : FaultKind} (hj : FaultsAfter ts x j) (hk : FaultsAfter ts x k) :
    j = k := by
  cases hj with
  | corrupt t more bad next =>
    cases hk with
    | corrupt => rfl
    | ends none => exact absurd next (none _ _)
  | ends none =>
    cases hk with
    | corrupt t more bad next => exact absurd next (none _ _)
    | ends => rfl

/-- At most one fault comes first. -/
theorem HeaderFault.unique {bits : Bits} {j k : FaultKind} (hj : HeaderFault bits j) (hk : HeaderFault bits k) : j = k := by
  obtain ⟨ts, x, hts, rfl, hx⟩ := hj.faultsAfter
  obtain ⟨us, y, hus, h, hy⟩ := hk.faultsAfter
  rcases tagBits_append_eq h with ⟨vs, rfl, rfl⟩ | ⟨vs, rfl, rfl⟩
  · obtain rfl := hx.eq_nil hus.admissible
    rw [List.append_nil] at hy
    exact hx.unique hy
  · obtain rfl := hy.eq_nil hts.admissible
    rw [List.append_nil] at hx
    exact hx.unique hy

/-- No fault comes first where a header with distinct symbols stands. -/
theorem HeaderFault.not_header {t : HTree} {more : Bits} {k : FaultKind} (hd : t.syms.Nodup) :
    ¬ HeaderFault (t.hdr ++ more) k := by
  intro h
  obtain ⟨ts, x, hts, h, hk⟩ := h.faultsAfter
  rw [← t.tagBits_tags] at h
  rcases tagBits_append_eq h with ⟨vs, rfl, -⟩ | ⟨vs, hvs, rfl⟩
  · exact hts.not_tags
  · obtain rfl := hk.eq_nil (hvs ▸ HTree.tags_admissible hd)
    rw [List.append_nil] at hvs
    exact Begun.not_tags (us := []) (by rwa [List.append_nil, hvs])

/-! ## Where each fault comes first -/

/-- A turn too many is the fault `CorruptHeader`. -/
theorem Begun.corrupt {ts : List HTag} {t : HTag} (h : Begun ts) (hbad : ¬ Admissible (ts ++ [t])) (more : Bits) :
    HeaderFault (tagBits ts ++ (t.bits ++ more)) .corruptHeader := by
  cases t with
  | internal =>
    refine .tooManyInternal ts more h (le_antisymm h.few (Nat.le_of_not_lt fun hlt => hbad ?_)) rfl
    exact (h.internal hlt).admissible
  | leaf a =>
    refine .repeatedSymbol ts a more h (by_contra fun hmem => hbad ⟨?_, ?_⟩) rfl
    · simpa [leafSyms] using h.distinct.concat hmem
    · simpa [internals] using h.few

/-- The end of the stream in a turn is the fault `UnexpectedEof`. -/
theorem Begun.ends {ts : List HTag} {t : HTag} {part more : Bits} (h : Begun ts) (ht : t.bits = part ++ more)
    (hmore : more ≠ []) : HeaderFault (tagBits ts ++ part) .unexpectedEof := by
  cases part with
  | nil => exact .endBeforeTag ts h (List.append_nil _)
  | cons b part =>
    cases t with
    | internal => exact absurd (List.append_eq_nil_iff.mp (List.cons.inj ht).2.symm).2 hmore
    | leaf a =>
      obtain ⟨rfl, hpart⟩ : false = b ∧ bitsMsb a = part ++ more := List.cons.inj ht
      have hlen := congrArg List.length hpart
      rw [bitsMsb_length, List.length_append] at hlen
      exact .endInSymbol ts part h (by have := List.length_pos_of_ne_nil hmore; omega) rfl

/-- Of turns that are unfinished until the last, but too many, the first one too many is the fault. -/
theorem headerFault_of_not_admissible {ts : List HTag} {more : Bits}
    (hun : ∀ us, us <+: ts → us ≠ ts → (leafSyms us).length ≤ internals us) (hbad : ¬ Admissible ts) :
    HeaderFault (tagBits ts ++ more) .corruptHeader := by
  induction ts using List.reverseRecOn generalizing more with
  | nil => exact absurd begun_nil.admissible hbad
  | append_singleton ts t ih =>
    have hun' (us : List HTag) (hus : us <+: ts) : (leafSyms us).length ≤ internals us := by
      refine hun us (hus.trans (List.prefix_append _ _)) fun e => ?_
      have := hus.length_le
      simp [e] at this
    rw [tagBits_append, List.append_assoc, tagBits_cons, tagBits_nil, List.append_nil]
    by_cases ha : Admissible ts
    · exact Begun.corrupt ⟨hun', ha.1, ha.2⟩ hbad more
    · exact ih (fun us hus _ => hun' us hus) ha

/-- A stream that ends inside the bits of turns ends inside one of them. -/
theorem exists_turn_of_strict {ts : List HTag} {x more : Bits} (h : tagBits ts = x ++ more) (hmore : more ≠ []) :
    ∃ us t vs part rest, ts = us ++ t :: vs ∧ x = tagBits us ++ part ∧ t.bits = part ++ rest ∧ rest ≠ [] := by
  induction ts generalizing x with
  | nil => exact absurd (List.append_eq_nil_iff.mp h.symm).2 hmore
  | cons t ts ih =>
    rw [tagBits_cons] at h
    have later {y : Bits} (hx : x = t.bits ++ y) (hy : tagBits ts = y ++ more) : ∃ us u vs part rest,
        t :: ts = us ++ u :: vs ∧ x = tagBits us ++ part ∧ u.bits = part ++ rest ∧ rest ≠ [] := by
      obtain ⟨us, u, vs, part, rest, rfl, rfl, hu⟩ := ih hy
      exact ⟨t :: us, u, vs, part, rest, rfl, by rw [hx, tagBits_cons, List.append_assoc], hu⟩
    rcases List.append_eq_append_iff.mp h with ⟨y, rfl, hy⟩ | ⟨rest, ht, rfl⟩
    · exact later rfl hy
    · by_cases hrest : rest = []
      · subst hrest
        exact later (y := []) (by simpa using ht.symm) rfl
      · exact ⟨[], t, ts, x, rest, rfl, rfl, ht, hrest⟩

/-- A whole header with a repeated symbol. -/
theorem headerFault_of_repeat {t : HTree} (h : ¬ t.syms.Nodup) (more : Bits) :
    HeaderFault (t.hdr ++ more) .corruptHeader := by
  rw [← t.tagBits_tags]
  exact headerFault_of_not_admissible (fun us => t.unfinished) fun ha => h (t.leafSyms_tags ▸ ha.1)

/-- 256 internal tags in a row. -/
theorem headerFault_of_all_internal (more : Bits) : HeaderFault (List.replicate 256 true ++ more) .corruptHeader := by
  have hbits (n : Nat) : tagBits (List.replicate n .internal) = List.replicate n true := by
    induction n with
    | zero => rfl
    | succ n ih => rw [List.replicate_succ, tagBits_cons, ih]; rfl
  have hsyms (n : Nat) : leafSyms (List.replicate n .internal) = [] := by
    induction n with
    | zero => rfl
    | succ n ih => exact ih
  have hcount (n : Nat) : internals (List.replicate n .internal) = n := by
    induction n with
    | zero => rfl
    | succ n ih => rw [List.replicate_succ, internals, ih]
  rw [← hbits]
  refine headerFault_of_not_admissible (fun us hus _ => ?_) fun ha => ?_
  · rw [List.prefix_replicate_iff.mp hus |>.2, hsyms]
    exact Nat.zero_le _
  · exact absurd (hcount 256 ▸ ha.2) (by decide)

/-- A stream that ends inside the header of a tree with distinct symbols. -/
theorem headerFault_of_cut {t : HTree} {bits more : Bits} (hd : t.syms.Nodup) (h : t.hdr = bits ++ more) (hmore : more ≠ []) :
    HeaderFault bits .unexpectedEof := by
  obtain ⟨us, u, vs, part, rest, ht, rfl, hu, hrest⟩ := exists_turn_of_strict (t.tagBits_tags.trans h) hmore
  exact (HTree.begun_of_strict hd ht).ends hu hrest

end Sys2Proof.Machine
end

section
/-! PROOFS. The Huffman family, parsing: the node table in its order is the list of the turns read, so a parse that completes
has read the header of the tree it holds, and one that faults met a fault first (44_huffman.md R178, R179, R183). -/

namespace Sys2Proof.Machine

/-! ## The turns in the table -/

/-- The turn that made a node. -/
def Node.turn (n : Node) : HTag :=
  match n.kind with
  | .leaf => .leaf n.sym
  | .internal => .internal

/-- The turns of a header parse so far: each made one node, and the nodes are numbered in their order. -/
def turns (nodes : List Node) : List HTag := nodes.map Node.turn

@[simp] theorem turns_append (ms ns : List Node) : turns (ms ++ ns) = turns ms ++ turns ns := List.map_append

/-- A change of one entry that `f` does not see. -/
theorem map_modify_of_eq {α β : Type} {f : α → β} {g : α → α} (l : List α) (j : Nat) (h : ∀ a, f (g a) = f a) :
    (l.modify j g).map f = l.map f := by
  apply List.ext_getElem?
  intro i
  by_cases hij : j = i
  · cases hi : l[i]? <;> simp [hij, hi, h]
  · simp [hij]

theorem turns_setLeft (nodes : List Node) (i m : Idx) : turns (setLeft i m nodes) = turns nodes :=
  map_modify_of_eq nodes _ fun _ => rfl

theorem leafSyms_turns (nodes : List Node) : leafSyms (turns nodes) = (marks nodes).reduceOption := by
  induction nodes with
  | nil => rfl
  | cons n ns ih =>
    rw [turns, List.map_cons, ← turns, marks, List.map_cons, ← marks]
    cases hk : n.kind <;> simp [Node.turn, leafMark, hk, leafSyms, ih]

theorem internals_add_leafSyms (ts : List HTag) : internals ts + (leafSyms ts).length = ts.length := by
  induction ts with
  | nil => rfl
  | cons t ts ih => cases t <;> simp [internals, leafSyms] <;> omega

/-- The header of a copy in preorder, turn by turn. -/
theorem repAt_tags {nodes : List Node} {t : HTree} {par i : Idx} {is : List Nat} (h : RepAt nodes t par i is) :
    t.tags = is.filterMap fun j => (turns nodes)[j]? := by
  induction t generalizing par i is with
  | leaf s =>
    obtain ⟨rfl, n, hn, hk, hs, -⟩ := h
    have hn : nodes[i.toNat]? = some n := hn
    simp [HTree.tags, turns, hn, Node.turn, hk, hs]
  | node l r ihl ihr =>
    obtain ⟨n, isl, isr, hn, hk, -, -, rfl, hl, hr⟩ := h
    have hn : nodes[i.toNat]? = some n := hn
    simp [HTree.tags, ihl hl, ihr hr, turns, hn, Node.turn, hk]

theorem filterMap_range'_getElem? {α : Type} (l : List α) (k : Nat) :
    ((List.range' k (l.length - k)).filterMap fun j => l[j]?) = l.drop k := by
  have hshift (k m : Nat) : List.range' (k + 1) m = (List.range' k m).map (· + 1) := by
    simp [List.range'_eq_map_range, Nat.add_right_comm]
  induction l generalizing k with
  | nil => simp
  | cons x l ih =>
    cases k with
    | zero => simpa [List.range'_succ, hshift 0, List.filterMap_map, Function.comp_def] using ih 0
    | succ k => simpa [hshift, List.filterMap_map, Function.comp_def] using ih k

/-- A call of `ParseNode` reads the turns of the tree that it leaves a copy of. -/
theorem Parsed.turns_eq {par : Idx} {p : ParseState} {a : Idx × ParseState} (h : Parsed par p a) :
    ∃ t, RepAt a.2.node t par a.1 (List.range' p.node.length (a.2.node.length - p.node.length))
      ∧ turns a.2.node = turns p.node ++ t.tags := by
  obtain ⟨t, hrep⟩ := h.rep
  refine ⟨t, hrep, ?_⟩
  have hkept : (turns a.2.node).take p.node.length = turns p.node := by
    apply List.ext_getElem?
    intro j
    have hlen : (turns p.node).length = p.node.length := List.length_map _
    by_cases hj : j < p.node.length
    · rw [List.getElem?_take_of_lt hj, turns, List.getElem?_map, h.kept j hj, turns, List.getElem?_map]
    · rw [List.getElem?_eq_none (by rw [List.length_take]; omega), List.getElem?_eq_none (by omega)]
  have hdrop := filterMap_range'_getElem? (turns a.2.node) p.node.length
  rw [turns, List.length_map, ← turns, ← repAt_tags hrep] at hdrop
  rw [hdrop, ← hkept, List.take_append_drop]

/-! ## What a parse has read -/

section
variable {p : ParseState} {par : Idx} {fuel : Nat} {more : Bits}

theorem Parsing.internals_eq (h : Parsing p) : internals (turns p.node) = p.nint := by
  have := internals_add_leafSyms (turns p.node)
  rw [leafSyms_turns, turns, List.length_map, ← turns, h.count] at this
  omega

theorem Parsing.admissible (h : Parsing p) : Admissible (turns p.node) :=
  ⟨leafSyms_turns _ ▸ h.indexed.distinct, h.internals_eq ▸ h.few⟩

/-- A symbol with an entry in `SYMIDX` has a leaf already. -/
theorem Parsing.mem_leafSyms (h : Parsing p) {s : Byte} (hs : tabGet p.symidx s ≠ NIL) : s ∈ leafSyms (turns p.node) := by
  rw [leafSyms_turns]
  exact List.reduceOption_mem_iff.mpr (List.mem_of_getElem? ((h.indexed.index s _ hs).mp rfl))

/-- A parse that began at the reader `r` has read the bits of its turns and no others; the nodes have frequency 0. -/
structure Scanned (r : Bsr) (p : ParseState) : Prop where
  cursor : p.bsr = { r with rpos := r.rpos + (tagBits (turns p.node)).length }
  read : r.rest = tagBits (turns p.node) ++ p.bsr.rest
  freq : ∀ n ∈ p.node, n.freq = 0

/-- One more turn. -/
theorem Scanned.turn {r : Bsr} (h : Scanned r p) (n : Node) (hn : n.freq = 0) (hrest : p.bsr.rest = n.turn.bits ++ more)
    (symidx : Table Idx) (nint : Nat) :
    Scanned r { bsr := { p.bsr with rpos := p.bsr.rpos + n.turn.bits.length }, node := p.node ++ [n], symidx := symidx,
                nint := nint } := by
  have hbits : tagBits (turns (p.node ++ [n])) = tagBits (turns p.node) ++ n.turn.bits := by simp [turns]
  refine ⟨?_, ?_, ?_⟩
  · rw [hbits, h.cursor, List.length_append, ← Nat.add_assoc]
  · rw [hbits, Bsr.rest_drop, hrest, List.drop_left, h.read, hrest, List.append_assoc]
  · simpa [or_imp, forall_and, hn] using h.freq

/-- Changing links does not change what was read. -/
theorem Scanned.modify {r : Bsr} (h : Scanned r p) (j : Nat) {g : Node → Node} (ht : ∀ n, (g n).turn = n.turn)
    (hf : ∀ n, (g n).freq = n.freq) : Scanned r { p with node := p.node.modify j g } := by
  have hturns : turns (p.node.modify j g) = turns p.node := map_modify_of_eq p.node j ht
  refine ⟨hturns ▸ h.cursor, hturns ▸ h.read, ?_⟩
  have hfreq := h.freq
  rw [← List.forall_mem_map (P := (· = 0))] at hfreq ⊢
  rwa [map_modify_of_eq p.node j hf]

/-! ## `ParseNode`, one equation per way its turn can go -/

theorem parseNode_at_end (h : p.bsr.rest = []) : parseNode (fuel + 1) par p = .error (.raise .unexpectedEof) := by
  rw [parseNode, rdBit_of_rest_nil h]
  rfl

theorem parseNode_leafTag (h : p.bsr.rest = false :: more) :
    parseNode (fuel + 1) par p = parseLeaf par { p with bsr := { p.bsr with rpos := p.bsr.rpos + 1 } } := by
  rw [parseNode, (rdBit_of_rest_cons h).1]
  rfl

theorem parseNode_full (h : p.bsr.rest = true :: more) (hn : p.nint = 255) :
    parseNode (fuel + 1) par p = .error (.raise .corruptHeader) := by
  rw [parseNode, (rdBit_of_rest_cons h).1]
  exact if_pos hn

/-- `ParseNode` after an internal tag: the node without its children. -/
def withInternal (par : Idx) (p : ParseState) : ParseState where
  bsr := { p.bsr with rpos := p.bsr.rpos + 1 }
  node := p.node ++ [internalNode 0 NIL NIL par]
  symidx := p.symidx
  nint := p.nint + 1

theorem parseNode_internalTag (h : p.bsr.rest = true :: more) (hn : p.nint ≠ 255) :
    parseNode (fuel + 1) par p =
      parseNode fuel (nextIdx p.node) (withInternal par p) >>= fun a =>
        parseNode fuel (nextIdx p.node) { a.2 with node := setLeft (nextIdx p.node) a.1 a.2.node } >>= fun b =>
          .ok (nextIdx p.node, { b.2 with node := setRight (nextIdx p.node) b.1 b.2.node }) := by
  rw [parseNode, (rdBit_of_rest_cons h).1]
  exact if_neg hn

end

/-! ## Every parse ends in one of two ways -/

/-- A parse that began at the reader `r`: it completes having read its turns, or meets the first fault. -/
structure ParseEnds (r : Bsr) (e : Except Stop (Idx × ParseState)) : Prop where
  completed : Ensures e fun a => Scanned r a.2
  faulted : Raises (HeaderFault r.rest) e

theorem ParseEnds.ok {r : Bsr} {a : Idx × ParseState} (h : Scanned r a.2) : ParseEnds r (.ok a) := ⟨.ok h, .ok⟩

theorem ParseEnds.raise {r : Bsr} {k : FaultKind} (h : HeaderFault r.rest k) : ParseEnds r (raise k) := ⟨.raise, .raise h⟩

theorem ParseEnds.bind {r : Bsr} {e : Except Stop (Idx × ParseState)}
    {f : Idx × ParseState → Except Stop (Idx × ParseState)} (he : ParseEnds r e) (hf : ∀ a, e = .ok a → ParseEnds r (f a)) :
    ParseEnds r (e >>= f) := by
  cases e with
  | error x =>
    refine ⟨nofun, fun k hk => ?_⟩
    cases hk
    exact he.faulted k rfl
  | ok a => exact hf a rfl

section
variable {r : Bsr} {p : ParseState} {par : Idx} {more : Bits}

theorem parseLeaf_of_rdByte {v : Byte} {q : Bsr} (hv : rdByte p.bsr = .ok (v, q)) :
    parseLeaf par p =
      if tabGet p.symidx v ≠ NIL then raise .corruptHeader
      else .ok (nextIdx p.node, { p with
        bsr := q, node := p.node ++ [leafNode v 0 par], symidx := tabSet p.symidx v (nextIdx p.node) }) := by
  rw [parseLeaf, hv]
  rfl

/-- The leaf branch, with the reader `q` after the tag: the stream ends inside the symbol, or the symbol has a leaf already,
or there is one more turn. -/
theorem parseLeaf_ends {q : Bsr} (h : Parsing p) (hs : Scanned r p) (hb : Begun (turns p.node))
    (hrest : p.bsr.rest = false :: q.rest) (hq : q = { p.bsr with rpos := p.bsr.rpos + 1 }) :
    ParseEnds r (parseLeaf par { p with bsr := q }) := by
  have hread := hs.read
  rw [hrest] at hread
  cases hv : rdByte q with
  | error e =>
    obtain ⟨rfl, hshort⟩ := rdByte_error hv
    rw [parseLeaf, hv]
    exact .raise (.endInSymbol _ q.rest hb (by rw [Bsr.rest_length]; omega) hread)
  | ok a =>
    obtain ⟨v, hv', hbits⟩ := rdByte_ok (rdByte_frame hv).2.2
    have hsplit : q.rest = bitsMsb v ++ q.rest.drop 8 := by rw [hbits, List.take_append_drop]
    rw [hsplit] at hread hrest
    rw [parseLeaf_of_rdByte (p := { p with bsr := q }) hv']
    by_cases hseen : tabGet p.symidx v = NIL
    · have hnew := hs.turn (leafNode v 0 par) rfl hrest (tabSet p.symidx v (nextIdx p.node)) p.nint
      have hcursor : p.bsr.rpos + (leafNode v 0 par).turn.bits.length = q.rpos + 8 := by
        simp [hq, leafNode, Node.turn, HTag.bits]
      rw [hcursor] at hnew
      rw [if_neg (not_not.mpr hseen)]
      subst hq
      exact .ok hnew
    · rw [if_pos hseen]
      exact .raise (.repeatedSymbol _ v _ hb (h.mem_leafSyms hseen) hread)

/-- After the first child of a new node the header goes on with the second, and the new node is counted. -/
theorem Parsing.second_child {a : Idx × ParseState} (h : Parsing p) (hb : Begun (turns p.node))
    (ha : Parsed (nextIdx p.node) (withInternal par p) a) : Begun (turns a.2.node) ∧ p.nint + 1 ≤ a.2.nint := by
  obtain ⟨t, -, ht⟩ := ha.turns_eq
  have ht : turns a.2.node = turns p.node ++ [.internal] ++ t.tags := ht.trans (congrArg (· ++ t.tags) (turns_append _ _))
  refine ⟨ht ▸ hb.child t (ht ▸ ha.parsing.admissible), ?_⟩
  rw [← h.internals_eq, ← ha.parsing.internals_eq, ht, internals_append, internals_append]
  exact Nat.le_add_right _ _

/-- With 255 internal nodes at most, the first argument is enough, so each end of `ParseNode` is one of its rule. -/
theorem parseNode_ends {fuel : Nat} (h : Parsing p) (hs : Scanned r p) (hb : Begun (turns p.node))
    (hfuel : 256 ≤ fuel + p.nint) : ParseEnds r (parseNode fuel par p) := by
  induction fuel generalizing par p with
  | zero => exact absurd h.few (by omega)
  | succ fuel ih =>
    have hread := hs.read
    match hrest : p.bsr.rest with
    | [] =>
      rw [parseNode_at_end hrest]
      rw [hrest, List.append_nil] at hread
      exact .raise (.endBeforeTag _ hb hread)
    | false :: more =>
      rw [parseNode_leafTag hrest]
      have htail := (rdBit_of_rest_cons hrest).2
      exact parseLeaf_ends h hs hb (htail ▸ hrest) rfl
    | true :: more =>
      rw [hrest] at hread
      by_cases hn : p.nint = 255
      · rw [parseNode_full hrest hn]
        exact .raise (.tooManyInternal _ more hb (h.internals_eq.trans hn) hread)
      · rw [parseNode_internalTag hrest hn]
        obtain ⟨-, h1⟩ := h.internal hn par { p.bsr with rpos := p.bsr.rpos + 1 }
        have hs1 : Scanned r (withInternal par p) := hs.turn (internalNode 0 NIL NIL par) rfl hrest _ _
        have ht1 : turns (withInternal par p).node = turns p.node ++ [.internal] := turns_append _ _
        have hb1 := ht1 ▸ hb.internal (h.internals_eq ▸ lt_of_le_of_ne h.few hn)
        have hend1 := ih (par := nextIdx p.node) h1 hs1 hb1 (by dsimp only; omega)
        refine hend1.bind fun a ha => ?_
        have hparsed := parseNode_parsed h1 a ha
        obtain ⟨hb2, hnint⟩ := h.second_child hb hparsed
        have h2 := hparsed.parsing.of_marks (marks_setLeft a.2.node (nextIdx p.node) a.1)
        have hs2 := (hend1.completed a ha).modify (nextIdx p.node).toNat (g := fun n => { n with left := a.1 })
          (fun _ => rfl) fun _ => rfl
        have hend2 := ih (par := nextIdx p.node) h2 hs2 ((turns_setLeft ..).symm ▸ hb2) (by dsimp only; omega)
        refine hend2.bind fun b hb => .ok ?_
        exact (hend2.completed b hb).modify _ (fun _ => rfl) fun _ => rfl

end

/-! ## `ParseTree` -/

/-- What reading the header of `t` from the reader `r` leaves: the reader just after it, and a unit that holds `t`, numbered
in preorder, with frequencies 0 and the `FREQ` it had (44_huffman.md R178, R179). -/
structure HeaderRead (r : Bsr) (f : Table Count) (t : HTree) (a : Bsr × Huf) : Prop where
  cursor : a.1 = { r with rpos := r.rpos + t.hdr.length }
  holds : HoldsTree a.2 t
  preorder : RepAt a.2.node t NIL a.2.root (List.range a.2.node.length)
  freq : a.2.freq = f
  zero : ∀ n ∈ a.2.node, n.freq = 0

section
variable {r : Bsr} {g : Huf}

/-- The state in which `ParseTree()` calls `ParseNode(NIL)`. -/
def parseStart (r : Bsr) : ParseState := { bsr := r, node := [], symidx := tabFill NIL, nint := 0 }

theorem parseStart_parsing (r : Bsr) : Parsing (parseStart r) := ⟨indexed_nil, rfl, Nat.zero_le _⟩

theorem parseStart_ends (r : Bsr) : ParseEnds r (parseNode 256 NIL (parseStart r)) :=
  parseNode_ends (parseStart_parsing r) ⟨rfl, rfl, nofun⟩ begun_nil (Nat.le_refl _)

theorem parseTree_completed :
    Ensures (parseTree r g) fun a => ∃ t, HeaderRead r g.freq t a ∧ r.rest = t.hdr ++ a.1.rest := by
  refine .bind_of (Q := fun b => parseNode 256 NIL (parseStart r) = .ok b) (fun b hb => hb) fun b hb => .ok ?_
  obtain ⟨hcursor, hread, hzero⟩ := (parseStart_ends r).completed b hb
  have hparsed := parseNode_parsed (parseStart_parsing r) b hb
  obtain ⟨t, hrep, hturns⟩ := hparsed.turns_eq
  rw [parseStart, List.length_nil, Nat.sub_zero, ← List.range_eq_range'] at hrep
  have htags : tagBits (turns b.2.node) = t.hdr := by
    rw [hturns, ← t.tagBits_tags]
    rfl
  rw [htags] at hcursor hread
  exact ⟨t, ⟨hcursor, holdsTree_of_repAt rfl hrep (.refl _) hparsed.parsing.indexed, hrep, rfl, hzero⟩, hread⟩

theorem parseTree_faulted {e : Stop} (h : parseTree r g = .error e) : ∃ k, e = .raise k ∧ HeaderFault r.rest k := by
  have hraises : Raises (HeaderFault r.rest) (parseTree r g) := .bind (parseStart_ends r).faulted fun _ => .ok
  rcases parseTree_error h with rfl | rfl
  · exact ⟨_, rfl, hraises _ h⟩
  · exact ⟨_, rfl, hraises _ h⟩

/-- A stream that goes on with the header of a tree with distinct symbols is parsed as that tree. -/
theorem parseTree_of_header {t : HTree} {more : Bits} (hd : t.syms.Nodup) (hrest : r.rest = t.hdr ++ more) :
    ∃ a, parseTree r g = .ok a ∧ HeaderRead r g.freq t a := by
  cases h : parseTree r g with
  | error e =>
    obtain ⟨k, -, hk⟩ := parseTree_faulted h
    exact absurd (hrest ▸ hk) (HeaderFault.not_header hd)
  | ok a =>
    obtain ⟨u, hu, hread⟩ := parseTree_completed a h
    obtain ⟨rfl, -⟩ := HTree.hdr_append_inj (hrest.symm.trans hread)
    exact ⟨a, rfl, hu⟩

/-- A stream that meets a fault first is not parsed, and no other fault is raised. -/
theorem parseTree_of_headerFault {k : FaultKind} (h : HeaderFault r.rest k) : parseTree r g = .error (.raise k) := by
  cases hp : parseTree r g with
  | error e =>
    obtain ⟨j, rfl, hj⟩ := parseTree_faulted hp
    rw [h.unique hj]
  | ok a =>
    obtain ⟨t, ht, hread⟩ := parseTree_completed a hp
    exact absurd (hread ▸ h) (HeaderFault.not_header ht.holds.distinct)

end

/-! ## `HUF.RHDR` -/

/-- Everything `HUF.RHDR` can do when it answers, by the stream at the cursor (44_huffman.md R179). -/
theorem exec_hufRhdr_cases {s t : State} (h : exec .hufRhdr s = .next t) :
    (∃ (a : Bsr × Huf) (tr : HTree), t = completed { s with bsr := a.1, huf := a.2 } 0 false ∧ tr.syms.Nodup
        ∧ s.bsr.rest = tr.hdr ++ a.1.rest)
      ∨ ∃ k, t = enterFault k s ∧ HeaderFault s.bsr.rest k := by
  cases hp : parseTree s.bsr s.huf with
  | error e =>
    obtain ⟨k, rfl, hk⟩ := parseTree_faulted hp
    exact .inr ⟨k, Host.Outcome.next.inj (h.symm.trans (conclude_bind_raise hp)), hk⟩
  | ok a =>
    obtain ⟨tr, htr, hread⟩ := parseTree_completed a hp
    exact .inl ⟨a, tr, Host.Outcome.next.inj (h.symm.trans (conclude_bind_ok hp)), htr.holds.distinct, hread⟩

theorem hufRhdr_faults {s : State} {k : FaultKind} (h : HeaderFault s.bsr.rest k) : FaultsWith .hufRhdr s k :=
  faultsWith_of_exec (conclude_bind_raise (parseTree_of_headerFault h))

/-- Settles O43: a parse that completes has read the header of the tree it holds, which the bits fix; a parse of a header with
distinct symbols meets no fault. -/
theorem rhdrParsesExactlyHeaders : Obligations.RhdrParsesExactlyHeaders := by
  refine ⟨encodedAs_of_encode_eq rfl (by decide), fun s tr more hd hrest => ?completes, fun s t hs h ht => ?sound⟩
  case completes =>
    obtain ⟨⟨q, h⟩, hp, hcursor, hholds, hpreorder, hfreq, hzero⟩ := parseTree_of_header (g := s.huf) hd hrest
    exact ⟨h, hcursor ▸ conclude_bind_ok hp, hholds, hpreorder, hfreq, hzero⟩
  case sound =>
    rcases exec_hufRhdr_cases h with ⟨a, tr, -, hd, hread⟩ | ⟨k, rfl, -⟩
    · exact ⟨tr, a.1.rest, hd, hread⟩
    · exact absurd ht (by simp)

/-- Settles O44: each listed condition is the fault that comes first, and at most one fault comes first. -/
theorem rhdrFaultsByReadingOrder : Obligations.RhdrFaultsByReadingOrder := by
  refine ⟨fun s k => hufRhdr_faults, fun s t hs h ht => ?faulted, fun s tr more hrep hrest => ?repeated,
    fun s more hrest => ?internal, fun s tr more hd hcut hmore => hufRhdr_faults (headerFault_of_cut hd hcut hmore)⟩
  case faulted =>
    rcases exec_hufRhdr_cases h with ⟨a, tr, rfl, -⟩ | ⟨k, rfl, hk⟩
    · exact absurd (hs.symm.trans ht) (by decide)
    · exact ⟨k, hk, rfl⟩
  case repeated => exact hufRhdr_faults (hrest ▸ headerFault_of_repeat hrep more)
  case internal => exact hufRhdr_faults (hrest ▸ headerFault_of_all_internal more)

/-! ## The tree built, written and parsed again -/

/-- Two units that hold the same tree have the same symbols and codewords. -/
theorem HoldsTree.same_codewords {g h : Huf} {t : HTree} (hg : HoldsTree g t) (hh : HoldsTree h t) (a : Byte) :
    (tabGet g.symidx a = NIL ↔ tabGet h.symidx a = NIL)
      ∧ (tabGet h.symidx a ≠ NIL → codeword g a = codeword h a) := by
  refine ⟨hg.symidx_eq_NIL_iff.trans hh.symidx_eq_NIL_iff.symm, fun ha => ?_⟩
  obtain ⟨u, hu⟩ := HTree.exists_code (not_not.mp (hh.symidx_eq_NIL_iff.not.mp ha))
  rw [hg.codeword_eq hu, hh.codeword_eq hu]

/-- Settles O48: the header written is the one of the tree built, and parsing it gives that tree. -/
theorem headerRoundTripKeepsCodewords : Obligations.HeaderRoundTripKeepsCodewords := by
  intro p f h q bits r g _ hf hbuild hbits hrest
  obtain ⟨t, ht⟩ := buildTree_holdsTree (buildLeaves_ne_nil hf) _ hbuild
  obtain rfl := Except.ok.inj (ht.hdrBits_eq.symm.trans hbits)
  obtain ⟨more, hmore⟩ := hrest
  obtain ⟨⟨r', h'⟩, hp, hread⟩ := parseTree_of_header (g := g) ht.distinct hmore.symm
  exact ⟨r', h', hp, hread.cursor, hread.holds.same_codewords ht⟩

end Sys2Proof.Machine
end

section
/-! PROOFS. The Huffman family, pairs: the queue as a set of pairs (freq, index), of which a poll takes the smallest
(41_pqueue.md R122, R126, R128; 44_huffman.md R170, R171). -/

namespace Sys2Proof.Machine

/-! ## Pairs in lexicographic order -/

theorem pairLe_iff {a b : Nat × Nat} : pairLe a b = true ↔ a.1 < b.1 ∨ (a.1 = b.1 ∧ a.2 ≤ b.2) := by
  simp [pairLe]

theorem pairLe_antisymm {a b : Nat × Nat} (hab : pairLe a b = true) (hba : pairLe b a = true) : a = b := by
  rw [pairLe_iff] at hab hba
  exact Prod.ext (by omega) (by omega)

/-- Sorting finds the two smallest pairs. -/
theorem exists_two_smallest {s : List (Nat × Nat)} (h : 1 < s.length) :
    ∃ a b rest, s.insertionSort (fun a b => pairLe a b = true) = a :: b :: rest ∧ s.Perm (a :: b :: rest)
      ∧ (∀ x ∈ b :: rest, pairLe a x = true) ∧ ∀ x ∈ rest, pairLe b x = true := by
  have htotal : Std.Total fun a b : Nat × Nat => pairLe a b = true := ⟨fun a b => by simp only [pairLe_iff]; omega⟩
  have htrans : IsTrans (Nat × Nat) fun a b => pairLe a b = true := ⟨fun a b c => by simp only [pairLe_iff]; omega⟩
  have hperm := List.perm_insertionSort (fun a b : Nat × Nat => pairLe a b = true) s
  have hsorted := List.pairwise_insertionSort (fun a b : Nat × Nat => pairLe a b = true) s
  match hs : s.insertionSort (fun a b => pairLe a b = true) with
  | [] | [a] =>
    have := hperm.length_eq
    rw [hs] at this
    simp at this
    omega
  | a :: b :: rest =>
    rw [hs] at hperm hsorted
    obtain ⟨ha, hb, -⟩ := by simpa only [List.pairwise_cons] using hsorted
    exact ⟨a, b, rest, rfl, hperm.symm, ha, hb⟩

/-! ## Elements as pairs -/

/-- The pair (freq, index) that a queue element is (41_pqueue.md R121; 44_huffman.md R170). -/
def elemPair (el : Elem) : Nat × Nat := ((elemKey el).toNat, (elemPayload el).toNat)

theorem elemPayload_toNat (el : Elem) : (elemPayload el).toNat = el.toNat % 512 := by
  rw [elemPayload, BitVec.extractLsb'_toNat, Nat.shiftRight_zero]

/-- Natural ordering compares the pairs (41_pqueue.md R122). -/
theorem pairLe_elemPair {a b : Elem} : pairLe (elemPair a) (elemPair b) = true ↔ less .natural b a = false := by
  rw [pairLe_iff, notLess_natural_iff, elemPair, elemPair, elemKey_toNat, elemKey_toNat, elemPayload_toNat,
    elemPayload_toNat]
  dsimp only
  omega

theorem elemKey_elemOf (key : Key) (payload : Idx) : elemKey (elemOf key payload) = key := by
  apply BitVec.eq_of_getLsbD_eq
  intro i hi
  have h49 : 9 + i < 49 := by omega
  simp [elemKey, elemOf, hi, h49]

theorem elemPair_elemOf (key : Key) (payload : Idx) : elemPair (elemOf key payload) = (key.toNat, payload.toNat) := by
  rw [elemPair, elemKey_elemOf, elemPayload_elemOf]

/-! ## The queue as a set of pairs -/

/-- The queue is a heap in natural ordering that holds exactly the pairs `s`. -/
structure Queued (q : Pq) (s : List (Nat × Nat)) : Prop where
  ord : q.ord = .natural
  heapInv : HeapInv q.ord q.heap
  pairs : (q.heap.map elemPair).Perm s

section
variable {q q' : Pq} {s : List (Nat × Nat)}

theorem Queued.length_eq (h : Queued q s) : q.heap.length = s.length := by simpa using h.pairs.length_eq

theorem Queued.of_perm {s' : List (Nat × Nat)} (h : Queued q s) (hp : s.Perm s') : Queued q s' :=
  ⟨h.ord, h.heapInv, h.pairs.trans hp⟩

theorem Queued.offer {m : Nat} {el : Elem} (h : Queued q s) (ho : pqOffer m el q = .ok q') :
    Queued q' (elemPair el :: s) where
  ord := (pqOffer_cases ho).2.1.trans h.ord
  heapInv := pqOffer_heapInv ho h.heapInv
  pairs := ((pqOffer_perm ho).map elemPair).trans (h.pairs.cons _)

/-- A poll takes the smallest pair away. -/
theorem Queued.poll {a : Nat × Nat} (h : Queued q (a :: s)) (hmin : ∀ x ∈ s, pairLe a x = true) :
    elemPair (pqPoll q).1 = a ∧ Queued (pqPoll q).2 s := by
  have hne : q.heap ≠ [] := List.ne_nil_of_length_pos (by rw [h.length_eq]; exact Nat.succ_pos _)
  have hperm : (elemPair (pqPoll q).1 :: (pqPoll q).2.heap.map elemPair).Perm (a :: s) :=
    ((pqPoll_perm hne).map elemPair).symm.trans h.pairs
  have heq : elemPair (pqPoll q).1 = a := by
    obtain ⟨el, hel, ha⟩ := List.mem_map.mp (h.pairs.mem_iff.mpr (List.mem_cons_self ..))
    have hroot : pairLe (elemPair (pqPoll q).1) a = true := ha ▸ pairLe_elemPair.mpr (h.ord ▸ h.heapInv.root_min hel)
    rcases List.mem_cons.mp (hperm.mem_iff.mp (List.mem_cons_self ..)) with heq | hmem
    · exact heq
    · exact pairLe_antisymm hroot (hmin _ hmem)
  exact ⟨heq, h.ord, pqPoll_heapInv h.heapInv, (List.perm_cons a).mp (heq ▸ hperm)⟩

end

/-! ## Capacities -/

/-- `c` is the least d·2^j that is at least `n` (44_huffman.md R173). -/
def LeastCap (d n c : Nat) : Prop := ∃ j, c = d * 2 ^ j ∧ n ≤ c ∧ (j = 0 ∨ d * 2 ^ (j - 1) < n)

/-- An element more, with room for it or in a queue that doubles. -/
theorem LeastCap.succ {d n c : Nat} (h : LeastCap d n c) (hd : 1 ≤ d) :
    LeastCap d (n + 1) (if n = c then 2 * c else c) := by
  obtain ⟨j, hc, hn, hj⟩ := h
  by_cases hfull : n = c
  · have hpos : 1 ≤ c := hc ▸ Nat.mul_pos hd (Nat.two_pow_pos j)
    refine ⟨j + 1, ?_, ?_, .inr ?_⟩
    · rw [if_pos hfull, hc, Nat.pow_succ]
      ring
    · rw [if_pos hfull]
      omega
    · rw [Nat.add_sub_cancel, ← hc]
      omega
  · exact ⟨j, by rw [if_neg hfull, hc], by rw [if_neg hfull]; omega, hj.imp_right fun h => by omega⟩

theorem isPow2_iff {n : Nat} : isPow2 n = true ↔ 2 ^ n.log2 = n := by simp [isPow2]

/-- Below 256 elements a full queue can double: capacities are powers of two and PQ_MAX is at least 256 (00_scope.md R9). -/
theorem LeastCap.double_le {p : Params} {n : Nat} (hp : p.legal = true) (h : LeastCap p.pqDefaultCap n n) (hn : n < 256) :
    2 * n ≤ p.pqMax := by
  simp only [Params.legal, Bool.and_eq_true, decide_eq_true_eq, isPow2_iff] at hp
  obtain ⟨j, hc, -, -⟩ := h
  rw [← hp.1.2, ← Nat.pow_add] at hc
  have hexp : p.pqDefaultCap.log2 + j < 8 := (Nat.pow_lt_pow_iff_right (by decide : 1 < 2)).mp (hc ▸ hn)
  have hle : 2 ^ (p.pqDefaultCap.log2 + j + 1) ≤ 2 ^ 8 := Nat.pow_le_pow_right (by decide) hexp
  rw [Nat.pow_succ, ← hc] at hle
  omega

end Sys2Proof.Machine
end

section
/-! PROOFS. The Huffman family, construction: the merge loop with the queue follows the one without it, and what it leaves
(44_huffman.md R169 to R174). -/

namespace Sys2Proof.Machine

/-! ## Node tables up to parents -/

/-- The nodes without their links to parents: all of the table that construction never changes. -/
def unlinked (nodes : List Node) : List Node := nodes.map fun n => { n with parent := NIL }

@[simp] theorem unlinked_length (nodes : List Node) : (unlinked nodes).length = nodes.length := List.length_map _

theorem unlinked_setParent (nodes : List Node) (i m : Idx) : unlinked (setParent i m nodes) = unlinked nodes :=
  map_modify_of_eq nodes _ fun _ => rfl

theorem unlinked_joinNodes (nodes : List Node) (freq : Key) (a b : Idx) :
    unlinked (joinNodes nodes freq a b) = unlinked nodes ++ [internalNode freq a b NIL] := by
  rw [joinNodes, unlinked_setParent, unlinked_setParent, unlinked, List.map_append]
  rfl

theorem unlinked_getElem?_eq_some {nodes : List Node} {i : Nat} {u : Node} :
    (unlinked nodes)[i]? = some u ↔ ∃ n, nodes[i]? = some n ∧ ({ n with parent := NIL } : Node) = u := by
  simp [unlinked]

theorem marks_unlinked (nodes : List Node) : marks (unlinked nodes) = marks nodes := by
  simp [marks, unlinked, leafMark]

/-- The frequency of each internal node is the sum of its children's (44_huffman.md R170). -/
def SumsOfChildren (nodes : List Node) : Prop :=
  ∀ n ∈ nodes, n.kind = .internal →
    ∃ l r, nodeAt nodes n.left = some l ∧ nodeAt nodes n.right = some r ∧ n.freq.toNat = l.freq.toNat + r.freq.toNat

/-- A node with both children in the table. -/
theorem SumsOfChildren.concat {nodes : List Node} {n l r : Node} (h : SumsOfChildren nodes) (hl : nodeAt nodes n.left = some l)
    (hr : nodeAt nodes n.right = some r) (hsum : n.freq.toNat = l.freq.toNat + r.freq.toNat) :
    SumsOfChildren (nodes ++ [n]) := by
  have hold {i : Idx} {m : Node} (hm : nodeAt nodes i = some m) : nodeAt (nodes ++ [n]) i = some m :=
    (nodeAt_append n (nodeAt_lt hm)).trans hm
  intro m hm hk
  rcases List.mem_append.mp hm with hm | hm
  · obtain ⟨l, r, hl, hr, hsum⟩ := h m hm hk
    exact ⟨l, r, hold hl, hold hr, hsum⟩
  · obtain rfl := List.mem_singleton.mp hm
    exact ⟨l, r, hold hl, hold hr, hsum⟩

theorem SumsOfChildren.of_unlinked {nodes : List Node} (h : SumsOfChildren (unlinked nodes)) : SumsOfChildren nodes := by
  intro n hn hk
  obtain ⟨l, r, hl, hr, hsum⟩ := h _ (List.mem_map_of_mem hn) hk
  obtain ⟨l', hl', rfl⟩ := unlinked_getElem?_eq_some.mp hl
  obtain ⟨r', hr', rfl⟩ := unlinked_getElem?_eq_some.mp hr
  exact ⟨l', r', hl', hr', hsum⟩

/-! ## The construction without a queue -/

theorem mergePairs_singleton (fuel : Nat) (a : Nat × Nat) (nodes : List Node) : mergePairs fuel [a] nodes = (nodes, a.2) := by
  cases fuel <;> rfl

/-- The new node above the nodes of two pairs (44_huffman.md R171). -/
def pairParent (a b : Nat × Nat) : Node :=
  internalNode (BitVec.ofNat 40 (a.1 + b.1)) (BitVec.ofNat 9 a.2) (BitVec.ofNat 9 b.2) NIL

/-- The node table after the nodes of two pairs became the children of a new node. -/
def joinPairs (nodes : List Node) (a b : Nat × Nat) : List Node :=
  joinNodes nodes (BitVec.ofNat 40 (a.1 + b.1)) (BitVec.ofNat 9 a.2) (BitVec.ofNat 9 b.2)

theorem unlinked_joinPairs (nodes : List Node) (a b : Nat × Nat) :
    unlinked (joinPairs nodes a b) = unlinked nodes ++ [pairParent a b] := unlinked_joinNodes ..

theorem joinPairs_length (nodes : List Node) (a b : Nat × Nat) : (joinPairs nodes a b).length = nodes.length + 1 := by
  simp [joinPairs, joinNodes]

/-- One turn of R171's loop. -/
theorem mergePairs_succ {fuel : Nat} {s rest : List (Nat × Nat)} {a b : Nat × Nat} (nodes : List Node)
    (h : s.insertionSort (fun a b => pairLe a b = true) = a :: b :: rest) :
    mergePairs (fuel + 1) s nodes = mergePairs fuel ((a.1 + b.1, nodes.length) :: rest) (joinPairs nodes a b) := by
  rw [mergePairs, h]
  rfl

/-- The state of R171's loop after construction began from `leaves`: `s` are the pairs of the roots, the newest node is a
root, and the number of nodes and roots together stays. -/
structure Weighed (leaves : List Node) (s : List (Nat × Nat)) (nodes : List Node) : Prop where
  total : (s.map Prod.fst).sum < 2 ^ 40
  count : nodes.length + s.length = 2 * leaves.length
  newest : nodes.length - 1 ∈ s.map Prod.snd
  weights : ∀ p ∈ s, ∃ n, (unlinked nodes)[p.2]? = some n ∧ n.freq.toNat = p.1
  leaves : ∃ ins, unlinked nodes = leaves ++ ins ∧ ∀ n ∈ ins, n.kind = .internal
  sums : SumsOfChildren (unlinked nodes)

section
variable {leaves nodes : List Node} {s s' : List (Nat × Nat)} {a b : Nat × Nat}

theorem Weighed.of_perm (h : Weighed leaves s nodes) (hp : s.Perm s') : Weighed leaves s' nodes where
  total := (hp.map Prod.fst).sum_eq ▸ h.total
  count := hp.length_eq ▸ h.count
  newest := (hp.map Prod.snd).mem_iff.mp h.newest
  weights p hp' := h.weights p (hp.mem_iff.mpr hp')
  leaves := h.leaves
  sums := h.sums

theorem Weighed.index_lt (h : Weighed leaves s nodes) {p : Nat × Nat} (hp : p ∈ s) : p.2 < nodes.length := by
  obtain ⟨n, hn, -⟩ := h.weights p hp
  simpa using (List.getElem?_eq_some_iff.mp hn).1

theorem Weighed.length_le (h : Weighed leaves s nodes) : s.length ≤ leaves.length := by
  obtain ⟨ins, hins, -⟩ := h.leaves
  have hlen := congrArg List.length hins
  have hcount := h.count
  rw [unlinked_length, List.length_append] at hlen
  omega

/-- One turn: the sum of all frequencies stays, so that of two fits a key. -/
theorem Weighed.join (h : Weighed leaves (a :: b :: s) nodes) (hlen : leaves.length ≤ 256) :
    Weighed leaves ((a.1 + b.1, nodes.length) :: s) (joinPairs nodes a b) := by
  obtain ⟨na, hna, hfa⟩ := h.weights a (by simp)
  obtain ⟨nb, hnb, hfb⟩ := h.weights b (by simp)
  obtain ⟨ins, hins, hkind⟩ := h.leaves
  have htotal := h.total
  have hcount := h.count
  have hsize := h.length_le
  simp only [List.map_cons, List.sum_cons, List.length_cons] at htotal hcount hsize
  have hfreq : (pairParent a b).freq.toNat = a.1 + b.1 := by
    rw [pairParent, internalNode, BitVec.toNat_ofNat, Nat.mod_eq_of_lt (by omega)]
  have hat {p : Nat × Nat} {n : Node} (hp : p ∈ a :: b :: s) (hn : (unlinked nodes)[p.2]? = some n) :
      nodeAt (unlinked nodes) (BitVec.ofNat 9 p.2) = some n := by
    have := h.index_lt hp
    rw [nodeAt, BitVec.toNat_ofNat, Nat.mod_eq_of_lt (by omega), hn]
  refine ⟨?total, ?count, ?newest, ?weights, ?leaves, ?sums⟩
  case total =>
    simp only [List.map_cons, List.sum_cons]
    omega
  case count =>
    rw [joinPairs_length, List.length_cons]
    omega
  case newest => simp [joinPairs_length]
  case weights =>
    rw [unlinked_joinPairs]
    intro p hp
    rcases List.mem_cons.mp hp with rfl | hp
    · exact ⟨pairParent a b, by simp, hfreq⟩
    · obtain ⟨n, hn, hf⟩ := h.weights p (by simp [hp])
      exact ⟨n, (List.getElem?_append_left (List.getElem?_eq_some_iff.mp hn).1).trans hn, hf⟩
  case leaves =>
    refine ⟨ins ++ [pairParent a b], by rw [unlinked_joinPairs, hins, List.append_assoc], fun n hn => ?_⟩
    rcases List.mem_append.mp hn with hn | hn
    · exact hkind n hn
    · rw [List.mem_singleton.mp hn]
      rfl
  case sums =>
    rw [unlinked_joinPairs]
    exact h.sums.concat (hat (by simp) hna) (hat (by simp) hnb) (by rw [hfreq, hfa, hfb])

/-! ## The construction with the queue -/

variable {q : Pq} {m fuel : Nat}

/-- One turn of R170's loop takes the two smallest pairs out of the queue and puts their parent's in. -/
theorem Queued.mergeStep (h : Queued q (a :: b :: s)) (ha : ∀ x ∈ b :: s, pairLe a x = true)
    (hb : ∀ x ∈ s, pairLe b x = true) (hsum : a.1 + b.1 < 2 ^ 40) (hlen : nodes.length < 512)
    (hcap : q.heap.length ≤ q.cap) :
    ∃ q', mergeStep m q nodes = .ok (q', joinPairs nodes a b)
      ∧ Queued q' ((a.1 + b.1, nodes.length) :: s) ∧ q'.cap = q.cap := by
  obtain ⟨hpa, h1⟩ := h.poll ha
  obtain ⟨hpb, h2⟩ := h1.poll hb
  have hsize := h.length_eq
  have hroom : (pqPoll (pqPoll q).2).2.heap.length ≠ (pqPoll (pqPoll q).2).2.cap := by
    rw [h2.length_eq, pqPoll_cap, pqPoll_cap]
    simp at hsize
    omega
  have hkey : elemKey (pqPoll q).1 + elemKey (pqPoll (pqPoll q).2).1 = BitVec.ofNat 40 (a.1 + b.1) := by
    rw [← hpa, ← hpb, elemPair, elemPair, BitVec.ofNat_add, BitVec.ofNat_toNat, BitVec.ofNat_toNat]
    simp
  have hia : elemPayload (pqPoll q).1 = BitVec.ofNat 9 a.2 := by simp [← hpa, elemPair]
  have hib : elemPayload (pqPoll (pqPoll q).2).1 = BitVec.ofNat 9 b.2 := by simp [← hpb, elemPair]
  obtain ⟨q', ho⟩ : ∃ q',
      pqOffer m (elemOf (BitVec.ofNat 40 (a.1 + b.1)) (nextIdx nodes)) (pqPoll (pqPoll q).2).2 = .ok q' :=
    ⟨_, pqOffer_ok fun hfull => absurd hfull hroom⟩
  have hpair : elemPair (elemOf (BitVec.ofNat 40 (a.1 + b.1)) (nextIdx nodes)) = (a.1 + b.1, nodes.length) := by
    rw [elemPair_elemOf, nextIdx_toNat hlen, BitVec.toNat_ofNat, Nat.mod_eq_of_lt hsum]
  refine ⟨q', ?_, hpair ▸ h2.offer ho, ?_⟩
  · rw [mergeStep_eq, hkey, hia, hib, ho]
    rfl
  · rcases (pqOffer_cases ho).2.2 with ⟨-, hsame⟩ | ⟨hfull, -⟩
    · exact hsame
    · exact absurd hfull hroom

/-- R170's loop makes the same nodes as R171's, and ends with the same root in the queue. -/
theorem mergeLoop_eq (hq : Queued q s) (hw : Weighed leaves s nodes) (hlen : leaves.length ≤ 256)
    (hcap : leaves.length ≤ q.cap) (hne : s ≠ []) (hfuel : s.length ≤ fuel + 1) :
    ∃ q' a, mergeLoop m fuel q nodes = .ok (q', (mergePairs fuel s nodes).1) ∧ (mergePairs fuel s nodes).2 = a.2
      ∧ Queued q' [a] ∧ Weighed leaves [a] (mergePairs fuel s nodes).1 ∧ q'.cap = q.cap := by
  induction fuel generalizing q s nodes with
  | zero =>
    obtain ⟨a, rfl⟩ := List.length_eq_one_iff.mp (le_antisymm hfuel (List.length_pos_of_ne_nil hne))
    exact ⟨q, a, rfl, rfl, hq, hw, rfl⟩
  | succ fuel ih =>
    rw [mergeLoop, hq.length_eq]
    by_cases hc : s.length > 1
    · obtain ⟨a, b, rest, hsort, hperm, ha, hb⟩ := exists_two_smallest hc
      have hcount := hw.count
      have hsize := hw.length_le
      have hw := hw.of_perm hperm
      have htotal := hw.total
      simp only [List.map_cons, List.sum_cons] at htotal
      have hlength := hperm.length_eq
      obtain ⟨q', hstep, hq', hcap'⟩ := (hq.of_perm hperm).mergeStep (m := m) (nodes := nodes) ha hb (by omega) (by omega)
        (by rw [hq.length_eq]; omega)
      obtain ⟨q'', c, hloop, hroot, hqc, hwc, hcap''⟩ := ih hq' (hw.join hlen) (hcap' ▸ hcap) (List.cons_ne_nil _ _)
        (by simp at hlength ⊢; omega)
      rw [if_pos hc, hstep, mergePairs_succ nodes hsort]
      exact ⟨q'', c, hloop, hroot, hqc, hwc, hcap''.trans hcap'⟩
    · obtain ⟨a, rfl⟩ := List.length_eq_one_iff.mp (le_antisymm (Nat.le_of_not_gt hc) (List.length_pos_of_ne_nil hne))
      rw [if_neg hc, mergePairs_singleton]
      exact ⟨q, a, rfl, rfl, hq, hw, rfl⟩

/-! ## The leaves -/

theorem offerNodes_ok {p : Params} {i : Nat} {ns : List Node} (hp : p.legal = true) (hq : Queued q s)
    (hcap : LeastCap p.pqDefaultCap q.heap.length q.cap) (hlen : q.heap.length + ns.length ≤ 256)
    (hidx : i + ns.length ≤ 512) :
    ∃ q', offerNodes p.pqMax i ns q = .ok q' ∧ Queued q' ((ns.zipIdx i).map (fun p => (p.1.freq.toNat, p.2)) ++ s)
      ∧ LeastCap p.pqDefaultCap (q.heap.length + ns.length) q'.cap := by
  induction ns generalizing i q s with
  | nil => exact ⟨q, rfl, hq, hcap⟩
  | cons n ns ih =>
    rw [List.length_cons] at hlen hidx
    have ho := pqOffer_ok (m := p.pqMax) (el := elemOf n.freq (BitVec.ofNat 9 i)) (q := q) fun hfull => by
      rw [← hfull] at hcap ⊢
      exact hcap.double_le hp (by omega)
    have hq1 := hq.offer ho
    have hlen1 : (percUp q.ord (q.heap.length + 1) (q.heap ++ [elemOf n.freq (BitVec.ofNat 9 i)])).length =
        q.heap.length + 1 := by simp
    have hcap1 := hcap.succ (pqDefaultCap_bounds hp).1
    obtain ⟨q', hq', hqueued, hleast⟩ := ih (i := i + 1) hq1 (by simpa only [hlen1] using hcap1) (by dsimp only; omega)
      (by omega)
    refine ⟨q', ?_, hqueued.of_perm ?_, ?_⟩
    · rw [offerNodes, ho]
      exact hq'
    · rw [elemPair_elemOf, BitVec.toNat_ofNat, Nat.mod_eq_of_lt (by omega), List.zipIdx_cons, List.map_cons]
      exact List.perm_middle
    · rw [List.length_cons, Nat.add_comm ns.length, ← Nat.add_assoc]
      exact hlen1 ▸ hleast

theorem unlinked_buildLeaves (f : Table Count) : unlinked (buildLeaves f).1 = (buildLeaves f).1 := by
  rw [(buildLeaves_spec f).2, unlinked, List.map_map]
  rfl

theorem exists_leafNode_of_mem {f : Table Count} {n : Node} (h : n ∈ (buildLeaves f).1) :
    ∃ a, n = leafNode a ((tabGet f a).setWidth 40) NIL := by
  rw [(buildLeaves_spec f).2] at h
  obtain ⟨a, -, rfl⟩ := List.mem_map.mp h
  exact ⟨a, rfl⟩

/-- At most 256 counts of 32 bits sum up to less than 2^40 (00_scope.md R9). -/
theorem buildLeaves_total (f : Table Count) : ((buildLeaves f).1.map fun n => n.freq.toNat).sum < 2 ^ 40 := by
  have hle : ∀ w ∈ (buildLeaves f).1.map fun n => n.freq.toNat, w ≤ 2 ^ 32 - 1 := by
    refine List.forall_mem_map.mpr fun n hn => ?_
    obtain ⟨a, rfl⟩ := exists_leafNode_of_mem hn
    have hlt := (tabGet f a).isLt
    rw [leafNode, BitVec.toNat_setWidth, Nat.mod_eq_of_lt (by omega)]
    omega
  have hsum := List.sum_le_card_nsmul _ _ hle
  rw [List.length_map, smul_eq_mul] at hsum
  have := Nat.mul_le_mul_right (2 ^ 32 - 1) (buildLeaves_length_le f)
  omega

theorem leafPairs_fst (ns : List Node) : (leafPairs ns).map Prod.fst = ns.map fun n => n.freq.toNat := by
  conv_rhs => rw [← List.zipIdx_map_fst 0 ns]
  rw [leafPairs, List.map_map, List.map_map]
  rfl

theorem leafPairs_snd (ns : List Node) : (leafPairs ns).map Prod.snd = List.range ns.length := by
  rw [List.range_eq_range', ← List.zipIdx_map_snd 0 ns, leafPairs, List.map_map]
  rfl

theorem buildLeaves_weighed {f : Table Count} (hf : freqEmpty f = false) :
    Weighed (buildLeaves f).1 (leafPairs (buildLeaves f).1) (buildLeaves f).1 := by
  have hpos := List.length_pos_of_ne_nil (buildLeaves_ne_nil hf)
  refine ⟨leafPairs_fst _ ▸ buildLeaves_total f, ?count, ?newest, ?weights,
    ⟨[], by rw [unlinked_buildLeaves, List.append_nil], nofun⟩, ?sums⟩
  case count =>
    simp [leafPairs]
    omega
  case newest =>
    rw [leafPairs_snd, List.mem_range]
    omega
  case weights =>
    intro p hp
    obtain ⟨⟨n, i⟩, hi, rfl⟩ := List.mem_map.mp hp
    exact ⟨n, by rw [unlinked_buildLeaves]; exact List.mem_zipIdx_iff_getElem?.mp hi, rfl⟩
  case sums =>
    rw [unlinked_buildLeaves]
    intro n hn hk
    obtain ⟨a, rfl⟩ := exists_leafNode_of_mem hn
    nomatch hk

end

/-! ## `BuildTree` -/

/-- What construction from a mapping with k symbols leaves: the nodes and the root of R171, in the state of its loop with one
pair, and the queue as R173 says. -/
structure Built (p : Params) (f : Table Count) (h : Huf) (q : Pq) : Prop where
  freq : h.freq = f
  nodes : (h.node, h.root.toNat) = hufBuildRef f
  weighed : ∃ w, Weighed (buildLeaves f).1 [(w, h.root.toNat)] h.node
  queue : QueueAfterBuild p (buildLeaves f).1.length q

/-- Construction from a mapping with a symbol completes, for legal parameters. -/
theorem buildTree_ok {p : Params} {f : Table Count} (hp : p.legal = true) (hf : freqEmpty f = false) :
    ∃ h q, buildTree p f = .ok (h, q) ∧ Built p f h q := by
  have hlen := buildLeaves_length_le f
  have hpos := List.length_pos_of_ne_nil (buildLeaves_ne_nil hf)
  have hinit : Queued (pqInit p.pqDefaultCap .natural) [] := ⟨rfl, heapInv_nil _, .refl _⟩
  obtain ⟨q, hoffer, hqueued, hleast⟩ := offerNodes_ok (i := 0) (ns := (buildLeaves f).1) hp hinit
    ⟨0, (Nat.mul_one _).symm, Nat.zero_le _, .inl rfl⟩ (by simpa using hlen) (by omega)
  rw [List.append_nil, ← leafPairs] at hqueued
  rw [pqInit_heap, List.length_nil, Nat.zero_add] at hleast
  have hpairs : (leafPairs (buildLeaves f).1).length = (buildLeaves f).1.length := by simp [leafPairs]
  obtain ⟨q', a, hloop, hroot, hlast, hweighed, hcap⟩ := mergeLoop_eq (m := p.pqMax) (fuel := (buildLeaves f).1.length)
    hqueued (buildLeaves_weighed hf) hlen (by obtain ⟨-, -, hle, -⟩ := hleast; exact hle)
    (List.ne_nil_of_length_pos (hpairs ▸ hpos)) (by omega)
  obtain ⟨hpair, hempty⟩ := hlast.poll nofun
  have hindex : (elemPayload (pqPoll q').1).toNat = a.2 := congrArg Prod.snd hpair
  refine ⟨{ freq := f, node := (hufBuildRef f).1, symidx := (buildLeaves f).2, root := elemPayload (pqPoll q').1,
            tree := true }, (pqPoll q').2, ?_, rfl, Prod.ext rfl (hindex.trans hroot.symm), ⟨a.1, ?_⟩, ?_, hempty.ord,
          hcap ▸ hleast⟩
  · rw [buildTree_eq, hoffer]
    change mergeLoop _ _ _ _ >>= _ = _
    rw [hloop]
    rfl
  · rw [hindex]
    exact hweighed
  · exact List.eq_nil_of_length_eq_zero hempty.length_eq

/-- Settles O41: sorting and the queue find the same two smallest pairs at every turn. -/
theorem buildEqualsHeapFreeConstruction : Obligations.BuildEqualsHeapFreeConstruction := by
  intro p f hp hf
  obtain ⟨h, q, hbuild, hbuilt⟩ := buildTree_ok hp hf
  exact ⟨h, q, hbuild, hbuilt.nodes⟩

/-! ## `HUF.BUILD` -/

/-- The symbols of the mapping, in ascending order (10_state.md R34). -/
theorem filter_pos_eq (f : Table Count) :
    (allSyms.filter fun a => 0 < tabGet f a) = allSyms.filter fun a => tabGet f a ≠ 0 :=
  List.filter_congr fun a _ => by simp [BitVec.pos_iff_ne_zero]

section
variable {p : Params} {f : Table Count} {h : Huf} {q : Pq}

theorem Built.leaf (hb : Built p f h q) {i : Nat} {a : Byte}
    (ha : (allSyms.filter fun a => tabGet f a ≠ 0)[i]? = some a) :
    ∃ n : Node, h.node[i]? = some n ∧ n.kind = .leaf ∧ n.sym = a ∧ n.freq = (tabGet f a).setWidth 40 := by
  obtain ⟨w, hw⟩ := hb.weighed
  obtain ⟨ins, hins, -⟩ := hw.leaves
  have hleaf : (buildLeaves f).1[i]? = some (leafNode a ((tabGet f a).setWidth 40) NIL) := by
    rw [(buildLeaves_spec f).2, filter_pos_eq, List.getElem?_map, ha]
    rfl
  have hunlinked : (unlinked h.node)[i]? = some (leafNode a ((tabGet f a).setWidth 40) NIL) := by
    rw [hins, List.getElem?_append_left (List.getElem?_eq_some_iff.mp hleaf).1, hleaf]
  obtain ⟨n, hn, heq⟩ := unlinked_getElem?_eq_some.mp hunlinked
  exact ⟨n, hn, congrArg Node.kind heq, congrArg Node.sym heq, congrArg Node.freq heq⟩

theorem Built.syms_perm (hb : Built p f h q) {t : HTree} (ht : HoldsTree h t) :
    t.syms.Perm (allSyms.filter fun a => tabGet f a ≠ 0) := by
  obtain ⟨w, hw⟩ := hb.weighed
  obtain ⟨ins, hins, hkind⟩ := hw.leaves
  have hnone : (marks ins).reduceOption = [] := by
    rw [List.reduceOption, marks, List.filterMap_map, List.filterMap_eq_nil_iff]
    intro n hn
    simp [leafMark, hkind n hn]
  have hleaves : (marks (buildLeaves f).1).reduceOption = allSyms.filter fun a => tabGet f a ≠ 0 := by
    rw [(buildLeaves_spec f).2, filter_pos_eq, List.reduceOption, marks, List.map_map, List.filterMap_map]
    exact List.filterMap_some
  have hmarks : (marks h.node).reduceOption = allSyms.filter fun a => tabGet f a ≠ 0 := by
    rw [← marks_unlinked, hins, marks, List.map_append, ← marks, ← marks, List.reduceOption_append, hnone,
      List.append_nil, hleaves]
  exact hmarks ▸ ht.syms_perm

end

theorem exec_hufBuild_ok {s : State} {h : Huf} {q : Pq} (hf : freqEmpty s.huf.freq = false)
    (hb : buildTree s.params s.huf.freq = .ok (h, q)) :
    exec .hufBuild s = .next (completed { s with huf := h, pq := q } 0 false) :=
  (congrArg (conclude s) (if_neg (by simp [hf]))).trans (conclude_bind_ok hb)

/-- Settles O40: the loop joins copies until one is left, which holds the tree, and `Weighed` counts and weighs its nodes. -/
theorem hufBuildMakesTree : Obligations.HufBuildMakesTree := by
  refine ⟨encodedAs_of_encode_eq rfl (by decide), fun s => ⟨fun hzero => ?empty, fun hp ⟨a, ha⟩ => ?builds⟩⟩
  case empty => exact faultsWith_of_exec (congrArg (conclude s) (if_pos (freqEmpty_iff.mpr hzero)))
  case builds =>
    have hf : freqEmpty s.huf.freq = false := Bool.eq_false_iff.mpr fun he => ha (freqEmpty_iff.mp he a)
    obtain ⟨h, q, hbuild, hb⟩ := buildTree_ok hp hf
    obtain ⟨t, ht⟩ := buildTree_holdsTree (buildLeaves_ne_nil hf) _ hbuild
    obtain ⟨w, hw⟩ := hb.weighed
    have hk : (buildLeaves s.huf.freq).1.length = (allSyms.filter fun a => tabGet s.huf.freq a ≠ 0).length := by
      rw [(buildLeaves_spec _).2, List.length_map, filter_pos_eq]
    have hcount := hw.count
    have hnewest := hw.newest
    rw [hk] at hcount
    simp only [List.map_cons, List.map_nil, List.mem_singleton] at hnewest
    refine ⟨h, q, t, exec_hufBuild_ok hf hbuild, ht, hb.syms_perm ht, hb.freq, hcount, ?_, fun i a => hb.leaf,
      hw.sums.of_unlinked, hk ▸ hb.queue⟩
    have := hw.index_lt (List.mem_singleton_self _)
    omega

end Sys2Proof.Machine
end

section
/-! PROOFS. The Huffman family, frequencies: the three commands that write the frequency table (44_huffman.md R166 to R168). -/

namespace Sys2Proof.Machine

theorem encodedAs_hufFset (sym : Byte) (count : Count) :
    EncodedAs (.hufFset sym count) (0x6100000000000000 ||| count.setWidth 64 <<< 8 ||| sym.setWidth 64) := by
  have hop : (0x61 : BitVec 8).setWidth 64 <<< 56 = ((0x6100000000000000 : Nat) : CmdWord) := by decide
  refine encodedAs_of_encode_eq rfl ?_
  rw [encode, Instr.opcode, Instr.arg, hop, BitVec.setWidth_or, setWidth_field count (by decide),
    setWidth_field sym (by decide), BitVec.shiftLeft_zero, ← BitVec.or_assoc]

/-- Counting adds to each entry the number of times that its byte occurs, modulo 2^32. -/
theorem tabGet_foldl_count (x : List Byte) (f : Table Count) (a : Byte) :
    tabGet (x.foldl (fun f b => tabSet f b (tabGet f b + 1)) f) a = tabGet f a + BitVec.ofNat 32 (x.count a) := by
  induction x generalizing f with
  | nil => simp
  | cons b x ih =>
    rw [List.foldl_cons, ih, tabGet_tabSet, List.count_cons]
    by_cases h : a = b
    · subst h
      rw [if_pos rfl, if_pos (beq_self_eq_true a), BitVec.ofNat_add, BitVec.add_assoc, BitVec.add_comm 1]
      rfl
    · rw [if_neg h, if_neg (by simpa using Ne.symm h), Nat.add_zero]

/-- Fewer than 2^32 bytes are counted exactly (44_huffman.md R168). -/
theorem tabGet_countBytes_toNat {x : List Byte} (h : x.length < 2 ^ 32) (a : Byte) :
    (tabGet (countBytes x) a).toNat = x.count a := by
  have hle : x.count a ≤ x.length := List.count_le_length
  have hcount : tabGet (countBytes x) a = BitVec.ofNat 32 (x.count a) := by
    rw [countBytes, tabGet_foldl_count, tabGet_tabFill]
    exact BitVec.zero_add _
  rw [hcount, BitVec.toNat_ofNat, Nat.mod_eq_of_lt (by omega)]

/-- Settles O39: none of the three raises, and each writes the table its rule names. -/
theorem frequencyCommands : Obligations.FrequencyCommands :=
  ⟨encodedAs_of_encode_eq rfl (by decide), encodedAs_hufFset, encodedAs_of_encode_eq rfl (by decide), fun s =>
    ⟨⟨tabFill 0, rfl, tabGet_tabFill 0⟩, fun sym count => ⟨_, rfl, fun a => tabGet_tabSet s.huf.freq sym a count⟩,
      countBytes s.bsr.inp, rfl, tabGet_countBytes_toNat⟩⟩

end Sys2Proof.Machine
end

section
/-! PROOFS. The compressor family, layouts written: what the sequencer of R196 builds and writes, for a nonempty block
(45_compressors.md R195 to R197). -/

namespace Sys2Proof.Machine

/-! ## Two computations in a row -/

theorem bind_eq_ok_iff {α β : Type} {e : Except Stop α} {f : α → Except Stop β} {b : β} :
    (e >>= f) = .ok b ↔ ∃ a, e = .ok a ∧ f a = .ok b := by
  cases e with
  | error e => exact ⟨nofun, nofun⟩
  | ok a =>
    refine ⟨fun h => ⟨a, rfl, h⟩, ?_⟩
    rintro ⟨_, ⟨⟩, h⟩
    exact h

theorem wrBits_append_eq_ok {cap : Option Nat} {w w' : Bsw} {as bs : Bits} :
    wrBits cap w (as ++ bs) = .ok w' ↔ ∃ w₁, wrBits cap w as = .ok w₁ ∧ wrBits cap w₁ bs = .ok w' := by
  rw [wrBits_append]
  exact bind_eq_ok_iff

/-! ## A bit sequence padded to a byte boundary -/

/-- `WrBit` for each bit of `bs`, then `Flush()`. -/
def wrPadded (cap : Option Nat) (w : Bsw) (bs : Bits) : Except Stop Bsw := wrBits cap w bs >>= flush cap

/-- What `wrPadded` appends to the writer `w`. -/
def Bsw.padded (w : Bsw) (bs : Bits) : Bits := bs ++ padBits (w.bits.length + bs.length)

section
variable {cap : Option Nat} {w w' : Bsw} {bs : Bits}

theorem wrPadded_append (cap : Option Nat) (w : Bsw) (as bs : Bits) :
    wrPadded cap w (as ++ bs) = wrBits cap w as >>= fun w => wrPadded cap w bs := by
  rw [wrPadded, wrBits_append]
  exact bind_assoc ..

theorem wrPadded_spec (ha : w.aligned) (h : wrPadded cap w bs = .ok w') :
    Appends w w' (w.padded bs) ∧ w'.wcnt = 0 ∧ (w.within cap → w'.within cap) := by
  obtain ⟨w₁, hbits, hflush⟩ := bind_eq_ok_iff.mp h
  have happ := wrBits_appends hbits
  have ⟨hlen, _, haligned⟩ := happ
  obtain ⟨hpad, hcnt, -⟩ := flush_spec (haligned ha) hflush
  rw [hlen, List.length_append] at hpad
  exact ⟨happ.trans hpad, hcnt, fun hw => flush_within (wrBits_within bs hw hbits) hflush⟩

theorem wrPadded_error {e : Stop} (h : wrPadded cap w bs = .error e) : e = .raise .overflow := by
  cases hbits : wrBits cap w bs with
  | error e' =>
    rw [wrPadded, hbits] at h
    exact Except.error.inj h ▸ wrBits_error bs hbits
  | ok w₁ =>
    rw [wrPadded, hbits] at h
    exact (flush_error h).1

end

section
variable {s : State} {bs : Bits}

/-- Bits that stand in a writer within its capacity had room. -/
theorem room_of_appends {w : Bsw} (h : Appends s.bsw w bs) (hw : w.within s.params.outCap) : Room s bs.length := by
  intro c hc
  obtain ⟨hbits, -⟩ := h
  have hlen := congrArg List.length hbits
  rw [List.length_append, bits_length w] at hlen
  have hout := hw c hc
  have hcnt := wcnt_lt w
  omega

theorem wrPadded_ok (ha : s.bsw.aligned) (h : Room s (s.bsw.padded bs).length) :
    ∃ w, wrPadded s.params.outCap s.bsw bs = .ok w ∧ Appends s.bsw w (s.bsw.padded bs) ∧ w.wcnt = 0 := by
  rw [Bsw.padded, List.length_append] at h
  obtain ⟨w₁, h₁⟩ := wrBits_ok bs (h.mono (Nat.le_add_right _ _))
  have hlen : w₁.bits.length = s.bsw.bits.length + bs.length := by rw [(wrBits_appends h₁).1, List.length_append]
  obtain ⟨w, hw⟩ := flush_ok (cap := s.params.outCap) (w := w₁) (by
    rw [hlen, Nat.add_assoc]
    exact h)
  have hpadded : wrPadded s.params.outCap s.bsw bs = .ok w := bind_eq_ok_iff.mpr ⟨w₁, h₁, hw⟩
  obtain ⟨happ, hcnt, -⟩ := wrPadded_spec ha hpadded
  exact ⟨w, hpadded, happ, hcnt⟩

theorem wrPadded_overflow (ha : s.bsw.aligned) (hs : Memory.wf s = true) (h : ¬ Room s (s.bsw.padded bs).length) :
    wrPadded s.params.outCap s.bsw bs = .error (.raise .overflow) := by
  cases hp : wrPadded s.params.outCap s.bsw bs with
  | ok w =>
    obtain ⟨happ, -, hwithin⟩ := wrPadded_spec ha hp
    exact absurd (room_of_appends happ (hwithin (memory_wf_iff.mp hs).2)) h
  | error e => rw [wrPadded_error hp]

end

/-! ## Codewords -/

section
variable {cap : Option Nat} {h : Huf} {t : HTree} {w : Bsw}

theorem HTree.codes_cons {a : Byte} {u : Bits} (hu : t.code a = some u) (x : List Byte) :
    t.codes (a :: x) = u ++ t.codes x := by
  rw [HTree.codes, List.flatMap_cons, hu]
  rfl

/-- `Enc(sym)` writes the codeword of a symbol of the tree (44_huffman.md R180). -/
theorem HoldsTree.enc_eq {a : Byte} {u : Bits} (ht : HoldsTree h t) (hu : t.code a = some u) :
    enc cap h w a = wrBits cap w u := by
  have htree : h.tree ≠ false := by simp [ht.held]
  have hidx : tabGet h.symidx a ≠ NIL := ht.symidx_eq_NIL_iff.not.mpr (not_not.mpr (HTree.mem_syms_of_code hu))
  rw [enc, if_neg htree, if_neg hidx, ht.codeword_eq hu]
  rfl

/-- `Enc` for each byte of a sequence writes their codewords. -/
theorem HoldsTree.encAll_eq {x : List Byte} (ht : HoldsTree h t) (hx : ∀ a ∈ x, a ∈ t.syms) :
    encAll cap h w x = wrBits cap w (t.codes x) := by
  induction x generalizing w with
  | nil => rfl
  | cons a x ih =>
    obtain ⟨u, hu⟩ := HTree.exists_code (hx a (List.mem_cons_self ..))
    rw [HTree.codes_cons hu, wrBits_append, encAll, ht.enc_eq hu]
    exact congrArg _ (funext fun w₁ => ih fun b hb => hx b (List.mem_cons_of_mem _ hb))

end

/-! ## What a compressor builds -/

/-- `h`, `q` and `t` are the HUF unit, the queue and the tree that construction from the byte counts of `x` leaves. -/
structure Coder (p : Params) (x : List Byte) (h : Huf) (q : Pq) (t : HTree) : Prop where
  build : buildTree p (countBytes x) = .ok (h, q)
  holds : HoldsTree h t
  count : ∀ a, (tabGet h.freq a).toNat = x.count a
  queue : QueueAfterBuild p t.syms.length q
  covers : ∀ a ∈ x, a ∈ t.syms

theorem tabGet_countBytes_ne_zero {x : List Byte} {a : Byte} (hlen : x.length < 2 ^ 32) (ha : a ∈ x) :
    tabGet (countBytes x) a ≠ 0 := fun hzero =>
  (List.count_pos_iff.mpr ha).ne' (by rw [← tabGet_countBytes_toNat hlen a, hzero]; rfl)

theorem freqEmpty_countBytes {x : List Byte} (hx : x ≠ []) (hlen : x.length < 2 ^ 32) :
    freqEmpty (countBytes x) = false := by
  obtain ⟨a, ha⟩ := List.exists_mem_of_ne_nil x hx
  exact Bool.eq_false_iff.mpr fun he => tabGet_countBytes_ne_zero hlen ha (freqEmpty_iff.mp he a)

/-- A nonempty block of fewer than 2^32 bytes has a tree with all its bytes, for legal parameters. -/
theorem exists_coder {p : Params} {x : List Byte} (hp : p.legal = true) (hx : x ≠ []) (hlen : x.length < 2 ^ 32) :
    ∃ h q t, Coder p x h q t := by
  have hf := freqEmpty_countBytes hx hlen
  obtain ⟨h, q, hbuild, hb⟩ := buildTree_ok hp hf
  obtain ⟨t, ht⟩ := buildTree_holdsTree (buildLeaves_ne_nil hf) _ hbuild
  have hsyms := hb.syms_perm ht
  have hk : (buildLeaves (countBytes x)).1.length = t.syms.length := by
    rw [(buildLeaves_spec _).2, List.length_map, filter_pos_eq, hsyms.length_eq]
  exact ⟨h, q, t, hbuild, ht, fun a => hb.freq ▸ tabGet_countBytes_toNat hlen a, hk ▸ hb.queue, fun a ha =>
    hsyms.mem_iff.mpr (List.mem_filter.mpr ⟨mem_allSyms a, decide_eq_true (tabGet_countBytes_ne_zero hlen ha)⟩)⟩

/-- `HcCompressSeq(x)` writes the layout of `x` and pads it (45_compressors.md R195, R196). -/
theorem Coder.hcCompressSeq_eq {x : List Byte} {s : State} {h : Huf} {q : Pq} {t : HTree} (hc : Coder s.params x h q t) :
    hcCompressSeq x s =
      wrPadded s.params.outCap s.bsw (t.layout x) >>= fun w => .ok { s with huf := h, pq := q, bsw := w } := by
  have hwrite : ∀ w, (wrInt s.params.outCap w (BitVec.ofNat 32 x.length) >>= fun w => encAll s.params.outCap h w x) =
      wrBits s.params.outCap w (bitsMsb (BitVec.ofNat 32 x.length) ++ t.codes x) := fun w => by
    rw [wrBits_append, wrInt_eq_wrBits]
    exact congrArg _ (funext fun w => hc.holds.encAll_eq hc.covers)
  rw [HTree.layout, wrPadded_append, bind_assoc, hcCompressSeq, hc.build]
  simp only [wrPadded, ← hwrite, bind_assoc]
  change (hdrBits h >>= _) = _
  rw [hc.holds.hdrBits_eq]
  rfl

/-! ## `HC.COMPRESS` -/

theorem Params.nmax_le {p : Params} (hp : p.legal = true) : p.nmax ≤ 2 ^ 31 - 1 := by
  simp only [Params.legal, Bool.and_eq_true, decide_eq_true_eq] at hp
  obtain ⟨⟨⟨⟨⟨⟨-, hmax⟩, -⟩, -⟩, -⟩, -⟩, -⟩ := hp
  exact hmax

section
variable {s : State}

theorem inp_length_le (hp : s.params.legal = true) (hs : Memory.wf s = true) : s.bsr.inp.length ≤ 2 ^ 31 - 1 :=
  (memory_wf_iff.mp hs).1.trans (Params.nmax_le hp)

theorem exec_hcCompress_nil (h : s.bsr.inp = []) :
    exec .hcCompress s = .next (completed { s with bsr := { s.bsr with rpos := 0 } } 0 false) :=
  congrArg (conclude s) (if_pos (List.length_eq_zero_iff.mpr h))

/-- On a nonempty `IN`, `HC.COMPRESS` writes the layout of its bytes and pads it (R197). -/
theorem Coder.exec_hcCompress {h : Huf} {q : Pq} {t : HTree} (hc : Coder s.params s.bsr.inp h q t) (hx : s.bsr.inp ≠ []) :
    exec .hcCompress s = conclude s (wrPadded s.params.outCap s.bsw (t.layout s.bsr.inp) >>= fun w =>
      .ok { st := { s with bsr := s.bsr.atEnd, huf := h, pq := q, bsw := w } }) := by
  refine congrArg (conclude s) ((if_neg (List.length_eq_zero_iff.not.mpr hx)).trans ?_)
  rw [Coder.hcCompressSeq_eq (s := { s with bsr := s.bsr.rewind }) hc, bind_assoc]
  rfl

end

/-- Settles O50: what the sequencer writes is the layout under the tree built from the counts, then the pad bits. -/
theorem hcCompressWritesLayout : Obligations.HcCompressWritesLayout := by
  refine ⟨encodedAs_of_encode_eq rfl (by decide), fun s => ⟨exec_hcCompress_nil, fun hx hp hs ha => ?_⟩⟩
  obtain ⟨h, q, t, hc⟩ := exists_coder hp hx ((inp_length_le hp hs).trans_lt (by decide))
  have hexec := hc.exec_hcCompress hx
  refine ⟨h, q, t, hc.build, hc.holds, hc.count, hc.queue, fun hroom => ?fits, fun hroom => ?overflows⟩
  case fits =>
    obtain ⟨w, hw, happ, hcnt⟩ := wrPadded_ok ha hroom
    exact ⟨w, hexec.trans (conclude_bind_ok hw), happ, hcnt⟩
  case overflows =>
    exact faultsWith_of_exec (hexec.trans (conclude_bind_raise (wrPadded_overflow ha hs hroom)))

end Sys2Proof.Machine
end

section
/-! PROOFS. The compressor family, layouts read: how the sequencer of R198 ends, by the bits at the cursor
(45_compressors.md R198, R199). -/

namespace Sys2Proof.Machine

/-! ## The bits at the cursor -/

section
variable {r : Bsr}

theorem rdInt_of_rest {v : Word32} {more : Bits} (h : r.rest = bitsMsb v ++ more) :
    rdInt r = .ok (v, { r with rpos := r.rpos + 32 }) := by
  have hlen := congrArg List.length h
  rw [Bsr.rest_length, List.length_append, bitsMsb_length] at hlen
  obtain ⟨u, hu, hbits⟩ := rdInt_ok (r := r) (by omega)
  rw [h, List.take_left' (bitsMsb_length v)] at hbits
  rw [hu, bitsMsb_inj hbits]

theorem rdInt_eof_of_rest (h : r.rest.length < 32) : rdInt r = .error (.raise .unexpectedEof) := by
  rw [Bsr.rest_length] at h
  exact if_pos (by omega)

/-- The cursor after the bits `as` stands before what follows them. -/
theorem Bsr.rest_after {as bs : Bits} (h : r.rest = as ++ bs) :
    ({ r with rpos := r.rpos + as.length } : Bsr).rest = bs := by
  rw [Bsr.rest_drop, h, List.drop_left]

theorem rpos_ne_bitLen_of_rest (h : r.rest ≠ []) : r.rpos ≠ r.bitLen := fun he =>
  h (List.eq_nil_of_length_eq_zero (by rw [Bsr.rest_length]; omega))

end

/-! ## Decoding codewords -/

section
variable {σ : Type} {store : σ → Byte → Except Stop σ} {acc : σ} {r : Bsr} {h : Huf} {t : HTree} {x : List Byte}

/-- Where codewords stand at the cursor, decoding them stores their symbols in order, and then goes on after them. -/
theorem HoldsTree.decodeLoop_codes {more : Bits} (ht : HoldsTree h t) (hx : ∀ a ∈ x, a ∈ t.syms)
    (hrest : r.rest = t.codes x ++ more) (n : Nat) :
    decodeLoop h store (x.length + n) acc r =
      x.foldlM store acc >>= fun acc => decodeLoop h store n acc { r with rpos := r.rpos + (t.codes x).length } := by
  induction x generalizing acc r with
  | nil =>
    rw [List.length_nil, Nat.zero_add]
    rfl
  | cons a x ih =>
    obtain ⟨u, hu⟩ := HTree.exists_code (hx a (List.mem_cons_self ..))
    rw [HTree.codes_cons hu, List.append_assoc] at hrest
    have hdec := ht.dec_eq hu hrest
    have hih := fun acc => ih (acc := acc) (fun b hb => hx b (List.mem_cons_of_mem _ hb)) (Bsr.rest_after hrest)
    rw [List.length_cons, Nat.add_right_comm, decodeLoop, hdec, List.foldlM_cons, bind_assoc, HTree.codes_cons hu,
      List.length_append, ← Nat.add_assoc]
    exact congrArg _ (funext hih)

/-- Where the stream ends inside the next codeword, decoding it meets the end. -/
theorem HoldsTree.dec_eof_in_codeword {a : Byte} {w : Bits} (ht : HoldsTree h t) (ha : t.code a = some (r.rest ++ w))
    (hw : w ≠ []) : dec h r = .error (.raise .unexpectedEof) := by
  refine ht.dec_eof fun b u hb hu => hw ?_
  obtain rfl := HTree.code_prefix_free hb ha (hu.trans (List.prefix_append _ _))
  obtain rfl := Option.some.inj (hb.symm.trans ha)
  have hle := hu.length_le
  rw [List.length_append] at hle
  exact List.eq_nil_of_length_eq_zero (by omega)

end

/-! ## `HcExpandSeq()` -/

section
variable {σ : Type} {store : σ → Byte → Except Stop σ} {acc : σ} {r : Bsr} {g : Huf} {t : HTree}

theorem hcExpandSeq_headerFault {k : FaultKind} (hne : r.rest ≠ []) (hk : HeaderFault r.rest k) :
    hcExpandSeq store acc r g = .error (.raise k) := by
  rw [hcExpandSeq, if_neg (rpos_ne_bitLen_of_rest hne), parseTree_of_headerFault hk]
  rfl

/-- What follows the header in R198, the reader just after the header and the unit with its tree given. -/
def expandAfterHeader (store : σ → Byte → Except Stop σ) (acc : σ) (r : Bsr) (h : Huf) : Except Stop (σ × Bsr × Huf) :=
  rdInt r >>= fun a =>
    if a.1.toInt < 0 then raise .corruptHeader
    else decodeLoop h store a.1.toInt.toNat acc a.2 >>= fun b => .ok (b.1, b.2, h)

theorem HTree.hdr_ne_nil (t : HTree) : t.hdr ≠ [] := by
  cases t with
  | leaf s => exact List.cons_ne_nil _ _
  | node l r => exact List.cons_ne_nil _ _

/-- A stream that begins with the header of a tree with distinct symbols is read with that tree. -/
theorem hcExpandSeq_of_header {more : Bits} (hd : t.syms.Nodup) (hrest : r.rest = t.hdr ++ more) :
    ∃ h, HoldsTree h t ∧ h.freq = g.freq
      ∧ hcExpandSeq store acc r g = expandAfterHeader store acc { r with rpos := r.rpos + t.hdr.length } h := by
  have hne : r.rest ≠ [] := by
    rw [hrest]
    exact List.append_ne_nil_of_left_ne_nil t.hdr_ne_nil more
  obtain ⟨⟨r₁, h⟩, hparse, hread⟩ := parseTree_of_header (g := g) hd hrest
  obtain rfl := hread.cursor
  refine ⟨h, hread.holds, hread.freq, ?_⟩
  rw [hcExpandSeq, if_neg (rpos_ne_bitLen_of_rest hne), hparse]
  rfl

theorem hcExpandSeq_eof_in_count {part : Bits} (hd : t.syms.Nodup) (hrest : r.rest = t.hdr ++ part)
    (hpart : part.length < 32) : hcExpandSeq store acc r g = .error (.raise .unexpectedEof) := by
  obtain ⟨h, -, -, hseq⟩ := hcExpandSeq_of_header (store := store) (acc := acc) (g := g) hd hrest
  rw [hseq, expandAfterHeader, rdInt_eof_of_rest (by rwa [Bsr.rest_after hrest])]
  rfl

theorem hcExpandSeq_negative {v : Word32} {more : Bits} (hd : t.syms.Nodup)
    (hrest : r.rest = t.hdr ++ (bitsMsb v ++ more)) (hv : v.toInt < 0) :
    hcExpandSeq store acc r g = .error (.raise .corruptHeader) := by
  obtain ⟨h, -, -, hseq⟩ := hcExpandSeq_of_header (store := store) (acc := acc) (g := g) hd hrest
  rw [hseq, expandAfterHeader, rdInt_of_rest (Bsr.rest_after hrest)]
  exact if_pos hv

/-- A header, a count of at least `x.length`, and the codewords of `x`: the bytes of `x` are stored, and decoding goes on
after them for what is left of the count. -/
theorem hcExpandSeq_of_codes {v : Word32} {x : List Byte} {more : Bits} {n : Nat} (hd : t.syms.Nodup)
    (hx : ∀ a ∈ x, a ∈ t.syms) (hrest : r.rest = t.hdr ++ (bitsMsb v ++ (t.codes x ++ more)))
    (hv : v.toInt = (x.length + n : Nat)) :
    ∃ h q, HoldsTree h t ∧ h.freq = g.freq
      ∧ q = { r with rpos := r.rpos + (t.hdr ++ (bitsMsb v ++ t.codes x)).length } ∧ q.rest = more
      ∧ hcExpandSeq store acc r g =
        x.foldlM store acc >>= fun acc => decodeLoop h store n acc q >>= fun b => .ok (b.1, b.2, h) := by
  obtain ⟨h, ht, hfreq, hseq⟩ := hcExpandSeq_of_header (store := store) (acc := acc) (g := g) hd hrest
  have hcount := Bsr.rest_after hrest
  have hcodes := Bsr.rest_after hcount
  have hq := Bsr.rest_after hcodes
  rw [bitsMsb_length] at hcodes hq
  refine ⟨h, _, ht, hfreq, ?_, hq, ?_⟩
  · simp only [List.length_append, bitsMsb_length, Nat.add_assoc]
  · have hpos : ¬ v.toInt < 0 := by omega
    rw [hseq, expandAfterHeader, rdInt_of_rest hcount]
    refine (if_neg hpos).trans ?_
    rw [hv, Int.toNat_natCast, ht.decodeLoop_codes hx hcodes, bind_assoc]

theorem toInt_ofNat_of_lt {n : Nat} (h : n < 2 ^ 31) : (BitVec.ofNat 32 n).toInt = n := by
  rw [BitVec.toInt_eq_toNat_of_lt]
  · simp; omega
  · simp; omega

/-- A layout is read as its bytes and its tree, and the reader stands just after the last codeword. -/
theorem hcExpandSeq_layout {x : List Byte} {more : Bits} (hd : t.syms.Nodup) (hx : ∀ a ∈ x, a ∈ t.syms)
    (hlen : x.length < 2 ^ 31) (hrest : r.rest = t.layout x ++ more) :
    ∃ h, HoldsTree h t ∧ h.freq = g.freq
      ∧ hcExpandSeq store acc r g =
        x.foldlM store acc >>= fun acc => .ok (acc, { r with rpos := r.rpos + (t.layout x).length }, h) := by
  rw [HTree.layout, List.append_assoc, List.append_assoc] at hrest
  obtain ⟨h, q, ht, hfreq, rfl, -, hseq⟩ :=
    hcExpandSeq_of_codes (store := store) (acc := acc) (g := g) (n := 0) hd hx hrest (toInt_ofNat_of_lt hlen)
  exact ⟨h, ht, hfreq, hseq⟩

/-- The stream ends inside a codeword that the count still asks for: the symbols before it are stored first. -/
theorem hcExpandSeq_eof_in_codeword {v : Word32} {x : List Byte} {a : Byte} {u w : Bits} {acc' : σ} (hd : t.syms.Nodup)
    (hx : ∀ a ∈ x, a ∈ t.syms) (hv : (x.length : Int) < v.toInt) (ha : t.code a = some (u ++ w)) (hw : w ≠ [])
    (hrest : r.rest = t.hdr ++ (bitsMsb v ++ (t.codes x ++ u))) (hstore : x.foldlM store acc = .ok acc') :
    hcExpandSeq store acc r g = .error (.raise .unexpectedEof) := by
  obtain ⟨n, hn⟩ : ∃ n : Nat, v.toInt = (x.length + (n + 1) : Nat) := ⟨v.toInt.toNat - x.length - 1, by omega⟩
  obtain ⟨h, q, ht, -, -, hq, hseq⟩ := hcExpandSeq_of_codes (store := store) (acc := acc) (g := g) hd hx hrest hn
  rw [hseq, hstore]
  change decodeLoop h store (n + 1) acc' q >>= _ = _
  rw [decodeLoop, ht.dec_eof_in_codeword (hq ▸ ha) hw]
  rfl

end

/-! ## A layout cut short -/

/-- A sequence of two parts cut short is cut in the first part or in the second. -/
theorem cut_append {α : Type} {as bs xs more : List α} (h : as ++ bs = xs ++ more) :
    (∃ ws, ws ≠ [] ∧ as = xs ++ ws) ∨ ∃ ys, xs = as ++ ys ∧ bs = ys ++ more := by
  rcases List.append_eq_append_iff.mp h with hsecond | ⟨ws, rfl, rfl⟩
  · exact .inr hsecond
  · by_cases hws : ws = []
    · subst hws
      exact .inr ⟨[], by simp, rfl⟩
    · exact .inl ⟨ws, hws, rfl⟩

section
variable {t : HTree} {x : List Byte} {bits more : Bits}

/-- Codewords cut short are whole codewords and a part of the next. -/
theorem HTree.codes_cut (hx : ∀ a ∈ x, a ∈ t.syms) (hcut : t.codes x = bits ++ more) (hmore : more ≠ []) :
    ∃ y a z u w, x = y ++ a :: z ∧ bits = t.codes y ++ u ∧ t.code a = some (u ++ w) ∧ w ≠ [] := by
  induction x generalizing bits with
  | nil => exact absurd (List.append_eq_nil_iff.mp hcut.symm).2 hmore
  | cons a x ih =>
    obtain ⟨c, hc⟩ := HTree.exists_code (hx a (List.mem_cons_self ..))
    rw [HTree.codes_cons hc] at hcut
    rcases cut_append hcut with ⟨w, hw, rfl⟩ | ⟨bits, rfl, hrest⟩
    · exact ⟨[], a, x, bits, w, rfl, rfl, hc, hw⟩
    · obtain ⟨y, b, z, u, w, rfl, rfl, hb, hw⟩ := ih (fun b hb => hx b (List.mem_cons_of_mem _ hb)) hrest
      exact ⟨a :: y, b, z, u, w, rfl, by rw [HTree.codes_cons hc, List.append_assoc], hb, hw⟩

/-- A stream that ends inside the layout of `x` meets its end, where the bytes before can be stored. -/
theorem hcExpandSeq_cut {σ : Type} {store : σ → Byte → Except Stop σ} {acc : σ} {r : Bsr} {g : Huf} (hd : t.syms.Nodup)
    (hx : ∀ a ∈ x, a ∈ t.syms) (hlen : x.length < 2 ^ 31) (hcut : t.layout x = r.rest ++ more) (hmore : more ≠ [])
    (hne : r.rest ≠ []) (hstore : ∀ y, y <+: x → ∃ acc', y.foldlM store acc = .ok acc') :
    hcExpandSeq store acc r g = .error (.raise .unexpectedEof) := by
  rcases cut_append hcut with ⟨ws, hws, hhdr⟩ | ⟨part, hpart, hcut⟩
  · exact hcExpandSeq_headerFault hne (headerFault_of_cut hd hhdr hws)
  · rcases cut_append hcut with ⟨ws, hws, hcount⟩ | ⟨part, rfl, hcodes⟩
    · have hshort := congrArg List.length hcount
      rw [bitsMsb_length, List.length_append] at hshort
      have := List.length_pos_iff.mpr hws
      exact hcExpandSeq_eof_in_count hd hpart (by omega)
    · obtain ⟨y, a, z, u, w, rfl, rfl, ha, hw⟩ := HTree.codes_cut hx hcodes hmore
      obtain ⟨acc', hacc'⟩ := hstore y (List.prefix_append _ _)
      refine hcExpandSeq_eof_in_codeword hd (fun b hb => hx b (List.mem_append_left _ hb)) ?_ ha hw hpart hacc'
      rw [toInt_ofNat_of_lt hlen, List.length_append, List.length_cons]
      omega

end

/-! ## `HC.EXPAND` -/

theorem wrBytes_eq_foldlM (cap : Option Nat) (w : Bsw) (vs : List Byte) : wrBytes cap w vs = vs.foldlM (wrByte cap) w := by
  induction vs generalizing w with
  | nil => rfl
  | cons v vs ih =>
    rw [List.foldlM_cons, wrBytes]
    exact congrArg _ (funext ih)

section
variable {s : State}

theorem foldlM_wrByte_ok {x : List Byte} (h : Room s (8 * x.length)) :
    ∃ w, x.foldlM (wrByte s.params.outCap) s.bsw = .ok w ∧ Appends s.bsw w (x.flatMap bitsMsb) := by
  rw [← wrBytes_eq_foldlM]
  exact wrBytes_ok_appends h

/-- The sequencer of R198 as `HC.EXPAND` runs it, from the start of `IN`. -/
def expandToOut (s : State) : Except Stop (Bsw × Bsr × Huf) :=
  hcExpandSeq (wrByte s.params.outCap) s.bsw s.bsr.rewind s.huf

theorem exec_hcExpand_ok {w : Bsw} {r : Bsr} {h : Huf} (hseq : expandToOut s = .ok (w, r, h)) :
    exec .hcExpand s = .next (completed { s with bsw := w, bsr := r, huf := h } 0 false) := conclude_bind_ok hseq

theorem hcExpand_faults {k : FaultKind} (hseq : expandToOut s = .error (.raise k)) : FaultsWith .hcExpand s k :=
  faultsWith_of_exec (conclude_bind_raise hseq)

theorem Bsr.bits_eq_nil_iff {r : Bsr} : r.bits = [] ↔ r.inp = [] := by
  rw [← List.length_eq_zero_iff, Bsr.bits_length, Bsr.bitLen, ← List.length_eq_zero_iff]
  omega

theorem exec_hcExpand_nil (h : s.bsr.inp = []) :
    exec .hcExpand s = .next (completed { s with bsr := { s.bsr with rpos := 0 } } 0 false) := by
  have hend : s.bsr.rewind.rpos = s.bsr.rewind.bitLen := by simp [Bsr.bitLen, h]
  exact exec_hcExpand_ok (if_pos hend)

end

/-- Settles O51: the bits of `IN` are a layout, or are cut or meet a fault in one of its parts, and the sequencer ends
accordingly. -/
theorem hcExpandReadsLayout : Obligations.HcExpandReadsLayout := by
  refine ⟨encodedAs_of_encode_eq rfl (by decide), fun s => ⟨exec_hcExpand_nil, fun t x more hd hx hlen hbits => ?layout,
    fun t v more hd hv hbits => hcExpand_faults (hcExpandSeq_negative hd hbits hv),
    fun t x more hd hx hlen hcut hmore hne hroom => ?cut,
    fun k hne hk => hcExpand_faults (hcExpandSeq_headerFault (Bsr.bits_eq_nil_iff.not.mpr hne) hk),
    fun t part hd hpart hbits => hcExpand_faults (hcExpandSeq_eof_in_count hd hbits hpart),
    fun t v x a u w hd hx hv ha hw hbits hroom => ?codeword⟩⟩
  case layout =>
    obtain ⟨h, ht, hfreq, hseq⟩ := hcExpandSeq_layout (store := wrByte s.params.outCap) (acc := s.bsw)
      (r := s.bsr.rewind) (g := s.huf) hd hx hlen hbits
    rw [← wrBytes_eq_foldlM] at hseq
    refine ⟨fun hroom => ?_, fun hs hroom => ?_⟩
    · obtain ⟨w, hw, happ⟩ := wrBytes_ok_appends hroom
      rw [hw] at hseq
      exact ⟨w, h, by simpa using exec_hcExpand_ok hseq, happ, ht, hfreq⟩
    · rw [wrBytes_overflow hs hroom] at hseq
      exact hcExpand_faults hseq
  case cut =>
    refine hcExpand_faults (hcExpandSeq_cut hd hx hlen hcut hmore (Bsr.bits_eq_nil_iff.not.mpr hne) fun y hy => ?_)
    obtain ⟨w, hw, -⟩ := foldlM_wrByte_ok (hroom.mono (Nat.mul_le_mul_left 8 hy.length_le))
    exact ⟨w, hw⟩
  case codeword =>
    obtain ⟨acc', hacc', -⟩ := foldlM_wrByte_ok hroom
    exact hcExpand_faults (hcExpandSeq_eof_in_codeword hd hx hv ha hw hbits hacc')

end Sys2Proof.Machine
end

section
/-! PROOFS. The compressor family, sequences of commands: `HC.COMPRESS` and `HC.EXPAND` as the primitive commands that R204
lists, and one after the other (45_compressors.md R203, R204). -/

namespace Sys2Proof.Machine

/-! ## Commands that completed -/

theorem conclude_bind_completes {α : Type} {s t : State} {e : Except Stop α} {f : α → Done}
    (h : conclude s (e >>= fun a => .ok (f a)) = .next t) (ht : t.ctl.fault = false) :
    ∃ a, e = .ok a ∧ t = complete (f a) := by
  obtain ⟨d, hd, rfl⟩ := conclude_completes h ht
  obtain ⟨a, ha, hf⟩ := bind_eq_ok_iff.mp hd
  exact ⟨a, ha, congrArg complete (Except.ok.inj hf).symm⟩

/-- `s` while `HC.COMPRESS` or its primitive commands run: the reader, the writer and what construction left given. -/
def coding (s : State) (r : Bsr) (w : Bsw) (h : Huf) (q : Pq) : State :=
  completed { s with bsr := r, bsw := w, huf := h, pq := q } 0 false

section
variable {s t : State}

theorem Coder.hcCompress_completed {h : Huf} {q : Pq} {tr : HTree} (hc : Coder s.params s.bsr.inp h q tr)
    (hx : s.bsr.inp ≠ []) (hexec : exec .hcCompress s = .next t) (ht : t.ctl.fault = false) :
    wrPadded s.params.outCap s.bsw (tr.layout s.bsr.inp) = .ok t.bsw ∧ t = coding s s.bsr.atEnd t.bsw h q := by
  obtain ⟨w, hw, rfl⟩ := conclude_bind_completes ((hc.exec_hcCompress hx).symm.trans hexec) ht
  exact ⟨hw, rfl⟩

theorem hcExpand_completed (hexec : exec .hcExpand s = .next t) (ht : t.ctl.fault = false) :
    ∃ w r h, expandToOut s = .ok (w, r, h) ∧ t = completed { s with bsw := w, bsr := r, huf := h } 0 false := by
  obtain ⟨⟨w, r, h⟩, hseq, rfl⟩ := conclude_bind_completes (e := expandToOut s) hexec ht
  exact ⟨w, r, h, hseq, rfl⟩

end

/-! ## Primitive commands, their effect given -/

section
variable {s t : State} {i : Instr}

theorem execAll_cons_next {is : List Instr} (h : exec i s = .next t) : execAll (i :: is) s = execAll is t := by
  rw [execAll, h]
  rfl

theorem WritesBits.exec_eq {bs : Bits} {w : Bsw} (hi : WritesBits i s bs) (hw : wrBits s.params.outCap s.bsw bs = .ok w) :
    exec i s = .next (completed { s with bsw := w } 0 false) := hi.trans (conclude_bind_ok hw)

theorem write_writesBits (f : Field) (s : State) : WritesBits f.write s f.bits := exec_write f s

theorem exec_bsRbyte_of_rest {v : Byte} {more : Bits} (h : s.bsr.rest = bitsMsb v ++ more) :
    exec .bsRbyte s = .next (readDone s 8 (v.setWidth 64)) := by
  have hread := exec_read_of_rest (f := .byte v) h
  rwa [Field.bits, bitsMsb_length] at hread

theorem byte_of_res (v : Byte) : (v.setWidth 64).setWidth 8 = v := by
  rw [BitVec.setWidth_setWidth_of_le v (by decide), BitVec.setWidth_eq]

/-- Where bytes with codewords stand at the cursor, reading and encoding each of them writes their codewords. What the last
command left in `RES` and `NONE` is overwritten by the next. -/
theorem encodeLoop_eq {tr : HTree} {x : List Byte} {more : Bits} {w : Bsw} (ht : HoldsTree s.huf tr)
    (hx : ∀ a ∈ x, a ∈ tr.syms) (hrest : s.bsr.rest = x.flatMap bitsMsb ++ more)
    (hw : wrBits s.params.outCap s.bsw (tr.codes x) = .ok w) :
    ∃ v n, encodeLoop x.length s =
      .next (completed { s with bsr := { s.bsr with rpos := s.bsr.rpos + 8 * x.length }, bsw := w } v n) := by
  induction x generalizing s with
  | nil =>
    obtain rfl := Except.ok.inj hw
    exact ⟨s.ctl.res, s.ctl.none, rfl⟩
  | cons a x ih =>
    obtain ⟨u, hu⟩ := HTree.exists_code (hx a (List.mem_cons_self ..))
    rw [HTree.codes_cons hu] at hw
    obtain ⟨w₁, hw₁, hw⟩ := wrBits_append_eq_ok.mp hw
    rw [List.flatMap_cons, List.append_assoc] at hrest
    have hread := exec_bsRbyte_of_rest hrest
    have henc := (hufEnc_writesBits (s := readDone s 8 (a.setWidth 64)) ht hu).exec_eq hw₁
    have hafter := Bsr.rest_after hrest
    rw [bitsMsb_length] at hafter
    obtain ⟨v, n, hloop⟩ := ih (s := completed { readDone s 8 (a.setWidth 64) with bsw := w₁ } 0 false) ht
      (fun b hb => hx b (List.mem_cons_of_mem _ hb)) hafter hw
    refine ⟨v, n, ?_⟩
    rw [List.length_cons, encodeLoop, hread]
    change andThen (exec (.hufEnc ((a.setWidth 64).setWidth 8)) _) _ = _
    rw [byte_of_res, henc]
    refine hloop.trans ?_
    rw [Nat.mul_succ, Nat.add_comm (8 * x.length), ← Nat.add_assoc]
    rfl

/-- Decoding and writing `n` symbols is what the decode loop of R198 does. -/
theorem expandLoop_eq {n : Nat} {w : Bsw} {r : Bsr}
    (hloop : decodeLoop s.huf (wrByte s.params.outCap) n s.bsw s.bsr = .ok (w, r))
    (h0 : n = 0 → s.ctl.res = 0 ∧ s.ctl.none = false) :
    expandLoop n s = .next (completed { s with bsr := r, bsw := w } 0 false) := by
  induction n generalizing s with
  | zero =>
    obtain ⟨hres, hnone⟩ := h0 rfl
    obtain ⟨rfl, rfl⟩ := Prod.mk.inj (Except.ok.inj hloop)
    rw [← hres, ← hnone]
    rfl
  | succ n ih =>
    obtain ⟨⟨v, r₁⟩, hdec, hloop⟩ := bind_eq_ok_iff.mp hloop
    obtain ⟨w₁, hstore, hloop⟩ := bind_eq_ok_iff.mp hloop
    have hread : exec .hufDec s = .next (completed { s with bsr := r₁ } (v.setWidth 64) false) := conclude_bind_ok hdec
    have hwrite := (write_writesBits (.byte v) (completed { s with bsr := r₁ } (v.setWidth 64) false)).exec_eq hstore
    rw [expandLoop, hread]
    change andThen (exec (.bsWbyte ((v.setWidth 64).setWidth 8)) _) _ = _
    rw [byte_of_res]
    change andThen (exec (Field.byte v).write _) _ = _
    rw [hwrite]
    exact ih (s := completed { s with bsr := r₁, bsw := w₁ } 0 false) hloop fun _ => ⟨rfl, rfl⟩

end

/-! ## The two sequences of R204 -/

section
variable {s t : State}

/-- `HUF.FCNT` and `HUF.BUILD` count the bytes of `IN` and build the tree. -/
theorem Coder.execAll_build {h : Huf} {q : Pq} {tr : HTree} (hc : Coder s.params s.bsr.inp h q tr)
    (hf : freqEmpty (countBytes s.bsr.inp) = false) (is : List Instr) :
    execAll (.hufFcnt :: .hufBuild :: is) s = execAll is (coding s s.bsr.atEnd s.bsw h q) := by
  have hcount : exec .hufFcnt s = .next (completed
      { s with bsr := s.bsr.atEnd, huf := { s.huf with freq := countBytes s.bsr.inp } } 0 false) := rfl
  rw [execAll_cons_next hcount, execAll_cons_next (exec_hufBuild_ok hf hc.build)]
  rfl

/-- The primitive commands leave what the layout written and padded leaves. -/
theorem Coder.primitives_eq {h : Huf} {q : Pq} {tr : HTree} {w : Bsw} (hc : Coder s.params s.bsr.inp h q tr)
    (hf : freqEmpty (countBytes s.bsr.inp) = false)
    (hw : wrPadded s.params.outCap s.bsw (tr.layout s.bsr.inp) = .ok w) :
    andThen (execAll [.hufFcnt, .hufBuild, .hufWhdr, .bsWint (BitVec.ofNat 32 s.bsr.inp.length), .bsRrst] s) (fun u =>
      andThen (encodeLoop s.bsr.inp.length u) (exec .bsFlush)) = .next (coding s s.bsr.atEnd w h q) := by
  obtain ⟨w₃, hlayout, hflush⟩ := bind_eq_ok_iff.mp hw
  obtain ⟨w₁, hhdr, hrest⟩ := wrBits_append_eq_ok.mp hlayout
  obtain ⟨w₂, hint, hcodes⟩ := wrBits_append_eq_ok.mp hrest
  have hwhdr : exec .hufWhdr (coding s s.bsr.atEnd s.bsw h q) = .next (coding s s.bsr.atEnd w₁ h q) :=
    (hufWhdr_writesBits hc.holds).exec_eq hhdr
  have hwint : exec (.bsWint (BitVec.ofNat 32 s.bsr.inp.length)) (coding s s.bsr.atEnd w₁ h q)
      = .next (coding s s.bsr.atEnd w₂ h q) := (write_writesBits (.int _) _).exec_eq hint
  have hrrst : exec .bsRrst (coding s s.bsr.atEnd w₂ h q) = .next (coding s s.bsr.rewind w₂ h q) := rfl
  obtain ⟨v, n, hloop⟩ := encodeLoop_eq (s := coding s s.bsr.rewind w₂ h q) (more := []) hc.holds hc.covers
    (List.append_nil _).symm hcodes
  have hend : ({ s.bsr with rpos := 0 + 8 * s.bsr.inp.length } : Bsr) = s.bsr.atEnd := by rw [Nat.zero_add]; rfl
  rw [hc.execAll_build hf, execAll_cons_next hwhdr, execAll_cons_next hwint, execAll_cons_next hrrst]
  change andThen (encodeLoop s.bsr.inp.length (coding s s.bsr.rewind w₂ h q)) _ = _
  rw [hloop, ← hend]
  exact exec_bsFlush_ok hflush

/-- The primitive commands leave what the sequencer of R198 leaves. -/
theorem expandPrimitives_eq {w : Bsw} {r : Bsr} {h : Huf} (hx : s.bsr.inp ≠ []) (hseq : expandToOut s = .ok (w, r, h)) :
    andThen (execAll [.bsRrst, .hufRhdr, .bsRint] s) (fun u => expandLoop u.ctl.res.toInt.toNat u) =
      .next (completed { s with bsw := w, bsr := r, huf := h } 0 false) := by
  rcases hcExpandSeq_cases hseq with ⟨hend, -⟩ | ⟨r₁, r₂, n, -, hparse, hint, hpos, hloop⟩
  · exact absurd hend (rpos_ne_bitLen_of_rest (Bsr.bits_eq_nil_iff.not.mpr hx))
  · have hrrst : exec .bsRrst s = .next (completed { s with bsr := s.bsr.rewind } 0 false) := rfl
    have hrhdr : exec .hufRhdr (completed { s with bsr := s.bsr.rewind } 0 false) =
        .next (completed { s with bsr := r₁, huf := h } 0 false) := conclude_bind_ok hparse
    have hrint : exec .bsRint (completed { s with bsr := r₁, huf := h } 0 false) =
        .next (completed { s with bsr := r₂, huf := h } (n.signExtend 64) false) := conclude_bind_ok hint
    rw [execAll_cons_next hrrst, execAll_cons_next hrhdr, execAll_cons_next hrint]
    change expandLoop (n.signExtend 64).toInt.toNat _ = _
    rw [BitVec.toInt_signExtend_of_le (by decide)]
    refine expandLoop_eq (s := completed { s with bsr := r₂, huf := h } (n.signExtend 64) false) hloop fun h0 => ⟨?_, rfl⟩
    have hzero : n = 0 := BitVec.eq_of_toInt_eq (show n.toInt = 0 by omega)
    rw [hzero]
    rfl

end

/-- Settles O52: both run the same writes and reads in the same order. -/
theorem hcCommandsEqualPrimitiveCommands : Obligations.HcCommandsEqualPrimitiveCommands := by
  refine ⟨fun s t hp hs _ hx hexec ht => ?compress, fun s t _ hx hexec ht => ?expand⟩
  case compress =>
    have hlen : s.bsr.inp.length < 2 ^ 32 := (inp_length_le hp hs).trans_lt (by decide)
    obtain ⟨h, q, tr, hc⟩ := exists_coder hp hx hlen
    obtain ⟨hw, hdone⟩ := hc.hcCompress_completed hx hexec ht
    rw [hdone]
    exact hc.primitives_eq (freqEmpty_countBytes hx hlen) hw
  case expand =>
    obtain ⟨w, r, h, hseq, rfl⟩ := hcExpand_completed hexec ht
    exact expandPrimitives_eq hx hseq

/-! ## Compressing, then expanding -/

section
variable {t : State} {w : Bsw} {x : List Byte} {bs : Bits}

/-- What stands in `OUT` of a writer that was empty before. -/
theorem Appends.out_bits (happ : Appends Bsw.empty w bs) (hcnt : w.wcnt = 0) : w.out.flatMap bitsMsb = bs := by
  obtain ⟨hbits, -⟩ := happ
  rw [← Bsw.bits_eq_of_wcnt_zero hcnt, hbits]
  rfl

theorem Appends.out_eq (happ : Appends Bsw.empty w (x.flatMap bitsMsb)) : w.out = x ∧ w.wcnt = 0 := by
  have ⟨hbits, _⟩ := happ
  have hlen := congrArg List.length hbits
  rw [bits_length, List.length_append, flatMap_bits_length] at hlen
  have hempty : Bsw.empty.bits.length = 0 := rfl
  have hlt := wcnt_lt w
  have hcnt : w.wcnt = 0 := BitVec.eq_of_toNat_eq (show w.wcnt.toNat = 0 by omega)
  exact ⟨flatMap_bitsMsb_inj (happ.out_bits hcnt), hcnt⟩

/-- `t` after `BS.WRST` and a load of the bytes that were in `OUT` (R203). -/
def reloaded (t : State) : State := hostLoadIn t.bsw.out (completed { t with bsw := Bsw.empty } 0 false)

/-- `i` on the bytes that were in `OUT` writes exactly `x`, and nothing is pending after it. -/
def GivesBack (i : Instr) (t : State) (x : List Byte) : Prop :=
  ∃ v, exec i (reloaded t) = .next v ∧ v.ctl.fault = false ∧ v.bsw.out = x ∧ v.bsw.wcnt = 0

theorem GivesBack.round_trip {i : Instr} (h : GivesBack i t x) :
    ∃ u v, exec .bsWrst t = .next u ∧ exec i (hostLoadIn t.bsw.out u) = .next v
      ∧ v.ctl.fault = false ∧ v.bsw.out = x ∧ v.bsw.wcnt = 0 := by
  obtain ⟨v, hv⟩ := h
  exact ⟨_, v, rfl, hv⟩

/-- The empty writer has room for the bytes that fit `OUT`. -/
theorem room_reloaded (hcap : ∀ c, t.params.outCap = some c → x.length ≤ c) : Room (reloaded t) (8 * x.length) := by
  intro c hc
  have hempty : (reloaded t).bsw.bits.length = 0 := rfl
  have := hcap c hc
  omega

end

/-- Padding what is written to the empty writer leaves it and the pad bits in `OUT`. -/
theorem wrPadded_empty {cap : Option Nat} {w w' : Bsw} {bs : Bits} (hw : w = Bsw.empty) (h : wrPadded cap w bs = .ok w') :
    w'.out.flatMap bitsMsb = bs ++ padBits bs.length := by
  subst hw
  obtain ⟨happ, hcnt, -⟩ := wrPadded_spec Bsw.empty_aligned h
  have hempty : Bsw.empty.bits.length = 0 := rfl
  rw [happ.out_bits hcnt, Bsw.padded, hempty, Nat.zero_add]

/-- Settles O53: what `HC.COMPRESS` wrote is a layout of x and pad bits, which `HC.EXPAND` reads back. -/
theorem hcRoundTrip : Obligations.HcRoundTrip := by
  intro s t x hp hs hw hxn hcap hexec ht
  refine GivesBack.round_trip ?_
  by_cases hx : x = []
  · subst hx
    obtain rfl := Host.Outcome.next.inj ((exec_hcCompress_nil rfl).symm.trans hexec)
    have hout : s.bsw.out = [] := by rw [hw]; rfl
    exact ⟨_, exec_hcExpand_nil hout, hs, rfl, rfl⟩
  · have hlen : x.length ≤ 2 ^ 31 - 1 := hxn.trans (Params.nmax_le hp)
    obtain ⟨h, q, tr, hc⟩ := exists_coder hp hx (hlen.trans_lt (by decide))
    obtain ⟨hpadded, hdone⟩ := Coder.hcCompress_completed (s := hostLoadIn x s) hc hx hexec ht
    have hparams : t.params = s.params := by rw [hdone]; rfl
    obtain ⟨-, hexpand⟩ := hcExpandReadsLayout
    obtain ⟨-, hlayout, -⟩ := hexpand (reloaded t)
    obtain ⟨hfits, -⟩ := hlayout tr x _ hc.holds.distinct hc.covers (by omega) (wrPadded_empty hw hpadded)
    obtain ⟨w', h', hexec', happ', -⟩ := hfits (room_reloaded (hparams ▸ hcap))
    obtain ⟨hout, hcnt'⟩ := happ'.out_eq
    exact ⟨_, hexec', ht, hout, hcnt'⟩

end Sys2Proof.Machine
end

section
/-! PROOFS. The compressor family, `BW.COMPRESS`: the index and the layout of the rank stream are written as one bit sequence
(45_compressors.md R200, R201). -/

namespace Sys2Proof.Machine

/-- The rank stream of a block (R200): its last column, each byte ranked. -/
def rankStream (x : List Byte) : List Byte := mtfFwd (lastColumn x (rotTable x))

@[simp] theorem rankStream_length (x : List Byte) : (rankStream x).length = x.length := by
  rw [rankStream, mtfFwd, mtfRun_length, lastColumn_length, rotTable_length]

theorem rankStream_ne_nil {x : List Byte} (hx : x ≠ []) : rankStream x ≠ [] := fun h =>
  hx (List.eq_nil_of_length_eq_zero (by rw [← rankStream_length, h, List.length_nil]))

/-- The index of a block as it is written (R200, R153). -/
def indexWord (x : List Byte) : Word32 := BitVec.ofNat 32 (rotIndex (rotTable x))

section
variable {s t : State}

/-- `s` with the scratch of `BW.COMPRESS` filled in, nothing written yet (R201). -/
def bwStaged (s : State) : State :=
  { s with
    bsr := s.bsr.atEnd
    bwt := { s.bwt with rot := rotTable s.bsr.inp }
    mtf := { mtfl := (mtfRun mtfEnc mtfInit (lastColumn s.bsr.inp (rotTable s.bsr.inp))).2 }
    seq := { scr0 := lastColumn s.bsr.inp (rotTable s.bsr.inp), scr1 := rankStream s.bsr.inp } }

/-- `s` after `BW.COMPRESS` has built `h` and `q` and has written to `w`: the scratch free. -/
def bwCompressDone (s : State) (h : Huf) (q : Pq) (w : Bsw) : State :=
  dropScr (dropMtfl (dropRot { bwStaged s with huf := h, pq := q, bsw := w }))

theorem exec_bwCompress_nil (h : s.bsr.inp = []) :
    exec .bwCompress s = .next (completed { s with bsr := { s.bsr with rpos := 0 } } 0 false) :=
  congrArg (conclude s) (if_pos (List.length_eq_zero_iff.mpr h))

/-- On a nonempty `IN`, `BW.COMPRESS` writes the index and the layout of the rank stream and pads them (R201). -/
theorem Coder.exec_bwCompress {h : Huf} {q : Pq} {tr : HTree} (hc : Coder s.params (rankStream s.bsr.inp) h q tr)
    (hx : s.bsr.inp ≠ []) :
    exec .bwCompress s = conclude s
      (wrPadded s.params.outCap s.bsw (bitsMsb (indexWord s.bsr.inp) ++ tr.layout (rankStream s.bsr.inp)) >>= fun w =>
        .ok { st := bwCompressDone s h q w }) := by
  refine congrArg (conclude s) ((if_neg (List.length_eq_zero_iff.not.mpr hx)).trans ?_)
  rw [wrPadded_append, ← wrInt_eq_wrBits, bind_assoc]
  refine congrArg (wrInt s.params.outCap s.bsw (indexWord s.bsr.inp) >>= ·) (funext fun w => ?_)
  refine (congrArg (· >>= _) (Coder.hcCompressSeq_eq (s := { bwStaged s with bsw := w }) hc)).trans ?_
  rw [bind_assoc]
  rfl

end

/-- Settles O54: the index and the layout are written as one bit sequence and padded. -/
theorem bwCompressWritesLayout : Obligations.BwCompressWritesLayout := by
  refine ⟨encodedAs_of_encode_eq rfl (by decide), fun s => ⟨exec_bwCompress_nil, fun hx hp hs ha => ?_⟩⟩
  have hlen : (rankStream s.bsr.inp).length < 2 ^ 32 := by
    rw [rankStream_length]
    exact (inp_length_le hp hs).trans_lt (by decide)
  obtain ⟨h, q, t, hc⟩ := exists_coder hp (rankStream_ne_nil hx) hlen
  have hexec := hc.exec_bwCompress hx
  refine ⟨h, q, t, hc.build, hc.holds, hc.count, hc.queue, fun hroom => ?fits, fun hroom => ?overflows⟩
  case fits =>
    obtain ⟨w, hw, happ, hcnt⟩ := wrPadded_ok ha hroom
    exact ⟨w, _, _, _, _, hexec.trans (conclude_bind_ok hw), happ, hcnt⟩
  case overflows => exact faultsWith_of_exec (hexec.trans (conclude_bind_raise (wrPadded_overflow ha hs hroom)))

end Sys2Proof.Machine
end

section
/-! PROOFS. The compressor family, `BW.EXPAND`: the index read, the rank stream decoded, the transforms undone; and the round
trip of the pipeline (45_compressors.md R202, R203). -/

namespace Sys2Proof.Machine

/-! ## Collecting -/

section
variable {nmax : Nat}

/-- Bytes are collected in order up to NMAX; one more is the `Overflow` of R202. -/
theorem foldlM_collect (acc r : List Byte) (hacc : acc.length ≤ nmax) :
    r.foldlM (collect nmax) acc = if acc.length + r.length ≤ nmax then .ok (acc ++ r) else raise .overflow := by
  induction r generalizing acc with
  | nil => simp [hacc, pure, Except.pure]
  | cons v r ih =>
    rw [List.foldlM_cons]
    by_cases hfull : acc.length ≥ nmax
    · have hcollect : collect nmax acc v = raise .overflow := if_pos hfull
      rw [hcollect, if_neg (by simp; omega)]
      rfl
    · have hcollect : collect nmax acc v = .ok (acc ++ [v]) := if_neg hfull
      rw [hcollect]
      refine (ih (acc ++ [v]) (by simp; omega)).trans ?_
      simp [Nat.add_assoc, Nat.add_comm 1]

theorem foldlM_collect_ok {r : List Byte} (h : r.length ≤ nmax) : r.foldlM (collect nmax) [] = .ok r := by
  rw [foldlM_collect [] r (Nat.zero_le _), if_pos (by simpa using h)]
  rfl

theorem foldlM_collect_overflow {r : List Byte} (h : nmax < r.length) :
    r.foldlM (collect nmax) [] = .error (.raise .overflow) := by
  rw [foldlM_collect [] r (Nat.zero_le _), if_neg (by simpa using h)]
  rfl

end

/-! ## `BW.EXPAND` -/

section
variable {s : State} {c : Word32} {rest : Bits}

/-- The sequencer of R198 as `BW.EXPAND` runs it, after the index. -/
def expandToScratch (s : State) : Except Stop (List Byte × Bsr × Huf) :=
  hcExpandSeq (collect s.params.nmax) [] { s.bsr with rpos := 32 } s.huf

/-- `s` when the rank stream `y` is decoded and its ranks are undone: the reader and the HUF unit given (R202). -/
def bwDecoded (s : State) (y : List Byte) (r : Bsr) (h : Huf) : State :=
  { s with
    bsr := r, huf := h
    mtf := { mtfl := (mtfRun mtfDec mtfInit y).2 }
    seq := { scr0 := y, scr1 := mtfInv y } }

/-- `s` after `BW.EXPAND` has written to `w`: the scratch free. -/
def bwExpandDone (s : State) (y : List Byte) (r : Bsr) (h : Huf) (w : Bsw) : State :=
  let d := bwDecoded s y r h
  dropScr (dropMtfl (dropNext { d with bsw := w, bwt := { d.bwt with next := nextTable (mtfInv y) } }))

/-- What `BW.EXPAND` does once the index `c` is read and the rank stream is decoded (R202). -/
def bwExpandTail (s : State) (c : Word32) (a : List Byte × Bsr × Huf) : Except Stop Done :=
  if a.1.length = 0 then .ok { st := dropScr (dropMtfl (bwDecoded s a.1 a.2.1 a.2.2)) }
  else if c.toNat ≥ (mtfInv a.1).length then raise .corruptHeader
  else wrBytes s.params.outCap s.bsw (bwtInvCore c.toNat (mtfInv a.1)) >>= fun w =>
    .ok { st := bwExpandDone s a.1 a.2.1 a.2.2 w }

theorem exec_bwExpand_nil (h : s.bsr.inp = []) :
    exec .bwExpand s = .next (completed { s with bsr := { s.bsr with rpos := 0 } } 0 false) :=
  congrArg (conclude s) (if_pos (List.length_eq_zero_iff.mpr h))

theorem exec_bwExpand_short (h1 : 1 ≤ s.bsr.inp.length) (h4 : s.bsr.inp.length < 4) :
    exec .bwExpand s = .next (enterFault .unexpectedEof s) := by
  have hlen : s.bsr.inp.length ≠ 0 := by omega
  have heof : rdInt s.bsr.rewind = .error (.raise .unexpectedEof) := if_pos (by simp [Bsr.bitLen]; omega)
  exact (congrArg (conclude s) (if_neg hlen)).trans (conclude_bind_raise heof)

/-- With an index in front, `BW.EXPAND` reads it, decodes what follows and undoes the transforms. -/
theorem exec_bwExpand (h : s.bsr.bits = bitsMsb c ++ rest) :
    exec .bwExpand s = conclude s (expandToScratch s >>= bwExpandTail s c) := by
  have hlen : s.bsr.inp.length ≠ 0 := by
    have := congrArg List.length h
    rw [Bsr.bits_length, Bsr.bitLen, List.length_append, bitsMsb_length] at this
    omega
  have hint : rdInt s.bsr.rewind = .ok (c, { s.bsr with rpos := 32 }) := rdInt_of_rest (r := s.bsr.rewind) h
  exact (congrArg (conclude s) (if_neg hlen)).trans (conclude_bind_ok hint)

theorem bwExpand_faults {k : FaultKind} (h : s.bsr.bits = bitsMsb c ++ rest) (hseq : expandToScratch s = .error (.raise k)) :
    FaultsWith .bwExpand s k := faultsWith_of_exec ((exec_bwExpand h).trans (conclude_bind_raise hseq))

theorem exec_bwExpand_of_scratch {a : List Byte × Bsr × Huf} (h : s.bsr.bits = bitsMsb c ++ rest)
    (hseq : expandToScratch s = .ok a) : exec .bwExpand s = conclude s (bwExpandTail s c a) :=
  (exec_bwExpand h).trans (conclude_bind_ok hseq)

/-- The bits that the sequencer reads are those after the index. -/
theorem rest_after_index (h : s.bsr.bits = bitsMsb c ++ rest) : ({ s.bsr with rpos := 32 } : Bsr).rest = rest := by
  have := Bsr.rest_after (r := s.bsr.rewind) h
  rwa [bitsMsb_length] at this

theorem mtfInv_length (y : List Byte) : (mtfInv y).length = y.length := mtfRun_length mtfDec mtfInit y

variable {y : List Byte} {r : Bsr} {h : Huf}

theorem bwExpandTail_nil : bwExpandTail s c ([], r, h) = .ok { st := dropScr (dropMtfl (bwDecoded s [] r h)) } := rfl

theorem bwExpandTail_corrupt (hy : y ≠ []) (hc : y.length ≤ c.toNat) :
    bwExpandTail s c (y, r, h) = .error (.raise .corruptHeader) :=
  (if_neg (List.length_eq_zero_iff.not.mpr hy)).trans (if_pos ((mtfInv_length y).trans_le hc))

theorem bwExpandTail_write (hy : y ≠ []) (hc : c.toNat < y.length) :
    bwExpandTail s c (y, r, h) =
      wrBytes s.params.outCap s.bsw (bwtInvCore c.toNat (mtfInv y)) >>= fun w => .ok { st := bwExpandDone s y r h w } :=
  (if_neg (List.length_eq_zero_iff.not.mpr hy)).trans (if_neg (Nat.not_le.mpr (hc.trans_eq (mtfInv_length y).symm)))

theorem inverse_length (c : Nat) (y : List Byte) : (bwtInvCore c (mtfInv y)).length = y.length := by
  rw [bwtInvCore_length, mtfInv_length]

theorem bwExpandTail_overflow (hy : y ≠ []) (hc : c.toNat < y.length) (hs : Memory.wf s = true)
    (hroom : ¬ Room s (8 * y.length)) : bwExpandTail s c (y, r, h) = .error (.raise .overflow) := by
  rw [← inverse_length c.toNat] at hroom
  rw [bwExpandTail_write hy hc, wrBytes_overflow hs hroom]
  rfl

/-- The rank stream undone is written where it has room; without ranks nothing is written and the index is not looked at. -/
theorem bwExpandTail_ok (hc : y ≠ [] → c.toNat < y.length) (hroom : Room s (8 * y.length)) :
    ∃ w m nx sc n,
      bwExpandTail s c (y, r, h) = .ok { st := { s with
        bsr := r, bsw := w, huf := h, mtf := m, bwt := { s.bwt with next := nx }, seq := sc, stamp := n } }
      ∧ Appends s.bsw w ((bwtInvCore c.toNat (mtfInv y)).flatMap bitsMsb) := by
  by_cases hy : y = []
  · subst hy
    exact ⟨s.bsw, _, s.bwt.next, _, _, bwExpandTail_nil, .refl _⟩
  · rw [← inverse_length c.toNat] at hroom
    obtain ⟨w, hw, happ⟩ := wrBytes_ok_appends hroom
    rw [bwExpandTail_write hy (hc hy), hw]
    exact ⟨w, _, _, _, _, rfl, happ⟩

/-- Four bytes are an index and nothing after it: no symbol is decoded. -/
theorem exec_bwExpand_index_only (h4 : s.bsr.inp.length = 4) :
    exec .bwExpand s =
      .next (completed (dropScr (dropMtfl (bwDecoded s [] { s.bsr with rpos := 32 } s.huf))) 0 false) := by
  obtain ⟨c, hin⟩ := exists_eq_be32 h4
  have hbits : s.bsr.bits = bitsMsb c ++ [] := by rw [Bsr.bits, hin, be32_bits, List.append_nil]
  have hend : (32 : Nat) = ({ s.bsr with rpos := 32 } : Bsr).bitLen := by rw [Bsr.bitLen, h4]
  rw [exec_bwExpand_of_scratch hbits (if_pos hend), bwExpandTail_nil]
  rfl

end

/-- Settles O55: the index is read first and compared last; between them the sequencer ends by the bits after the index. -/
theorem bwExpandReadsLayout : Obligations.BwExpandReadsLayout := by
  refine ⟨encodedAs_of_encode_eq rfl (by decide), fun s => ⟨exec_bwExpand_nil,
    fun h1 h4 => faultsWith_of_exec (exec_bwExpand_short h1 h4),
    fun h4 => ⟨_, _, _, exec_bwExpand_index_only h4⟩,
    fun c tr y more hd hy hlen hbits => ?layout,
    fun c rest k hbits hne hk => ?header,
    fun c tr part hd hpart hbits =>
      bwExpand_faults hbits (hcExpandSeq_eof_in_count hd (rest_after_index hbits) hpart),
    fun c tr v more hd hv hbits => bwExpand_faults hbits (hcExpandSeq_negative hd (rest_after_index hbits) hv),
    fun c tr v y a u w hd hy hv ha hw hbits hmax =>
      bwExpand_faults hbits (hcExpandSeq_eof_in_codeword hd hy hv ha hw (rest_after_index hbits)
        (foldlM_collect_ok hmax))⟩⟩
  case header =>
    have hrest := rest_after_index hbits
    subst hrest
    exact bwExpand_faults hbits (hcExpandSeq_headerFault hne hk)
  case layout =>
    obtain ⟨h, ht, hfreq, hseq⟩ := hcExpandSeq_layout (store := collect s.params.nmax) (acc := []) (g := s.huf) hd hy hlen
      (rest_after_index hbits)
    have hexec (hmax : y.length ≤ s.params.nmax) := exec_bwExpand_of_scratch hbits
      (hseq.trans (congrArg (· >>= _) (foldlM_collect_ok hmax)))
    refine ⟨fun hmax => ?tooMany, fun hmax hne hc => ?corrupt, fun hmax hc hroom => ?fits,
      fun hmax hne hc hs hroom => ?overflows⟩
    case tooMany =>
      rw [foldlM_collect_overflow hmax] at hseq
      exact bwExpand_faults hbits hseq
    case corrupt =>
      exact faultsWith_of_exec ((hexec hmax).trans (congrArg (conclude s) (bwExpandTail_corrupt hne hc)))
    case fits =>
      obtain ⟨w, m, nx, sc, n, htail, happ⟩ := bwExpandTail_ok hc hroom
      exact ⟨w, h, m, nx, sc, n, (hexec hmax).trans (congrArg (conclude s) htail), happ, ht, hfreq⟩
    case overflows =>
      exact faultsWith_of_exec ((hexec hmax).trans (congrArg (conclude s) (bwExpandTail_overflow hne hc hs hroom)))

/-! ## Compressing, then expanding -/

theorem Coder.bwCompress_completed {s t : State} {h : Huf} {q : Pq} {tr : HTree}
    (hc : Coder s.params (rankStream s.bsr.inp) h q tr) (hx : s.bsr.inp ≠ []) (hexec : exec .bwCompress s = .next t)
    (ht : t.ctl.fault = false) :
    wrPadded s.params.outCap s.bsw (bitsMsb (indexWord s.bsr.inp) ++ tr.layout (rankStream s.bsr.inp)) = .ok t.bsw
      ∧ t.params = s.params := by
  obtain ⟨w, hw, rfl⟩ := conclude_bind_completes ((hc.exec_bwCompress hx).symm.trans hexec) ht
  exact ⟨hw, rfl⟩

theorem indexWord_toNat {x : List Byte} (hx : x ≠ []) (hlen : x.length < 2 ^ 32) :
    (indexWord x).toNat = rotIndex (rotTable x) := Nat.mod_eq_of_lt ((rotIndex_lt hx).trans hlen)

/-- The inverse transforms of the rank stream, walked from the index of the block, give the block (R203). -/
theorem bwtInvCore_rankStream {x : List Byte} (hx : x ≠ []) (hlen : x.length < 2 ^ 32) :
    bwtInvCore (indexWord x).toNat (mtfInv (rankStream x)) = x := by
  rw [indexWord_toNat hx hlen, rankStream, mtfInv_mtfFwd, bwtInvCore_lastColumn hx]

/-- Settles O56: what `BW.COMPRESS` wrote is the index, a layout of the rank stream and pad bits, which `BW.EXPAND` reads
back and undoes. -/
theorem bwRoundTrip : Obligations.BwRoundTrip := by
  intro s t x hp hs hw hxn hcap hexec ht
  refine GivesBack.round_trip ?_
  by_cases hx : x = []
  · subst hx
    obtain rfl := Host.Outcome.next.inj ((exec_bwCompress_nil rfl).symm.trans hexec)
    have hout : s.bsw.out = [] := by rw [hw]; rfl
    exact ⟨_, exec_bwExpand_nil hout, hs, rfl, rfl⟩
  · have hlen : x.length ≤ 2 ^ 31 - 1 := hxn.trans (Params.nmax_le hp)
    have hranks := rankStream_length x
    obtain ⟨h, q, tr, hc⟩ := exists_coder hp (rankStream_ne_nil hx) (by omega)
    obtain ⟨hpadded, hparams⟩ := Coder.bwCompress_completed (s := hostLoadIn x s) hc hx hexec ht
    have hbits := wrPadded_empty hw hpadded
    rw [List.append_assoc] at hbits
    obtain ⟨-, hexpand⟩ := bwExpandReadsLayout
    obtain ⟨-, -, -, hlayout, -⟩ := hexpand (reloaded t)
    obtain ⟨-, -, hfits, -⟩ := hlayout (indexWord x) tr (rankStream x) _ hc.holds.distinct hc.covers (by omega) hbits
    have hroom : Room (reloaded t) (8 * (rankStream x).length) := hranks ▸ room_reloaded (hparams ▸ hcap)
    have hnmax : (rankStream x).length ≤ (reloaded t).params.nmax :=
      hranks.trans_le (hxn.trans_eq (congrArg Params.nmax hparams).symm)
    have hindex : (indexWord x).toNat < (rankStream x).length := by
      rw [indexWord_toNat hx (by omega), hranks]
      exact rotIndex_lt hx
    obtain ⟨w, h', m, nx, sc, n, hexec', happ', -⟩ := hfits hnmax (fun _ => hindex) hroom
    rw [bwtInvCore_rankStream hx (by omega)] at happ'
    obtain ⟨hout, hcnt'⟩ := happ'.out_eq
    exact ⟨_, hexec', ht, hout, hcnt'⟩

end Sys2Proof.Machine
end

section
/-! PROOFS. The exceptions family, the fault state: what every host operation does while FAULT = 1, and the one that leaves it
(60_exceptions.md R222, R223). -/

namespace Sys2Proof.Machine

/-! ## `STATUS` as a number -/

/-- The four fields of `STATUS` do not overlap (10_state.md R26). They have 64 values together. -/
theorem statusFields_toNat : ∀ (fault none tree : Bool) (err : BitVec 3),
    (resBit fault ||| resZext err <<< 1 ||| resBit none <<< 4 ||| resBit tree <<< 5).toNat =
      fault.toNat + 2 * err.toNat + 16 * none.toNat + 32 * tree.toNat := by decide

theorem statusWord_toNat (s : State) :
    (statusWord s).toNat =
      s.ctl.fault.toNat + 2 * s.ctl.err.toNat + 16 * s.ctl.none.toNat + 32 * s.huf.tree.toNat :=
  statusFields_toNat ..

/-! ## Host operations while FAULT = 1 -/

theorem step_of_port {s : State} {op : HostOp} {rest : List HostOp} (hp : s.port = op :: rest) :
    step s = hostOp op { s with port := rest } := by
  rw [step, hostStep, hp]

section
variable {s : State}

theorem hostIssue_faulted (hs : s.ctl.fault = true) (w : CmdWord) : hostIssue w s = .next s := if_pos hs

theorem hostOp_loadIn_faulted (hs : s.ctl.fault = true) {x : List Byte} (hx : x.length ≤ s.params.nmax) :
    hostOp (.loadIn x) s = .next { s with reply := .nothing } := (if_neg (Nat.not_lt_of_le hx)).trans (if_pos hs)

theorem afterRead_faulted (hs : s.ctl.fault = true) : afterRead s = { s with stamp := s.stamp + 1 } := if_pos hs

theorem hostReadReg_status (s : State) : hostReadReg 0 s = statusWord s := if_neg fun h => h.2 rfl

end

/-- Settles O7: each host operation of a faulted block, by its refusal or by the read it makes. -/
theorem faultedBlockRefusesCommands : Obligations.FaultedBlockRefusesCommands := by
  intro s rest hs
  have hread : afterRead { s with port := rest } = { s with port := rest, stamp := s.stamp + 1 } := afterRead_faulted hs
  refine ⟨?status, fun w hp => ?issue, fun x hx hp => ?load, fun hp => ?readStatus, fun r hp => ?readReg, fun hp => ?readOut⟩
  case status =>
    rw [statusWord_toNat, hs, Bool.toNat_true]
    have herr := s.ctl.err.isLt
    omega
  case issue =>
    rw [step_of_port hp]
    exact congrArg withIssued (hostIssue_faulted (s := { s with port := rest }) hs w)
  case load =>
    rw [step_of_port hp]
    exact hostOp_loadIn_faulted (s := { s with port := rest }) hs hx
  case readStatus =>
    rw [step_of_port hp, hostOp, hread, hostReadReg_status]
    rfl
  case readReg =>
    rw [step_of_port hp, hostOp, hread]
    exact ⟨_, rfl⟩
  case readOut =>
    rw [step_of_port hp, hostOp, hread]
    exact ⟨_, rfl⟩

/-- A step of a faulted block either serves a `HostReset` or keeps the control state. -/
theorem step_faulted_cases {s t : State} (hs : s.ctl.fault = true) (h : step s = .next t) :
    ((∃ rest, s.port = .reset :: rest) ∧ t.ctl.fault = false ∧ t.ctl.err = 0)
      ∨ ((¬ ∃ rest, s.port = .reset :: rest) ∧ t.ctl = s.ctl) := by
  rcases step_cases h with ⟨hp, rfl⟩ | ⟨rest, hp, rfl⟩ | ⟨x, rest, hp, -, ⟨-, rfl⟩ | ⟨hf, -⟩⟩ |
    ⟨w, rest, u, hp, hu, rfl⟩ | ⟨rest, hp, rfl⟩ | ⟨r, rest, hp, rfl⟩
  · exact .inr ⟨by simp [hp], rfl⟩
  · exact .inl ⟨⟨rest, hp⟩, rfl, rfl⟩
  · exact .inr ⟨by simp [hp], rfl⟩
  · exact absurd (hs.symm.trans hf) nofun
  · obtain rfl := Host.Outcome.next.inj ((hostIssue_faulted (s := { s with port := rest }) hs w).symm.trans hu)
    exact .inr ⟨by simp [hp], rfl⟩
  · exact .inr ⟨by simp [hp], by rw [afterRead_eq]⟩
  · exact .inr ⟨by simp [hp], by rw [afterRead_eq]⟩

/-- Settles O8: without a `HostReset` FAULT and ERR stay, with one both are 0. -/
theorem onlyHostResetLeavesFault : Obligations.OnlyHostResetLeavesFault := by
  intro s t hs h
  rcases step_faulted_cases hs h with ⟨hreset, hfault, herr⟩ | ⟨hreset, hctl⟩
  · simp [hreset, hfault, herr]
  · simp [hreset, hctl, hs]

end Sys2Proof.Machine
end

section
/-! PROOFS. The exceptions family, fault kinds by command: what each of the 33 commands can raise (60_exceptions.md R210 to
R217). -/

namespace Sys2Proof.Machine

theorem Raises.bind_of {α β : Type} {E : FaultKind → Prop} {P : α → Prop} {e : Except Stop α} {f : α → Except Stop β}
    (he : Raises E e) (hP : Ensures e P) (hf : ∀ a, P a → Raises E (f a)) : Raises E (e >>= f) := by
  intro k hk
  cases e with
  | error =>
    cases hk
    exact he k rfl
  | ok a => exact hf a (hP a rfl) k hk

/-! ## Faults that a sequencer cannot meet -/

section
variable {E : FaultKind → Prop}

/-- With a tree, `Dec()` raises the end of the stream only (44_huffman.md R181). -/
theorem dec_raises_of_tree (he : E .unexpectedEof) {h : Huf} (ht : h.tree = true) (r : Bsr) : Raises E (dec h r) := by
  intro k hk
  rw [dec, if_neg (by simp [ht])] at hk
  rcases decWalk_error _ _ _ _ _ hk with hk | hk
  · cases hk
    exact he
  · cases hk

theorem decodeLoop_raises_of_tree {σ : Type} {store : σ → Byte → Except Stop σ} (he : E .unexpectedEof)
    (hstore : ∀ a v, Raises E (store a v)) {h : Huf} (ht : h.tree = true) (n : Nat) (acc : σ) (r : Bsr) :
    Raises E (decodeLoop h store n acc r) := by
  induction n generalizing acc r with
  | zero => exact .ok
  | succ n ih => exact .bind (dec_raises_of_tree he ht _) fun _ => .bind (hstore _ _) fun _ => ih _ _

/-- `HcExpandSeq()` decodes with the tree it has parsed, so it does not raise `InvalidArgument` (45_compressors.md R198). -/
theorem hcExpandSeq_raises_of_parsed {σ : Type} {store : σ → Byte → Except Stop σ} (he : E .unexpectedEof)
    (hc : E .corruptHeader) (hstore : ∀ a v, Raises E (store a v)) (acc : σ) (r : Bsr) (h : Huf) :
    Raises E (hcExpandSeq store acc r h) := by
  have htree : Ensures (parseTree r h) fun a => a.2.tree = true := fun _ ha => (parseTree_cases ha).2.1
  exact .ite .ok <| .bind_of (parseTree_raises he hc _ _) htree fun _ ht => .bind (rdInt_raises he _) fun _ =>
    .ite (.raise hc) (.bind (decodeLoop_raises_of_tree he hstore ht _ _ _) fun _ => .ok)

/-- A nonempty mapping has room in the queue, so construction raises no fault (44_huffman.md R173). -/
theorem buildTree_raises_none {p : Params} {f : Table Count} (hp : p.legal = true) (hf : freqEmpty f = false) :
    Raises E (buildTree p f) := by
  obtain ⟨h, q, hbuild, -⟩ := buildTree_ok hp hf
  rw [hbuild]
  exact .ok

theorem wrPadded_raises (ho : E .overflow) (cap : Option Nat) (w : Bsw) (bs : Bits) : Raises E (wrPadded cap w bs) :=
  .of_eq (fun _ h => wrPadded_error h) ho

end

/-! ## The kinds of each command -/

/-- The kind `k` is in the list of the command `i`. -/
structure Listed (i : Instr) (k : FaultKind) : Prop where
  found : (causes i).contains k = true

/-- The pseudocode `e` of the command `i` raises only kinds listed for `i`, and where it runs to its end the control state
is that of `s`. -/
structure KeepsToCauses (i : Instr) (s : State) (e : Except Stop Done) : Prop where
  raises : Raises (Listed i) e
  ctl : Ensures e fun d => d.st.ctl = s.ctl

namespace KeepsToCauses
variable {i : Instr} {s : State}

theorem ok {d : Done} (h : d.st.ctl = s.ctl) : KeepsToCauses i s (.ok d) := ⟨.ok, .ok h⟩

theorem raise {k : FaultKind} (h : Listed i k) : KeepsToCauses i s (Machine.raise k) :=
  ⟨.raise h, .raise⟩

theorem bind {α : Type} {e : Except Stop α} {f : α → Except Stop Done}
    (he : Raises (Listed i) e) (hf : ∀ a, KeepsToCauses i s (f a)) :
    KeepsToCauses i s (e >>= f) :=
  ⟨.bind he fun a => (hf a).raises, .bind fun a => (hf a).ctl⟩

theorem ite {c : Prop} [Decidable c] {e₁ e₂ : Except Stop Done} (h₁ : KeepsToCauses i s e₁) (h₂ : KeepsToCauses i s e₂) :
    KeepsToCauses i s (if c then e₁ else e₂) :=
  ⟨.ite h₁.raises h₂.raises, .ite h₁.ctl h₂.ctl⟩

/-- A command that ends with FAULT = 1 has entered a fault of a listed kind. -/
theorem cause_of_fault {t : State} {e : Except Stop Done} (he : KeepsToCauses i s e) (hs : s.ctl.fault = false)
    (h : conclude s e = .next t) (ht : t.ctl.fault = true) : ∃ k ∈ causes i, t = enterFault k s := by
  rcases conclude_cases h with ⟨d, hd, rfl⟩ | ⟨k, hk, rfl⟩
  · rw [complete_ctl_fault, he.ctl d hd, hs] at ht
    nomatch ht
  · exact ⟨k, List.contains_iff_mem.mp (he.raises k hk).found, rfl⟩

end KeepsToCauses

section
variable {s : State}

/-- For an input within its bounds `HC.COMPRESS` finds every byte in its tree and every leaf in its queue; only writing can
fault (45_compressors.md R197). -/
theorem hcCompress_keepsToCauses (hp : s.params.legal = true) (hs : Memory.wf s = true) :
    ∃ e, exec .hcCompress s = conclude s e ∧ KeepsToCauses .hcCompress s e := by
  by_cases hx : s.bsr.inp = []
  · exact ⟨.ok { st := { s with bsr := s.bsr.rewind } }, exec_hcCompress_nil hx, .ok rfl⟩
  · obtain ⟨h, q, t, hc⟩ := exists_coder hp hx ((inp_length_le hp hs).trans_lt (by decide))
    exact ⟨_, hc.exec_hcCompress hx, .bind (wrPadded_raises ⟨rfl⟩ _ _ _) fun _ => .ok rfl⟩

/-- `BW.COMPRESS` hands the rank stream, as long as its input, to the same sequencer (45_compressors.md R201). -/
theorem bwCompress_keepsToCauses (hp : s.params.legal = true) (hs : Memory.wf s = true) :
    ∃ e, exec .bwCompress s = conclude s e ∧ KeepsToCauses .bwCompress s e := by
  by_cases hx : s.bsr.inp = []
  · exact ⟨.ok { st := { s with bsr := s.bsr.rewind } }, exec_bwCompress_nil hx, .ok rfl⟩
  · have hlen : (rankStream s.bsr.inp).length < 2 ^ 32 := by
      rw [rankStream_length]
      exact (inp_length_le hp hs).trans_lt (by decide)
    obtain ⟨h, q, t, hc⟩ := exists_coder hp (rankStream_ne_nil hx) hlen
    exact ⟨_, hc.exec_bwCompress hx, .bind (wrPadded_raises ⟨rfl⟩ _ _ _) fun _ => .ok rfl⟩

/-- Every command ends as a computation does that raises only the kinds listed for it. The computation of each case has the
shape of the command's pseudocode. -/
theorem exec_keepsToCauses (hp : s.params.legal = true) (hs : Memory.wf s = true) :
    ∀ i, ∃ e, exec i s = conclude s e ∧ KeepsToCauses i s e
  | .bsRbit => ⟨_, rfl, .bind (rdBit_raises ⟨rfl⟩ _) fun _ => .ok rfl⟩
  | .bsRbyte => ⟨_, rfl, .bind (rdByte_raises ⟨rfl⟩ _) fun _ => .ok rfl⟩
  | .bsRint => ⟨_, rfl, .bind (rdInt_raises ⟨rfl⟩ _) fun _ => .ok rfl⟩
  | .bsRlen | .bsRrst | .bsWlen | .bsWrst => ⟨_, rfl, .ok rfl⟩
  | .bsWbit _ => ⟨_, rfl, .bind (wrBit_raises ⟨rfl⟩ _ _) fun _ => .ok rfl⟩
  | .bsWbyte _ => ⟨_, rfl, .bind (wrBits_raises ⟨rfl⟩ _ _) fun _ => .ok rfl⟩
  | .bsWint _ => ⟨_, rfl, .bind (wrBytes_raises ⟨rfl⟩ _ _) fun _ => .ok rfl⟩
  | .bsFlush => ⟨_, rfl, .bind (flush_raises ⟨rfl⟩ _) fun _ => .ok rfl⟩
  | .pqInit _ _ cmp => ⟨_, rfl, by
    cases ordOperand cmp with
    | none => exact .raise ⟨rfl⟩
    | some o => exact .bind (initCapacity_raises ⟨rfl⟩ ⟨rfl⟩ _ _) fun _ => .ok rfl⟩
  | .pqOffer _ _ => ⟨_, rfl, .ite (.raise ⟨rfl⟩) (.bind (pqOffer_raises ⟨rfl⟩ _ _ _) fun _ => .ok rfl)⟩
  | .pqPoll | .pqPeek => ⟨_, rfl, .ite (.ok rfl) (.ok rfl)⟩
  | .pqSize => ⟨_, rfl, .ok rfl⟩
  | .pqCmp => ⟨_, rfl, by
    cases s.pq.ord with
    | natural => exact .ok rfl
    | key => exact .ok rfl⟩
  | .mtfFwd | .mtfInv => ⟨_, rfl, .bind (wrBytes_raises ⟨rfl⟩ _ _) fun _ => .ok rfl⟩
  | .bwtFwd =>
    ⟨_, rfl, .ite (.ok rfl) (.bind (wrBytes_raises ⟨rfl⟩ _ _) fun _ => .bind (wrBytes_raises ⟨rfl⟩ _ _) fun _ => .ok rfl)⟩
  | .bwtInv =>
    ⟨_, rfl, .ite (.ok rfl) (.bind (rdInt_raises ⟨rfl⟩ _) fun _ => .bind (rdBytes_raises ⟨rfl⟩ _ _) fun _ =>
      .ite (.ok rfl) (.ite (.raise ⟨rfl⟩) (.bind (wrBytes_raises ⟨rfl⟩ _ _) fun _ => .ok rfl)))⟩
  | .hufFclr | .hufFset _ _ | .hufFcnt => ⟨_, rfl, .ok rfl⟩
  | .hufBuild => ⟨_, rfl, by
    split
    next => exact .raise ⟨rfl⟩
    next hf => exact .bind (buildTree_raises_none hp (Bool.eq_false_iff.mpr hf)) fun _ => .ok rfl⟩
  | .hufWhdr =>
    ⟨_, rfl, .ite (.raise ⟨rfl⟩) (.bind (hdrBitsIn_raises _ _ _) fun _ => .bind (wrBits_raises ⟨rfl⟩ _ _) fun _ => .ok rfl)⟩
  | .hufRhdr => ⟨_, rfl, .bind (parseTree_raises ⟨rfl⟩ ⟨rfl⟩ _ _) fun _ => .ok rfl⟩
  | .hufEnc _ => ⟨_, rfl, .bind (enc_raises ⟨rfl⟩ ⟨rfl⟩ _ _ _) fun _ => .ok rfl⟩
  | .hufDec => ⟨_, rfl, .bind (dec_raises ⟨rfl⟩ ⟨rfl⟩ _ _) fun _ => .ok rfl⟩
  | .hcCompress => hcCompress_keepsToCauses hp hs
  | .hcExpand =>
    ⟨_, rfl, .bind (hcExpandSeq_raises_of_parsed ⟨rfl⟩ ⟨rfl⟩ (fun _ _ => wrBits_raises ⟨rfl⟩ _ _) _ _ _) fun _ => .ok rfl⟩
  | .bwCompress => bwCompress_keepsToCauses hp hs
  | .bwExpand =>
    ⟨_, rfl, .ite (.ok rfl) (.bind (rdInt_raises ⟨rfl⟩ _) fun _ =>
      .bind (hcExpandSeq_raises_of_parsed ⟨rfl⟩ ⟨rfl⟩ (fun _ _ => collect_raises ⟨rfl⟩ _ _ _) _ _ _) fun _ =>
        .ite (.ok rfl) (.ite (.raise ⟨rfl⟩) (.bind (wrBytes_raises ⟨rfl⟩ _ _) fun _ => .ok rfl)))⟩

end

/-- Settles O14: a command without a fault before it that ends with one has raised a kind of its list. -/
theorem faultKindsBySource : Obligations.FaultKindsBySource := by
  refine ⟨⟨rfl, rfl, rfl, rfl, rfl, rfl⟩, fun i s t hp hwf hs h ht => ?_⟩
  obtain ⟨e, he, hcauses⟩ := exec_keepsToCauses hp hwf i
  obtain ⟨k, hk, rfl⟩ := hcauses.cause_of_fault hs (he.symm.trans h) ht
  exact ⟨⟨k, hk, rfl, rfl⟩, rfl, rfl, rfl⟩

end Sys2Proof.Machine
end

section
/-! PROOFS. The reset family, host operations on a block without a fault: what a load and the two reads return
(70_reset_and_hazards.md R241, R243, R244). -/

namespace Sys2Proof.Machine

/-! ## Host operations while FAULT = 0 -/

section
variable {s : State}

theorem hostOp_loadIn_unfaulted (hs : s.ctl.fault = false) {x : List Byte} (hx : x.length ≤ s.params.nmax) :
    hostOp (.loadIn x) s = .next { hostLoadIn x s with reply := .nothing } :=
  (if_neg (Nat.not_lt_of_le hx)).trans (if_neg (by simp [hs]))

theorem afterRead_unfaulted (hs : s.ctl.fault = false) : afterRead s = s := if_neg (by simp [hs])

theorem hostOp_readOut_unfaulted (hs : s.ctl.fault = false) :
    hostOp .readOut s = .next { s with reply := .bytes s.bsw.out } := by
  have hout : hostReadOut s = s.bsw.out := if_neg (by simp [hs])
  rw [hostOp, afterRead_unfaulted hs, hout]

theorem hostOp_readReg_unfaulted (hs : s.ctl.fault = false) (r : BitVec 8) :
    hostOp (.readReg r) s = .next { s with reply := .value (regWord s r) } := by
  have hreg : hostReadReg r s = regWord s r := if_neg (by simp [hs])
  rw [hostOp, afterRead_unfaulted hs, hreg]

end

/-- Settles O11: a load writes the reader only, and a read of `OUT` leaves the block as it was, so a second one returns the same
bytes. -/
theorem hostLoadInAndReadOutMoveBytes : Obligations.HostLoadInAndReadOutMoveBytes := by
  refine ⟨fun s x rest hs hx hp => ?load, fun s rest hs hp => ⟨_, ?first, rfl, ?second⟩⟩
  case load => exact (step_of_port hp).trans (hostOp_loadIn_unfaulted (s := { s with port := rest }) hs hx)
  case first => exact (step_of_port hp).trans (hostOp_readOut_unfaulted (s := { s with port := .readOut :: rest }) hs)
  case second =>
    exact (step_of_port rfl).trans
      (hostOp_readOut_unfaulted (s := { s with port := rest, reply := .bytes s.bsw.out }) hs)

/-! ## Register values as numbers (10_state.md R27) -/

theorem resZext_toNat {n : Nat} (v : BitVec n) (h : n ≤ 64) : (resZext v).toNat = v.toNat :=
  BitVec.toNat_setWidth_of_le h

/-- A register of `n` bits shows every count below 2^n. -/
theorem resZext_ofNat_toNat {n k : Nat} (hn : n ≤ 64) (hk : k < 2 ^ n) : (resZext (BitVec.ofNat n k)).toNat = k := by
  rw [resZext_toNat _ hn, BitVec.toNat_ofNat, Nat.mod_eq_of_lt hk]

/-- `WACC` fills the eight bits below `WCNT`. -/
theorem wstateWord_toNat (w : Bsw) : (wstateWord w).toNat = 256 * w.wcnt.toNat + w.wacc.toNat := by
  have hcnt := w.wcnt.isLt
  have hshift : w.wcnt.toNat <<< 8 < 2 ^ 64 := by omega
  rw [wstateWord, BitVec.toNat_or, BitVec.toNat_shiftLeft, resZext_toNat _ (by decide), resZext_toNat _ (by decide),
    Nat.mod_eq_of_lt hshift, ← Nat.shiftLeft_add_eq_or_of_lt w.wacc.isLt, Nat.shiftLeft_eq, Nat.mul_comm]

theorem pqOrdWord_toNat (o : PqOrd) : (resZext o.id).toNat = match o with | .natural => 0 | .key => 1 := by
  cases o with
  | natural => rfl
  | key => rfl

theorem regWord_reserved {s : State} {r : BitVec 8} (hr : 11 ≤ r.toNat) : regWord s r = 0 := by
  obtain ⟨k, hk⟩ := Nat.exists_eq_add_of_le' hr
  simp [regWord, hk]

/-- Settles O12: the reply is `regWord`, whose value at each number is the register's. -/
theorem hostReadRegReturnsRegister : Obligations.HostReadRegReturnsRegister := by
  intro s r rest hs hp hin hrpos hout hheap hcap hnode
  refine ⟨regWord { s with port := rest } r, ?step, ?status, ?res, ?inLen, ?rpos, ?outLen, ?wstate, ?pqSize, ?pqCap, ?pqOrd,
    ?hufNodes, ?hufRoot, regWord_reserved⟩
  case step => exact (step_of_port hp).trans (hostOp_readReg_unfaulted (s := { s with port := rest }) hs r)
  all_goals rintro rfl
  case status => exact statusWord_toNat s
  case res => rfl
  case inLen => exact resLen_toNat hin
  case rpos => exact resZext_ofNat_toNat (by decide) hrpos
  case outLen => exact resLen_toNat hout
  case wstate => exact wstateWord_toNat s.bsw
  case pqSize => exact resLen_toNat hheap
  case pqCap => exact resLen_toNat hcap
  case pqOrd => exact pqOrdWord_toNat s.pq.ord
  case hufNodes => exact resZext_ofNat_toNat (by decide) hnode
  case hufRoot => exact resZext_toNat s.huf.root (by decide)

end Sys2Proof.Machine
end

section
/-! PROOFS. The reset family, every host operation returns: no computation of a command is stuck where the tree's invariants
hold (70_reset_and_hazards.md R247). -/

namespace Sys2Proof.Machine

/-- `e` answers or raises a fault of the block; it is not stuck outside the spec. -/
def NeverStuck {α : Type} (e : Except Stop α) : Prop := ∀ f, e ≠ .error (.stuck f)

namespace NeverStuck

variable {α β : Type}

theorem ok {a : α} : NeverStuck (.ok a) := nofun

theorem raise {k : FaultKind} : NeverStuck (Machine.raise k : Except Stop α) := nofun

theorem of_eq_ok {e : Except Stop α} {a : α} (h : e = .ok a) : NeverStuck e := h ▸ ok

theorem of_errors {e : Except Stop α} {k : FaultKind} (h : ∀ x, e = .error x → x = .raise k) : NeverStuck e :=
  fun _ hf => nomatch h _ hf

theorem bind_of {e : Except Stop α} {f : α → Except Stop β} {P : α → Prop} (he : NeverStuck e) (hP : Ensures e P)
    (hf : ∀ a, P a → NeverStuck (f a)) : NeverStuck (e >>= f) := by
  cases e with
  | error x =>
    rintro g ⟨⟩
    exact he g rfl
  | ok a => exact hf a (hP a rfl)

theorem bind {e : Except Stop α} {f : α → Except Stop β} (he : NeverStuck e) (hf : ∀ a, NeverStuck (f a)) :
    NeverStuck (e >>= f) :=
  bind_of (P := fun _ => True) he (fun _ _ => trivial) fun a _ => hf a

theorem ite {c : Prop} [Decidable c] {e₁ e₂ : Except Stop α} (h₁ : NeverStuck e₁) (h₂ : NeverStuck e₂) :
    NeverStuck (if c then e₁ else e₂) := by
  split
  · exact h₁
  · exact h₂

end NeverStuck

theorem conclude_next_of_neverStuck {s : State} {e : Except Stop Done} (he : NeverStuck e) : ∃ t, conclude s e = .next t :=
  conclude_next he

/-! ## Streams and the queue -/

section
variable {cap : Option Nat}

theorem rdBit_neverStuck (r : Bsr) : NeverStuck (rdBit r) := .of_errors fun _ h => (rdBit_error h).1

theorem rdByte_neverStuck (r : Bsr) : NeverStuck (rdByte r) := .of_errors fun _ h => (rdByte_error h).1

theorem rdInt_neverStuck (r : Bsr) : NeverStuck (rdInt r) := .of_errors fun _ h => (rdInt_error h).1

theorem rdBytes_neverStuck (n : Nat) (r : Bsr) : NeverStuck (rdBytes n r) := by
  induction n generalizing r with
  | zero => exact .ok
  | succ n ih => exact .bind (rdByte_neverStuck r) fun _ => .bind (ih _) fun _ => .ok

theorem wrBit_neverStuck (w : Bsw) (b : Bool) : NeverStuck (wrBit cap w b) := .of_errors fun _ h => (wrBit_error h).1

theorem wrBits_neverStuck (w : Bsw) (bs : Bits) : NeverStuck (wrBits cap w bs) := .of_errors fun _ h => wrBits_error bs h

theorem wrBytes_neverStuck (w : Bsw) (vs : List Byte) : NeverStuck (wrBytes cap w vs) := by
  rw [wrBytes_eq_wrBits]
  exact wrBits_neverStuck _ _

theorem flush_neverStuck (w : Bsw) : NeverStuck (flush cap w) := .of_errors fun _ h => (flush_error h).1

theorem wrPadded_neverStuck (w : Bsw) (bs : Bits) : NeverStuck (wrPadded cap w bs) := .of_errors fun _ h => wrPadded_error h

theorem initCapacity_neverStuck (p : Params) (c : Option Int) : NeverStuck (initCapacity p c) := by
  cases c with
  | none => exact .ok
  | some c => exact .ite .raise (.ite .raise .ok)

theorem pqOffer_neverStuck (m : Nat) (el : Elem) (q : Pq) : NeverStuck (pqOffer m el q) :=
  .of_errors fun _ h => (pqOffer_error h).1

/-! ## The tree -/

theorem buildTree_neverStuck {p : Params} {f : Table Count} (hp : p.legal = true) (hf : freqEmpty f = false) :
    NeverStuck (buildTree p f) := by
  obtain ⟨h, q, hbuild, -⟩ := buildTree_ok hp hf
  exact .of_eq_ok hbuild

theorem parseTree_neverStuck (r : Bsr) (h : Huf) : NeverStuck (parseTree r h) := by
  intro f hf
  rcases parseTree_error hf with hk | hk
  · nomatch hk
  · nomatch hk

/-- The descent over a tree held meets a leaf, or the end of the stream where no codeword stands at the cursor. -/
theorem HoldsTree.dec_neverStuck {h : Huf} {t : HTree} (ht : HoldsTree h t) (r : Bsr) : NeverStuck (dec h r) := by
  by_cases hcode : ∃ a u, t.code a = some u ∧ u <+: r.rest
  · obtain ⟨a, u, hu, more, hrest⟩ := hcode
    exact .of_eq_ok (ht.dec_eq hu hrest.symm)
  · rw [ht.dec_eof fun a u hu hpre => hcode ⟨a, u, hu, hpre⟩]
    exact .raise

section
variable {h : Huf}

theorem Huf.Safe.cases (hs : h.Safe) : h.tree = false ∨ ∃ t, HoldsTree h t := by
  cases htree : h.tree with
  | false => exact .inl rfl
  | true => exact .inr (hs.1 htree)

theorem Huf.Safe.dec_neverStuck (hs : h.Safe) (r : Bsr) : NeverStuck (dec h r) := by
  rcases hs.cases with htree | ⟨t, ht⟩
  · rw [dec, if_pos htree]
    exact .raise
  · exact ht.dec_neverStuck r

/-- A symbol of the tree has a path to the root, and for any other the test of `SYMIDX` raises (44_huffman.md R180). -/
theorem Huf.Safe.enc_neverStuck (hs : h.Safe) (w : Bsw) (a : Byte) : NeverStuck (enc cap h w a) := by
  rcases hs.cases with htree | ⟨t, ht⟩
  · rw [enc, if_pos htree]
    exact .raise
  · by_cases ha : a ∈ t.syms
    · obtain ⟨u, hu⟩ := HTree.exists_code ha
      rw [ht.enc_eq hu]
      exact wrBits_neverStuck w u
    · rw [enc, if_pos (ht.symidx_eq_NIL_iff.mpr ha)]
      exact .ite .raise .raise

/-- The part of `HUF.WHDR` that meets the tree (44_huffman.md R177). -/
theorem Huf.Safe.hdrBits_neverStuck (hs : h.Safe) (htree : h.tree ≠ false) : NeverStuck (hdrBits h) := by
  obtain ⟨t, ht⟩ := hs.cases.resolve_left htree
  exact .of_eq_ok ht.hdrBits_eq

end

end

/-! ## The expanding sequencer -/

section
variable {σ : Type} {store : σ → Byte → Except Stop σ}

theorem HoldsTree.decodeLoop_neverStuck (hstore : ∀ acc v, NeverStuck (store acc v)) {h : Huf} {t : HTree}
    (ht : HoldsTree h t) (n : Nat) (acc : σ) (r : Bsr) : NeverStuck (decodeLoop h store n acc r) := by
  induction n generalizing acc r with
  | zero => exact .ok
  | succ n ih => exact .bind (ht.dec_neverStuck r) fun _ => .bind (hstore _ _) fun _ => ih _ _

/-- `HcExpandSeq()` decodes with the tree it has parsed, whatever tree was held before (45_compressors.md R198). -/
theorem hcExpandSeq_neverStuck (hstore : ∀ acc v, NeverStuck (store acc v)) (acc : σ) (r : Bsr) (h : Huf) :
    NeverStuck (hcExpandSeq store acc r h) :=
  .ite .ok <| .bind_of (parseTree_neverStuck r h) (parseTree_holdsTree r h) fun _ ⟨_, ht⟩ =>
    .bind (rdInt_neverStuck _) fun _ => .ite .raise (.bind (ht.decodeLoop_neverStuck hstore _ _ _) fun _ => .ok)

end

/-! ## Commands -/

section
variable {s : State}

/-- For an input within its bounds `HC.COMPRESS` serialises and walks the tree it has built itself. -/
theorem exec_hcCompress_next (hp : s.params.legal = true) (hs : Memory.wf s = true) : ∃ t, exec .hcCompress s = .next t := by
  by_cases hx : s.bsr.inp = []
  · exact ⟨_, exec_hcCompress_nil hx⟩
  · obtain ⟨h, q, t, hc⟩ := exists_coder hp hx ((inp_length_le hp hs).trans_lt (by decide))
    rw [hc.exec_hcCompress hx]
    exact conclude_next_of_neverStuck (.bind (wrPadded_neverStuck _ _) fun _ => .ok)

theorem exec_bwCompress_next (hp : s.params.legal = true) (hs : Memory.wf s = true) : ∃ t, exec .bwCompress s = .next t := by
  by_cases hx : s.bsr.inp = []
  · exact ⟨_, exec_bwCompress_nil hx⟩
  · have hlen : (rankStream s.bsr.inp).length < 2 ^ 32 := by
      rw [rankStream_length]
      exact (inp_length_le hp hs).trans_lt (by decide)
    obtain ⟨h, q, t, hc⟩ := exists_coder hp (rankStream_ne_nil hx) hlen
    rw [hc.exec_bwCompress hx]
    exact conclude_next_of_neverStuck (.bind (wrPadded_neverStuck _ _) fun _ => .ok)

/-- Every command ends with a next state. The proof of each case has the shape of the command's pseudocode. -/
theorem exec_next (hp : s.params.legal = true) (hs : Memory.wf s = true) (hh : s.huf.Safe) :
    ∀ i, ∃ t, exec i s = .next t
  | .bsRbit => conclude_next_of_neverStuck (.bind (rdBit_neverStuck _) fun _ => .ok)
  | .bsRbyte => conclude_next_of_neverStuck (.bind (rdByte_neverStuck _) fun _ => .ok)
  | .bsRint => conclude_next_of_neverStuck (.bind (rdInt_neverStuck _) fun _ => .ok)
  | .bsRlen | .bsRrst | .bsWlen | .bsWrst => ⟨_, rfl⟩
  | .bsWbit _ => conclude_next_of_neverStuck (.bind (wrBit_neverStuck _ _) fun _ => .ok)
  | .bsWbyte _ => conclude_next_of_neverStuck (.bind (wrBits_neverStuck _ _) fun _ => .ok)
  | .bsWint _ => conclude_next_of_neverStuck (.bind (wrBytes_neverStuck _ _) fun _ => .ok)
  | .bsFlush => conclude_next_of_neverStuck (.bind (flush_neverStuck _) fun _ => .ok)
  | .pqInit _ _ cmp => conclude_next_of_neverStuck <| by
    cases ordOperand cmp with
    | none => exact .raise
    | some o => exact .bind (initCapacity_neverStuck _ _) fun _ => .ok
  | .pqOffer _ _ => conclude_next_of_neverStuck (.ite .raise (.bind (pqOffer_neverStuck _ _ _) fun _ => .ok))
  | .pqPoll | .pqPeek => conclude_next_of_neverStuck (.ite .ok .ok)
  | .pqSize => ⟨_, rfl⟩
  | .pqCmp => conclude_next_of_neverStuck <| by
    cases s.pq.ord with
    | natural => exact .ok
    | key => exact .ok
  | .mtfFwd | .mtfInv => conclude_next_of_neverStuck (.bind (wrBytes_neverStuck _ _) fun _ => .ok)
  | .bwtFwd =>
    conclude_next_of_neverStuck (.ite .ok (.bind (wrBytes_neverStuck _ _) fun _ => .bind (wrBytes_neverStuck _ _) fun _ => .ok))
  | .bwtInv =>
    conclude_next_of_neverStuck (.ite .ok (.bind (rdInt_neverStuck _) fun _ => .bind (rdBytes_neverStuck _ _) fun _ =>
      .ite .ok (.ite .raise (.bind (wrBytes_neverStuck _ _) fun _ => .ok))))
  | .hufFclr | .hufFset _ _ | .hufFcnt => ⟨_, rfl⟩
  | .hufBuild => conclude_next_of_neverStuck <| by
    split
    next => exact .raise
    next hf => exact .bind (buildTree_neverStuck hp (Bool.eq_false_iff.mpr hf)) fun _ => .ok
  | .hufWhdr => conclude_next_of_neverStuck <| by
    split
    next => exact .raise
    next htree => exact .bind (hh.hdrBits_neverStuck htree) fun _ => .bind (wrBits_neverStuck _ _) fun _ => .ok
  | .hufRhdr => conclude_next_of_neverStuck (.bind (parseTree_neverStuck _ _) fun _ => .ok)
  | .hufEnc a => conclude_next_of_neverStuck (.bind (hh.enc_neverStuck _ a) fun _ => .ok)
  | .hufDec => conclude_next_of_neverStuck (.bind (hh.dec_neverStuck _) fun _ => .ok)
  | .hcCompress => exec_hcCompress_next hp hs
  | .hcExpand =>
    conclude_next_of_neverStuck (.bind (hcExpandSeq_neverStuck (fun _ _ => wrBits_neverStuck _ _) _ _ _) fun _ => .ok)
  | .bwCompress => exec_bwCompress_next hp hs
  | .bwExpand =>
    conclude_next_of_neverStuck (.ite .ok (.bind (rdInt_neverStuck _) fun _ =>
      .bind (hcExpandSeq_neverStuck (fun _ _ => .ite .raise .ok) _ _ _) fun _ =>
        .ite .ok (.ite .raise (.bind (wrBytes_neverStuck _ _) fun _ => .ok))))

/-! ## Host operations -/

/-- Issuing a word needs the invariants only where the block runs its command. -/
theorem hostIssue_next (hp : s.params.legal = true) (hstream : StreamInv s) (htree : TreeInv s) (w : CmdWord) :
    ∃ t, hostIssue w s = .next t := by
  cases hs : s.ctl.fault with
  | true => exact ⟨s, hostIssue_faulted hs w⟩
  | false =>
    cases hd : decode w with
    | error e => exact ⟨_, hostIssue_reserved hs hd⟩
    | ok i =>
      obtain ⟨hwf, -⟩ := hstream hs
      rw [hostIssue_command hs hd]
      exact exec_next hp hwf (htree hs) i

theorem hostOp_loadIn_next {x : List Byte} (hx : x.length ≤ s.params.nmax) : ∃ t, hostOp (.loadIn x) s = .next t := by
  cases hs : s.ctl.fault with
  | true => exact ⟨_, hostOp_loadIn_faulted hs hx⟩
  | false => exact ⟨_, hostOp_loadIn_unfaulted hs hx⟩

end

/-- Settles O59: the block idles or serves the first operation; of the five, `HostLoadIn` answers by the host's invariant and
`HostIssue` by the invariants of the streams and the tree. -/
theorem everyHostOperationReturns : Obligations.EveryHostOperationReturns := by
  intro s ⟨hlegal, hload⟩ hstream htree
  match hp : s.port with
  | [] => exact ⟨s, by rw [step, hostStep, hp]⟩
  | op :: rest =>
    rw [step_of_port hp]
    cases op with
    | reset => exact ⟨_, rfl⟩
    | loadIn x => exact hostOp_loadIn_next (hload x (hp ▸ List.mem_cons_self ..))
    | issue w =>
      obtain ⟨t, ht⟩ := hostIssue_next (s := { s with port := rest }) hlegal hstream htree w
      exact ⟨_, congrArg withIssued ht⟩
    | readOut => exact ⟨_, rfl⟩
    | readReg r => exact ⟨_, rfl⟩

end Sys2Proof.Machine
end
